-- ==== Sys2Proof/Word.lean ====
section
/-!
DEFINITION. The word types of the BXE-9400 (00_scope.md R3, 04_instruction_formats.md R80).
-/

namespace Sys2Proof

/-- One byte of memory. -/
abbrev Byte := BitVec 8
/-- A register, a literal word or an instruction word. -/
abbrev Word32 := BitVec 32
/-- A pair, an address or a 64-bit special register. -/
abbrev Word64 := BitVec 64
/-- A quad, a latch or a work item. -/
abbrev Word128 := BitVec 128

end Sys2Proof
end

