-- ==== Sys2Proof/Syntax.lean ====
section
/-!
DEFINITION. The instructions and events of the BXE-9400, one constructor of `Instr` per row of
spec/opcode_table.json. A field whose values the spec restricts to a list is an inductive type; a
field that holds any bits stays a bit vector.
-/

namespace Sys2Proof

/-- A source operand code of R79. `reserved` is code 0x7D, which R79 makes illegal. -/
inductive Operand where
  | reg (n : Fin 112)
  | latch (k : Fin 8)
  | zero
  | rank
  | crank
  | widLo
  | widHi
  | reserved
  | lit32 (v : Word32)
  | lit64 (v : Word64)
  deriving DecidableEq, Repr

/-- The predicate descriptor of R86 without its condition: pN, and the complement partner. -/
structure PredD where
  c : Bool
  n : BitVec 3
  deriving DecidableEq, Repr

/-! ### Modifier values -/

/-- The hint of `bra` (R161). -/
inductive BraHint where | none | likely | unlikely
  deriving DecidableEq, Repr

/-- The operations of `bitc` (R176). -/
inductive BitcOp where
  | popc | clz | ctz | brev | bswap | popc64 | clz64 | ctz64 | brev64 | bswap64
  deriving DecidableEq, Repr

/-- The special registers of R171. -/
inductive SReg where
  | rank | crank | crew | gang | block | wid | wf0 | wf1 | wf2 | wf3 | wf4 | wf5
  | clid | die | dev | owner | cls | scan | cyc | fpm | rngkey | rngctr
  | tcause | tpc | twb | tinfo
  deriving DecidableEq, Repr

/-- The ops of `vote` (R240). -/
inductive VoteOp where | any | all | uni
  deriving DecidableEq, Repr

/-- The key kinds of `match` (R242). -/
inductive MatchKind where | b32 | b64 | f32 | f64
  deriving DecidableEq, Repr

/-- The operations of `red` (R243). -/
inductive RedOp where
  | add | mins | minz | maxs | maxz | and | or | xor | fadd | fmin | fmax
  deriving DecidableEq, Repr

/-- The sign operations of `fsgn` (R202). -/
inductive SignOp where | abs | neg | nabs
  deriving DecidableEq, Repr

/-- TYPE of `fsgn` and `fround` (R202, R204). -/
inductive FType where | f64 | f32 | f16x2 | bf16x2
  deriving DecidableEq, Repr

/-- TYPE of `fclass` (R203). -/
inductive ClassType where | f64 | f32 | f16 | bf16 | e4m3 | e5m2
  deriving DecidableEq, Repr

/-- The functions of `fsfu` (R205). -/
inductive SfuFn where | rcp | sqrt | rsqrt | exp2 | log2 | sinpi | cospi | tanh
  deriving DecidableEq, Repr

/-- MODE of `fround` (R204). -/
inductive RoundSel where | fpm | rn | rz | ru | rd | rna
  deriving DecidableEq, Repr

/-- The conversion codes of `cvt` (R206), destination first. -/
inductive CvtCode where
  | f32_f64 | f64_f32 | f32_f16 | f32_f16h | f32_bf16 | f32_bf16h | f16x2_f32 | bf16x2_f32
  | f32_e4m3 | f32_e5m2 | f32_e8m0 | e8m0_f32
  | s32_f32 | z32_f32 | s32_f64 | z32_f64 | s64_f32 | z64_f32 | s64_f64 | z64_f64
  | f32_s32 | f32_z32 | f64_s32 | f64_z32 | f32_s64 | f32_z64 | f64_s64 | f64_z64
  deriving DecidableEq, Repr

/-- FMT of `pack` (R208). -/
inductive PackFmt where | e4m3 | e5m2 | s8
  deriving DecidableEq, Repr

/-- FMT of `fcbk` (R212). -/
inductive CbkFmt where | bf16 | e4m3 | e5m2
  deriving DecidableEq, Repr

/-- The access types of R215. -/
inductive MemTy where | s8 | z8 | s16 | z16 | b32 | b64 | b128
  deriving DecidableEq, Repr

/-- The load hints of R215. -/
inductive LdHint where | none | ro | st | fresh
  deriving DecidableEq, Repr

/-- The store hints of R215. -/
inductive StHint where | none | st
  deriving DecidableEq, Repr

/-- The atomic operations of R220 that `atom` and `atoms` share; `cas` is for `atoms` only. -/
inductive AtomOp where
  | add | mins | minz | maxs | maxz | and | or | xor | exch | fadd | cas
  deriving DecidableEq, Repr

/-- LEVEL of `prf` (R228). -/
inductive PrfLevel where | l1 | ro | l2
  deriving DecidableEq, Repr

/-- SCOPE of `fence` (R232). -/
inductive FenceScope where | crew | block | gang | die | device | system
  deriving DecidableEq, Repr

/-- SCOPE of `bar` and `arrive` (R246). -/
inductive BarScope where | crew | block | gang | launch
  deriving DecidableEq, Repr

/-- Destination kinds of a copy (R310). -/
inductive CopyDst where | mem | spad | dq | fifo
  deriving DecidableEq, Repr

/-- Source kinds of a copy (R310). -/
inductive CopySrc where | mem | ten | ssp
  deriving DecidableEq, Repr

/-- Element types of a copy (R314). -/
inductive CopyEt where | raw | f32 | bf16 | f16 | s32
  deriving DecidableEq, Repr

/-- Output conversions of `macc` (R362). -/
inductive AccCvt where | acc32 | f32 | bf16 | f16 | e4m3 | e5m2 | s8 | f64
  deriving DecidableEq, Repr

/-! ### Forms: the fields an instruction of each form carries -/

/-- Only a guard. -/
structure FG where
  g : BitVec 3
  deriving DecidableEq, Repr

/-- A destination register and no source. -/
structure FD where
  w : Bool
  g : BitVec 3
  d : BitVec 7
  deriving DecidableEq, Repr

/-- One source and no destination. -/
structure FA where
  g : BitVec 3
  a : Operand
  deriving DecidableEq, Repr

/-- A destination and one source. -/
structure FDA where
  w : Bool
  g : BitVec 3
  d : BitVec 7
  a : Operand
  deriving DecidableEq, Repr

/-- A destination and two sources. -/
structure FDAB where
  w : Bool
  g : BitVec 3
  d : BitVec 7
  a : Operand
  b : Operand
  deriving DecidableEq, Repr

/-- A compare: condition, predicate descriptor, two sources. -/
structure FCmp where
  w : Bool
  g : BitVec 3
  cond : BitVec 3
  p : PredD
  a : Operand
  b : Operand
  deriving DecidableEq, Repr

structure FBra where
  g : BitVec 3
  hint : BraHint
  imm : BitVec 20
  deriving DecidableEq, Repr

structure FCall where
  g : BitVec 3
  d : BitVec 7
  imm : BitVec 20
  deriving DecidableEq, Repr

structure FTrap where
  g : BitVec 3
  imm : BitVec 20
  deriving DecidableEq, Repr

structure FSreg where
  w : Bool
  g : BitVec 3
  d : BitVec 7
  r : SReg
  deriving DecidableEq, Repr

structure FSset where
  g : BitVec 3
  r : SReg
  a : Operand
  deriving DecidableEq, Repr

structure FVote where
  w : Bool
  g : BitVec 3
  p : PredD
  pa : BitVec 3
  op : VoteOp
  deriving DecidableEq, Repr

structure FMatch where
  w : Bool
  g : BitVec 3
  d : BitVec 7
  a : Operand
  kind : MatchKind
  deriving DecidableEq, Repr

structure FRed where
  w : Bool
  g : BitVec 3
  d : BitVec 7
  a : Operand
  pre : Bool
  op : RedOp
  deriving DecidableEq, Repr

structure FPset where
  w : Bool
  g : BitVec 3
  p : PredD
  pa : BitVec 3
  pb : BitVec 3
  t : BitVec 4
  deriving DecidableEq, Repr

structure FBitc where
  w : Bool
  g : BitVec 3
  d : BitVec 7
  a : Operand
  op : BitcOp
  deriving DecidableEq, Repr

structure FSgn where
  w : Bool
  g : BitVec 3
  d : BitVec 7
  a : Operand
  op : SignOp
  ty : FType
  deriving DecidableEq, Repr

structure FClass where
  w : Bool
  g : BitVec 3
  d : BitVec 7
  a : Operand
  ty : ClassType
  deriving DecidableEq, Repr

/-- `fsfu`: functions 0x3 to 0x7 have no f64 form (R205), so the f64 form names one of three. -/
structure FSfu where
  w : Bool
  g : BitVec 3
  d : BitVec 7
  a : Operand
  fn : SfuFn
  wide : Bool
  deriving DecidableEq, Repr

structure FRound where
  w : Bool
  g : BitVec 3
  d : BitVec 7
  a : Operand
  ty : FType
  mode : RoundSel
  deriving DecidableEq, Repr

structure FCvt where
  w : Bool
  g : BitVec 3
  d : BitVec 7
  a : Operand
  trunc : Bool
  code : CvtCode
  deriving DecidableEq, Repr

structure FPack where
  w : Bool
  g : BitVec 3
  d : BitVec 7
  a : Operand
  b : Operand
  fmt : PackFmt
  k : BitVec 20
  deriving DecidableEq, Repr

structure FRqnt where
  w : Bool
  g : BitVec 3
  d : BitVec 7
  a : Operand
  b : Operand
  he : Bool
  s4 : Bool
  sh : BitVec 6
  zp : BitVec 20
  deriving DecidableEq, Repr

structure FCbk where
  w : Bool
  g : BitVec 3
  d : BitVec 7
  a : Operand
  half : Bool
  fmt : CbkFmt
  deriving DecidableEq, Repr

structure FLd where
  w : Bool
  g : BitVec 3
  d : BitVec 7
  a : Operand
  ty : MemTy
  hint : LdHint
  imm : BitVec 20
  deriving DecidableEq, Repr

structure FSt where
  g : BitVec 3
  a : Operand
  b : Operand
  ty : MemTy
  hint : StHint
  strm : BitVec 2
  imm : BitVec 20
  deriving DecidableEq, Repr

structure FStTry where
  w : Bool
  g : BitVec 3
  p : PredD
  a : Operand
  b : Operand
  ty : MemTy
  hint : StHint
  strm : BitVec 2
  imm : BitVec 20
  deriving DecidableEq, Repr

structure FLds where
  w : Bool
  g : BitVec 3
  d : BitVec 7
  a : Operand
  ty : MemTy
  imm : BitVec 20
  deriving DecidableEq, Repr

structure FSts where
  g : BitVec 3
  a : Operand
  b : Operand
  ty : MemTy
  strm : BitVec 2
  imm : BitVec 20
  deriving DecidableEq, Repr

/-- `nc` holds NC - 1. -/
structure FLdt where
  w : Bool
  g : BitVec 3
  d : BitVec 7
  a : Operand
  b : Operand
  ty : MemTy
  hint : LdHint
  clip : Bool
  nc : BitVec 2
  deriving DecidableEq, Repr

structure FStt where
  g : BitVec 3
  d : BitVec 7
  a : Operand
  b : Operand
  ty : MemTy
  hint : StHint
  clip : Bool
  strm : BitVec 2
  nc : BitVec 2
  deriving DecidableEq, Repr

/-- `wide` is TYPE `.b64`. -/
structure FAtom where
  w : Bool
  g : BitVec 3
  d : BitVec 7
  a : Operand
  b : Operand
  wide : Bool
  op : AtomOp
  strm : BitVec 2
  imm : BitVec 20
  deriving DecidableEq, Repr

structure FCas where
  w : Bool
  g : BitVec 3
  d : BitVec 7
  a : Operand
  b : Operand
  wide : Bool
  strm : BitVec 2
  imm : BitVec 20
  deriving DecidableEq, Repr

structure FPrf where
  g : BitVec 3
  a : Operand
  level : PrfLevel
  imm : BitVec 20
  deriving DecidableEq, Repr

structure FB where
  g : BitVec 3
  b : Operand
  deriving DecidableEq, Repr

structure FResPrio where
  g : BitVec 3
  b : Operand
  prio : BitVec 3
  deriving DecidableEq, Repr

/-- A memory operand and no data. -/
structure FMem where
  g : BitVec 3
  a : Operand
  imm : BitVec 20
  deriving DecidableEq, Repr

structure FTdescLd where
  g : BitVec 3
  a : Operand
  b : Operand
  imm : BitVec 20
  deriving DecidableEq, Repr

structure FTdescSt where
  g : BitVec 3
  a : Operand
  b : Operand
  strm : BitVec 2
  imm : BitVec 20
  deriving DecidableEq, Repr

structure FFence where
  g : BitVec 3
  scope : FenceScope
  deriving DecidableEq, Repr

structure FAcqTry where
  w : Bool
  g : BitVec 3
  p : PredD
  a : Operand
  imm : BitVec 20
  deriving DecidableEq, Repr

structure FBind where
  g : BitVec 3
  a : Operand
  b : Operand
  e : BitVec 8
  deriving DecidableEq, Repr

structure FBindClr where
  g : BitVec 3
  e : BitVec 8
  deriving DecidableEq, Repr

structure FBar where
  g : BitVec 3
  id : BitVec 4
  pub : Bool
  scope : BarScope
  count : BitVec 20
  deriving DecidableEq, Repr

structure FArrive where
  w : Bool
  g : BitVec 3
  d : BitVec 7
  id : BitVec 4
  pub : Bool
  scope : BarScope
  count : BitVec 20
  deriving DecidableEq, Repr

structure FWait where
  w : Bool
  g : BitVec 3
  d : BitVec 7
  a : Operand
  b : Operand
  wide : Bool
  cond : BitVec 3
  imm : BitVec 20
  deriving DecidableEq, Repr

structure FPchk where
  w : Bool
  g : BitVec 3
  p : PredD
  a : Operand
  b : Operand
  wide : Bool
  cond : BitVec 3
  imm : BitVec 20
  deriving DecidableEq, Repr

structure FSwait where
  w : Bool
  g : BitVec 3
  d : BitVec 7
  a : Operand
  b : Operand
  imm : BitVec 20
  deriving DecidableEq, Repr

/-- `grp` is G of R256. -/
structure FDeq where
  w : Bool
  g : BitVec 3
  d : BitVec 7
  b : Operand
  grp : Bool
  deriving DecidableEq, Repr

structure FDeqTry where
  w : Bool
  g : BitVec 3
  d : BitVec 7
  b : Operand
  grp : Bool
  pr : BitVec 3
  deriving DecidableEq, Repr

structure FEnq where
  g : BitVec 3
  a : Operand
  b : Operand
  deriving DecidableEq, Repr

structure FEnqTry where
  g : BitVec 3
  a : Operand
  b : Operand
  pr : BitVec 3
  deriving DecidableEq, Repr

structure FQpop where
  w : Bool
  g : BitVec 3
  d : BitVec 7
  q : BitVec 3
  deriving DecidableEq, Repr

structure FQpopTry where
  w : Bool
  g : BitVec 3
  d : BitVec 7
  q : BitVec 3
  pr : BitVec 3
  deriving DecidableEq, Repr

structure FBdec where
  g : BitVec 3
  a : Operand
  b : Operand
  fresh : Bool
  nc : BitVec 2
  deriving DecidableEq, Repr

structure FBlk where
  g : BitVec 3
  a : Operand
  b : Operand
  nc : BitVec 2
  deriving DecidableEq, Repr

structure FBstat where
  w : Bool
  g : BitVec 3
  d : BitVec 7
  a : Operand
  b : Operand
  nc : BitVec 2
  deriving DecidableEq, Repr

structure FHcpy where
  g : BitVec 3
  d : BitVec 7
  a : Operand
  b : Operand
  dk : CopyDst
  sk : CopySrc
  dz : Bool
  lc : BitVec 2
  ldef : Bool
  et : CopyEt
  awe : Bool
  awoff : BitVec 15
  deriving DecidableEq, Repr

structure FHmc where
  g : BitVec 3
  d : BitVec 7
  a : Operand
  b : Operand
  lc : BitVec 2
  awe : Bool
  awoff : BitVec 15
  deriving DecidableEq, Repr

structure FHrun where
  g : BitVec 3
  a : Operand
  k : BitVec 3
  deriving DecidableEq, Repr

/-- `pkt` is PKT, 0 to 4 (R329). -/
structure FXcpy where
  g : BitVec 3
  d : BitVec 7
  a : Operand
  psel : Bool
  port : BitVec 3
  pkt : Fin 5
  deriving DecidableEq, Repr

structure FMaccReg where
  w : Bool
  g : BitVec 3
  d : BitVec 7
  a : Operand
  clr : Bool
  cvt : AccCvt
  slot : BitVec 4
  k : BitVec 20
  deriving DecidableEq, Repr

structure FMaccSpad where
  g : BitVec 3
  a : Operand
  b : Operand
  clr : Bool
  cvt : AccCvt
  slot : BitVec 4
  k : BitVec 20
  deriving DecidableEq, Repr

/-- The clusters given to the blocks of one gang, in ascending `%gang` (placement is the scheduler's
free choice, R19, R68). -/
structure Placement where
  gang : Nat
  clusters : List Nat
  deriving DecidableEq, Repr

/-- The instructions and events, in the order of spec/opcode_table.json. -/
inductive Instr where
  -- control (07)
  | nop (f : FG)
  | bra (f : FBra)
  | brx (f : FDA)
  | call (f : FCall)
  | ret (f : FA)
  | exit (f : FG)
  | trap (f : FTrap)
  | rti
  | wbase (f : FA)
  | sreg (f : FSreg)
  | sset (f : FSset)
  | yield (f : FG)
  | yieldExpiry (launch : Nat) (wid : Word64)
  -- ordering, barriers, waits, sync objects, queues (09, 10)
  | fence (f : FFence)
  | bar (f : FBar)
  | arrive (f : FArrive)
  | barrierWaveRelease (cl : Nat)
  | wait (f : FWait)
  | pchk (f : FPchk)
  | swait (f : FSwait)
  | acqX (f : FMem)
  | acqS (f : FMem)
  | acqXTry (f : FAcqTry)
  | acqSTry (f : FAcqTry)
  | acquireGrant (obj : Nat)
  | rel (f : FMem)
  | bind (f : FBind)
  | bindClr (f : FBindClr)
  | deq (f : FDeq)
  | deqTry (f : FDeqTry)
  | enq (f : FEnq)
  | enqTry (f : FEnqTry)
  -- crew (10)
  | bal (f : FDA)
  | vote (f : FVote)
  | shfi (f : FDAB)
  | shfx (f : FDAB)
  | mtch (f : FMatch)
  | red (f : FRed)
  | cact (f : FD)
  -- predicates, integer (07)
  | pset (f : FPset)
  | pmov (f : FDAB)
  | add (f : FDAB)
  | sub (f : FDAB)
  | mul (f : FDAB)
  | mulhs (f : FDAB)
  | mulhz (f : FDAB)
  | mad (f : FDAB)
  | mins (f : FDAB)
  | minz (f : FDAB)
  | maxs (f : FDAB)
  | maxz (f : FDAB)
  | and (f : FDAB)
  | or (f : FDAB)
  | xor (f : FDAB)
  | andn (f : FDAB)
  | shl (f : FDAB)
  | shrs (f : FDAB)
  | shrz (f : FDAB)
  | rot (f : FDAB)
  | bfx (f : FDAB)
  | bfi (f : FDAB)
  | bitc (f : FBitc)
  | cmps (f : FCmp)
  | cmpz (f : FCmp)
  | sel (f : FDAB)
  | mov (f : FDA)
  | add64 (f : FDAB)
  | sub64 (f : FDAB)
  | mul64 (f : FDAB)
  | shl64 (f : FDAB)
  | shrs64 (f : FDAB)
  | shrz64 (f : FDAB)
  | cmp64 (f : FCmp)
  | lea (f : FDAB)
  | rng (f : FD)
  -- numbers (08)
  | faddF64 (f : FDAB)
  | faddF32 (f : FDAB)
  | faddF16x2 (f : FDAB)
  | faddBf16x2 (f : FDAB)
  | fsubF64 (f : FDAB)
  | fsubF32 (f : FDAB)
  | fmulF64 (f : FDAB)
  | fmulF32 (f : FDAB)
  | fmulF16x2 (f : FDAB)
  | fmulBf16x2 (f : FDAB)
  | fmaF64 (f : FDAB)
  | fmaF32 (f : FDAB)
  | fmaF16x2 (f : FDAB)
  | fmaBf16x2 (f : FDAB)
  | fminF64 (f : FDAB)
  | fminF32 (f : FDAB)
  | fmaxF64 (f : FDAB)
  | fmaxF32 (f : FDAB)
  | fcmpF64 (f : FCmp)
  | fcmpF32 (f : FCmp)
  | fsgn (f : FSgn)
  | fclass (f : FClass)
  | fsfu (f : FSfu)
  | fdivF64 (f : FDAB)
  | fdivF32 (f : FDAB)
  | fscaleF64 (f : FDAB)
  | fscaleF32 (f : FDAB)
  | fround (f : FRound)
  | cvt (f : FCvt)
  | pack (f : FPack)
  | rqnt (f : FRqnt)
  | dp4 (f : FDAB)
  | dp8 (f : FDAB)
  | fdp2 (f : FDAB)
  | fcbk (f : FCbk)
  -- memory (09)
  | ld (f : FLd)
  | st (f : FSt)
  | stTry (f : FStTry)
  | lds (f : FLds)
  | sts (f : FSts)
  | ldt (f : FLdt)
  | stt (f : FStt)
  | atom (f : FAtom)
  | cas (f : FCas)
  | atoms (f : FAtom)
  | prf (f : FPrf)
  | resPrio (f : FResPrio)
  | resDemote (f : FB)
  | resEvict (f : FB)
  | cinvLine (f : FMem)
  | cinvAll (f : FG)
  | tdescLoad (f : FTdescLd)
  | tdescStore (f : FTdescSt)
  | tdescClear (f : FB)
  -- engines (14, 16, 19)
  | qpop (f : FQpop)
  | qpopTry (f : FQpopTry)
  | bdec (f : FBdec)
  | bflushBlk (f : FBlk)
  | bflushForce (f : FBlk)
  | bflushTensor (f : FB)
  | bflushAll (f : FG)
  | bstat (f : FBstat)
  | bstatDec (f : FBstat)
  | hcpy (f : FHcpy)
  | hseal (f : FD)
  | hwait (f : FDA)
  | htest (f : FDA)
  | hmc (f : FHmc)
  | hrun (f : FHrun)
  | xcpy (f : FXcpy)
  | mtask (f : FDAB)
  | mwait (f : FDA)
  | mwaitSt (f : FDA)
  | maccReg (f : FMaccReg)
  | maccSpad (f : FMaccSpad)
  -- events of the memory path and of threads
  | operandLogReplay (id : Nat)
  | loadDataReturn (id : Nat) (piece : Nat)
  | homeItemApply (cl : Nat) (id : Nat)
  | starved (launch : Nat) (wid : Word64)
  | promotion (launch : Nat) (wid : Word64)
  -- events of the die schedulers
  | preemptionRequest (launch : Nat) (gang : Nat)
  | reconvergedSave (launch : Nat) (gang : Nat)
  | fullSave (launch : Nat) (gang : Nat)
  | handlerTimeout (launch : Nat) (gang : Nat)
  | gangRestore (launch : Nat) (places : List Placement)
  | quantumExpiry (launch : Nat) (gang : Nat)
  | launchDoorbell (q : Nat) (staged : BitVec 2048)
  | launchAccept (q : Nat)
  | schedulerGrant (die : Nat) (q : Nat) (places : List Placement)
  | gangRetire (launch : Nat) (gang : Nat)
  | lostCompletionClear (part : Nat)
  | lend (lender : Nat) (part : Nat) (sub : Nat) (clusters : List Nat)
  | recallLent (lender : Nat) (clusters : List Nat)
  | partitionTeardown (part : Nat)
  | writeBudgetWindow (die : Nat)
  -- power of a cluster
  | droopTrip (cl : Nat)
  | droopFreezeEnd (cl : Nat)
  | islandSkim (cl : Nat) (quarter : Nat) (island : Nat)
  | islandWake (cl : Nat) (quarter : Nat) (island : Nat)
  -- engines
  | blockFetch (cl : Nat) (id : Nat)
  | merge (cl : Nat) (id : Nat)
  | hawkDelivery (cl : Nat) (copy : Nat)
  | multicastAccept (cl : Nat) (copy : Nat) (entry : Nat)
  | copyComplete (cl : Nat) (copy : Nat)
  | taskStart (cl : Nat) (eng : Nat)
  | taskStep (cl : Nat) (eng : Nat) (upset : List (Nat × Word64))
  | scaleRead (cl : Nat) (eng : Nat)
  -- Scrim
  | scrimRead (port : Nat)
  | scrimWrite (port : Nat)
  | scrimAtomic (port : Nat)
  | scrimAcquire (port : Nat)
  | scrimRelease (port : Nat)
  | scrimWithdrawal (port : Nat)
  | scrimReadResponse (port : Nat)
  | scrimWriteAck (port : Nat)
  | scrimAtomicResponse (port : Nat)
  | scrimSyncResponse (port : Nat)
  | flitReceive (port : Nat) (flit : BitVec 2048)
  | idleFlit (port : Nat)
  | laneFailure (port : Nat) (lanes : BitVec 16)
  | shedResume (port : Nat) (ack : BitVec 12)
  | retrain (port : Nat) (pass : BitVec 16)
  -- host
  | hostMemRead (addr : Nat) (len : Nat)
  | hostMemWrite (addr : Nat) (data : List Byte)
  | queueItemWrite (q : Nat) (size : Nat) (item : Word128)
  | heldItemReoffer (q : Nat)
  | hotnessNotification (stack : Nat) (block : Nat) (slot : Nat)
  | faultCompletion (part : Nat) (w : Word64)
  | invalidatePage (part : Nat) (cmd : Word128)
  | invalidateContext (part : Nat) (cmd : Word128)
  | invalidatePartition (part : Nat) (cmd : Word128)
  | invalidationComplete (part : Nat)
  | ownershipRelease (part : Nat) (cmd : Word128)
  | ownershipAcquire (part : Nat) (cmd : Word128)
  | ownershipComplete (part : Nat)
  -- management
  | configCommit (part : Nat) (sub : Nat)
  | scommit (part : Nat)
  | ownerTableWrite (o : Nat) (v : Word32)
  | queueTableWrite (q : Nat) (v : Word32)
  | launchQueueTableWrite (q : Nat) (v : Word32)
  | registerWrite (off : Nat) (size : Nat) (v : Word64)
  | faultReportClear (part : Nat)
  | telemetrySample (len : Nat) (v : Word64)
  | telemetryLost
  | shedFreeze (launch : Nat) (gang : Nat)
  | thermalCritical
  | thermalAbort
  | railsReturn
  | ueFound (block : Nat)
  | reloadComplete (block : Nat)
  | scanDrain (cl : Nat)
  | scanPass (cl : Nat) (pass : Bool)
  | subarrayRefresh (stack : Nat) (channel : Nat) (bank : Nat) (subarray : Nat)
  | rowThrottle (part : Nat) (stack : Nat) (row : Nat)
  | refreshInterval
  | deviceReset
  | imageLoad (len : Nat)
  | featureCommit
  | functionReady (bit : Nat)
  | readyTimeout
  | checkpoint
  | restore
  | checkpointDone
  | linkDown
  | powerAboveRating (cl : Nat) (mhz : Nat)
  | dynamicAddressAssignment (addr : BitVec 7)
  deriving DecidableEq, Repr

end Sys2Proof
end

