-- ==== Sys2Proof/Machine/Shape.lean ====
section
/-!
DEFINITION. What an instruction names: its opcode, guard, destination, sources with their widths, and the
predicates it reads and writes (04_instruction_formats.md R78 to R92, R98, R99), and the checks of orders 2 and 3
of R96 that its text alone decides.
-/

namespace Sys2Proof

/-- How a source is read (R80): its width, and how a 32-bit literal fills 64 bits. -/
inductive SrcW where
  /-- 32 bits. -/
  | w32
  /-- 64 bits, a 32-bit literal sign-extended. -/
  | w64
  /-- 64 bits, a 32-bit literal zero-extended. -/
  | z64
  /-- 64 bits, a 32-bit literal a binary32 value widened. -/
  | f64
  /-- 128 bits. -/
  | w128
  /-- The octet of `rqnt.s4` (08 R209). -/
  | oct
  deriving DecidableEq, Repr

/-- Registers a source of this width covers (R82). -/
def SrcW.regs : SrcW → Nat
  | .w32 => 1 | .w64 => 2 | .z64 => 2 | .f64 => 2 | .w128 => 4 | .oct => 8

/-- A source operand; `uni` marks it uniform (R98). -/
structure Src where
  o : Operand
  w : SrcW
  uni : Bool := false
  deriving DecidableEq, Repr

/-- What the D field is (R79, R81, R86). -/
inductive Dest where
  | none
  /-- Written: `n` registers from `d`. -/
  | reg (d : BitVec 7) (n : Nat)
  /-- Read and written. -/
  | both (d : BitVec 7) (n : Nat)
  /-- Read only. -/
  | src (d : BitVec 7) (n : Nat)
  /-- A predicate descriptor. -/
  | pred (p : PredD)
  deriving DecidableEq, Repr

structure Shape where
  op : BitVec 7
  g : BitVec 3
  w : Bool := false
  dest : Dest := .none
  srcs : List Src := []
  /-- Predicates read besides the guard. -/
  preds : List (BitVec 3) := []
  /-- Predicates written otherwise than through a descriptor in D. -/
  predsW : List (BitVec 3) := []
  deriving DecidableEq, Repr

namespace Shape

/-- A 32-bit source. -/
def s32 (o : Operand) : Src := { o := o, w := .w32 }
/-- A 64-bit source, literals sign-extended. -/
def s64 (o : Operand) : Src := { o := o, w := .w64 }
/-- A 128-bit source. -/
def s128 (o : Operand) : Src := { o := o, w := .w128 }
/-- An f64 source. -/
def sf64 (o : Operand) : Src := { o := o, w := .f64 }
/-- A uniform 32-bit source. -/
def u32 (o : Operand) : Src := { o := o, w := .w32, uni := true }

/-- Two 32-bit sources and a 32-bit destination. -/
def r3 (op : BitVec 7) (f : FDAB) : Shape :=
  { op := op, g := f.g, w := f.w, dest := .reg f.d 1, srcs := [s32 f.a, s32 f.b] }
/-- As `r3`, D read too. -/
def r3d (op : BitVec 7) (f : FDAB) : Shape :=
  { op := op, g := f.g, w := f.w, dest := .both f.d 1, srcs := [s32 f.a, s32 f.b] }
/-- Two f64 sources and an f64 destination. -/
def r3f64 (op : BitVec 7) (f : FDAB) : Shape :=
  { op := op, g := f.g, w := f.w, dest := .reg f.d 2, srcs := [sf64 f.a, sf64 f.b] }
/-- 64-bit sources of the given widths and a 64-bit destination. -/
def r64 (op : BitVec 7) (f : FDAB) (a b : SrcW) : Shape :=
  { op := op, g := f.g, w := f.w, dest := .reg f.d 2, srcs := [{ o := f.a, w := a }, { o := f.b, w := b }] }
/-- A compare. -/
def cmp (op : BitVec 7) (f : FCmp) (w : SrcW) : Shape :=
  { op := op, g := f.g, w := f.w, dest := .pred f.p, srcs := [{ o := f.a, w := w }, { o := f.b, w := w }] }
/-- One source and a destination. -/
def da (op : BitVec 7) (w : Bool) (g : BitVec 3) (d : BitVec 7) (n : Nat) (a : Src) : Shape :=
  { op := op, g := g, w := w, dest := .reg d n, srcs := [a] }

end Shape

open Shape

/-- Registers of a datum of an access type (09 R215). -/
def MemTy.regs : MemTy → Nat
  | .b64 => 2 | .b128 => 4 | _ => 1

/-- How data of an access type is read: `.b64` literals are zero-extended (R80). -/
def MemTy.src : MemTy → SrcW
  | .b64 => .z64 | .b128 => .w128 | _ => .w32

/-- Bytes of an access type (09 R215). -/
def MemTy.bytes : MemTy → Nat
  | .s8 => 1 | .z8 => 1 | .s16 => 2 | .z16 => 2 | .b32 => 4 | .b64 => 8 | .b128 => 16

/-- How NC coordinates are read (09 R225). -/
def ncSrc (nc : BitVec 2) : SrcW :=
  if nc = 0 then .w32 else if nc = 1 then .w64 else .w128

/-- Width of a special register in registers (07 R171). -/
def SReg.regs : SReg → Nat
  | .block => 2 | .wid => 2 | .cyc => 2 | .rngkey => 2 | .rngctr => 2 | .tpc => 2 | .tinfo => 4 | _ => 1

/-- Whether `sset` may write it (07 R171). -/
def SReg.writable : SReg → Bool
  | .fpm => true | .rngkey => true | .rngctr => true | .tcause => true | .tpc => true | .twb => true
  | _ => false

/-- Whether it is for a handler only (07 R171, R172). -/
def SReg.handlerOnly : SReg → Bool
  | .tcause => true | .tpc => true | .twb => true | .tinfo => true | _ => false

/-- The width of a register's value as a source of `sset`: a 32-bit literal is zero-extended (07 R172). -/
def SReg.src (r : SReg) : SrcW := if r.regs = 2 then .z64 else .w32

/-- Registers that A and D of `cvt` cover (08 R206): (D, A). -/
def CvtCode.regs : CvtCode → Nat × Nat
  | .f32_f64 => (1, 2) | .f64_f32 => (2, 1) | .f16x2_f32 => (1, 2) | .bf16x2_f32 => (1, 2)
  | .s32_f64 => (1, 2) | .z32_f64 => (1, 2) | .s64_f32 => (2, 1) | .z64_f32 => (2, 1)
  | .s64_f64 => (2, 2) | .z64_f64 => (2, 2) | .f64_s32 => (2, 1) | .f64_z32 => (2, 1)
  | .f32_s64 => (1, 2) | .f32_z64 => (1, 2) | .f64_s64 => (2, 2) | .f64_z64 => (2, 2)
  | _ => (1, 1)

/-- How A of `cvt` is read: by its source type (R80, 08 R206). -/
def CvtCode.src : CvtCode → SrcW
  | .f32_f64 => .f64 | .s32_f64 => .f64 | .z32_f64 => .f64 | .s64_f64 => .f64 | .z64_f64 => .f64
  | .f16x2_f32 => .w64 | .bf16x2_f32 => .w64
  | .f32_s64 => .w64 | .f64_s64 => .w64 | .f32_z64 => .z64 | .f64_z64 => .z64
  | _ => .w32

/-- Registers of an f-typed datum (08 R202). -/
def FType.src : FType → SrcW
  | .f64 => .f64 | _ => .w32

def FType.regs : FType → Nat
  | .f64 => 2 | _ => 1

/-- Whether a `bitc` operation reads a pair, and whether it writes one (07 R176). -/
def BitcOp.wideA : BitcOp → Bool
  | .popc64 => true | .clz64 => true | .ctz64 => true | .brev64 => true | .bswap64 => true | _ => false
def BitcOp.wideD : BitcOp → Bool
  | .brev64 => true | .bswap64 => true | _ => false

/-- The predicates that `pmov` counts as writing (07 R181). -/
def pmovPreds (b : Operand) : List (BitVec 3) :=
  let all : List (BitVec 3) := [1, 2, 3, 4, 5, 6, 7]
  match b with
  | .zero => []
  | .lit32 v => all.filter fun k => v.getLsbD k.toNat
  | _ => all

/-- What the fields of an instruction are; none for an event. -/
def Instr.shape : Instr → Option Shape
  | .nop f => some { op := 0x00, g := f.g }
  | .bra f => some { op := 0x01, g := f.g }
  | .brx f => some (da 0x02 f.w f.g f.d 2 (s64 f.a))
  | .call f => some { op := 0x03, g := f.g, dest := .reg f.d 2 }
  | .ret f => some { op := 0x04, g := f.g, srcs := [s64 f.a] }
  | .exit f => some { op := 0x05, g := f.g }
  | .trap f => some { op := 0x06, g := f.g }
  | .rti => some { op := 0x07, g := 0 }
  | .wbase f => some { op := 0x08, g := f.g, srcs := [s32 f.a] }
  | .sreg f => some { op := 0x09, g := f.g, w := f.w, dest := .reg f.d f.r.regs }
  | .sset f => some
      { op := 0x0A, g := f.g,
        srcs := [{ o := f.a, w := f.r.src, uni := f.r == .rngkey || f.r == .rngctr }] }
  | .yield f => some { op := 0x0B, g := f.g }
  | .yieldExpiry .. => none
  | .fence f => some { op := 0x0C, g := f.g }
  | .bar f => some { op := 0x0D, g := f.g }
  | .arrive f => some { op := 0x0E, g := f.g, w := f.w, dest := .reg f.d 1 }
  | .barrierWaveRelease .. => none
  | .wait f => some
      { op := 0x0F, g := f.g, w := f.w, dest := .reg f.d (if f.wide then 2 else 1),
        srcs := [s64 f.a, { o := f.b, w := if f.wide then .z64 else .w32 }] }
  | .pchk f => some
      { op := 0x14, g := f.g, w := f.w, dest := .pred f.p,
        srcs := [s64 f.a, { o := f.b, w := if f.wide then .z64 else .w32 }] }
  | .swait f => some { op := 0x13, g := f.g, w := f.w, dest := .reg f.d 1, srcs := [s32 f.a, s32 f.b] }
  | .acqX f => some { op := 0x10, g := f.g, srcs := [s64 f.a] }
  | .acqS f => some { op := 0x10, g := f.g, srcs := [s64 f.a] }
  | .acqXTry f => some { op := 0x10, g := f.g, w := f.w, dest := .pred f.p, srcs := [s64 f.a] }
  | .acqSTry f => some { op := 0x10, g := f.g, w := f.w, dest := .pred f.p, srcs := [s64 f.a] }
  | .acquireGrant .. => none
  | .rel f => some { op := 0x11, g := f.g, srcs := [s64 f.a] }
  | .bind f => some
      { op := 0x12, g := f.g,
        srcs := [{ o := f.a, w := .w128, uni := true }, { o := f.b, w := .w64, uni := true }] }
  | .bindClr f => some { op := 0x12, g := f.g }
  | .deq f => some { op := 0x15, g := f.g, w := f.w, dest := .reg f.d 4, srcs := [u32 f.b] }
  | .deqTry f => some { op := 0x15, g := f.g, w := f.w, dest := .reg f.d 4, srcs := [u32 f.b], predsW := [f.pr] }
  | .enq f => some { op := 0x16, g := f.g, srcs := [s128 f.a, u32 f.b] }
  | .enqTry f => some { op := 0x16, g := f.g, srcs := [s128 f.a, u32 f.b], predsW := [f.pr] }
  | .bal f => some (da 0x17 f.w f.g f.d 1 (s32 f.a))
  | .vote f => some { op := 0x18, g := f.g, w := f.w, dest := .pred f.p, preds := [f.pa] }
  | .shfi f => some (r3 0x19 f)
  | .shfx f => some (r3 0x1A f)
  | .mtch f => some (da 0x1B f.w f.g f.d 1 { o := f.a, w := match f.kind with | .b64 => .z64 | .f64 => .f64 | _ => .w32 })
  | .red f => some (da 0x1C f.w f.g f.d 1 (s32 f.a))
  | .cact f => some { op := 0x1D, g := f.g, w := f.w, dest := .reg f.d 1 }
  | .pset f => some { op := 0x1E, g := f.g, w := f.w, dest := .pred f.p, preds := [f.pa, f.pb] }
  | .pmov f => some { r3 0x1F f with preds := [1, 2, 3, 4, 5, 6, 7], predsW := pmovPreds f.b }
  | .add f => some (r3 0x20 f)
  | .sub f => some (r3 0x21 f)
  | .mul f => some (r3 0x22 f)
  | .mulhs f => some (r3 0x23 f)
  | .mulhz f => some (r3 0x24 f)
  | .mad f => some (r3d 0x25 f)
  | .mins f => some (r3 0x26 f)
  | .minz f => some (r3 0x27 f)
  | .maxs f => some (r3 0x28 f)
  | .maxz f => some (r3 0x29 f)
  | .and f => some (r3 0x2A f)
  | .or f => some (r3 0x2B f)
  | .xor f => some (r3 0x2C f)
  | .andn f => some (r3 0x2D f)
  | .shl f => some (r3 0x2E f)
  | .shrs f => some (r3 0x2F f)
  | .shrz f => some (r3 0x30 f)
  | .rot f => some (r3 0x31 f)
  | .bfx f => some (r3 0x32 f)
  | .bfi f => some (r3d 0x33 f)
  | .bitc f => some (da 0x34 f.w f.g f.d (if f.op.wideD then 2 else 1)
      { o := f.a, w := if f.op.wideA then .w64 else .w32 })
  | .cmps f => some (cmp 0x35 f .w32)
  | .cmpz f => some (cmp 0x36 f .w32)
  | .sel f => some (r3 0x37 f)
  | .mov f => some (da 0x38 f.w f.g f.d 1 (s32 f.a))
  | .add64 f => some (r64 0x39 f .w64 .w64)
  | .sub64 f => some (r64 0x3A f .w64 .w64)
  | .mul64 f => some (r64 0x3B f .w64 .w64)
  | .shl64 f => some (r64 0x3C f .w64 .w32)
  | .shrs64 f => some (r64 0x3D f .w64 .w32)
  | .shrz64 f => some (r64 0x3E f .w64 .w32)
  | .cmp64 f => some (cmp 0x3F f (if f.cond = 4 || f.cond = 5 || f.cond = 7 then .z64 else .w64))
  | .lea f => some (r64 0x40 f .w64 .w32)
  | .rng f => some { op := 0x41, g := f.g, w := f.w, dest := .reg f.d 1 }
  | .faddF64 f => some (r3f64 0x42 f)
  | .faddF32 f => some (r3 0x43 f)
  | .faddF16x2 f => some (r3 0x44 f)
  | .faddBf16x2 f => some (r3 0x45 f)
  | .fsubF64 f => some (r3f64 0x46 f)
  | .fsubF32 f => some (r3 0x47 f)
  | .fmulF64 f => some (r3f64 0x48 f)
  | .fmulF32 f => some (r3 0x49 f)
  | .fmulF16x2 f => some (r3 0x4A f)
  | .fmulBf16x2 f => some (r3 0x4B f)
  | .fmaF64 f => some { r3f64 0x4C f with dest := .both f.d 2 }
  | .fmaF32 f => some (r3d 0x4D f)
  | .fmaF16x2 f => some (r3d 0x4E f)
  | .fmaBf16x2 f => some (r3d 0x4F f)
  | .fminF64 f => some (r3f64 0x50 f)
  | .fminF32 f => some (r3 0x51 f)
  | .fmaxF64 f => some (r3f64 0x52 f)
  | .fmaxF32 f => some (r3 0x53 f)
  | .fcmpF64 f => some (cmp 0x54 f .f64)
  | .fcmpF32 f => some (cmp 0x55 f .w32)
  | .fsgn f => some (da 0x56 f.w f.g f.d f.ty.regs { o := f.a, w := f.ty.src })
  | .fclass f => some (da 0x57 f.w f.g f.d 1 { o := f.a, w := if f.ty = .f64 then .f64 else .w32 })
  | .fsfu f => some (da 0x58 f.w f.g f.d (if f.wide then 2 else 1) { o := f.a, w := if f.wide then .f64 else .w32 })
  | .fdivF64 f => some (r3f64 0x59 f)
  | .fdivF32 f => some (r3 0x5A f)
  | .fscaleF64 f => some (r64 0x5B f .f64 .w32)
  | .fscaleF32 f => some (r3 0x5C f)
  | .fround f => some (da 0x5D f.w f.g f.d f.ty.regs { o := f.a, w := f.ty.src })
  | .cvt f => some (da 0x5E f.w f.g f.d f.code.regs.1 { o := f.a, w := f.code.src })
  | .pack f => some { op := 0x5F, g := f.g, w := f.w, dest := .both f.d 1, srcs := [s32 f.a, s32 f.b] }
  | .rqnt f => some
      { op := 0x60, g := f.g, w := f.w, dest := .reg f.d 1,
        srcs := [{ o := f.a, w := if f.s4 then .oct else .w128 }, s32 f.b] }
  | .dp4 f => some (r3d 0x61 f)
  | .dp8 f => some (r3d 0x62 f)
  | .fdp2 f => some (r3d 0x63 f)
  | .fcbk f => some (da 0x64 f.w f.g f.d (if f.fmt = .bf16 then 4 else 2) (s32 f.a))
  | .ld f => some { op := 0x65, g := f.g, w := f.w, dest := .reg f.d f.ty.regs, srcs := [s64 f.a] }
  | .st f => some { op := 0x66, g := f.g, srcs := [s64 f.a, { o := f.b, w := f.ty.src }] }
  | .stTry f => some
      { op := 0x66, g := f.g, w := f.w, dest := .pred f.p,
        srcs := [s64 f.a, { o := f.b, w := f.ty.src }] }
  | .lds f => some { op := 0x67, g := f.g, w := f.w, dest := .reg f.d f.ty.regs, srcs := [s32 f.a] }
  | .sts f => some { op := 0x68, g := f.g, srcs := [s32 f.a, { o := f.b, w := f.ty.src }] }
  | .ldt f => some
      { op := 0x69, g := f.g, w := f.w, dest := .reg f.d f.ty.regs,
        srcs := [{ o := f.a, w := ncSrc f.nc }, u32 f.b] }
  | .stt f => some
      { op := 0x6A, g := f.g, dest := .src f.d f.ty.regs,
        srcs := [{ o := f.a, w := ncSrc f.nc }, u32 f.b] }
  | .atom f => some
      { op := 0x6B, g := f.g, w := f.w, dest := .reg f.d (if f.wide then 2 else 1),
        srcs := [s64 f.a, { o := f.b, w := if f.wide then .z64 else .w32 }] }
  | .cas f => some
      { op := 0x6C, g := f.g, w := f.w, dest := .both f.d (if f.wide then 2 else 1),
        srcs := [s64 f.a, { o := f.b, w := if f.wide then .z64 else .w32 }] }
  | .atoms f => some
      { op := 0x6D, g := f.g, w := f.w,
        dest := if f.op = .cas then .both f.d (if f.wide then 2 else 1) else .reg f.d (if f.wide then 2 else 1),
        srcs := [s32 f.a, { o := f.b, w := if f.wide then .z64 else .w32 }] }
  | .prf f => some { op := 0x6E, g := f.g, srcs := [s64 f.a] }
  | .resPrio f => some { op := 0x6F, g := f.g, srcs := [u32 f.b] }
  | .resDemote f => some { op := 0x6F, g := f.g, srcs := [u32 f.b] }
  | .resEvict f => some { op := 0x6F, g := f.g, srcs := [u32 f.b] }
  | .cinvLine f => some { op := 0x70, g := f.g, srcs := [s64 f.a] }
  | .cinvAll f => some { op := 0x70, g := f.g }
  | .tdescLoad f => some { op := 0x7F, g := f.g, srcs := [{ o := f.a, w := .w64, uni := true }, u32 f.b] }
  | .tdescStore f => some { op := 0x7F, g := f.g, srcs := [{ o := f.a, w := .w64, uni := true }, u32 f.b] }
  | .tdescClear f => some { op := 0x7F, g := f.g, srcs := [u32 f.b] }
  | .qpop f => some { op := 0x71, g := f.g, w := f.w, dest := .reg f.d 2 }
  | .qpopTry f => some { op := 0x71, g := f.g, w := f.w, dest := .reg f.d 2, predsW := [f.pr] }
  | .bdec f => some { op := 0x72, g := f.g, srcs := [{ o := f.a, w := ncSrc f.nc }, u32 f.b] }
  | .bflushBlk f => some { op := 0x73, g := f.g, srcs := [{ o := f.a, w := ncSrc f.nc }, u32 f.b] }
  | .bflushForce f => some { op := 0x73, g := f.g, srcs := [{ o := f.a, w := ncSrc f.nc }, u32 f.b] }
  | .bflushTensor f => some { op := 0x73, g := f.g, srcs := [u32 f.b] }
  | .bflushAll f => some { op := 0x73, g := f.g }
  | .bstat f => some
      { op := 0x74, g := f.g, w := f.w, dest := .reg f.d 4,
        srcs := [{ o := f.a, w := ncSrc f.nc }, u32 f.b] }
  | .bstatDec f => some
      { op := 0x74, g := f.g, w := f.w, dest := .reg f.d 4,
        srcs := [{ o := f.a, w := ncSrc f.nc }, u32 f.b] }
  | .hcpy f => some { op := 0x75, g := f.g, dest := .src f.d 1, srcs := [s128 f.a, s64 f.b] }
  | .hseal f => some { op := 0x76, g := f.g, w := f.w, dest := .reg f.d 1 }
  | .hwait f => some { op := 0x77, g := f.g, w := f.w, dest := .reg f.d 2, srcs := [s32 f.a] }
  | .htest f => some { op := 0x78, g := f.g, w := f.w, dest := .reg f.d 2, srcs := [s32 f.a] }
  | .hmc f => some { op := 0x79, g := f.g, dest := .src f.d 1, srcs := [s128 f.a, s32 f.b] }
  | .hrun f => some { op := 0x7A, g := f.g, srcs := [u32 f.a] }
  | .xcpy f => some { op := 0x7B, g := f.g, dest := .src f.d 1, srcs := [s128 f.a] }
  | .mtask f => some
      { op := 0x7C, g := f.g, w := f.w, dest := .reg f.d 1,
        srcs := [{ o := f.a, w := .w128, uni := true }, { o := f.b, w := .w64, uni := true }] }
  | .mwait f => some { op := 0x7D, g := f.g, w := f.w, dest := .reg f.d 1, srcs := [s32 f.a] }
  | .mwaitSt f => some { op := 0x7D, g := f.g, w := f.w, dest := .reg f.d 1, srcs := [s32 f.a] }
  | .maccReg f => some
      { op := 0x7E, g := f.g, w := f.w, dest := .reg f.d (if f.cvt = .f64 then 2 else 1),
        srcs := [s32 f.a] }
  | .maccSpad f => some { op := 0x7E, g := f.g, srcs := [u32 f.a, u32 f.b] }
  -- events: no encoding
  | .operandLogReplay .. | .loadDataReturn .. | .homeItemApply .. | .starved .. | .promotion ..
  | .preemptionRequest .. | .reconvergedSave .. | .fullSave .. | .handlerTimeout .. | .gangRestore ..
  | .quantumExpiry .. | .launchDoorbell .. | .launchAccept .. | .schedulerGrant .. | .gangRetire ..
  | .lostCompletionClear .. | .lend .. | .recallLent .. | .partitionTeardown .. | .writeBudgetWindow ..
  | .droopTrip .. | .droopFreezeEnd .. | .islandSkim .. | .islandWake .. | .blockFetch .. | .merge ..
  | .hawkDelivery .. | .multicastAccept .. | .copyComplete .. | .taskStart .. | .taskStep .. | .scaleRead ..
  | .scrimRead .. | .scrimWrite .. | .scrimAtomic .. | .scrimAcquire .. | .scrimRelease ..
  | .scrimWithdrawal .. | .scrimReadResponse .. | .scrimWriteAck .. | .scrimAtomicResponse ..
  | .scrimSyncResponse .. | .flitReceive .. | .idleFlit .. | .laneFailure .. | .shedResume .. | .retrain ..
  | .hostMemRead .. | .hostMemWrite .. | .queueItemWrite .. | .heldItemReoffer .. | .hotnessNotification ..
  | .faultCompletion .. | .invalidatePage .. | .invalidateContext .. | .invalidatePartition ..
  | .invalidationComplete .. | .ownershipRelease .. | .ownershipAcquire .. | .ownershipComplete ..
  | .configCommit .. | .scommit .. | .ownerTableWrite .. | .queueTableWrite .. | .launchQueueTableWrite ..
  | .registerWrite .. | .faultReportClear .. | .telemetrySample .. | .telemetryLost | .shedFreeze ..
  | .thermalCritical | .thermalAbort | .railsReturn | .ueFound .. | .reloadComplete .. | .scanDrain ..
  | .scanPass .. | .subarrayRefresh .. | .rowThrottle .. | .refreshInterval | .deviceReset | .imageLoad ..
  | .featureCommit | .functionReady .. | .readyTimeout | .checkpoint | .restore | .checkpointDone | .linkDown
  | .powerAboveRating .. | .dynamicAddressAssignment .. => none

/-- A short instruction (R88). -/
def Shape.short (s : Shape) : Bool :=
  decide (0x1E ≤ s.op.toNat) && decide (s.op.toNat ≤ 0x64) &&
    !(s.op == 0x58 || s.op == 0x59 || s.op == 0x5A)

/-- The latches an instruction reads (R91). -/
def Shape.latches (s : Shape) : List Nat :=
  s.srcs.filterMap fun x => match x.o with | .latch k => some k.val | _ => none

/-- Window registers a source covers. -/
def Src.windowRegs (x : Src) : List Nat :=
  match x.o with
  | .reg n => (List.range x.w.regs).map (n.val + ·)
  | _ => []

/-- Window registers read (R92): A, B, and D read as a source. -/
def Shape.regsR (s : Shape) : List Nat :=
  s.srcs.flatMap Src.windowRegs ++
    (match s.dest with
     | .both d n => (List.range n).map (d.toNat + ·)
     | .src d n => (List.range n).map (d.toNat + ·)
     | _ => [])

/-- Window registers written (R81: none when W = 1). -/
def Shape.regsW (s : Shape) : List Nat :=
  if s.w then [] else
    match s.dest with
    | .reg d n => (List.range n).map (d.toNat + ·)
    | .both d n => (List.range n).map (d.toNat + ·)
    | _ => []

/-- The predicates read: the guard and the others (p0 is a constant). The predicates a and b of `pset` and the eight
of `pmov` count as read for the chain rules, which name only operands and the guard (R92; LOG 71). -/
def Shape.predsR (s : Shape) : List Nat :=
  ((s.g :: s.preds).map BitVec.toNat).filter (decide <| 0 < ·)

/-- The predicates a descriptor writes (R86). -/
def PredD.writes (p : PredD) : List Nat :=
  if p.c then [p.n.toNat, p.n.toNat ^^^ 1] else [p.n.toNat]

/-- The predicates written. -/
def Shape.predsWr (s : Shape) : List Nat :=
  (match s.dest with | .pred p => if s.w then [] else p.writes | _ => []) ++ s.predsW.map BitVec.toNat

/-! ### The static operand checks (order 3 of R96; R79 to R82, R86, R91) -/

/-- A source is legal at its width: the width table of R80, alignment (R82), latches (R91, 08 R209). Of the
codes that are no register the octet of `rqnt.s4` takes zero alone (LOG 72). -/
def Src.ok (short : Bool) (x : Src) : Bool :=
  match x.o with
  | .reg n => n.val % x.w.regs == 0
  | .latch k => short && k.val != 7 && x.w != .oct
  | .zero => true
  | .rank => x.w.regs ≤ 2
  | .crank => x.w.regs ≤ 2
  | .widLo => x.w.regs ≤ 2
  | .widHi => x.w == .w32
  | .reserved => false
  | .lit32 _ => x.w.regs ≤ 2
  | .lit64 _ => x.w.regs == 2

/-- A predicate descriptor is legal (R86). -/
def PredD.ok (p : PredD) (w : Bool) : Bool :=
  (w || p.n != 0) && !(p.c && (p.n == 0 || p.n == 1))

/-- The D field is legal (R81, R82, R86). A destination alone is ignored when W = 1, but stays below 0x70. -/
def Shape.destOk (s : Shape) : Bool :=
  match s.dest with
  | .none => true
  | .reg d n => decide (d.toNat < 0x70) && (s.w || d.toNat % n == 0)
  | .both d n => decide (d.toNat < 0x70) && d.toNat % n == 0
  | .src d n => decide (d.toNat < 0x70) && d.toNat % n == 0
  | .pred p => p.ok s.w

/-- The operands raise no ILLEGAL_OPERAND by their text. -/
def Shape.ok (s : Shape) : Bool := s.destOk && s.srcs.all (Src.ok s.short)

/-- `sext` of a 20-bit immediate. -/
def imm20 (v : BitVec 20) : Int := v.toInt

/-- The fields lie inside what the encoding admits (R100's ILLEGAL_ENCODING cases that the syntax can hold). -/
def Instr.encodable : Instr → Bool
  | .sset f => f.r.writable
  | .fsfu f => !f.wide || f.fn == .rcp || f.fn == .sqrt || f.fn == .rsqrt
  | .pack f => decide (-127 ≤ imm20 f.k) && decide (imm20 f.k ≤ 127)
  | .rqnt f => decide (-32768 ≤ imm20 f.zp) && decide (imm20 f.zp ≤ 32767)
  | .atom f => f.op != .cas
  | .bar f => decide (0 ≤ imm20 f.count) && (!(f.scope == .crew || f.scope == .launch) || f.id == 0)
      && (f.scope != .crew || f.count == 0)
  | .arrive f => decide (0 ≤ imm20 f.count) && (!(f.scope == .crew || f.scope == .launch) || f.id == 0)
      && (f.scope != .crew || f.count == 0)
  | .deqTry f => f.pr != 0
  | .enqTry f => f.pr != 0
  | .qpopTry f => f.pr != 0
  | .hcpy f => !f.ldef || f.sk == .ten
  | .maccReg f => decide (-127 ≤ imm20 f.k) && decide (imm20 f.k ≤ 127)
  | .maccSpad f => decide (-127 ≤ imm20 f.k) && decide (imm20 f.k ≤ 127)
  | _ => true

/-- The operands of an instruction are legal by its text; an event has none. -/
def Instr.operandsOk (i : Instr) : Bool :=
  match i.shape with
  | some s => s.ok
  | none => true

end Sys2Proof
end

