-- ==== Sys2Proof/WellFormed.lean ====
section
/-!
DEFINITION. A well-formed instruction: its fields can be encoded (04_instruction_formats.md R77, R78, R100) and
its operands raise no ILLEGAL_OPERAND by their text (R79 to R82, R86, R91). What depends on the thread (latches
of its chain, the window, the handler) is checked when the instruction issues.
-/

namespace Sys2Proof

/-- An instruction of the table with an encoding, and legal fields. -/
def Instr.wf (i : Instr) : Bool := i.shape.isSome && i.encodable && i.operandsOk

end Sys2Proof
end

