-- ==== Sys2Proof/Decode.lean ====
section
/-!
DEFINITION. Instruction words (04_instruction_formats.md R74 to R80, R99, R100 and the extension maps of each
instruction's chapter): a decoder that is total and rejects by name, then the encoder written from the same maps.
-/

namespace Sys2Proof

/-- Why words are no instruction. Every case but `truncated` is ILLEGAL_ENCODING (R100). -/
inductive DecodeError where
  /-- Fewer words than the instruction has. -/
  | truncated
  /-- A modifier or MOD subfield holds a value its map does not list. -/
  | reservedValue
  /-- A must-be-zero field, or W where nothing is written, is not zero (R77, R78). -/
  | nonZeroField
  deriving DecidableEq, Repr

abbrev Dec (α : Type) := Except DecodeError α

/-- A value some map lists, or the rejection. -/
def rsv {α : Type} (o : Option α) : Dec α :=
  match o with
  | some x => .ok x
  | none => .error .reservedValue

/-- A must-be-zero condition. -/
def mbz (b : Bool) : Dec Unit := if b then .ok () else .error .nonZeroField

/-! ### Codes of the modifier values -/

def BraHint.code : BraHint → BitVec 2
  | .none => 0x00 | .likely => 0x01 | .unlikely => 0x02
def BraHint.ofCode (c : BitVec 2) : Option BraHint :=
  match c.toNat with
  | 0x00 => some .none | 0x01 => some .likely | 0x02 => some .unlikely | _ => Option.none

def BitcOp.code : BitcOp → BitVec 7
  | .popc => 0x00 | .clz => 0x01 | .ctz => 0x02 | .brev => 0x03 | .bswap => 0x04 | .popc64 => 0x08
  | .clz64 => 0x09 | .ctz64 => 0x0A | .brev64 => 0x0B | .bswap64 => 0x0C
def BitcOp.ofCode (c : BitVec 7) : Option BitcOp :=
  match c.toNat with
  | 0x00 => some .popc | 0x01 => some .clz | 0x02 => some .ctz | 0x03 => some .brev | 0x04 => some .bswap
  | 0x08 => some .popc64 | 0x09 => some .clz64 | 0x0A => some .ctz64 | 0x0B => some .brev64
  | 0x0C => some .bswap64 | _ => none

def SReg.code : SReg → BitVec 7
  | .rank => 0x00 | .crank => 0x01 | .crew => 0x02 | .gang => 0x03 | .block => 0x04 | .wid => 0x05
  | .wf0 => 0x06 | .wf1 => 0x07 | .wf2 => 0x08 | .wf3 => 0x09 | .wf4 => 0x0A | .wf5 => 0x0B | .clid => 0x10
  | .die => 0x11 | .dev => 0x12 | .owner => 0x13 | .cls => 0x14 | .scan => 0x15 | .cyc => 0x18
  | .fpm => 0x20 | .rngkey => 0x21 | .rngctr => 0x22 | .tcause => 0x30 | .tpc => 0x31 | .twb => 0x32
  | .tinfo => 0x33
def SReg.ofCode (c : BitVec 7) : Option SReg :=
  match c.toNat with
  | 0x00 => some .rank | 0x01 => some .crank | 0x02 => some .crew | 0x03 => some .gang
  | 0x04 => some .block | 0x05 => some .wid | 0x06 => some .wf0 | 0x07 => some .wf1 | 0x08 => some .wf2
  | 0x09 => some .wf3 | 0x0A => some .wf4 | 0x0B => some .wf5 | 0x10 => some .clid | 0x11 => some .die
  | 0x12 => some .dev | 0x13 => some .owner | 0x14 => some .cls | 0x15 => some .scan | 0x18 => some .cyc
  | 0x20 => some .fpm | 0x21 => some .rngkey | 0x22 => some .rngctr | 0x30 => some .tcause
  | 0x31 => some .tpc | 0x32 => some .twb | 0x33 => some .tinfo | _ => none

def VoteOp.code : VoteOp → BitVec 2
  | .any => 0x00 | .all => 0x01 | .uni => 0x02
def VoteOp.ofCode (c : BitVec 2) : Option VoteOp :=
  match c.toNat with
  | 0x00 => some .any | 0x01 => some .all | 0x02 => some .uni | _ => none

def MatchKind.code : MatchKind → BitVec 2
  | .b32 => 0x00 | .b64 => 0x01 | .f32 => 0x02 | .f64 => 0x03
def MatchKind.ofCode (c : BitVec 2) : Option MatchKind :=
  match c.toNat with
  | 0x00 => some .b32 | 0x01 => some .b64 | 0x02 => some .f32 | 0x03 => some .f64 | _ => none

def RedOp.code : RedOp → BitVec 4
  | .add => 0x00 | .mins => 0x01 | .minz => 0x02 | .maxs => 0x03 | .maxz => 0x04 | .and => 0x05
  | .or => 0x06 | .xor => 0x07 | .fadd => 0x08 | .fmin => 0x09 | .fmax => 0x0A
def RedOp.ofCode (c : BitVec 4) : Option RedOp :=
  match c.toNat with
  | 0x00 => some .add | 0x01 => some .mins | 0x02 => some .minz | 0x03 => some .maxs | 0x04 => some .maxz
  | 0x05 => some .and | 0x06 => some .or | 0x07 => some .xor | 0x08 => some .fadd | 0x09 => some .fmin
  | 0x0A => some .fmax | _ => none

def SignOp.code : SignOp → BitVec 2
  | .abs => 0x00 | .neg => 0x01 | .nabs => 0x02
def SignOp.ofCode (c : BitVec 2) : Option SignOp :=
  match c.toNat with
  | 0x00 => some .abs | 0x01 => some .neg | 0x02 => some .nabs | _ => none

def FType.code : FType → BitVec 2
  | .f64 => 0x00 | .f32 => 0x01 | .f16x2 => 0x02 | .bf16x2 => 0x03
def FType.ofCode (c : BitVec 2) : Option FType :=
  match c.toNat with
  | 0x00 => some .f64 | 0x01 => some .f32 | 0x02 => some .f16x2 | 0x03 => some .bf16x2 | _ => none

def ClassType.code : ClassType → BitVec 3
  | .f64 => 0x00 | .f32 => 0x01 | .f16 => 0x02 | .bf16 => 0x03 | .e4m3 => 0x04 | .e5m2 => 0x05
def ClassType.ofCode (c : BitVec 3) : Option ClassType :=
  match c.toNat with
  | 0x00 => some .f64 | 0x01 => some .f32 | 0x02 => some .f16 | 0x03 => some .bf16 | 0x04 => some .e4m3
  | 0x05 => some .e5m2 | _ => none

def SfuFn.code : SfuFn → BitVec 4
  | .rcp => 0x00 | .sqrt => 0x01 | .rsqrt => 0x02 | .exp2 => 0x03 | .log2 => 0x04 | .sinpi => 0x05
  | .cospi => 0x06 | .tanh => 0x07
def SfuFn.ofCode (c : BitVec 4) : Option SfuFn :=
  match c.toNat with
  | 0x00 => some .rcp | 0x01 => some .sqrt | 0x02 => some .rsqrt | 0x03 => some .exp2 | 0x04 => some .log2
  | 0x05 => some .sinpi | 0x06 => some .cospi | 0x07 => some .tanh | _ => none

def RoundSel.code : RoundSel → BitVec 3
  | .fpm => 0x00 | .rn => 0x01 | .rz => 0x02 | .ru => 0x03 | .rd => 0x04 | .rna => 0x05
def RoundSel.ofCode (c : BitVec 3) : Option RoundSel :=
  match c.toNat with
  | 0x00 => some .fpm | 0x01 => some .rn | 0x02 => some .rz | 0x03 => some .ru | 0x04 => some .rd
  | 0x05 => some .rna | _ => none

def CvtCode.code : CvtCode → BitVec 6
  | .f32_f64 => 0x00 | .f64_f32 => 0x01 | .f32_f16 => 0x02 | .f32_f16h => 0x03 | .f32_bf16 => 0x04
  | .f32_bf16h => 0x05 | .f16x2_f32 => 0x06 | .bf16x2_f32 => 0x07 | .f32_e4m3 => 0x08 | .f32_e5m2 => 0x09
  | .f32_e8m0 => 0x0A | .e8m0_f32 => 0x0B | .s32_f32 => 0x10 | .z32_f32 => 0x11 | .s32_f64 => 0x12
  | .z32_f64 => 0x13 | .s64_f32 => 0x14 | .z64_f32 => 0x15 | .s64_f64 => 0x16 | .z64_f64 => 0x17
  | .f32_s32 => 0x18 | .f32_z32 => 0x19 | .f64_s32 => 0x1A | .f64_z32 => 0x1B | .f32_s64 => 0x1C
  | .f32_z64 => 0x1D | .f64_s64 => 0x1E | .f64_z64 => 0x1F
def CvtCode.ofCode (c : BitVec 6) : Option CvtCode :=
  match c.toNat with
  | 0x00 => some .f32_f64 | 0x01 => some .f64_f32 | 0x02 => some .f32_f16 | 0x03 => some .f32_f16h
  | 0x04 => some .f32_bf16 | 0x05 => some .f32_bf16h | 0x06 => some .f16x2_f32 | 0x07 => some .bf16x2_f32
  | 0x08 => some .f32_e4m3 | 0x09 => some .f32_e5m2 | 0x0A => some .f32_e8m0 | 0x0B => some .e8m0_f32
  | 0x10 => some .s32_f32 | 0x11 => some .z32_f32 | 0x12 => some .s32_f64 | 0x13 => some .z32_f64
  | 0x14 => some .s64_f32 | 0x15 => some .z64_f32 | 0x16 => some .s64_f64 | 0x17 => some .z64_f64
  | 0x18 => some .f32_s32 | 0x19 => some .f32_z32 | 0x1A => some .f64_s32 | 0x1B => some .f64_z32
  | 0x1C => some .f32_s64 | 0x1D => some .f32_z64 | 0x1E => some .f64_s64 | 0x1F => some .f64_z64 | _ => none

def PackFmt.code : PackFmt → BitVec 2
  | .e4m3 => 0x00 | .e5m2 => 0x01 | .s8 => 0x02
def PackFmt.ofCode (c : BitVec 2) : Option PackFmt :=
  match c.toNat with
  | 0x00 => some .e4m3 | 0x01 => some .e5m2 | 0x02 => some .s8 | _ => none

def CbkFmt.code : CbkFmt → BitVec 2
  | .bf16 => 0x00 | .e4m3 => 0x01 | .e5m2 => 0x02
def CbkFmt.ofCode (c : BitVec 2) : Option CbkFmt :=
  match c.toNat with
  | 0x00 => some .bf16 | 0x01 => some .e4m3 | 0x02 => some .e5m2 | _ => none

def MemTy.code : MemTy → BitVec 4
  | .s8 => 0x00 | .z8 => 0x01 | .s16 => 0x02 | .z16 => 0x03 | .b32 => 0x04 | .b64 => 0x05 | .b128 => 0x06
def MemTy.ofCode (c : BitVec 4) : Option MemTy :=
  match c.toNat with
  | 0x00 => some .s8 | 0x01 => some .z8 | 0x02 => some .s16 | 0x03 => some .z16 | 0x04 => some .b32
  | 0x05 => some .b64 | 0x06 => some .b128 | _ => none

def LdHint.code : LdHint → BitVec 2
  | .none => 0x00 | .ro => 0x01 | .st => 0x02 | .fresh => 0x03
def LdHint.ofCode (c : BitVec 2) : Option LdHint :=
  match c.toNat with
  | 0x00 => some .none | 0x01 => some .ro | 0x02 => some .st | 0x03 => some .fresh | _ => Option.none

def StHint.code : StHint → BitVec 2
  | .none => 0x00 | .st => 0x02
def StHint.ofCode (c : BitVec 2) : Option StHint :=
  match c.toNat with
  | 0x00 => some .none | 0x02 => some .st | _ => Option.none

def AtomOp.code : AtomOp → BitVec 4
  | .add => 0x00 | .mins => 0x01 | .minz => 0x02 | .maxs => 0x03 | .maxz => 0x04 | .and => 0x05
  | .or => 0x06 | .xor => 0x07 | .exch => 0x08 | .fadd => 0x09 | .cas => 0x0A
def AtomOp.ofCode (c : BitVec 4) : Option AtomOp :=
  match c.toNat with
  | 0x00 => some .add | 0x01 => some .mins | 0x02 => some .minz | 0x03 => some .maxs | 0x04 => some .maxz
  | 0x05 => some .and | 0x06 => some .or | 0x07 => some .xor | 0x08 => some .exch | 0x09 => some .fadd
  | 0x0A => some .cas | _ => none

def PrfLevel.code : PrfLevel → BitVec 2
  | .l1 => 0x00 | .ro => 0x01 | .l2 => 0x02
def PrfLevel.ofCode (c : BitVec 2) : Option PrfLevel :=
  match c.toNat with
  | 0x00 => some .l1 | 0x01 => some .ro | 0x02 => some .l2 | _ => none

def FenceScope.code : FenceScope → BitVec 3
  | .crew => 0x00 | .block => 0x01 | .gang => 0x02 | .die => 0x03 | .device => 0x04 | .system => 0x05
def FenceScope.ofCode (c : BitVec 3) : Option FenceScope :=
  match c.toNat with
  | 0x00 => some .crew | 0x01 => some .block | 0x02 => some .gang | 0x03 => some .die
  | 0x04 => some .device | 0x05 => some .system | _ => none

def BarScope.code : BarScope → BitVec 2
  | .crew => 0x00 | .block => 0x01 | .gang => 0x02 | .launch => 0x03
def BarScope.ofCode (c : BitVec 2) : Option BarScope :=
  match c.toNat with
  | 0x00 => some .crew | 0x01 => some .block | 0x02 => some .gang | 0x03 => some .launch | _ => none

def CopyDst.code : CopyDst → BitVec 3
  | .mem => 0x00 | .spad => 0x01 | .dq => 0x02 | .fifo => 0x03
def CopyDst.ofCode (c : BitVec 3) : Option CopyDst :=
  match c.toNat with
  | 0x00 => some .mem | 0x01 => some .spad | 0x02 => some .dq | 0x03 => some .fifo | _ => none

def CopySrc.code : CopySrc → BitVec 2
  | .mem => 0x00 | .ten => 0x01 | .ssp => 0x02
def CopySrc.ofCode (c : BitVec 2) : Option CopySrc :=
  match c.toNat with
  | 0x00 => some .mem | 0x01 => some .ten | 0x02 => some .ssp | _ => none

def CopyEt.code : CopyEt → BitVec 3
  | .raw => 0x00 | .f32 => 0x01 | .bf16 => 0x02 | .f16 => 0x03 | .s32 => 0x04
def CopyEt.ofCode (c : BitVec 3) : Option CopyEt :=
  match c.toNat with
  | 0x00 => some .raw | 0x01 => some .f32 | 0x02 => some .bf16 | 0x03 => some .f16 | 0x04 => some .s32 | _ => none

def AccCvt.code : AccCvt → BitVec 3
  | .acc32 => 0x00 | .f32 => 0x01 | .bf16 => 0x02 | .f16 => 0x03 | .e4m3 => 0x04 | .e5m2 => 0x05
  | .s8 => 0x06 | .f64 => 0x07
def AccCvt.ofCode (c : BitVec 3) : Option AccCvt :=
  match c.toNat with
  | 0x00 => some .acc32 | 0x01 => some .f32 | 0x02 => some .bf16 | 0x03 => some .f16 | 0x04 => some .e4m3
  | 0x05 => some .e5m2 | 0x06 => some .s8 | 0x07 => some .f64 | _ => none

/-! ### Operands -/

/-- The code of a source operand (R79). -/
def Operand.code : Operand → BitVec 7
  | .reg n => BitVec.ofNat 7 n.val
  | .latch k => BitVec.ofNat 7 (0x70 + k.val)
  | .zero => 0x78
  | .rank => 0x79
  | .crank => 0x7A
  | .widLo => 0x7B
  | .widHi => 0x7C
  | .reserved => 0x7D
  | .lit32 _ => 0x7E
  | .lit64 _ => 0x7F

/-- The literal words of a source operand, low word first (R79). -/
def Operand.lits : Operand → List Word32
  | .lit32 v => [v]
  | .lit64 v => [v.extractLsb' 0 32, v.extractLsb' 32 32]
  | _ => []

/-- The operand that a code names, with the literal words taken from `ws`. -/
def Operand.read (c : BitVec 7) (ws : List Word32) : Dec (Operand × List Word32) :=
  if h : c.toNat < 112 then .ok (.reg ⟨c.toNat, h⟩, ws)
  else if h : c.toNat - 0x70 < 8 then .ok (.latch ⟨c.toNat - 0x70, h⟩, ws)
  else if c = 0x78 then .ok (.zero, ws)
  else if c = 0x79 then .ok (.rank, ws)
  else if c = 0x7A then .ok (.crank, ws)
  else if c = 0x7B then .ok (.widLo, ws)
  else if c = 0x7C then .ok (.widHi, ws)
  else if c = 0x7D then .ok (.reserved, ws)
  else if c = 0x7E then
    match ws with
    | v :: ws' => .ok (.lit32 v, ws')
    | [] => .error .truncated
  else
    match ws with
    | lo :: hi :: ws' => .ok (.lit64 (hi ++ lo), ws')
    | _ => .error .truncated

/-! ### Forms -/

/-- An extension word follows (R75, R99). -/
def isX (op : BitVec 7) : Bool :=
  op == 0x01 || op == 0x03 || op == 0x06 || (decide (0x0C ≤ op.toNat) && decide (op.toNat ≤ 0x16))
    || op == 0x5F || op == 0x60 || decide (0x65 ≤ op.toNat)

/-- B is a modifier (R75, R99). -/
def isM (op : BitVec 7) : Bool :=
  op == 0x09 || op == 0x0A || op == 0x18 || op == 0x1B || op == 0x1C || op == 0x1E || op == 0x34
    || op == 0x56 || op == 0x57 || op == 0x58 || op == 0x5D || op == 0x5E || op == 0x64

/-- How many words an operand code adds (R76). -/
def litWords (c : BitVec 7) : Nat := if c = 0x7E then 1 else if c = 0x7F then 2 else 0

/-- The number of words of the instruction whose opcode word is `w` (R76). -/
def lengthOf (w : Word32) : Nat :=
  let op := w.extractLsb' 0 7
  1 + (if isX op then 1 else 0) + litWords (w.extractLsb' 14 7)
    + (if isM op then 0 else litWords (w.extractLsb' 7 7))

/-- The fields of an instruction's words before they are given their meaning. -/
structure Raw where
  w : Bool
  g : BitVec 3
  d : BitVec 7
  a : BitVec 7
  b : BitVec 7
  op : BitVec 7
  x : Word32
  oa : Operand
  ob : Operand
  deriving DecidableEq, Repr

/-- The extension word, if the form has one. -/
def readExt (op : BitVec 7) (ws : List Word32) : Dec (Word32 × List Word32) :=
  if isX op then
    match ws with
    | x :: ws' => .ok (x, ws')
    | [] => .error .truncated
  else .ok (0, ws)

/-- Cut the words of one instruction into fields; the rest of the words. -/
def readRaw (ws : List Word32) : Dec (Raw × List Word32) :=
  match ws with
  | [] => .error .truncated
  | w0 :: ws0 => do
    let op := w0.extractLsb' 0 7
    let b := w0.extractLsb' 7 7
    let a := w0.extractLsb' 14 7
    let (x, ws1) ← readExt op ws0
    let (oa, ws2) ← Operand.read a ws1
    let (ob, ws3) ← if isM op then .ok (.reg 0, ws2) else Operand.read b ws2
    .ok ({ w := w0.getLsbD 31, g := w0.extractLsb' 28 3, d := w0.extractLsb' 21 7, a := a, b := b, op := op,
           x := x, oa := oa, ob := ob }, ws3)

/-! ### Common checks -/

namespace Raw

def noW (r : Raw) : Dec Unit := mbz (!r.w)
def noD (r : Raw) : Dec Unit := mbz (r.d == 0)
def noA (r : Raw) : Dec Unit := mbz (r.a == 0)
def noB (r : Raw) : Dec Unit := mbz (r.b == 0)
/-- Bits `lo + len - 1 : lo` of the extension word. -/
def e (r : Raw) (lo len : Nat) : BitVec len := r.x.extractLsb' lo len
/-- These bits of the extension word are zero. -/
def x0 (r : Raw) (lo len : Nat) : Dec Unit := mbz (r.x.extractLsb' lo len == 0)
def bitX (r : Raw) (k : Nat) : Bool := r.x.getLsbD k
def imm (r : Raw) : BitVec 20 := r.x.extractLsb' 0 20

/-- A predicate descriptor in D with COND must-be-zero. -/
def predD (r : Raw) : Dec PredD := do
  mbz (r.d.extractLsb' 4 3 == 0)
  .ok { c := r.d.getLsbD 3, n := r.d.extractLsb' 0 3 }

def fG (r : Raw) : FG := { g := r.g }
def fD (r : Raw) : FD := { w := r.w, g := r.g, d := r.d }
def fA (r : Raw) : FA := { g := r.g, a := r.oa }
def fB (r : Raw) : FB := { g := r.g, b := r.ob }
def fDA (r : Raw) : FDA := { w := r.w, g := r.g, d := r.d, a := r.oa }
def fDAB (r : Raw) : FDAB := { w := r.w, g := r.g, d := r.d, a := r.oa, b := r.ob }
def fMem (r : Raw) : FMem := { g := r.g, a := r.oa, imm := r.imm }
def fCmp (r : Raw) : FCmp :=
  { w := r.w, g := r.g, cond := r.d.extractLsb' 4 3, p := { c := r.d.getLsbD 3, n := r.d.extractLsb' 0 3 },
    a := r.oa, b := r.ob }

/-- No D, A, B and W. -/
def bare (r : Raw) : Dec Unit := do r.noW; r.noD; r.noA; r.noB

/-- An instruction of two sources and a destination. -/
def abd (r : Raw) (k : FDAB → Instr) : Dec Instr := .ok (k r.fDAB)

end Raw

/-- TYPE of an atomic or a memory wait: `.b32` or `.b64` (09 R220, 10 R252). -/
def wideTy (c : BitVec 4) : Dec Bool :=
  if c = 4 then .ok false else if c = 5 then .ok true else .error .reservedValue

/-! ### The opcode map, sixteen opcodes at a time -/

/-- Opcodes 0x00 to 0x0F (07 R161, R164, R170, R172; 09 R232; 10 R246, R252). -/
def dec0 (r : Raw) : Dec Instr :=
  match r.op.toNat % 16 with
  | 0x0 => do r.bare; .ok (.nop r.fG)
  | 0x1 => do
    r.bare; r.x0 22 10
    let h ← rsv (BraHint.ofCode (r.e 20 2))
    .ok (.bra { g := r.g, hint := h, imm := r.imm })
  | 0x2 => do r.noB; .ok (.brx r.fDA)
  | 0x3 => do r.noW; r.noA; r.noB; r.x0 20 12; .ok (.call { g := r.g, d := r.d, imm := r.imm })
  | 0x4 => do r.noW; r.noD; r.noB; .ok (.ret r.fA)
  | 0x5 => do r.bare; .ok (.exit r.fG)
  | 0x6 => do r.bare; r.x0 20 12; .ok (.trap { g := r.g, imm := r.imm })
  | 0x7 => do r.bare; mbz (r.g == 0); .ok .rti
  | 0x8 => do r.noW; r.noD; r.noB; .ok (.wbase r.fA)
  | 0x9 => do
    r.noA
    let n ← rsv (SReg.ofCode r.b)
    .ok (.sreg { w := r.w, g := r.g, d := r.d, r := n })
  | 0xA => do
    r.noW; r.noD
    let n ← rsv (SReg.ofCode r.b)
    .ok (.sset { g := r.g, r := n, a := r.oa })
  | 0xB => do r.bare; .ok (.yield r.fG)
  | 0xC => do
    r.bare; r.x0 23 9; r.x0 0 20
    let sc ← rsv (FenceScope.ofCode (r.e 20 3))
    .ok (.fence { g := r.g, scope := sc })
  | 0xD => do
    r.bare; r.x0 27 5
    let sc ← rsv (BarScope.ofCode (r.e 20 2))
    .ok (.bar { g := r.g, id := r.e 23 4, pub := r.bitX 22, scope := sc, count := r.imm })
  | 0xE => do
    r.noA; r.noB; r.x0 27 5
    let sc ← rsv (BarScope.ofCode (r.e 20 2))
    .ok (.arrive { w := r.w, g := r.g, d := r.d, id := r.e 23 4, pub := r.bitX 22, scope := sc, count := r.imm })
  | _ => do
    r.x0 23 5
    let wide ← wideTy (r.e 28 4)
    .ok (.wait { w := r.w, g := r.g, d := r.d, a := r.oa, b := r.ob, wide := wide, cond := r.e 20 3, imm := r.imm })

/-- Opcodes 0x10 to 0x1F (09 R233 to R235; 10 R238, R252, R255, R256; 07 R180, R181). -/
def dec1 (r : Raw) : Dec Instr :=
  match r.op.toNat % 16 with
  | 0x0 => do
    r.noB; r.x0 22 10
    if r.bitX 21 then
      let p ← r.predD
      let f : FAcqTry := { w := r.w, g := r.g, p := p, a := r.oa, imm := r.imm }
      .ok (if r.bitX 20 then .acqXTry f else .acqSTry f)
    else
      r.noW; r.noD
      .ok (if r.bitX 20 then .acqX r.fMem else .acqS r.fMem)
  | 0x1 => do r.noW; r.noD; r.noB; r.x0 20 12; .ok (.rel r.fMem)
  | 0x2 => do
    r.noW; r.noD; r.x0 21 11; r.x0 8 12
    if r.bitX 20 then
      r.noA; r.noB
      .ok (.bindClr { g := r.g, e := r.e 0 8 })
    else .ok (.bind { g := r.g, a := r.oa, b := r.ob, e := r.e 0 8 })
  | 0x3 => do
    r.x0 20 12
    .ok (.swait { w := r.w, g := r.g, d := r.d, a := r.oa, b := r.ob, imm := r.imm })
  | 0x4 => do
    r.x0 23 5
    let p ← r.predD
    let wide ← wideTy (r.e 28 4)
    .ok (.pchk { w := r.w, g := r.g, p := p, a := r.oa, b := r.ob, wide := wide, cond := r.e 20 3, imm := r.imm })
  | 0x5 => do
    r.noA; r.x0 25 7; r.x0 0 20
    if r.bitX 21 then
      .ok (.deqTry { w := r.w, g := r.g, d := r.d, b := r.ob, grp := r.bitX 20, pr := r.e 22 3 })
    else
      r.x0 22 3
      .ok (.deq { w := r.w, g := r.g, d := r.d, b := r.ob, grp := r.bitX 20 })
  | 0x6 => do
    r.noW; r.noD; r.x0 25 7; r.x0 0 20
    if r.bitX 20 then .error .reservedValue
    else if r.bitX 21 then .ok (.enqTry { g := r.g, a := r.oa, b := r.ob, pr := r.e 22 3 })
    else
      r.x0 22 3
      .ok (.enq { g := r.g, a := r.oa, b := r.ob })
  | 0x7 => do r.noB; .ok (.bal r.fDA)
  | 0x8 => do
    mbz (r.a.extractLsb' 3 4 == 0); mbz (r.b.extractLsb' 2 5 == 0)
    let p ← r.predD
    let op ← rsv (VoteOp.ofCode (r.b.extractLsb' 0 2))
    .ok (.vote { w := r.w, g := r.g, p := p, pa := r.a.extractLsb' 0 3, op := op })
  | 0x9 => r.abd .shfi
  | 0xA => r.abd .shfx
  | 0xB => do
    mbz (r.b.extractLsb' 2 5 == 0)
    let k ← rsv (MatchKind.ofCode (r.b.extractLsb' 0 2))
    .ok (.mtch { w := r.w, g := r.g, d := r.d, a := r.oa, kind := k })
  | 0xC => do
    mbz (r.b.extractLsb' 5 2 == 0)
    let op ← rsv (RedOp.ofCode (r.b.extractLsb' 0 4))
    .ok (.red { w := r.w, g := r.g, d := r.d, a := r.oa, pre := r.b.getLsbD 4, op := op })
  | 0xD => do r.noA; r.noB; .ok (.cact r.fD)
  | 0xE => do
    mbz (r.a.extractLsb' 6 1 == 0); mbz (r.b.extractLsb' 4 3 == 0)
    let p ← r.predD
    .ok (.pset { w := r.w, g := r.g, p := p, pa := r.a.extractLsb' 0 3, pb := r.a.extractLsb' 3 3,
                 t := r.b.extractLsb' 0 4 })
  | _ => r.abd .pmov

/-- Opcodes 0x20 to 0x2F (07 R174). -/
def dec2 (r : Raw) : Dec Instr :=
  match r.op.toNat % 16 with
  | 0x0 => r.abd .add | 0x1 => r.abd .sub | 0x2 => r.abd .mul | 0x3 => r.abd .mulhs
  | 0x4 => r.abd .mulhz | 0x5 => r.abd .mad | 0x6 => r.abd .mins | 0x7 => r.abd .minz
  | 0x8 => r.abd .maxs | 0x9 => r.abd .maxz | 0xA => r.abd .and | 0xB => r.abd .or
  | 0xC => r.abd .xor | 0xD => r.abd .andn | 0xE => r.abd .shl | _ => r.abd .shrs

/-- Opcodes 0x30 to 0x3F (07 R174 to R179). -/
def dec3 (r : Raw) : Dec Instr :=
  match r.op.toNat % 16 with
  | 0x0 => r.abd .shrz
  | 0x1 => r.abd .rot
  | 0x2 => r.abd .bfx
  | 0x3 => r.abd .bfi
  | 0x4 => do
    let op ← rsv (BitcOp.ofCode r.b)
    .ok (.bitc { w := r.w, g := r.g, d := r.d, a := r.oa, op := op })
  | 0x5 => .ok (.cmps r.fCmp)
  | 0x6 => .ok (.cmpz r.fCmp)
  | 0x7 => r.abd .sel
  | 0x8 => do r.noB; .ok (.mov r.fDA)
  | 0x9 => r.abd .add64
  | 0xA => r.abd .sub64
  | 0xB => r.abd .mul64
  | 0xC => r.abd .shl64
  | 0xD => r.abd .shrs64
  | 0xE => r.abd .shrz64
  | _ => .ok (.cmp64 r.fCmp)

/-- Opcodes 0x40 to 0x4F (07 R179, R182; 08 R197, R198). -/
def dec4 (r : Raw) : Dec Instr :=
  match r.op.toNat % 16 with
  | 0x0 => r.abd .lea
  | 0x1 => do r.noA; r.noB; .ok (.rng r.fD)
  | 0x2 => r.abd .faddF64 | 0x3 => r.abd .faddF32 | 0x4 => r.abd .faddF16x2 | 0x5 => r.abd .faddBf16x2
  | 0x6 => r.abd .fsubF64 | 0x7 => r.abd .fsubF32
  | 0x8 => r.abd .fmulF64 | 0x9 => r.abd .fmulF32 | 0xA => r.abd .fmulF16x2 | 0xB => r.abd .fmulBf16x2
  | 0xC => r.abd .fmaF64 | 0xD => r.abd .fmaF32 | 0xE => r.abd .fmaF16x2 | _ => r.abd .fmaBf16x2

/-- Opcodes 0x50 to 0x5F (08 R197 to R208). -/
def dec5 (r : Raw) : Dec Instr :=
  match r.op.toNat % 16 with
  | 0x0 => r.abd .fminF64
  | 0x1 => r.abd .fminF32
  | 0x2 => r.abd .fmaxF64
  | 0x3 => r.abd .fmaxF32
  | 0x4 => .ok (.fcmpF64 r.fCmp)
  | 0x5 => .ok (.fcmpF32 r.fCmp)
  | 0x6 => do
    mbz (r.b.extractLsb' 4 3 == 0)
    let op ← rsv (SignOp.ofCode (r.b.extractLsb' 0 2))
    let ty ← rsv (FType.ofCode (r.b.extractLsb' 2 2))
    .ok (.fsgn { w := r.w, g := r.g, d := r.d, a := r.oa, op := op, ty := ty })
  | 0x7 => do
    mbz (r.b.extractLsb' 3 4 == 0)
    let ty ← rsv (ClassType.ofCode (r.b.extractLsb' 0 3))
    .ok (.fclass { w := r.w, g := r.g, d := r.d, a := r.oa, ty := ty })
  | 0x8 => do
    mbz (r.b.extractLsb' 5 2 == 0)
    let fn ← rsv (SfuFn.ofCode (r.b.extractLsb' 0 4))
    .ok (.fsfu { w := r.w, g := r.g, d := r.d, a := r.oa, fn := fn, wide := r.b.getLsbD 4 })
  | 0x9 => r.abd .fdivF64
  | 0xA => r.abd .fdivF32
  | 0xB => r.abd .fscaleF64
  | 0xC => r.abd .fscaleF32
  | 0xD => do
    mbz (r.b.extractLsb' 5 2 == 0)
    let m ← rsv (RoundSel.ofCode (r.b.extractLsb' 0 3))
    let ty ← rsv (FType.ofCode (r.b.extractLsb' 3 2))
    .ok (.fround { w := r.w, g := r.g, d := r.d, a := r.oa, ty := ty, mode := m })
  | 0xE => do
    let c ← rsv (CvtCode.ofCode (r.b.extractLsb' 0 6))
    .ok (.cvt { w := r.w, g := r.g, d := r.d, a := r.oa, trunc := r.b.getLsbD 6, code := c })
  | _ => do
    r.x0 22 10
    let fmt ← rsv (PackFmt.ofCode (r.e 20 2))
    .ok (.pack { w := r.w, g := r.g, d := r.d, a := r.oa, b := r.ob, fmt := fmt, k := r.imm })

/-- The memory forms of 09 R214. -/
def decMem (r : Raw) : Dec Instr :=
  match r.op.toNat with
  | 0x65 => do
    r.noB; r.x0 20 6
    let ty ← rsv (MemTy.ofCode (r.e 28 4))
    let h ← rsv (LdHint.ofCode (r.e 26 2))
    .ok (.ld { w := r.w, g := r.g, d := r.d, a := r.oa, ty := ty, hint := h, imm := r.imm })
  | 0x66 => do
    r.x0 24 1; r.x0 20 2
    let ty ← rsv (MemTy.ofCode (r.e 28 4))
    let h ← rsv (StHint.ofCode (r.e 26 2))
    if r.bitX 25 then
      let p ← r.predD
      .ok (.stTry { w := r.w, g := r.g, p := p, a := r.oa, b := r.ob, ty := ty, hint := h, strm := r.e 22 2,
                    imm := r.imm })
    else
      r.noW; r.noD
      .ok (.st { g := r.g, a := r.oa, b := r.ob, ty := ty, hint := h, strm := r.e 22 2, imm := r.imm })
  | 0x67 => do
    r.noB; r.x0 20 8
    let ty ← rsv (MemTy.ofCode (r.e 28 4))
    .ok (.lds { w := r.w, g := r.g, d := r.d, a := r.oa, ty := ty, imm := r.imm })
  | 0x68 => do
    r.noW; r.noD; r.x0 24 4; r.x0 20 2
    let ty ← rsv (MemTy.ofCode (r.e 28 4))
    .ok (.sts { g := r.g, a := r.oa, b := r.ob, ty := ty, strm := r.e 22 2, imm := r.imm })
  | 0x69 => do
    r.x0 22 3; r.x0 0 20
    let ty ← rsv (MemTy.ofCode (r.e 28 4))
    let h ← rsv (LdHint.ofCode (r.e 26 2))
    .ok (.ldt { w := r.w, g := r.g, d := r.d, a := r.oa, b := r.ob, ty := ty, hint := h, clip := r.bitX 25,
                nc := r.e 20 2 })
  | 0x6A => do
    r.noW; r.x0 24 1; r.x0 0 20
    let ty ← rsv (MemTy.ofCode (r.e 28 4))
    let h ← rsv (StHint.ofCode (r.e 26 2))
    .ok (.stt { g := r.g, d := r.d, a := r.oa, b := r.ob, ty := ty, hint := h, clip := r.bitX 25,
                strm := r.e 22 2, nc := r.e 20 2 })
  | 0x6B => do
    r.x0 20 2
    let wide ← wideTy (r.e 28 4)
    let op ← rsv (AtomOp.ofCode (r.e 24 4))
    .ok (.atom { w := r.w, g := r.g, d := r.d, a := r.oa, b := r.ob, wide := wide, op := op, strm := r.e 22 2,
                 imm := r.imm })
  | 0x6C => do
    r.x0 24 4; r.x0 20 2
    let wide ← wideTy (r.e 28 4)
    .ok (.cas { w := r.w, g := r.g, d := r.d, a := r.oa, b := r.ob, wide := wide, strm := r.e 22 2, imm := r.imm })
  | 0x6D => do
    r.x0 20 2
    let wide ← wideTy (r.e 28 4)
    let op ← rsv (AtomOp.ofCode (r.e 24 4))
    .ok (.atoms { w := r.w, g := r.g, d := r.d, a := r.oa, b := r.ob, wide := wide, op := op, strm := r.e 22 2,
                  imm := r.imm })
  | 0x6E => do
    r.noW; r.noD; r.noB; r.x0 28 4; r.x0 20 6
    let l ← rsv (PrfLevel.ofCode (r.e 26 2))
    .ok (.prf { g := r.g, a := r.oa, level := l, imm := r.imm })
  | _ => do
    r.noW; r.noD; r.noA; r.x0 22 10
    if r.e 20 2 = 0 then
      if decide (r.imm.toNat ≤ 7) then .ok (.resPrio { g := r.g, b := r.ob, prio := r.e 0 3 })
      else .error .reservedValue
    else if r.e 20 2 = 1 then do r.x0 0 20; .ok (.resDemote r.fB)
    else if r.e 20 2 = 2 then do r.x0 0 20; .ok (.resEvict r.fB)
    else .error .reservedValue

/-- Opcodes 0x60 to 0x6F (08 R209 to R212; 09 R214). -/
def dec6 (r : Raw) : Dec Instr :=
  match r.op.toNat % 16 with
  | 0x0 => do
    r.x0 28 4
    .ok (.rqnt { w := r.w, g := r.g, d := r.d, a := r.oa, b := r.ob, he := r.bitX 27, s4 := r.bitX 26,
                 sh := r.e 20 6, zp := r.imm })
  | 0x1 => r.abd .dp4
  | 0x2 => r.abd .dp8
  | 0x3 => r.abd .fdp2
  | 0x4 => do
    mbz (r.b.extractLsb' 3 4 == 0)
    let fmt ← rsv (CbkFmt.ofCode (r.b.extractLsb' 0 2))
    .ok (.fcbk { w := r.w, g := r.g, d := r.d, a := r.oa, half := r.b.getLsbD 2, fmt := fmt })
  | _ => decMem r

/-- Opcodes 0x70 to 0x7F (09 R224, R230; 14 R295, R297; 16 R315 to R329; 19 R356, R361, R362). -/
def dec7 (r : Raw) : Dec Instr :=
  match r.op.toNat % 16 with
  | 0x0 => do
    r.noW; r.noD; r.noB; r.x0 21 11
    if r.bitX 20 then do r.noA; r.x0 0 20; .ok (.cinvAll r.fG)
    else .ok (.cinvLine r.fMem)
  | 0x1 => do
    r.noA; r.noB; r.x0 24 8; r.x0 3 17
    if r.bitX 23 then .ok (.qpopTry { w := r.w, g := r.g, d := r.d, q := r.e 0 3, pr := r.e 20 3 })
    else do r.x0 20 3; .ok (.qpop { w := r.w, g := r.g, d := r.d, q := r.e 0 3 })
  | 0x2 => do
    r.noW; r.noD; r.x0 23 9; r.x0 0 20
    .ok (.bdec { g := r.g, a := r.oa, b := r.ob, fresh := r.bitX 22, nc := r.e 20 2 })
  | 0x3 => do
    r.noW; r.noD; r.x0 24 8; r.x0 0 20
    let f : FBlk := { g := r.g, a := r.oa, b := r.ob, nc := r.e 20 2 }
    if r.e 22 2 = 0 then .ok (.bflushBlk f)
    else if r.e 22 2 = 1 then .ok (.bflushForce f)
    else if r.e 22 2 = 2 then do r.noA; r.x0 20 2; .ok (.bflushTensor r.fB)
    else do r.noA; r.noB; r.x0 20 2; .ok (.bflushAll r.fG)
  | 0x4 => do
    r.x0 23 9; r.x0 0 20
    let f : FBstat := { w := r.w, g := r.g, d := r.d, a := r.oa, b := r.ob, nc := r.e 20 2 }
    .ok (if r.bitX 22 then .bstatDec f else .bstat f)
  | 0x5 => do
    r.noW; r.x0 0 4
    let dk ← rsv (CopyDst.ofCode (r.e 29 3))
    let sk ← rsv (CopySrc.ofCode (r.e 27 2))
    let et ← rsv (CopyEt.ofCode (r.e 20 3))
    .ok (.hcpy { g := r.g, d := r.d, a := r.oa, b := r.ob, dk := dk, sk := sk, dz := r.bitX 26, lc := r.e 24 2,
                 ldef := r.bitX 23, et := et, awe := r.bitX 19, awoff := r.e 4 15 })
  | 0x6 => do r.noA; r.noB; r.x0 0 32; .ok (.hseal r.fD)
  | 0x7 => do r.noB; r.x0 0 32; .ok (.hwait r.fDA)
  | 0x8 => do r.noB; r.x0 0 32; .ok (.htest r.fDA)
  | 0x9 => do
    r.noW; r.x0 22 10; r.x0 0 4
    .ok (.hmc { g := r.g, d := r.d, a := r.oa, b := r.ob, lc := r.e 20 2, awe := r.bitX 19, awoff := r.e 4 15 })
  | 0xA => do
    r.noW; r.noD; r.noB; r.x0 23 9; r.x0 0 20
    .ok (.hrun { g := r.g, a := r.oa, k := r.e 20 3 })
  | 0xB => do
    r.noW; r.noB; r.x0 29 3; r.x0 24 1; r.x0 0 20
    let pkt ← rsv (if h : (r.e 20 4).toNat < 5 then some ⟨(r.e 20 4).toNat, h⟩ else none)
    .ok (.xcpy { g := r.g, d := r.d, a := r.oa, psel := r.bitX 28, port := r.e 25 3, pkt := pkt })
  | 0xC => do r.x0 0 32; .ok (.mtask r.fDAB)
  | 0xD => do
    r.noB; r.x0 21 11; r.x0 0 20
    .ok (if r.bitX 20 then .mwaitSt r.fDA else .mwait r.fDA)
  | 0xE => do
    r.x0 29 3
    let cvt ← rsv (AccCvt.ofCode (r.e 24 3))
    if r.bitX 27 then
      r.noW; r.noD
      .ok (.maccSpad { g := r.g, a := r.oa, b := r.ob, clr := r.bitX 28, cvt := cvt, slot := r.e 20 4, k := r.imm })
    else
      r.noB
      .ok (.maccReg { w := r.w, g := r.g, d := r.d, a := r.oa, clr := r.bitX 28, cvt := cvt, slot := r.e 20 4,
                      k := r.imm })
  | _ => do
    r.noW; r.noD; r.x0 24 8
    if r.e 20 2 = 0 then
      r.x0 22 2
      .ok (.tdescLoad { g := r.g, a := r.oa, b := r.ob, imm := r.imm })
    else if r.e 20 2 = 1 then
      .ok (.tdescStore { g := r.g, a := r.oa, b := r.ob, strm := r.e 22 2, imm := r.imm })
    else if r.e 20 2 = 2 then
      r.noA; r.x0 22 2; r.x0 0 20
      .ok (.tdescClear r.fB)
    else .error .reservedValue

/-- The instruction that cut fields stand for (R99, R100). -/
def decodeRaw (r : Raw) : Dec Instr :=
  match r.op.toNat / 16 with
  | 0 => dec0 r | 1 => dec1 r | 2 => dec2 r | 3 => dec3 r
  | 4 => dec4 r | 5 => dec5 r | 6 => dec6 r | _ => dec7 r

/-- Decode the first instruction of some words: the instruction and the words after it. -/
def decode (ws : List Word32) : Dec (Instr × List Word32) := do
  let (r, rest) ← readRaw ws
  let i ← decodeRaw r
  if i.encodable then .ok (i, rest) else .error .reservedValue

/-! ### Bytes -/

/-- The little-endian word of four bytes (R3). -/
def wordOfBytes (b0 b1 b2 b3 : Byte) : Word32 := b3 ++ b2 ++ b1 ++ b0

/-- The whole words of a list of bytes. -/
def wordsOfBytes : List Byte → List Word32
  | b0 :: b1 :: b2 :: b3 :: bs => wordOfBytes b0 b1 b2 b3 :: wordsOfBytes bs
  | _ => []

/-- Decode the first instruction of any bytes. -/
def decodeBytes (bs : List Byte) : Dec (Instr × List Word32) := decode (wordsOfBytes bs)

/-- The six words of an instruction whose bits are `w`: bit 0 is bit 0 of the first word, and a later word's
bits count on from it. -/
def tableWords (nbits w : Nat) : List Word32 :=
  (List.range 6).map fun k => BitVec.ofNat 32 ((w % 2 ^ nbits) / 2 ^ (32 * k))

/-- The instruction of one table word, the bits above `nbits` zero. -/
def decodeTableWord (nbits w : Nat) : Option Instr :=
  match decode (tableWords nbits w) with
  | .ok (i, _) => some i
  | .error _ => none

/-! ### The encoder -/

/-- The opcode word (R74). -/
def opWord (w : Bool) (g : BitVec 3) (d a b op : BitVec 7) : Word32 :=
  BitVec.ofBool w ++ g ++ d ++ a ++ b ++ op

/-- An R-form instruction. -/
def encR (op : BitVec 7) (w : Bool) (g : BitVec 3) (d : BitVec 7) (a b : Operand) : List Word32 :=
  opWord w g d a.code b.code op :: (a.lits ++ b.lits)

/-- An M-form instruction. -/
def encM (op : BitVec 7) (w : Bool) (g : BitVec 3) (d : BitVec 7) (a : Operand) (m : BitVec 7) : List Word32 :=
  opWord w g d a.code m op :: a.lits

/-- An X-form instruction. -/
def encX (op : BitVec 7) (w : Bool) (g : BitVec 3) (d : BitVec 7) (a b : Operand) (x : Word32) : List Word32 :=
  opWord w g d a.code b.code op :: x :: (a.lits ++ b.lits)

/-- An unused field holds 0. -/
def Operand.unused : Operand := .reg 0

/-- A predicate descriptor with its condition (R86). -/
def PredD.code (p : PredD) (cond : BitVec 3) : BitVec 7 := cond ++ BitVec.ofBool p.c ++ p.n

def encRf (op : BitVec 7) (f : FDAB) : List Word32 := encR op f.w f.g f.d f.a f.b
def encCmp (op : BitVec 7) (f : FCmp) : List Word32 := encR op f.w f.g (f.p.code f.cond) f.a f.b
/-- A bit of the extension word. -/
def b1 (b : Bool) : BitVec 1 := BitVec.ofBool b
/-- TYPE of an atomic or a memory wait. -/
def wideCode (wide : Bool) : BitVec 4 := if wide then 5 else 4
/-- The displacement or other immediate alone. -/
def immWord (imm : BitVec 20) : Word32 := (0 : BitVec 12) ++ imm

/-- The words of an instruction; none for an event, which has no encoding. -/
def encode : Instr → List Word32
  | .nop f => encR 0x00 false f.g 0 .unused .unused
  | .bra f => encX 0x01 false f.g 0 .unused .unused ((0 : BitVec 10) ++ f.hint.code ++ f.imm)
  | .brx f => encR 0x02 f.w f.g f.d f.a .unused
  | .call f => encX 0x03 false f.g f.d .unused .unused (immWord f.imm)
  | .ret f => encR 0x04 false f.g 0 f.a .unused
  | .exit f => encR 0x05 false f.g 0 .unused .unused
  | .trap f => encX 0x06 false f.g 0 .unused .unused (immWord f.imm)
  | .rti => encR 0x07 false 0 0 .unused .unused
  | .wbase f => encR 0x08 false f.g 0 f.a .unused
  | .sreg f => encM 0x09 f.w f.g f.d .unused f.r.code
  | .sset f => encM 0x0A false f.g 0 f.a f.r.code
  | .yield f => encR 0x0B false f.g 0 .unused .unused
  | .fence f => encX 0x0C false f.g 0 .unused .unused ((0 : BitVec 9) ++ f.scope.code ++ (0 : BitVec 20))
  | .bar f => encX 0x0D false f.g 0 .unused .unused
      ((0 : BitVec 5) ++ f.id ++ b1 f.pub ++ f.scope.code ++ f.count)
  | .arrive f => encX 0x0E f.w f.g f.d .unused .unused
      ((0 : BitVec 5) ++ f.id ++ b1 f.pub ++ f.scope.code ++ f.count)
  | .wait f => encX 0x0F f.w f.g f.d f.a f.b (wideCode f.wide ++ (0 : BitVec 5) ++ f.cond ++ f.imm)
  | .acqX f => encX 0x10 false f.g 0 f.a .unused ((0 : BitVec 10) ++ (0 : BitVec 1) ++ (1 : BitVec 1) ++ f.imm)
  | .acqS f => encX 0x10 false f.g 0 f.a .unused ((0 : BitVec 10) ++ (0 : BitVec 1) ++ (0 : BitVec 1) ++ f.imm)
  | .acqXTry f => encX 0x10 f.w f.g (f.p.code 0) f.a .unused
      ((0 : BitVec 10) ++ (1 : BitVec 1) ++ (1 : BitVec 1) ++ f.imm)
  | .acqSTry f => encX 0x10 f.w f.g (f.p.code 0) f.a .unused
      ((0 : BitVec 10) ++ (1 : BitVec 1) ++ (0 : BitVec 1) ++ f.imm)
  | .rel f => encX 0x11 false f.g 0 f.a .unused (immWord f.imm)
  | .bind f => encX 0x12 false f.g 0 f.a f.b ((0 : BitVec 11) ++ (0 : BitVec 1) ++ (0 : BitVec 12) ++ f.e)
  | .bindClr f => encX 0x12 false f.g 0 .unused .unused
      ((0 : BitVec 11) ++ (1 : BitVec 1) ++ (0 : BitVec 12) ++ f.e)
  | .swait f => encX 0x13 f.w f.g f.d f.a f.b (immWord f.imm)
  | .pchk f => encX 0x14 f.w f.g (f.p.code 0) f.a f.b (wideCode f.wide ++ (0 : BitVec 5) ++ f.cond ++ f.imm)
  | .deq f => encX 0x15 f.w f.g f.d .unused f.b
      ((0 : BitVec 7) ++ (0 : BitVec 3) ++ (0 : BitVec 1) ++ b1 f.grp ++ (0 : BitVec 20))
  | .deqTry f => encX 0x15 f.w f.g f.d .unused f.b
      ((0 : BitVec 7) ++ f.pr ++ (1 : BitVec 1) ++ b1 f.grp ++ (0 : BitVec 20))
  | .enq f => encX 0x16 false f.g 0 f.a f.b 0
  | .enqTry f => encX 0x16 false f.g 0 f.a f.b
      ((0 : BitVec 7) ++ f.pr ++ (1 : BitVec 1) ++ (0 : BitVec 1) ++ (0 : BitVec 20))
  | .bal f => encR 0x17 f.w f.g f.d f.a .unused
  | .vote f => [opWord f.w f.g (f.p.code 0) ((0 : BitVec 4) ++ f.pa) ((0 : BitVec 5) ++ f.op.code) 0x18]
  | .shfi f => encRf 0x19 f
  | .shfx f => encRf 0x1A f
  | .mtch f => encM 0x1B f.w f.g f.d f.a ((0 : BitVec 5) ++ f.kind.code)
  | .red f => encM 0x1C f.w f.g f.d f.a ((0 : BitVec 2) ++ b1 f.pre ++ f.op.code)
  | .cact f => encR 0x1D f.w f.g f.d .unused .unused
  | .pset f => [opWord f.w f.g (f.p.code 0) ((0 : BitVec 1) ++ f.pb ++ f.pa) ((0 : BitVec 3) ++ f.t) 0x1E]
  | .pmov f => encRf 0x1F f
  | .add f => encRf 0x20 f
  | .sub f => encRf 0x21 f
  | .mul f => encRf 0x22 f
  | .mulhs f => encRf 0x23 f
  | .mulhz f => encRf 0x24 f
  | .mad f => encRf 0x25 f
  | .mins f => encRf 0x26 f
  | .minz f => encRf 0x27 f
  | .maxs f => encRf 0x28 f
  | .maxz f => encRf 0x29 f
  | .and f => encRf 0x2A f
  | .or f => encRf 0x2B f
  | .xor f => encRf 0x2C f
  | .andn f => encRf 0x2D f
  | .shl f => encRf 0x2E f
  | .shrs f => encRf 0x2F f
  | .shrz f => encRf 0x30 f
  | .rot f => encRf 0x31 f
  | .bfx f => encRf 0x32 f
  | .bfi f => encRf 0x33 f
  | .bitc f => encM 0x34 f.w f.g f.d f.a f.op.code
  | .cmps f => encCmp 0x35 f
  | .cmpz f => encCmp 0x36 f
  | .sel f => encRf 0x37 f
  | .mov f => encR 0x38 f.w f.g f.d f.a .unused
  | .add64 f => encRf 0x39 f
  | .sub64 f => encRf 0x3A f
  | .mul64 f => encRf 0x3B f
  | .shl64 f => encRf 0x3C f
  | .shrs64 f => encRf 0x3D f
  | .shrz64 f => encRf 0x3E f
  | .cmp64 f => encCmp 0x3F f
  | .lea f => encRf 0x40 f
  | .rng f => encR 0x41 f.w f.g f.d .unused .unused
  | .faddF64 f => encRf 0x42 f
  | .faddF32 f => encRf 0x43 f
  | .faddF16x2 f => encRf 0x44 f
  | .faddBf16x2 f => encRf 0x45 f
  | .fsubF64 f => encRf 0x46 f
  | .fsubF32 f => encRf 0x47 f
  | .fmulF64 f => encRf 0x48 f
  | .fmulF32 f => encRf 0x49 f
  | .fmulF16x2 f => encRf 0x4A f
  | .fmulBf16x2 f => encRf 0x4B f
  | .fmaF64 f => encRf 0x4C f
  | .fmaF32 f => encRf 0x4D f
  | .fmaF16x2 f => encRf 0x4E f
  | .fmaBf16x2 f => encRf 0x4F f
  | .fminF64 f => encRf 0x50 f
  | .fminF32 f => encRf 0x51 f
  | .fmaxF64 f => encRf 0x52 f
  | .fmaxF32 f => encRf 0x53 f
  | .fcmpF64 f => encCmp 0x54 f
  | .fcmpF32 f => encCmp 0x55 f
  | .fsgn f => encM 0x56 f.w f.g f.d f.a ((0 : BitVec 3) ++ f.ty.code ++ f.op.code)
  | .fclass f => encM 0x57 f.w f.g f.d f.a ((0 : BitVec 4) ++ f.ty.code)
  | .fsfu f => encM 0x58 f.w f.g f.d f.a ((0 : BitVec 2) ++ b1 f.wide ++ f.fn.code)
  | .fdivF64 f => encRf 0x59 f
  | .fdivF32 f => encRf 0x5A f
  | .fscaleF64 f => encRf 0x5B f
  | .fscaleF32 f => encRf 0x5C f
  | .fround f => encM 0x5D f.w f.g f.d f.a ((0 : BitVec 2) ++ f.ty.code ++ f.mode.code)
  | .cvt f => encM 0x5E f.w f.g f.d f.a (b1 f.trunc ++ f.code.code)
  | .pack f => encX 0x5F f.w f.g f.d f.a f.b ((0 : BitVec 10) ++ f.fmt.code ++ f.k)
  | .rqnt f => encX 0x60 f.w f.g f.d f.a f.b ((0 : BitVec 4) ++ b1 f.he ++ b1 f.s4 ++ f.sh ++ f.zp)
  | .dp4 f => encRf 0x61 f
  | .dp8 f => encRf 0x62 f
  | .fdp2 f => encRf 0x63 f
  | .fcbk f => encM 0x64 f.w f.g f.d f.a ((0 : BitVec 4) ++ b1 f.half ++ f.fmt.code)
  | .ld f => encX 0x65 f.w f.g f.d f.a .unused (f.ty.code ++ f.hint.code ++ (0 : BitVec 6) ++ f.imm)
  | .st f => encX 0x66 false f.g 0 f.a f.b
      (f.ty.code ++ f.hint.code ++ (0 : BitVec 1) ++ (0 : BitVec 1) ++ f.strm ++ (0 : BitVec 2) ++ f.imm)
  | .stTry f => encX 0x66 f.w f.g (f.p.code 0) f.a f.b
      (f.ty.code ++ f.hint.code ++ (1 : BitVec 1) ++ (0 : BitVec 1) ++ f.strm ++ (0 : BitVec 2) ++ f.imm)
  | .lds f => encX 0x67 f.w f.g f.d f.a .unused (f.ty.code ++ (0 : BitVec 8) ++ f.imm)
  | .sts f => encX 0x68 false f.g 0 f.a f.b (f.ty.code ++ (0 : BitVec 4) ++ f.strm ++ (0 : BitVec 2) ++ f.imm)
  | .ldt f => encX 0x69 f.w f.g f.d f.a f.b
      (f.ty.code ++ f.hint.code ++ b1 f.clip ++ (0 : BitVec 3) ++ f.nc ++ (0 : BitVec 20))
  | .stt f => encX 0x6A false f.g f.d f.a f.b
      (f.ty.code ++ f.hint.code ++ b1 f.clip ++ (0 : BitVec 1) ++ f.strm ++ f.nc ++ (0 : BitVec 20))
  | .atom f => encX 0x6B f.w f.g f.d f.a f.b
      (wideCode f.wide ++ f.op.code ++ f.strm ++ (0 : BitVec 2) ++ f.imm)
  | .cas f => encX 0x6C f.w f.g f.d f.a f.b
      (wideCode f.wide ++ (0 : BitVec 4) ++ f.strm ++ (0 : BitVec 2) ++ f.imm)
  | .atoms f => encX 0x6D f.w f.g f.d f.a f.b
      (wideCode f.wide ++ f.op.code ++ f.strm ++ (0 : BitVec 2) ++ f.imm)
  | .prf f => encX 0x6E false f.g 0 f.a .unused ((0 : BitVec 4) ++ f.level.code ++ (0 : BitVec 6) ++ f.imm)
  | .resPrio f => encX 0x6F false f.g 0 .unused f.b ((0 : BitVec 12) ++ (0 : BitVec 17) ++ f.prio)
  | .resDemote f => encX 0x6F false f.g 0 .unused f.b ((0 : BitVec 10) ++ (1 : BitVec 2) ++ (0 : BitVec 20))
  | .resEvict f => encX 0x6F false f.g 0 .unused f.b ((0 : BitVec 10) ++ (2 : BitVec 2) ++ (0 : BitVec 20))
  | .cinvLine f => encX 0x70 false f.g 0 f.a .unused (immWord f.imm)
  | .cinvAll f => encX 0x70 false f.g 0 .unused .unused ((0 : BitVec 11) ++ (1 : BitVec 1) ++ (0 : BitVec 20))
  | .qpop f => encX 0x71 f.w f.g f.d .unused .unused ((0 : BitVec 29) ++ f.q)
  | .qpopTry f => encX 0x71 f.w f.g f.d .unused .unused
      ((0 : BitVec 8) ++ (1 : BitVec 1) ++ f.pr ++ (0 : BitVec 17) ++ f.q)
  | .bdec f => encX 0x72 false f.g 0 f.a f.b ((0 : BitVec 9) ++ b1 f.fresh ++ f.nc ++ (0 : BitVec 20))
  | .bflushBlk f => encX 0x73 false f.g 0 f.a f.b ((0 : BitVec 8) ++ (0 : BitVec 2) ++ f.nc ++ (0 : BitVec 20))
  | .bflushForce f => encX 0x73 false f.g 0 f.a f.b ((0 : BitVec 8) ++ (1 : BitVec 2) ++ f.nc ++ (0 : BitVec 20))
  | .bflushTensor f => encX 0x73 false f.g 0 .unused f.b ((0 : BitVec 8) ++ (2 : BitVec 2) ++ (0 : BitVec 22))
  | .bflushAll f => encX 0x73 false f.g 0 .unused .unused ((0 : BitVec 8) ++ (3 : BitVec 2) ++ (0 : BitVec 22))
  | .bstat f => encX 0x74 f.w f.g f.d f.a f.b ((0 : BitVec 9) ++ (0 : BitVec 1) ++ f.nc ++ (0 : BitVec 20))
  | .bstatDec f => encX 0x74 f.w f.g f.d f.a f.b ((0 : BitVec 9) ++ (1 : BitVec 1) ++ f.nc ++ (0 : BitVec 20))
  | .hcpy f => encX 0x75 false f.g f.d f.a f.b
      (f.dk.code ++ f.sk.code ++ b1 f.dz ++ f.lc ++ b1 f.ldef ++ f.et.code ++ b1 f.awe ++ f.awoff ++ (0 : BitVec 4))
  | .hseal f => encX 0x76 f.w f.g f.d .unused .unused 0
  | .hwait f => encX 0x77 f.w f.g f.d f.a .unused 0
  | .htest f => encX 0x78 f.w f.g f.d f.a .unused 0
  | .hmc f => encX 0x79 false f.g f.d f.a f.b
      ((0 : BitVec 10) ++ f.lc ++ b1 f.awe ++ f.awoff ++ (0 : BitVec 4))
  | .hrun f => encX 0x7A false f.g 0 f.a .unused ((0 : BitVec 9) ++ f.k ++ (0 : BitVec 20))
  | .xcpy f => encX 0x7B false f.g f.d f.a .unused
      ((0 : BitVec 3) ++ b1 f.psel ++ f.port ++ (0 : BitVec 1) ++ BitVec.ofNat 4 f.pkt.val ++ (0 : BitVec 20))
  | .mtask f => encX 0x7C f.w f.g f.d f.a f.b 0
  | .mwait f => encX 0x7D f.w f.g f.d f.a .unused 0
  | .mwaitSt f => encX 0x7D f.w f.g f.d f.a .unused ((0 : BitVec 11) ++ (1 : BitVec 1) ++ (0 : BitVec 20))
  | .maccReg f => encX 0x7E f.w f.g f.d f.a .unused
      ((0 : BitVec 3) ++ b1 f.clr ++ (0 : BitVec 1) ++ f.cvt.code ++ f.slot ++ f.k)
  | .maccSpad f => encX 0x7E false f.g 0 f.a f.b
      ((0 : BitVec 3) ++ b1 f.clr ++ (1 : BitVec 1) ++ f.cvt.code ++ f.slot ++ f.k)
  | .tdescLoad f => encX 0x7F false f.g 0 f.a f.b ((0 : BitVec 8) ++ (0 : BitVec 2) ++ (0 : BitVec 2) ++ f.imm)
  | .tdescStore f => encX 0x7F false f.g 0 f.a f.b ((0 : BitVec 8) ++ f.strm ++ (1 : BitVec 2) ++ f.imm)
  | .tdescClear f => encX 0x7F false f.g 0 .unused f.b ((0 : BitVec 8) ++ (0 : BitVec 2) ++ (2 : BitVec 2) ++ (0 : BitVec 20))
  | .yieldExpiry .. | .barrierWaveRelease .. | .acquireGrant ..
  | .operandLogReplay .. | .loadDataReturn .. | .homeItemApply .. | .starved .. | .promotion ..
  | .preemptionRequest .. | .reconvergedSave .. | .fullSave .. | .handlerTimeout .. | .gangRestore ..
  | .quantumExpiry .. | .launchDoorbell .. | .launchAccept .. | .schedulerGrant .. | .gangRetire ..
  | .lostCompletionClear .. | .lend .. | .recallLent .. | .partitionTeardown .. | .writeBudgetWindow ..
  | .droopTrip .. | .droopFreezeEnd .. | .islandSkim .. | .islandWake .. | .blockFetch .. | .merge ..
  | .hawkDelivery .. | .multicastAccept .. | .copyComplete .. | .taskStart .. | .taskStep .. | .scaleRead ..
  | .scrimRead .. | .scrimWrite .. | .scrimAtomic .. | .scrimAcquire .. | .scrimRelease ..
  | .scrimWithdrawal .. | .scrimReadResponse .. | .scrimWriteAck .. | .scrimAtomicResponse ..
  | .scrimSyncResponse .. | .flitReceive .. | .idleFlit .. | .laneFailure .. | .shedResume .. | .retrain ..
  | .hostMemRead .. | .hostMemWrite .. | .queueItemWrite .. | .heldItemReoffer .. | .hotnessNotification ..
  | .faultCompletion .. | .invalidatePage .. | .invalidateContext .. | .invalidatePartition ..
  | .invalidationComplete .. | .ownershipRelease .. | .ownershipAcquire .. | .ownershipComplete ..
  | .configCommit .. | .scommit .. | .ownerTableWrite .. | .queueTableWrite .. | .launchQueueTableWrite ..
  | .registerWrite .. | .faultReportClear .. | .telemetrySample .. | .telemetryLost | .shedFreeze ..
  | .thermalCritical | .thermalAbort | .railsReturn | .ueFound .. | .reloadComplete .. | .scanDrain ..
  | .scanPass .. | .subarrayRefresh .. | .rowThrottle .. | .refreshInterval | .deviceReset | .imageLoad ..
  | .featureCommit | .functionReady .. | .readyTimeout | .checkpoint | .restore | .checkpointDone | .linkDown
  | .powerAboveRating .. | .dynamicAddressAssignment .. => []

/-- The opcode word, 0 for an event. -/
def Instr.word0 (i : Instr) : Word32 := (encode i).headD 0

/-- The instruction's length in bytes (R76). -/
def Instr.bytes (i : Instr) : Nat := 4 * (encode i).length

end Sys2Proof
end

