-- ==== Sys2Proof/Machine/Bits.lean ====
section
/-!
DEFINITION. Bit fields and sign extension (00_scope.md R3, R8) on plain numbers, and small list helpers.
-/

namespace Sys2Proof.Machine

/-- Bits `lo + len - 1 : lo` of a number. -/
def fld (x lo len : Nat) : Nat := (x >>> lo) % 2 ^ len

/-- Bit `k` of a number. -/
def bit (x k : Nat) : Bool := decide (fld x k 1 = 1)

/-- Put `v` in bits `lo + len - 1 : lo` of `x`. -/
def setFld (x lo len v : Nat) : Nat :=
  x - (fld x lo len) * 2 ^ lo + (v % 2 ^ len) * 2 ^ lo

/-- `sext(x, n)` of R8 as an integer. -/
def sext (x n : Nat) : Int :=
  let y := x % 2 ^ n
  if y < 2 ^ (n - 1) then (y : Int) else (y : Int) - (2 ^ n : Nat)

/-- An integer reduced modulo 2^n. -/
def wrap (x : Int) (n : Nat) : Nat := (x % ((2 ^ n : Nat) : Int)).toNat

/-- Clamp an integer. -/
def clampInt (x lo hi : Int) : Int := if x < lo then lo else if hi < x then hi else x

/-- 1 for true. -/
def b2n (b : Bool) : Nat := if b then 1 else 0

/-- ⌊log2 x⌋ + 1, 0 for 0: `Nat.log2` is evaluated natively. -/
def bitLen (x : Nat) : Nat := if x = 0 then 0 else Nat.log2 x + 1

/-- Ceiling division. -/
def ceilDiv (a b : Nat) : Nat := (a + b - 1) / b

/-- The largest multiple of `m` that is at most `a`. -/
def alignDown (a m : Nat) : Nat := a - a % m

/-- The numbers `lo, lo + 1, …` below `lo + n`. -/
def upFrom (lo n : Nat) : List Nat := (List.range n).map (lo + ·)

/-- `n` copies of `x`. -/
def rep {α : Type} (n : Nat) (x : α) : List α := List.replicate n x

/-- The first element that meets a test, with its index. -/
def firstIdx {α : Type} (p : α → Bool) (l : List α) : Option Nat := l.findIdx? p

/-- Insert `x` before the first element that is above it under `lt`. -/
def insertBy {α : Type} (lt : α → α → Bool) (x : α) : List α → List α
  | [] => [x]
  | y :: l => if lt x y then x :: y :: l else y :: insertBy lt x l

/-- Stable insertion sort. -/
def sortBy {α : Type} (lt : α → α → Bool) : List α → List α
  | [] => []
  | x :: l => insertBy lt x (sortBy lt l)

/-- A list without repeats, the first occurrence kept. -/
def dedup {α : Type} [DecidableEq α] : List α → List α
  | [] => []
  | x :: l => x :: (dedup l).filter (fun y => decide (y ≠ x))

end Sys2Proof.Machine
end

