-- ==== Sys2Proof/Machine/Cells.lean ====
section
/-!
DEFINITION. The two kinds of sparse data State is built from: `Cells`, an address map in one canonical
form (addresses rising, no entry equal to what an unlisted address reads as, which is 0), and `Tbl`, a
table of records by key. Byte order (00_scope.md R3) is decided here, once.
-/

namespace Sys2Proof.Machine

/-- A map from addresses to `w`-bit values. An unlisted address reads 0. -/
abbrev Cells (w : Nat) := List (Nat × BitVec w)

/-- The value at address `a`. -/
def Cells.get {w : Nat} : Cells w → Nat → BitVec w
  | [], _ => 0
  | (k, x) :: m, a => if k = a then x else Cells.get m a

/-- `m` without address `a`. -/
def Cells.drop {w : Nat} : Cells w → Nat → Cells w
  | [], _ => []
  | (k, x) :: m, a => if k = a then Cells.drop m a else (k, x) :: Cells.drop m a

/-- `m` with a non-zero value put at `a`, in its place in the order. -/
def Cells.put {w : Nat} : Cells w → Nat → BitVec w → Cells w
  | [], a, v => [(a, v)]
  | (k, x) :: m, a, v =>
    if a < k then (a, v) :: (k, x) :: m
    else if k = a then (a, v) :: m
    else (k, x) :: Cells.put m a v

/-- Write `v` at `a`. Writing 0 removes the entry, so equal maps are equal lists. -/
def Cells.set {w : Nat} (m : Cells w) (a : Nat) (v : BitVec w) : Cells w :=
  if v = 0 then m.drop a else m.put a v

/-- Every address of `m` is above `lo`. -/
def Cells.above {w : Nat} (m : Cells w) (lo : Nat) : Prop := ∀ p ∈ m, lo < p.1

/-- The canonical form: addresses strictly rising, no entry 0. -/
def Cells.wf {w : Nat} (m : Cells w) : Bool :=
  match m with
  | [] => true
  | (k, x) :: rest =>
    decide (x ≠ 0) && (match rest with | [] => true | (k', _) :: _ => decide (k < k')) && Cells.wf rest

/-- The canonical form of a memory. -/
abbrev Memory.wf (m : Cells 8) : Bool := Cells.wf m

/-- `n` bytes from address `a`, lowest address first. -/
def Cells.bytes (m : Cells 8) (a : Nat) : Nat → List Byte
  | 0 => []
  | n + 1 => m.get a :: Cells.bytes m (a + 1) n

/-- Write bytes from address `a` upwards. -/
def Cells.setBytes (m : Cells 8) (a : Nat) : List Byte → Cells 8
  | [] => m
  | b :: bs => Cells.setBytes (m.set a b) (a + 1) bs

/-- Bytes as one little-endian value (R3, R8). -/
def ofBytes : List Byte → Nat
  | [] => 0
  | b :: bs => b.toNat + 256 * ofBytes bs

/-- The low `n` bytes of a value, lowest first (R3). -/
def toBytes : Nat → Nat → List Byte
  | 0, _ => []
  | n + 1, v => BitVec.ofNat 8 v :: toBytes n (v / 256)

/-- `n` bytes at `a` as one little-endian value. -/
def Cells.le (m : Cells 8) (a n : Nat) : Nat := ofBytes (m.bytes a n)

/-- Set every address from `a` to `a + n - 1` to `v`. -/
def Cells.fill {w : Nat} (m : Cells w) (a : Nat) (v : BitVec w) : Nat → Cells w
  | 0 => m
  | n + 1 => Cells.fill (m.set a v) (a + 1) v n

/-- The entries of `m` at addresses from `lo` to `hi - 1` removed. -/
def Cells.clearRange {w : Nat} (m : Cells w) (lo hi : Nat) : Cells w :=
  m.filter fun p => decide (p.1 < lo) || decide (hi ≤ p.1)

/-- A table of records by key. -/
abbrev Tbl (κ α : Type) := List (κ × α)

variable {κ α : Type} [DecidableEq κ]

/-- The record of key `k`, if there is one. -/
def Tbl.find : Tbl κ α → κ → Option α
  | [], _ => none
  | (k', x) :: t, k => if k' = k then some x else Tbl.find t k

/-- The record of key `k`, or a default. -/
def Tbl.get (t : Tbl κ α) (k : κ) (dflt : α) : α := (Tbl.find t k).getD dflt

/-- Put a record under key `k`. -/
def Tbl.set : Tbl κ α → κ → α → Tbl κ α
  | [], k, v => [(k, v)]
  | (k', x) :: t, k, v => if k' = k then (k, v) :: t else (k', x) :: Tbl.set t k v

/-- Remove the records of key `k`. -/
def Tbl.erase : Tbl κ α → κ → Tbl κ α
  | [], _ => []
  | (k', x) :: t, k => if k' = k then Tbl.erase t k else (k', x) :: Tbl.erase t k

/-- Change the record of key `k`, if there is one. -/
def Tbl.upd : Tbl κ α → κ → (α → α) → Tbl κ α
  | [], _, _ => []
  | (k', x) :: t, k, f => if k' = k then (k', f x) :: t else (k', x) :: Tbl.upd t k f

/-- Change every record, seeing its key. -/
def Tbl.mapAll : Tbl κ α → (κ → α → α) → Tbl κ α
  | [], _ => []
  | (k, x) :: t, f => (k, f k x) :: Tbl.mapAll t f

/-- The records that meet a test. -/
def Tbl.keep (t : Tbl κ α) (p : κ → α → Bool) : Tbl κ α := t.filter fun e => p e.1 e.2

end Sys2Proof.Machine
end

