-- ==== Sys2Proof/Machine/State.lean ====
section
/-!
DEFINITION. The state of the BXE-9400 as plain data: threads, crews, blocks, gangs, launches, clusters
with their engines, homes, translation, queues, the management controller and the Scrim ports. A record
that is not listed has the value its reset gives. What stops the machine: `Fault` and `Refusal`.
-/

namespace Sys2Proof.Machine

/-- A launch record (03 R59). -/
abbrev Rec := BitVec 2048
/-- A sub-partition configuration block (21 R373). -/
abbrev Block1K := BitVec 8192
/-- A tensor identifier table entry (09 R221). -/
abbrev TEntry := BitVec 512
/-- A range entry of the image (22 R404 TYPE 2). -/
abbrev RangeE := BitVec 256

/-! ### Keys -/

/-- A thread: its launch and its work identifier (02 R30). -/
structure TKey where
  launch : Nat
  wid : Word64
  deriving DecidableEq, Repr

/-- A block: its launch and `%block` (02 R30). -/
structure BKey where
  launch : Nat
  block : Nat
  deriving DecidableEq, Repr

/-- A crew of a block (02 R23). -/
structure CKey where
  launch : Nat
  block : Nat
  crew : Nat
  deriving DecidableEq, Repr

/-- A gang: its launch and WID >> (bw + gw) (02 R30). -/
structure GKey where
  launch : Nat
  gang : Nat
  deriving DecidableEq, Repr

/-- A barrier instance (10 R245): its scope, the crew, block, gang or launch it belongs to, its id. -/
structure BarKey where
  scope : BarScope
  launch : Nat
  unit : Nat
  crew : Nat
  id : Nat
  deriving DecidableEq, Repr

/-- Where a byte lies once an address is resolved: a home address (device memory or a dado region), a
host physical address, a peer window (a physical address of this device's map), a scratchpad. -/
inductive Loc where
  | home (a : Nat)
  | host (a : Nat)
  | peer (a : Nat)
  | spad (b : BKey) (off : Nat)
  deriving DecidableEq, Repr

/-! ### Threads -/

/-- How an instruction stands to the block fetch it waits for (14 R288, R294): the fetch is on its way; it has arrived for it;
or it has gone without serving it, so that the instruction looks at the block store again. -/
inductive BlockWait where
  | out
  | here
  | retry
  deriving DecidableEq, Repr

/-- What a thread waits in. -/
inductive WaitKind where
  /-- Nothing: the thread may issue. -/
  | none
  /-- A `yield` (07 R169): slots passed since. -/
  | yield (slots : Nat)
  /-- The instruction at the PC executes again when the thread is resumed. -/
  | again
  /-- The same, for a store that the write budget holds back (09 R227). -/
  | store
  /-- The same, for an instruction that waits for the fetch of a coded block: the fetch's number, and how it
  stands to it (14 R288, R294). -/
  | block (fetch : Nat) (st : BlockWait)
  /-- A fence with its snapshot of store-queue entries (05 R119). -/
  | fence (snap : List Nat)
  /-- A `bflush` (14 R297): whether patches are still to be sent, and those it waits for. -/
  | flush (more : Bool) (snap : List Nat)
  /-- A blocking acquire that waits at its home (05 R114). -/
  | acq (req : Nat)
  /-- An acquire or release that waits for a peer's answer (17 R344). -/
  | peerSync (tag : Nat)
  /-- A blocking `deq` among the waiters (02 R50). -/
  | deq (req : Nat)
  /-- A `qpop` among the waiters of a delivery queue, with its place (06 R423; 16 R319). -/
  | qpop (q : Nat) (order : Nat)
  /-- A `bar` that has arrived (10 R247). -/
  | bar (key : BarKey) (phase : Word32)
  /-- Released in a wave: the cluster cycle at which the crew leaves (10 R249); `wide` says whether the barrier's scope
  is above the crew, so that shedding parks the crew (10 R261). -/
  | wave (due : Nat) (wide : Bool)
  /-- Parked at a completed barrier of a launch whose class is shed (10 R250). -/
  | parked
  /-- The fetch at the PC waits: for a fault request with its address, or for bytes on their way (06 R144; 04 R76). -/
  | fetch (page : Option (Nat × Nat))
  /-- A fault request without a log entry, and the thread's own faulting address; none for a thread that stalls with its crew
  (06 R144, R158; 09 R233). -/
  | page (token : Nat) (va : Option Nat)
  /-- That request completed with FAIL = 1: PAGE is to be raised, with the faulting address (06 R144). -/
  | pageFail (va : Nat)
  deriving DecidableEq, Repr

/-- A wait, and whether it counts under R42. -/
structure Wait where
  kind : WaitKind
  counts : Bool
  deriving DecidableEq, Repr

/-- A chain in progress (04 R90 to R95). -/
structure Chain where
  head : Word64
  headWord : Word32
  len : Nat
  regs : List Nat
  preds : List Nat
  headSelf : Bool
  rng : Word64
  deriving DecidableEq, Repr

/-- The leaf of a translation that an access used, at one page of 64 KiB: that page, its block of memory, and RLD (06 R130; 21 R395). -/
structure UsedLeaf where
  page : Nat
  block : Nat
  rld : Bool
  deriving DecidableEq, Repr

/-- Why a thread's gang is to be killed (06 R150; 21 R393, R394). -/
structure Kill where
  kind : BitVec 2
  cause : Byte
  tpc : Word64
  tinfo : Word128
  leaf : Option UsedLeaf
  deriving DecidableEq, Repr

/-- One Hawk batch of a thread (16 R320 to R322). -/
structure Batch where
  copies : List Nat
  status : Word64
  reported : Bool
  deriving DecidableEq, Repr

/-- A trap that waits: until the waiting instruction is settled (06 R423), or, a precise one, until the earlier instructions of
the thread are complete (06 R149). -/
structure Due where
  cause : Byte
  sub : Nat
  value : Word64
  tpc : Word64
  ipc : Word64
  defer : Bool
  chain : Bool
  deriving DecidableEq, Repr

/-- What a chain struck by a forced switch waits for: a physical register or a predicate of a thread of its run
(04 R94). -/
structure Await where
  key : TKey
  pred : Bool
  n : Nat
  deriving DecidableEq, Repr

/-- What a waiting `hrun` read when it issued: its descriptor, and the source and the layout conversion of its copy (16 R318; 01
R17). -/
structure Program where
  desc : BitVec 512
  src : Int
  lc : Nat
  deriving DecidableEq, Repr

/-- A thread (02 R23). `await` holds the operands that a chain struck by a forced switch waits for (04 R94); `due` the traps
to take once the waiting instruction is settled; `issue` numbers the issue it last took part in, so that an instruction that
waits executes again for the same threads together; `kept` is the tensor entry that the waiting instruction read when it
issued (01 R17), `prog` what a waiting `hrun` read then; `todo` names the blocks, by tensor and address, whose patches a waiting `rel` has still to send (14 R303); `seen` are the sectors the thread has read at their home past its L1, whose older L1 copy it does not take
(05 R107). -/
structure Thread where
  pc : Word64
  regs : Cells 32
  preds : BitVec 8
  fpm : Word32
  base : Nat
  latches : List Word128
  chain : Option Chain
  tcause : Word32
  tpc : Word64
  twb : Word32
  tinfo : Word128
  resume : Word64
  inHandler : Bool
  handlerAt : Nat
  wait : Wait
  age : Nat
  blockCtr : Nat
  batchNo : Nat
  batches : Tbl Nat Batch
  dying : Option Kill
  await : List Await
  due : List Due
  issue : Nat
  kept : Option TEntry
  prog : Option Program
  todo : Option (List (Nat × Nat))
  seen : List Nat
  deriving DecidableEq, Repr

/-- Crew-wide state: generator key and counter (07 R182), unacknowledged entries (05 R110), and whether the crew has become
reconverged since a pre-emption was requested (02 R53). -/
structure Crew where
  rngKey : Word64
  rngCtr : Word64
  unacked : Nat
  stopped : Bool
  deriving DecidableEq, Repr

/-- A block (02 R23). `arrivals` holds the offsets of the arrival words that a `swait` or a copy has named
(16 R323, LOG 20). -/
structure Block where
  cluster : Nat
  place : Nat
  resident : Bool
  scratch : Cells 8
  poison : Cells 2
  arrivals : List Nat
  starve : Word128
  deriving DecidableEq, Repr

/-- Where a gang stands (02 R52 to R56). -/
inductive GangStatus where
  | running
  | requested (atNs : Nat) (timeoutNs : Nat)
  | saved (full : Bool)
  deriving DecidableEq, Repr

structure Gang where
  status : GangStatus
  kills : Nat
  frozen : Bool
  shedAt : Option Nat
  quantumAt : Nat
  die : Nat
  deriving DecidableEq, Repr

/-- Where a launch stands (03 R64): running; ending with a STATUS, its patches still to go home (14 R301); or with only its
record to write, as a record that starts no thread is from the first (03 R62). -/
inductive LaunchStatus where
  | running
  | ending (status : Byte)
  | writing (status : Byte)
  deriving DecidableEq, Repr

/-- A launch, or a refused record that waits to be written (03 R64, R65): `detail` is its DETAIL, `atCpl` whether it may
be written at CPL; `pending` are the gangs not started, in ascending order. -/
structure Launch where
  record : Rec
  detail : Nat
  atCpl : Bool
  part : Nat
  sub : Nat
  queue : Nat
  status : LaunchStatus
  pending : List Nat
  retired : Nat
  relaunches : Nat
  token : Option Nat
  deriving DecidableEq, Repr

/-- A barrier instance (10 R245): `expected` none before the phase's first arrival, `some 0` for all. -/
structure Barrier where
  phase : Word32
  arrivals : Nat
  expected : Option Nat
  arrived : List TKey
  deriving DecidableEq, Repr

/-! ### The memory path -/

/-- One granule piece of a load in flight (05 R106). `taken` are the queued writes it took when a peer was asked for it
(05 R108), in queue order. -/
structure Piece where
  loc : Loc
  va : Nat
  n : Nat
  got : Option (List Byte)
  mark : BitVec 2
  tag : Option Nat
  taken : List (Loc × List Byte × BitVec 2)
  deriving DecidableEq, Repr

/-- A load or atomic whose data has not returned (06 R424). `dst` is the first physical register, `prio` the replacement
priority its line takes at home (09 R229); `watch` marks a `pchk`, which reads as a `wait` reads (10 R254). -/
structure PendLoad where
  id : Nat
  key : TKey
  pc : Word64
  dst : Option Nat
  pred : Option (PredD × BitVec 3 × Nat)
  ty : MemTy
  hint : LdHint
  watch : Bool
  prio : Nat
  atomic : Bool
  pieces : List Piece
  leaves : List UsedLeaf
  deriving DecidableEq, Repr

/-- A patch (14 R290). `forced` carries the header and CLAMP of the decode. -/
structure Patch where
  part : Nat
  ctx : Nat
  tid : Nat
  index : Nat
  va : Nat
  pieces : List (Loc × Nat)
  f64 : Bool
  dim : Nat
  rate : Nat
  ext : List Nat
  mask : Word64
  forced : Option (Nat × Bool)
  vals : List Word64
  deriving DecidableEq, Repr

/-- What a store-queue entry does at its point of coherence (05 R110). -/
inductive SqOp where
  | write (bytes : List Byte) (mark : BitVec 2)
  | atomic (op : AtomOp) (wide : Bool) (operand : Nat) (cmp : Nat) (load : Nat)
  | patch (p : Patch)
  deriving DecidableEq, Repr

/-- Whose budgets and usage counters a piece of work is charged to, and whose context it acts in. -/
structure Bill where
  part : Nat
  sub : Nat
  owner : Nat
  ctx : Nat
  deriving DecidableEq, Repr

/-- An entry of a cluster's store queue. `who` numbers the access of a store and gives its instruction's PC: a peer that
refuses it raises ACCESS there (17 R338). `port` is the port of an `xcpy` packet, of up to 4,096 bytes (16 R329). -/
structure SqEntry where
  id : Nat
  key : TKey
  who : Option (Nat × Word64)
  bill : Bill
  counted : Bool
  copy : Option Nat
  strm : Option (BitVec 2)
  prio : Nat
  loc : Loc
  va : Nat
  n : Nat
  op : SqOp
  port : Option Nat
  tag : Option Nat
  deriving DecidableEq, Repr

structure L1Sector where
  sector : Nat
  bytes : List Byte
  marks : BitVec 4
  deriving DecidableEq, Repr

/-- An `.ro` replica of a sector (05 R112). -/
structure Replica where
  die : Nat
  launch : Nat
  sector : Nat
  bytes : List Byte
  deriving DecidableEq, Repr

/-- A logged access of one thread (06 R142). -/
structure LogAcc where
  key : TKey
  va : Nat
  data : List Byte
  cmp : Nat
  dst : Option Nat
  tokens : List Nat
  failed : Option Nat
  deriving DecidableEq, Repr

inductive AccKind where
  | load (hint : LdHint)
  | store
  | atomic (op : AtomOp) (wide : Bool)
  deriving DecidableEq, Repr

structure LogEntry where
  id : Nat
  issue : Nat
  cl : Nat
  quarter : Nat
  crew : CKey
  pc : Word64
  kind : AccKind
  ty : MemTy
  strm : BitVec 2
  prio : Nat
  accs : List LogAcc
  deriving DecidableEq, Repr

/-- A fault request outstanding (06 R144). `offered` says whether its item has left for the fault queue, or is held on its way
there: while a quarter holds an item of a log entry or of a stalled crew, their further requests are not made yet (06 R145). -/
structure FaultReq where
  token : Nat
  offered : Bool
  part : Nat
  sub : Nat
  ctx : Nat
  va : Nat
  wr : Bool
  fetch : Bool
  illf : Bool
  deriving DecidableEq, Repr

/-- Who asked for an acquire: a thread here (with the PC after its instruction), or a peer through a port
(05 R114; 17 R344). -/
inductive AcqFrom where
  | thread (key : TKey) (req : Nat) (next : Word64)
  | peer (port : Nat) (tag : Nat) (dev : Nat) (wid : Word64)
  deriving DecidableEq, Repr

structure AcqReq where
  obj : Nat
  va : Nat
  excl : Bool
  who : AcqFrom
  deriving DecidableEq, Repr

/-- Which translation cache holds an entry (06 R133). -/
inductive TlbAt where
  /-- A lane's last-page register; a thread's lane is its crew rank (02 R46). -/
  | lane (cl q l : Nat)
  | quarter (cl q : Nat)
  | cluster (cl : Nat)
  | die (d : Nat)
  deriving DecidableEq, Repr

structure TlbEntry where
  at_ : TlbAt
  part : Nat
  ctx : Nat
  base : Nat
  size : Nat
  pa : Nat
  wr : Bool
  ex : Bool
  rld : Bool
  deriving DecidableEq, Repr

/-! ### Contexts -/

/-- An entry of the binding table (05 R117). -/
structure Binding where
  base : Nat
  size : Nat
  obj : Word64
  deriving DecidableEq, Repr

/-- A range shared with the host (06 R136). -/
structure OwnRange where
  base : Nat
  size : Nat
  host : Bool
  deriving DecidableEq, Repr

structure Ctx where
  tensors : Cells 512
  binds : Tbl Nat Binding
  ranges : List OwnRange
  deriving DecidableEq, Repr

/-! ### Queues -/

structure LQueue where
  staging : Rec
  recs : List Rec
  head : Option Nat
  token : Option Nat
  deriving DecidableEq, Repr

structure HwQueue where
  items : List Word128
  refused : Word32
  deriving DecidableEq, Repr

/-- A `deq` among the waiters (02 R50). -/
structure DeqReq where
  id : Nat
  key : TKey
  grp : Bool
  sel : Nat
  dst : Option Nat
  next : Word64
  deriving DecidableEq, Repr

/-- A deficit round-robin ring or group (02 R51). -/
structure RR where
  members : List Nat
  cur : Nat
  deficit : List Nat
  deriving DecidableEq, Repr

/-- The rings of R68 and the groups of R60. -/
inductive RingKey where
  | group (launch g : Nat)
  | subs (die part prio : Nat)
  | queues (die part sub prio : Nat)
  deriving DecidableEq, Repr

/-- A device item held by its source (06 R145). -/
structure Held where
  source : Nat
  queue : Nat
  item : Word128
  deriving DecidableEq, Repr

/-! ### Engines -/

/-- A decoded block resident in a block store (14 R287). `sub` and `owner` are those of the launch that fetched it,
for the charges of its patch; `res` is the RES of the entry it was decoded through (09 R229). -/
structure BsBlock where
  part : Nat
  sub : Nat
  owner : Nat
  ctx : Nat
  tid : Nat
  index : Nat
  va : Nat
  f64 : Bool
  dim : Nat
  rate : Nat
  ext : List Nat
  res : Nat
  hdr : Nat
  vals : List Word64
  dirty : Word64
  clamp : Bool
  special : Bool
  zero : Bool
  refresh : Bool
  low : Bool
  lru : Nat
  deriving DecidableEq, Repr

/-- A thread that waits for a block fetch: whether a mark makes it a consumer, whether it takes the fetch's result and its faults
as its own (14 R288), and the position it accesses (14 R294). -/
structure BsWaiter where
  key : TKey
  consumer : Bool
  joins : Bool
  pos : Option Nat
  deriving DecidableEq, Repr

/-- A block fetch in flight (14 R288): its tag, the pieces and leaves its checks found, the threads that wait for it, whether it arrives with
REFRESH set (14 R303), whether a `bdec` asked for it, so that later accesses wait for it (14 R296), and whether the write budget
holds back the patch of a block that must make room for it (14 R289). -/
structure BsFetch where
  id : Nat
  tag : BsBlock
  pieces : Option (List (Loc × Nat × Nat))
  leaves : List UsedLeaf
  waiters : List BsWaiter
  stale : Bool
  ahead : Bool
  held : Bool
  deriving DecidableEq, Repr

/-- The merge-error record of a context on a cluster (14 R293). -/
structure MergeErr where
  sub : Nat
  tid : Nat
  va : Nat
  deriving DecidableEq, Repr

/-- An entry of a delivery queue or an operand FIFO, with its mark and poisoned address (19 R360). -/
structure Entry where
  bytes : List Byte
  mark : BitVec 2
  paddr : Word64
  deriving DecidableEq, Repr

/-- What makes a copy (16 R310, R316, R324, R329): `entries` are those not asked yet. -/
inductive CopyKind where
  | one
  | prog (slot : Nat) (desc : BitVec 512)
  | multi (entries : List (Nat × BitVec 16)) (accepted : List BKey)
  | packets (psel : Bool) (port : Nat) (size : Nat)
  deriving DecidableEq, Repr

/-- A byte on its way through the Hawk, with its mark and the address of the poisoned granule it came from. -/
structure HByte where
  b : Byte
  mark : BitVec 2
  pa : Word64
  deriving DecidableEq, Repr

/-- A copy the Hawk performs (16 R310). `pos` counts the source bytes (raw bytes with DZ) read, `zsrc` the bytes of the
packed run taken, `raw` holds bytes not yet through the chain, `out` converted bytes, `put` counts the bytes delivered,
`dead` is the mark and address of the zeros that follow a packed-block failure (16 R327), `tokens` the fault requests that the
copy waits for. -/
structure Copy where
  id : Nat
  kind : CopyKind
  launch : Nat
  block : BKey
  members : List (TKey × Nat)
  sk : CopySrc
  src : Int
  dk : CopyDst
  dst : Nat
  len : Nat
  dz : Bool
  lc : Nat
  et : CopyEt
  ops : Word64
  aw : Option Nat
  pos : Nat
  zsrc : Nat
  raw : List HByte
  out : List HByte
  put : Nat
  dead : Option (BitVec 2 × Word64)
  status : Word64
  stopped : Bool
  tokens : List Nat
  deriving DecidableEq, Repr

structure Hawk where
  copies : List Copy
  slots : Tbl (BKey × Nat) Nat
  dqs : Tbl (BKey × Nat) (List Entry)
  deriving DecidableEq, Repr

inductive SlotKind where | fp32 | s32 | fp64
  deriving DecidableEq, Repr

/-- An accumulator slot (19 R351). `odd` marks the upper slot of an FP64 pair. Element (i, j) is at 32 i + j. -/
structure AccSlot where
  kind : SlotKind
  odd : Bool
  tile : Cells 64
  deriving DecidableEq, Repr

/-- A task (19 R355 to R360). `since` is the number of the next store-queue entry when it was entered: earlier ones are
below it. -/
structure Task where
  no : Nat
  since : Nat
  op : BitVec 2
  tol : BitVec 2
  aTy : Nat
  aScaled : Bool
  aSbase : Word64
  bTy : Nat
  bScaled : Bool
  bSbase : Word64
  slot : Nat
  aeng : Nat
  beng : Nat
  k : Nat
  deps : List Nat
  asoff : Nat
  bsoff : Nat
  running : Bool
  step : Nat
  curA : Option Entry
  scales : Option (List Byte × List Byte)
  rerun : Bool
  fail : Option Nat
  fcause : Nat
  ue : Bool
  paddr : Word64
  tokens : List Nat
  deriving DecidableEq, Repr

structure Matrix where
  holder : Option BKey
  part : Nat
  ctx : Nat
  slots : Tbl Nat AccSlot
  fifos : Tbl Nat (List Entry)
  tasks : List Task
  ctr : Nat
  done : Tbl Nat (Word32 × Word64)
  deriving DecidableEq, Repr

/-- A promoted run (02 R39): its threads, and the number that says in which order runs were promoted. -/
structure Promoted where
  no : Nat
  keys : List TKey
  deriving DecidableEq, Repr

/-- What the engines of a cluster keep of a saved block (16 R333; 19 R365; 14 R301): `unsent` are the dirty blocks a
full save could not send (14 R303; those of a gang killed while saved are the state's `orphans`, with their cluster), `promoted`
the promoted runs of its quarters (02 R58). -/
structure SavedWork where
  copies : List Copy
  slots : Tbl Nat Nat
  dqs : Tbl Nat (List Entry)
  matrix : Option Matrix
  mergeErr : Option MergeErr
  unsent : List BsBlock
  promoted : List (Nat × Promoted)
  deriving DecidableEq, Repr

structure Quarter where
  promoted : List Promoted
  deriving DecidableEq, Repr

structure Island where
  skim : Bool
  idleNs : Nat
  deriving DecidableEq, Repr

structure Cluster where
  cyc : Nat
  scan : Word32
  power : Word32
  mhz : Nat
  inService : Bool
  draining : Bool
  lent : Option (Nat × Nat)
  recalled : Bool
  freeze : Option Nat
  quarters : Tbl Nat Quarter
  islands : Tbl (Nat × Nat) Island
  l1 : List L1Sector
  sq : List SqEntry
  store : List BsBlock
  fetches : List BsFetch
  mergeErr : Tbl (Nat × Nat) MergeErr
  hawk : Hawk
  matrix : Matrix
  scanParts : List Nat
  deriving DecidableEq, Repr

/-! ### Scrim -/

/-- A transaction (17 R338). -/
structure ScrimTx where
  hdr : Word128
  data : List Byte
  deriving DecidableEq, Repr

/-- Who reads a peer's memory and waits for the bytes. -/
inductive Client where
  | thread (key : TKey)
  | copy (cl id : Nat)
  | fetch (cl id : Nat)
  | task (cl no : Nat)
  | image (q : Nat)
  deriving DecidableEq, Repr

/-- A read of a peer's memory for a client that needs all its bytes before it acts (17 R344): the status,
mark and bytes of the answer, once it has arrived. -/
structure PeerRead where
  client : Client
  pa : Nat
  n : Nat
  answer : Option (Nat × List Byte)
  deriving DecidableEq, Repr

/-- What a tag that this device sent stands for. `sync` says whether it is an acquire, and whether its withdrawal has been
sent; `posted` is a write nothing waits for, `cpl` the completion record of a partition's launch, with its CPL (03 R65). -/
inductive TagUse where
  | read (client : Client) (pa : Nat)
  | load (id piece : Nat)
  | store (cl id : Nat)
  | atomic (cl id : Nat)
  | sync (key : TKey) (acq : Bool) (addr va : Nat) (tryP : Option (PredD × Bool)) (next : Word64) (drawn : Bool)
  | posted
  | cpl (part : Nat) (cpl : Word64) (record : Word128)
  deriving DecidableEq, Repr

/-- A port; `retrain` keeps the lanes of a retraining that was asked for during a shed (17 R346). -/
structure Port where
  state : BitVec 2
  failmask : BitVec 16
  replays : BitVec 16
  sheds : BitVec 16
  paused : Bool
  retrain : Option (BitVec 16)
  nextSeq : BitVec 12
  kept : List (BitVec 2048)
  sent : List (BitVec 2048)
  stream : List Byte
  expect : BitVec 12
  gotAny : Bool
  nakked : Bool
  rx : List Byte
  inbox : List ScrimTx
  tags : Tbl Nat TagUse
  answers : Tbl Nat Nat
  deriving DecidableEq, Repr

/-! ### Management -/

structure SubCfg where
  held : Block1K
  live : Block1K
  inForce : Block1K
  cstat : Nat
  deriving DecidableEq, Repr

/-- An invalidation or ownership command in progress (06 R134, R137): its completion word, and the reads and the
store-queue entries it waits for, the acquires at peers by thread and address, and the reads of a peer's memory by client and
physical address. -/
structure Cmd where
  cmd : Word128
  word : Nat
  waitLoads : List Nat
  waitSq : List Nat
  waitSync : List (TKey × Nat)
  waitPeers : List (Client × Nat)
  deriving DecidableEq, Repr

structure Partition where
  subs : Tbl Nat SubCfg
  starveHeld : Word128
  sstat : Nat
  fault : BitVec 256
  lost : BitVec 256
  inval : List Cmd
  own : List Cmd
  disabled : Bool
  deriving DecidableEq, Repr

/-- The accepted configuration image (22 R403 to R405). -/
structure Image where
  accepted : Bool
  dev : Byte
  ranges : List RangeE
  ports : List Word128
  hot : List Word64
  hotTh : List Nat
  limits : Word64
  deriving DecidableEq, Repr

/-- What the host has done that waits, in the order of arrival: reads and writes of a stack that is not ready or of a block under
reload, writes held while a checkpoint or a restore runs, and the window writes behind them (22 R408, R410, R412; 05 R124). -/
inductive HostWrite where
  | read (a len : Nat)
  | mem (a : Nat) (bs : List Byte)
  | item (q size : Nat) (v : Word128)
  | doorbell (q : Nat) (staged : Rec)
  deriving DecidableEq, Repr

/-- Registers and tables of the management controller (21 R377, R396; 22 R403 to R411). `acceptReg` is ACCEPT as written,
`accept` the features of the last accepted commit, `corrected` the count of corrected errors (21 R392). -/
structure Mgmt where
  imgBuf : Cells 8
  imgStat : Nat
  image : Image
  acceptReg : Word128
  accept : Word128
  committed : Bool
  fstat : Nat
  ready : Word128
  failed : Word128
  ckBase : Word64
  ckStat : Nat
  ckCmd : Nat
  ckPois : Word64
  heldWrites : List HostWrite
  linkDown : Bool
  corrected : Nat
  owners : Cells 32
  queues : Cells 32
  lqueues : Cells 32
  reload : Cells 128
  deriving DecidableEq, Repr

structure Governor where
  rhold : Nat
  level : Nat
  count : Nat
  lost : Bool
  sinceNs : Nat
  curve : Cells 64
  sample : Word64
  i3c : Option (BitVec 7)
  deriving DecidableEq, Repr

/-- A memory stack and its Lath base die (01 R11, R12). `interval` numbers the refresh interval over which `acts` counts
activations (21 R380). -/
structure Stack where
  hot : Tbl (Nat × Nat) Nat
  remap : Tbl Nat Nat
  acts : Tbl (Nat × Nat) Nat
  interval : Nat
  throttled : List (Nat × Nat)
  refreshing : Tbl (Nat × Nat) Nat
  selfRefresh : Bool
  deriving DecidableEq, Repr

/-- Usage counters of an owner (21 R383). -/
structure Usage where
  energy : Word64
  link : Word64
  wbytes : Word64
  rbytes : Word64
  mbusy : Word64
  ccyc : Word64
  deriving DecidableEq, Repr

/-- The rails and the thermal sequence (21 R391). -/
structure Thermal where
  railsOff : Bool
  holding : Bool
  deriving DecidableEq, Repr

/-! ### The machine -/

/-- Where an uncorrectable error arises (21 R392): a sector of DRAM, with the bits of its data and of its check field that turn
over; a granule in a home's cache; a sector of an L1. -/
inductive Flaw where
  | dram (sector : Nat) (data : BitVec 512) (field : Word32)
  | home (granule : Nat)
  | l1 (cl sector : Nat)
  deriving DecidableEq, Repr

/-- Which agent moves next (the model's own field; LOG 3, 5). -/
inductive Move where
  /-- A quarter's next slot. -/
  | issue (cl q : Nat)
  /-- A waiting thread executes its instruction again. -/
  | resume (key : TKey)
  /-- Cycles pass on a cluster. -/
  | cycles (cl n : Nat)
  /-- Nanoseconds pass on a die scheduler's clock. -/
  | tick (die n : Nat)
  /-- An event row of the table. -/
  | event (i : Instr)
  /-- The host reads `size` bytes of BAR0 (22 R400). -/
  | barRead (off size : Nat)
  /-- An uncorrectable error arises; a correctable one is corrected and counted (21 R392). -/
  | flaw (x : Flaw)
  | corrected
  /-- A request of a partition activates a row of a stack (21 R380). -/
  | activate (part stack row : Nat)
  deriving DecidableEq, Repr

/-- The machine. `fieldOff` holds, for each sector, the check field it carries xor the CRC-32C of its data (22 R409); `consumed` holds the leaves through which killed threads consumed UE marks (21 R395); `roots`
the root entries that walkers have cached (21 R375). -/
structure State where
  -- memory
  mem : Cells 8
  poison : Cells 2
  fieldOff : Cells 32
  l2 : Cells 4
  l2dirty : Cells 1
  l2gran : Cells 1
  evicting : List (Nat × Bill)
  replicas : List Replica
  hostMem : Cells 8
  reloading : List (Nat × Nat)
  consumed : List UsedLeaf
  -- work
  threads : Tbl TKey Thread
  crews : Tbl CKey Crew
  blocks : Tbl BKey Block
  gangs : Tbl GKey Gang
  launches : Tbl Nat Launch
  barriers : Tbl BarKey Barrier
  loads : List PendLoad
  log : List LogEntry
  faults : List FaultReq
  acqs : List AcqReq
  peerReads : List PeerRead
  -- queues and scheduling
  lqueues : Tbl Nat LQueue
  queues : Tbl Nat HwQueue
  deqs : List DeqReq
  rings : Tbl RingKey RR
  held : List Held
  -- clusters, dies, stacks, ports
  clusters : Tbl Nat Cluster
  dieNs : Tbl Nat Nat
  saved : Tbl BKey SavedWork
  orphans : List (Nat × BsBlock)
  hbm : Tbl Nat Stack
  ports : Tbl Nat Port
  -- translation and contexts
  tlb : List TlbEntry
  roots : Tbl (Nat × Nat) Nat
  ctxs : Tbl (Nat × Nat) Ctx
  windows : Tbl Nat Nat
  wctr : Tbl (Nat × Nat × Nat) Nat
  rctr : Tbl (Nat × Nat × Nat) Nat
  -- management
  parts : Tbl Nat Partition
  mgmt : Mgmt
  gov : Governor
  usage : Tbl Nat Usage
  thermal : Thermal
  hostRead : List (Byte × BitVec 2)
  barRead : Word64
  -- the model's own fields
  agenda : List Move
  run : List TKey
  oracle : List Nat
  free : Nat
  serial : Nat
  placeNo : Nat
  turn : Nat
  deriving DecidableEq, Repr

/-- What stops the machine. -/
inductive Fault where
  /-- A host CXL.mem access outside the 768 GiB of device memory that the HDM decoder exposes (22 R399,
  01 R11): the spec says no such address exists. Raised by HOST_MEM_READ and HOST_MEM_WRITE. Safe. -/
  | outsideDeviceMemory
  deriving DecidableEq, Repr

/-- Why the model has no meaning for an instruction. -/
inductive Refusal where
  /-- An arm of Dispatch not written yet. Safe: nothing is claimed of it. -/
  | notModelled (mnemonic : String)
  deriving DecidableEq, Repr

/-! ### Reset values -/

def Wait.idle : Wait := { kind := .none, counts := false }

/-- The state of a thread when its block starts (03 R61). -/
def Thread.start (code : Word64) : Thread :=
  { pc := code, regs := [], preds := 0, fpm := 0, base := 0, latches := [], chain := none,
    tcause := 0, tpc := 0, twb := 0, tinfo := 0, resume := 0, inHandler := false, handlerAt := 0,
    wait := Wait.idle, age := 0, blockCtr := 0, batchNo := 0, batches := [], dying := none,
    await := [], due := [], issue := 0, kept := none, prog := none, todo := none, seen := [] }

def Crew.start : Crew := { rngKey := 0, rngCtr := 0, unacked := 0, stopped := false }

def Hawk.empty : Hawk := { copies := [], slots := [], dqs := [] }

def Matrix.free : Matrix :=
  { holder := none, part := 0, ctx := 0, slots := [], fifos := [], tasks := [], ctr := 0, done := [] }

/-- A cluster after reset: power register HOLD 48, SPACE 4, WAVE 8 (21 R386). -/
def Cluster.reset : Cluster :=
  { cyc := 0, scan := 0, power := 0x00300408, mhz := 2200, inService := true, draining := false,
    lent := none, recalled := false, freeze := none, quarters := [], islands := [], l1 := [], sq := [],
    store := [], fetches := [], mergeErr := [], hawk := Hawk.empty, matrix := Matrix.free, scanParts := [] }

/-- The STARVE record after reset: PREEMPT_TMO 200 (02 R44). -/
def starveReset : Word128 := 200 <<< 96

/-- A sub-partition block after reset: WBUD and RBUD of every stack, STARVE (21 R373). -/
def subBlockReset : Block1K :=
  let word (off v : Nat) : Nat := v * 2 ^ (8 * off)
  let budgets (off v : Nat) : Nat := (List.range 8).foldl (fun x s => x + word (off + 4 * s) v) 0
  BitVec.ofNat 8192 (starveReset.toNat * 2 ^ (8 * 0x10) + budgets 0x20 12800000 + budgets 0x40 51200000)

def SubCfg.reset : SubCfg := { held := subBlockReset, live := subBlockReset, inForce := subBlockReset, cstat := 0 }

def Partition.reset : Partition :=
  { subs := [], starveHeld := starveReset, sstat := 0, fault := 0, lost := 0, inval := [], own := [],
    disabled := false }

/-- No section: the effects of R405. TYPE 5 absent: RATH 2,048, TCRIT 105, SCANINT 10,000. -/
def Image.empty : Image :=
  { accepted := false, dev := 0, ranges := [], ports := [], hot := [], hotTh := [],
    limits := 2048 + 105 * 2 ^ 16 + 10000 * 2 ^ 32 }

/-- Only the management controller is ready after reset (22 R403, R408). -/
def Mgmt.reset : Mgmt :=
  { imgBuf := [], imgStat := 0, image := Image.empty, acceptReg := 0, accept := 0, committed := false, fstat := 0,
    ready := 1, failed := 0, ckBase := 0, ckStat := 0, ckCmd := 0, ckPois := 0, heldWrites := [],
    linkDown := false, corrected := 0, owners := [], queues := [], lqueues := [], reload := [] }

/-- RHOLD resets to 4 (21 R389). -/
def Governor.reset : Governor :=
  { rhold := 4, level := 0, count := 0, lost := false, sinceNs := 0, curve := [], sample := 0, i3c := none }

def Stack.reset : Stack :=
  { hot := [], remap := [], acts := [], interval := 0, throttled := [], refreshing := [], selfRefresh := false }

def Port.reset : Port :=
  { state := 0, failmask := 0, replays := 0, sheds := 0, paused := true, retrain := none, nextSeq := 0, kept := [],
    sent := [], stream := [], expect := 0, gotAny := false, nakked := false, rx := [], inbox := [],
    tags := [], answers := [] }

def Ctx.empty : Ctx := { tensors := [], binds := [], ranges := [] }
def LQueue.empty : LQueue := { staging := 0, recs := [], head := none, token := none }
def HwQueue.empty : HwQueue := { items := [], refused := 0 }
def Barrier.start : Barrier := { phase := 0, arrivals := 0, expected := none, arrived := [] }
def Usage.zero : Usage := { energy := 0, link := 0, wbytes := 0, rbytes := 0, mbusy := 0, ccyc := 0 }
def Thermal.reset : Thermal := { railsOff := false, holding := false }

/-- The machine right after reset (22 R403): nothing persists, only the management controller runs. -/
def State.reset : State :=
  { mem := [], poison := [], fieldOff := [], l2 := [], l2dirty := [], l2gran := [], evicting := [], replicas := [], hostMem := [],
    reloading := [], consumed := [], threads := [], crews := [], blocks := [], gangs := [], launches := [],
    barriers := [], loads := [], log := [], faults := [], acqs := [], peerReads := [], lqueues := [], queues := [],
    deqs := [], rings := [], held := [], clusters := [], dieNs := [], saved := [], orphans := [], hbm := [], ports := [],
    tlb := [], roots := [], ctxs := [], windows := [], wctr := [], rctr := [], parts := [], mgmt := Mgmt.reset,
    gov := Governor.reset, usage := [], thermal := Thermal.reset, hostRead := [], barRead := 0, agenda := [],
    run := [], oracle := [], free := 0, serial := 0, placeNo := 0, turn := 0 }

end Sys2Proof.Machine
end

