-- ==== Sys2Proof/Machine/Records.lean ====
section
/-!
DEFINITION. The records of the machine read as fields: the launch record (03_launch_and_scheduling.md R59, R60),
the work identifier (02_execution_model.md R27 to R34), the starvation record (02 R44), the sub-partition block
(21 R373), the tensor entry (09 R221), the table entries of 21 R377 and the configuration image (22 R404).
-/

namespace Sys2Proof.Machine

/-! ### The launch record -/

namespace Rec

def code (r : Rec) : Word64 := r.extractLsb' 0 64
def tvec (r : Rec) : Word64 := r.extractLsb' 64 64
def cpl (r : Rec) : Word64 := r.extractLsb' 128 64
def timg (r : Rec) : Word64 := r.extractLsb' 192 64
/-- Width wk (R27). -/
def width (r : Rec) (k : Nat) : Nat := (r.extractLsb' (256 + 6 * k) 6).toNat
def kb (r : Rec) : Nat := (r.extractLsb' 292 3).toNat
def kg (r : Rec) : Nat := (r.extractLsb' 295 3).toNat
/-- The class code of level k, 1 to 6: 0 W, 1 P, 2 C (R34). -/
def cls (r : Rec) (k : Nat) : Nat := (r.extractLsb' (296 + 2 * k) 2).toNat
/-- Registers of each thread (R59 REGS). -/
def regs (r : Rec) : Nat := 128 * ((r.extractLsb' 320 2).toNat + 1)
def trsv (r : Rec) : Bool := r.getLsbD 322
def rela (r : Rec) : Bool := r.getLsbD 323
def bmode (r : Rec) : Bool := r.getLsbD 324
def prio (r : Rec) : Nat := (r.extractLsb' 328 3).toNat
/-- Scratchpad bytes of each block. -/
def scratchBytes (r : Rec) : Nat := 1024 * (r.extractLsb' 336 9).toNat
def tcnt (r : Rec) : Nat := (r.extractLsb' 352 11).toNat
def owner (r : Rec) : Nat := (r.extractLsb' 368 16).toNat
def quantum (r : Rec) : Nat := (r.extractLsb' 384 32).toNat
def ctx (r : Rec) : Nat := (r.extractLsb' 416 10).toNat
/-- The extent nk of naming field fk: EXTk + 1 (R59). -/
def extent (r : Rec) (k : Nat) : Nat := (r.extractLsb' (512 + 32 * k) 32).toNat + 1
/-- QBIND slot j (R60). -/
def qbind (r : Rec) (j : Nat) : BitVec 16 := r.extractLsb' (768 + 16 * j) 16
/-- The 128 bytes of ARGS. -/
def args (r : Rec) : List Byte := (List.range 128).map fun k => r.extractLsb' (1024 + 8 * k) 8

/-- Total width of the fields from `lo` to `hi - 1`. -/
def widthSum (r : Rec) (lo hi : Nat) : Nat := ((upFrom lo (hi - lo)).map r.width).foldl (· + ·) 0
/-- Total block-field width (R30). -/
def bw (r : Rec) : Nat := r.widthSum 0 r.kb
/-- Total gang-field width (R30). -/
def gw (r : Rec) : Nat := r.widthSum r.kb r.kg
def blockSize (r : Rec) : Nat := 2 ^ r.bw
def gangSize (r : Rec) : Nat := 2 ^ r.gw
/-- Field fk of a WID (R27). -/
def wf (r : Rec) (wid k : Nat) : Nat := fld wid (r.widthSum 0 k) (r.width k)

/-- Level k is single-party (R33). -/
def single (r : Rec) (k : Nat) : Bool :=
  r.width (k - 1) == 0 || (decide (r.kg ≤ k - 1) && r.extent (k - 1) == 1)
/-- The least class among the levels `lo` to `hi` that are not single-party, C when there is none (R33). -/
def leastClass (r : Rec) (lo hi : Nat) : Nat :=
  ((upFrom lo (hi + 1 - lo)).filter (fun k => !r.single k)).foldl (fun c k => min c (r.cls k)) 2
/-- The within-block class (R33). -/
def blockClass (r : Rec) : Nat := r.leastClass 1 r.kb
/-- The gang class (R33). -/
def gangClass (r : Rec) : Nat := r.leastClass (r.kb + 1) r.kg
/-- The levels kb + 1 to 6 that are not single-party are all C (R40). -/
def launchBarOk (r : Rec) : Bool := r.leastClass (r.kb + 1) 6 == 2
/-- `%class` (R34). -/
def classWord (r : Rec) : Word32 :=
  BitVec.ofNat 32 (((upFrom 1 6).map fun k => r.cls k * 4 ^ (k - 1)).foldl (· + ·) 0
    + r.blockClass * 2 ^ 12 + r.gangClass * 2 ^ 14)

/-- A WID's block, `WID >> bw` (R30). -/
def blockOf (r : Rec) (wid : Nat) : Nat := wid >>> r.bw
/-- A block's gang (R30). -/
def gangOf (r : Rec) (block : Nat) : Nat := block >>> r.gw
/-- A block's `%gang` (R30). -/
def gangIx (r : Rec) (block : Nat) : Nat := block % r.gangSize

/-- The naming value of a gang number picks each naming field below its extent: the gangs of the launch in
ascending order (R29). -/
def gangValid (r : Rec) (gang : Nat) : Bool :=
  (upFrom r.kg (6 - r.kg)).all (fun k => decide (r.wf (gang <<< (r.bw + r.gw)) k < r.extent k))
    && decide (gang <<< (r.bw + r.gw) < 2 ^ r.widthSum 0 6)

/-- The number of gangs: the product of the naming extents (R29). -/
def gangCount (r : Rec) : Nat := ((upFrom r.kg (6 - r.kg)).map r.extent).foldl (· * ·) 1

/-- The gang number of the n-th gang in ascending order of naming fields, f(kg) fastest. -/
def gangNo (r : Rec) (n : Nat) : Nat :=
  ((upFrom r.kg (6 - r.kg)).foldl (fun (acc : Nat × Nat × Nat) k =>
    (acc.1 + (acc.2.1 % r.extent k) * 2 ^ acc.2.2, acc.2.1 / r.extent k, acc.2.2 + r.width k)) (0, n, 0)).1

end Rec

/-! ### QBIND slots (R60) -/

def qbValid (b : BitVec 16) : Bool := b.getLsbD 15
def qbGroup (b : BitVec 16) : Nat := (b.extractLsb' 12 3).toNat
def qbQueue (b : BitVec 16) : Nat := (b.extractLsb' 0 9).toNat

/-! ### The starvation record (R44) -/

/-- The blocking limit of a class: 0 W, 1 P, 2 C. -/
def starveLimit (r : Word128) (cls : Nat) : Nat :=
  if cls = 0 then (r.extractLsb' 64 32).toNat
  else if cls = 1 then (r.extractLsb' 32 32).toNat
  else (r.extractLsb' 0 32).toNat

/-- PREEMPT_TMO in ns: units of 100 ns, 0 acts as 1. -/
def preemptNs (r : Word128) : Nat :=
  let u := (r.extractLsb' 96 16).toNat
  100 * (if u = 0 then 1 else u)

/-! ### The sub-partition configuration block (21 R373) -/

namespace Block1K

/-- `n` bytes at an offset, little-endian. -/
def at' (b : Block1K) (off n : Nat) : Nat := (b.extractLsb' (8 * off) (8 * n)).toNat
/-- BAYS: bit 12 d + b. -/
def bays (b : Block1K) : Nat := b.at' 0x000 8
def l2Share (b : Block1K) : Nat := b.at' 0x008 2
/-- The dado region's size in bytes. -/
def dadoBytes (b : Block1K) : Nat := b.at' 0x00A 2 * 2 ^ 21
def starve (b : Block1K) : Word128 := b.extractLsb' 0x80 128
def wbud (b : Block1K) (stack : Nat) : Nat := b.at' (0x020 + 4 * stack) 4
def rbud (b : Block1K) (stack : Nat) : Nat := b.at' (0x040 + 4 * stack) 4
def twgt (b : Block1K) : Nat := b.at' 0x060 1
def faultq (b : Block1K) : Nat := b.at' 0x064 2
def hotq (b : Block1K) : Nat := b.at' 0x066 2
def ptroots (b : Block1K) : Nat := b.at' 0x068 8
/-- The block with `n` bytes at an offset replaced. -/
def put (b : Block1K) (off n v : Nat) : Block1K := BitVec.ofNat 8192 (setFld b.toNat (8 * off) (8 * n) v)

end Block1K

/-! ### Tables (21 R377) -/

def ownerV (e : Word32) : Bool := e.getLsbD 31
def ownerSkim (e : Word32) : Bool := e.getLsbD 30
/-- The weight, 1 to 255; 0 acts as 1 (DESIGN CHOICE LOG 21). -/
def ownerWeight (e : Word32) : Nat := max 1 (e.extractLsb' 8 8).toNat
def ownerPart (e : Word32) : Nat := (e.extractLsb' 3 3).toNat
def ownerSub (e : Word32) : Nat := (e.extractLsb' 0 3).toNat
def queueEn (e : Word32) : Bool := e.getLsbD 31
/-- Capacity: field + 1, values below 15 act as 15. -/
def queueCap (e : Word32) : Nat := max 15 (e.extractLsb' 10 16).toNat + 1
def queueOwner (e : Word32) : Nat := (e.extractLsb' 0 10).toNat
def lqV (e : Word32) : Bool := e.getLsbD 31
def lqDie (e : Word32) : Nat := (e.extractLsb' 10 2).toNat
def lqOwner (e : Word32) : Nat := (e.extractLsb' 0 10).toNat

/-! ### Range entries of the image (22 R404 TYPE 2) -/

def rgBase (e : RangeE) : Nat := (e.extractLsb' 0 64).toNat
def rgSize (e : RangeE) : Nat := (e.extractLsb' 64 64).toNat
def rgTbase (e : RangeE) : Nat := (e.extractLsb' 128 64).toNat
def rgKind (e : RangeE) : Nat := (e.extractLsb' 192 2).toNat
def rgPort (e : RangeE) : Nat := (e.extractLsb' 199 3).toNat
def rgAr (e : RangeE) : Bool := e.getLsbD 202
def rgAw (e : RangeE) : Bool := e.getLsbD 203
def rgDev (e : RangeE) : Nat := (e.extractLsb' 216 8).toNat
def rgHolds (e : RangeE) (a : Nat) : Bool := decide (rgBase e ≤ a) && decide (a < rgBase e + rgSize e)

/-! ### Tensor entries (09 R221) -/

namespace TEntry

def v (e : TEntry) : Bool := e.getLsbD 511
def bv (e : TEntry) : Bool := e.getLsbD 426
def bindIx (e : TEntry) : Nat := (e.extractLsb' 418 8).toNat
def lconv (e : TEntry) : BitVec 2 := e.extractLsb' 416 2
def res (e : TEntry) : Nat := (e.extractLsb' 413 3).toNat
def rate (e : TEntry) : Nat := (e.extractLsb' 410 3).toNat
def rank (e : TEntry) : Nat := (e.extractLsb' 408 2).toNat + 1
def fmt (e : TEntry) : Nat := (e.extractLsb' 404 4).toNat
def etype (e : TEntry) : Nat := (e.extractLsb' 400 4).toNat
/-- The stride of dimension k in elements; dimension 0 has stride 1. -/
def stride (e : TEntry) (k : Nat) : Int :=
  if k = 0 then 1 else (e.extractLsb' (256 + 48 * (k - 1)) 48).toInt
def strideBits (e : TEntry) (k : Nat) : Nat := (e.extractLsb' (256 + 48 * (k - 1)) 48).toNat
def ext (e : TEntry) (k : Nat) : Nat := (e.extractLsb' (128 + 32 * k) 32).toNat
def sbase (e : TEntry) : Word64 := e.extractLsb' 64 64
def base (e : TEntry) : Word64 := e.extractLsb' 0 64
/-- Bytes of an element; 0 for s4 (half a byte). -/
def esize (e : TEntry) : Nat :=
  match e.etype with
  | 0x0 => 1 | 0x1 => 1 | 0x2 => 2 | 0x3 => 2 | 0x4 => 4 | 0x5 => 4 | 0x6 => 8 | 0x7 => 8
  | 0x8 => 2 | 0x9 => 2 | 0xA => 4 | 0xB => 8 | 0xC => 1 | 0xD => 1 | 0xE => 0 | _ => 2
def exts (e : TEntry) : List Nat := (List.range e.rank).map e.ext

/-- A valid image is well-formed (R222). RATE values 6 and 7 are reserved (13 R269). -/
def wellFormed (e : TEntry) : Bool :=
  (e.extractLsb' 427 84) == 0 && decide (e.fmt ≤ 2)
  && (List.range 4).all (fun k =>
      if k < e.rank then decide (1 ≤ e.ext k)
      else e.ext k == 0 && (k == 0 || e.strideBits k == 0))
  && (e.fmt != 1 || ((e.etype == 0xA || e.etype == 0xB) && decide (e.rank ≤ 3)
        && decide (e.rate < 6)))
  && (e.fmt == 1 || e.rate == 0)
  && (e.fmt != 2 || e.etype == 0xC || e.etype == 0xD || e.etype == 0 || e.etype == 0xE || e.etype == 0xF)
  && (e.fmt == 2 || e.sbase == 0)
  && e.base.toNat % (max 1 e.esize) == 0

end TEntry

end Sys2Proof.Machine
end

