-- ==== Sys2Proof/Machine/Ops.lean ====
section
/-!
DEFINITION. The operations every instruction uses: what a thread's environment gives it, the register window and
the checks of orders 2 to 5 (04_instruction_formats.md R83, R88 to R96), taking a trap and returning from one
(06_translation_and_traps.md R149 to R157), killing and relaunching a gang (03 R66, 06 R150, 21 R393, R394), and
running one instruction for every thread of the run (02 R45 to R48).
-/

namespace Sys2Proof.Machine

/-- The outcome of a step. -/
abbrev Out := Host.Outcome State Fault Refusal

/-! ### What a thread's environment gives it -/

/-- What the device gives one thread in one issue. -/
structure Env where
  key : TKey
  rcd : Rec
  part : Nat
  sub : Nat
  cl : Nat
  scan : Word32
  cyc : Nat
  ns : Nat
  dev : Byte
  accept : Word128
  rngKey : Word64
  rngCtr : Word64
  degr : Byte
  drain : Bool
  deriving DecidableEq, Repr

namespace Env

def wid (e : Env) : Word64 := e.key.wid
def rank (e : Env) : Nat := fld e.wid.toNat 0 e.rcd.bw
def crank (e : Env) : Nat := e.rank % 32
def crew (e : Env) : Nat := e.rank / 32
def block (e : Env) : Nat := e.rcd.blockOf e.wid.toNat
def gang (e : Env) : Nat := e.rcd.gangOf e.block
def gangIx (e : Env) : Nat := e.rcd.gangIx e.block
def bkey (e : Env) : BKey := { launch := e.key.launch, block := e.block }
def ckey (e : Env) : CKey := { launch := e.key.launch, block := e.block, crew := e.crew }
def gkey (e : Env) : GKey := { launch := e.key.launch, gang := e.gang }
def ctx (e : Env) : Nat := e.rcd.ctx
/-- Registers of the allocation (R83). -/
def A (e : Env) : Nat := e.rcd.regs
/-- The usable allocation U (R83; 06 R150). -/
def U (e : Env) : Nat := if e.rcd.trsv then e.A - 16 else e.A
def die (e : Env) : Nat := e.cl / 48
/-- A feature bit was accepted (22 R407). -/
def has (e : Env) (bit : Nat) : Bool := e.accept.getLsbD bit

end Env

/-- A port is connected by the image (22 R404, R405). -/
def State.portConnected (s : State) (p : Nat) : Bool := (s.mgmt.image.ports.getD p 0).getLsbD 0

/-- A Scrim port with its state, as reset where it is not listed. -/
def State.port (s : State) (p : Nat) : Port := s.ports.get p Port.reset

/-- The degraded ports, bit p for port p (17 R345). -/
def State.degraded (s : State) : Byte :=
  BitVec.ofNat 8 (((List.range 8).map fun p =>
    if s.portConnected p && (s.port p).state != 1 then 2 ^ p else 0).foldl (· + ·) 0)

def State.cluster (s : State) (c : Nat) : Cluster := s.clusters.get c Cluster.reset

/-- Put a cluster back. -/
def State.setCluster (s : State) (c : Nat) (x : Cluster) : State := { s with clusters := s.clusters.set c x }

/-- Change one cluster. -/
def State.onCluster (s : State) (c : Nat) (f : Cluster → Cluster) : State := s.setCluster c (f (s.cluster c))

/-- The clock of a die scheduler in ns (01 R19). -/
def State.ns (s : State) (die : Nat) : Nat := s.dieNs.get die 0

/-- The thread has a load in flight or a logged access (06 R149, R424). -/
def State.draining (s : State) (k : TKey) : Bool :=
  s.loads.any (fun l => l.key == k) || s.log.any (fun l => l.accs.any fun a => a.key == k)

/-- A launch's record, all zero when it does not exist. -/
def State.recOf (s : State) (l : Nat) : Rec :=
  match s.launches.find l with
  | some x => x.record
  | none => 0

/-- The environment of a thread. -/
def State.env (s : State) (k : TKey) : Env :=
  let rcd := s.recOf k.launch
  let block := rcd.blockOf k.wid.toNat
  let crew := fld k.wid.toNat 0 rcd.bw / 32
  let cl := match s.blocks.find { launch := k.launch, block := block } with | some b => b.cluster | none => 0
  let cr := s.crews.get { launch := k.launch, block := block, crew := crew } Crew.start
  let c := s.cluster cl
  { key := k, rcd := rcd,
    part := match s.launches.find k.launch with | some l => l.part | none => 0,
    sub := match s.launches.find k.launch with | some l => l.sub | none => 0,
    cl := cl, scan := c.scan, cyc := c.cyc, ns := s.ns (cl / 48), dev := s.mgmt.image.dev,
    accept := s.mgmt.accept, rngKey := cr.rngKey, rngCtr := cr.rngCtr, degr := s.degraded,
    drain := s.draining k }

/-! ### The register window (R83; 06 R152) -/

/-- The physical register a window register maps to. In a handler v0 to v15 are the trap reserve, and v16 up
are the interrupted thread's registers from `%twb`. -/
def Thread.phys (e : Env) (t : Thread) (n : Nat) : Nat :=
  if t.inHandler then
    if n < 16 then e.A - 16 + n else t.twb.toNat + n - 16
  else t.base + n

/-- The window register may be touched (R83; 06 R152). -/
def Thread.mayTouch (e : Env) (t : Thread) (n : Nat) : Bool :=
  (t.inHandler && decide (n < 16)) || decide (t.phys e n < e.U)

def Thread.reg (e : Env) (t : Thread) (n : Nat) : Word32 := t.regs.get (t.phys e n)

/-- `n` registers from `r` as one value, the lowest register lowest (R82). -/
def Thread.regsAt (e : Env) (t : Thread) (r : Nat) : Nat → Nat
  | 0 => 0
  | n + 1 => (t.reg e r).toNat + 2 ^ 32 * Thread.regsAt e t (r + 1) n

/-- Write `n` registers from `r` (R82). -/
def Thread.setRegs (e : Env) (t : Thread) (r : Nat) : Nat → Nat → Thread
  | 0, _ => t
  | n + 1, v =>
    Thread.setRegs e { t with regs := t.regs.set (t.phys e r) (BitVec.ofNat 32 v) } (r + 1) n (v / 2 ^ 32)

/-- Write physical registers, as a load's return does. -/
def Thread.setPhys (t : Thread) (p : Nat) : Nat → Nat → Thread
  | 0, _ => t
  | n + 1, v => Thread.setPhys { t with regs := t.regs.set p (BitVec.ofNat 32 v) } (p + 1) n (v / 2 ^ 32)

/-! ### Predicates (R84, R86) -/

/-- p0 is always true. -/
def Thread.pred (t : Thread) (n : Nat) : Bool := n == 0 || t.preds.getLsbD n

/-- Write pn; p0 cannot be written (R84). -/
def Thread.setPred (t : Thread) (n : Nat) (b : Bool) : Thread :=
  if n = 0 then t
  else { t with preds := (t.preds &&& ~~~((1 : Byte) <<< n)) ||| (if b then (1 : Byte) <<< n else 0) }

/-- Write a result through a descriptor (R86): pN := r and, with C, p(N xor 1) := not r. -/
def Thread.setPredD (t : Thread) (p : PredD) (w r : Bool) : Thread :=
  if w then t
  else
    let t1 := t.setPred p.n.toNat r
    if p.c then t1.setPred (p.n.toNat ^^^ 1) (!r) else t1

/-- The guard holds (R84). -/
def Thread.guard (t : Thread) (g : BitVec 3) : Bool := t.pred g.toNat

/-! ### Traps -/

/-- A trap to raise: its cause, subcode and VALUE (06 R156 to R158). -/
structure Trap where
  cause : Byte
  sub : Nat
  value : Word64
  deriving DecidableEq, Repr

namespace Trap

/-- Codes of 06 R158. -/
def encoding (w : Word32) : Trap := { cause := 0x01, sub := 0, value := w.setWidth 64 }
def operand (w : Word32) : Trap := { cause := 0x02, sub := 0, value := w.setWidth 64 }
def chainHazard (w : Word32) : Trap := { cause := 0x03, sub := 0, value := w.setWidth 64 }
def window (sub v : Nat) : Trap := { cause := 0x04, sub := sub, value := BitVec.ofNat 64 v }
def uniform (mask : Nat) : Trap := { cause := 0x05, sub := 0, value := BitVec.ofNat 64 mask }
def address (a : Int) : Trap := { cause := 0x06, sub := 0, value := BitVec.ofInt 64 a }
def page (a : Nat) : Trap := { cause := 0x07, sub := 0, value := BitVec.ofNat 64 a }
def access (a : Nat) (sub : Nat := 0) : Trap := { cause := 0x08, sub := sub, value := BitVec.ofNat 64 a }
def ownership (a : Nat) : Trap := { cause := 0x09, sub := 0, value := BitVec.ofNat 64 a }
def poison (a : Nat) : Trap := { cause := 0x0A, sub := 0, value := BitVec.ofNat 64 a }
def illegalWait (sub : Nat) : Trap := { cause := 0x0B, sub := sub, value := 0 }
def starved (limit : Nat) : Trap := { cause := 0x0C, sub := 0, value := BitVec.ofNat 64 limit }
def writeBudget (stack : Nat) : Trap := { cause := 0x0D, sub := 0, value := BitVec.ofNat 64 stack }
def tensorId (sub id : Nat) : Trap := { cause := 0x0E, sub := sub, value := BitVec.ofNat 64 id }
def codec (sub v : Nat) : Trap := { cause := 0x0F, sub := sub, value := BitVec.ofNat 64 v }
def hawk (sub v : Nat) : Trap := { cause := 0x10, sub := sub, value := BitVec.ofNat 64 v }
def matrix (sub v : Nat) : Trap := { cause := 0x11, sub := sub, value := BitVec.ofNat 64 v }
def queue (sub v : Nat) : Trap := { cause := 0x12, sub := sub, value := BitVec.ofNat 64 v }
def software (v : BitVec 20) : Trap := { cause := 0x13, sub := 0, value := v.signExtend 64 }

end Trap

/-- Where a trap stands: what `%tpc`, IPC, DEFER, CHAIN and the resume point become. -/
structure TrapAt where
  tpc : Word64
  ipc : Word64
  defer : Bool
  chain : Bool
  resume : Word64
  deriving DecidableEq, Repr

/-- `%tcause` at entry (06 R156): FPMSAVE, PSAVE, DEFER, CHAIN, SUB, CAUSE. -/
def tcauseAt (fpm : Word32) (preds : Byte) (tr : Trap) (w : TrapAt) : Word32 :=
  fpm.extractLsb' 0 9 ++ preds.extractLsb' 1 7 ++ BitVec.ofBool w.defer ++ BitVec.ofBool w.chain
    ++ BitVec.ofNat 6 tr.sub ++ tr.cause

/-- `%tinfo` at entry (06 R157): VALUE, DEGR, 0, IPC. -/
def tinfoAt (degr : Byte) (tr : Trap) (w : TrapAt) : Word128 :=
  tr.value ++ degr ++ (0 : BitVec 1) ++ w.ipc.extractLsb' 2 55

/-- Taking a trap (06 R150, R151): with a trap reserve and outside a handler the thread enters its handler;
otherwise its gang is to be killed. -/
def Thread.enterTrap (e : Env) (t : Thread) (tr : Trap) (w : TrapAt) : Thread :=
  let info := tinfoAt e.degr tr w
  if e.rcd.trsv && !t.inHandler then
    { t with
      tcause := tcauseAt t.fpm t.preds tr w, tinfo := info, tpc := w.tpc,
      twb := BitVec.ofNat 32 t.base, fpm := 0, latches := [], chain := none, pc := e.rcd.tvec,
      resume := w.resume, inHandler := true, handlerAt := e.ns, wait := Wait.idle, blockCtr := 0, await := [], kept := none,
      prog := none, todo := none }
  else
    { t with
      wait := Wait.idle,
      dying := some { kind := if t.inHandler then 1 else 0, cause := tr.cause, tpc := w.tpc, tinfo := info, leaf := none } }

/-- Return from a trap (06 R154): predicates and `%fpm` from `%tcause`, the base from `%twb`, and on at `%tpc`,
or at the resume point of a deferred trap. -/
def Thread.returnFromTrap (t : Thread) : Thread :=
  { t with
    preds := t.tcause.extractLsb' 16 7 ++ (0 : BitVec 1), fpm := (t.tcause.extractLsb' 23 9).setWidth 32,
    base := t.twb.toNat, pc := if t.tcause.getLsbD 15 then t.resume else t.tpc,
    inHandler := false, chain := none }

def Env.bill (e : Env) : Bill := { part := e.part, sub := e.sub, owner := e.rcd.owner, ctx := e.ctx }

/-- Back to the chain's head (R94): the latches are invalid, no chain is in progress, and a fetch past the head that the thread
waits for is given up. -/
def Thread.rewind (t : Thread) : Thread :=
  match t.chain with
  | some c => { t with pc := c.head, latches := [], chain := none, wait := Wait.idle }
  | none => t

/-- The instruction belongs to the chain in progress at position 2 or later (R90). -/
def Thread.continues (t : Thread) (i : Instr) : Bool :=
  match i.shape with
  | some sh => sh.short && !sh.latches.isEmpty && t.chain.isSome
  | none => false

/-- The instruction is a chain instruction: short, and a head (it reads no latch) or one that continues the
chain in progress (R90). -/
def Thread.inChain (t : Thread) (i : Instr) : Bool :=
  match i.shape with
  | some sh => sh.short && (sh.latches.isEmpty || t.chain.isSome)
  | none => false

/-- Where a precise trap at an instruction stands (06 R151; R95). -/
def Thread.preciseAt (t : Thread) (i : Instr) : TrapAt :=
  { tpc := if t.continues i then (match t.chain with | some c => c.head | none => t.pc) else t.pc,
    ipc := t.pc, defer := false, chain := t.inChain i, resume := 0 }

/-- Stall at the instruction: it executes again when the thread is resumed. -/
def Thread.stall (t : Thread) (counts : Bool) : Thread :=
  { t with wait := { kind := .again, counts := counts }, chain := none, kept := none, prog := none }

/-- Stand still for a precise trap that has been raised, until the earlier loads and logged accesses of the thread are complete
(06 R149, R424). -/
def Thread.holdTrap (t : Thread) (tr : Trap) (w : TrapAt) : Thread :=
  { t.stall false with
    due := [{ cause := tr.cause, sub := tr.sub, value := tr.value, tpc := w.tpc, ipc := w.ipc, defer := false, chain := w.chain }] }

/-- Raise a precise trap at an instruction. While earlier loads or logged accesses are outstanding the thread stands at the
instruction, or at its chain's head, and takes the trap after them (06 R149, R424). -/
def Thread.raise (e : Env) (t : Thread) (i : Instr) (tr : Trap) : Thread :=
  if e.drain then (if t.continues i then t.rewind else t).holdTrap tr (t.preciseAt i)
  else t.enterTrap e tr (t.preciseAt i)

/-- A consumer of a UE mark (21 R393), through a leaf: no handler runs, the gang is to be killed. -/
def Thread.consumeUe (e : Env) (t : Thread) (a : Nat) (leaf : Option UsedLeaf) (w : TrapAt) : Thread :=
  { t with wait := Wait.idle,
           dying := some { kind := 2, cause := 0x0A, tpc := w.tpc, tinfo := tinfoAt e.degr (Trap.poison a) w, leaf := leaf } }

/-- POISON met by a consumer: a UE mark (1) kills, a DATA mark (2) traps (21 R393). -/
def Thread.poisoned (e : Env) (t : Thread) (i : Instr) (mark : BitVec 2) (a : Nat) (leaf : Option UsedLeaf) :
    Thread :=
  if mark = 1 then (if e.drain then t.stall false else t.consumeUe e a leaf (t.preciseAt i))
  else t.raise e i (Trap.poison a)

/-! ### The checks of orders 2 to 5 (R96) -/

/-- The feature an instruction belongs to was not accepted (22 R407). -/
def Env.lacks (e : Env) (i : Instr) : Bool :=
  match i with
  | .bdec _ | .bflushBlk _ | .bflushForce _ | .bflushTensor _ | .bflushAll _ | .bstat _ | .bstatDec _ => !e.has 2
  | .hcpy f => f.dz && !e.has 3
  | .xcpy _ => !e.has 4
  | _ => false

/-- Order 2: ILLEGAL_ENCODING at decode, with what depends on the thread (07 R168, R172). -/
def badEncoding (e : Env) (t : Thread) (i : Instr) : Bool :=
  !i.encodable || e.lacks i ||
    (match i with
     | .rti => !t.inHandler
     | .sreg f => f.r.handlerOnly && !t.inHandler
     | .sset f => f.r.handlerOnly && !t.inHandler
     | _ => false)

/-- The latch reads that R91 forbids: bl(k) at position j needs k ≤ j - 2, and the predecessor short. -/
def badLatch (t : Thread) (sh : Shape) : Bool :=
  sh.latches.any fun k =>
    match t.chain with
    | some c => !decide (k + 1 ≤ c.len)
    | none => true

/-- The offending opcode word if the chain rules are broken (R90, R92). -/
def chainBreak (t : Thread) (i : Instr) (sh : Shape) : Option Word32 :=
  if sh.latches.isEmpty then none
  else
    match t.chain with
    | none => none
    | some c =>
      if c.len = 8 then some i.word0
      else if c.headSelf && c.len == 1 then some c.headWord
      else if sh.regsW.any (fun r => c.regs.contains r || sh.regsR.contains r)
          || sh.predsWr.any (fun p => c.preds.contains p || sh.predsR.contains p) then some i.word0
      else none

/-- Order 5: the first physical register at or above U among A, B and D (R83). -/
def windowBreak (e : Env) (t : Thread) (sh : Shape) : Option Nat :=
  ((sh.regsR ++ sh.regsW).find? fun n => !t.mayTouch e n).map (t.phys e)

/-- The fault of orders 2 to 5 that a thread takes at an instruction, whatever its guard. -/
def precheck (e : Env) (t : Thread) (i : Instr) : Option Trap :=
  match i.shape with
  | none => none
  | some sh =>
    if badEncoding e t i then some (Trap.encoding i.word0)
    else if !sh.ok || badLatch t sh then some (Trap.operand i.word0)
    else
      match chainBreak t i sh with
      | some w => some (Trap.chainHazard w)
      | none => (windowBreak e t sh).map (Trap.window 0)

/-- The guard of an instruction. -/
def guardOf (i : Instr) : BitVec 3 :=
  match i.shape with
  | some sh => sh.g
  | none => 0

/-! ### Going on after an instruction -/

/-- The next PC in program order (R76). -/
def Thread.nextPc (t : Thread) (i : Instr) : Word64 := t.pc + BitVec.ofNat 64 i.bytes

/-- Go on after an instruction that is not short: it ends any chain (R90) and leaves the latches (R89). -/
def Thread.advance (t : Thread) (i : Instr) : Thread :=
  { t with pc := t.nextPc i, chain := none, wait := Wait.idle, blockCtr := 0, kept := none, prog := none, todo := none }

/-- The chain record after a short instruction (R90, R92). -/
def nextChain (e : Env) (t : Thread) (i : Instr) (sh : Shape) : Chain :=
  match sh.latches.isEmpty, t.chain with
  | false, some c => { c with len := c.len + 1, regs := sh.regsR ++ c.regs, preds := sh.predsR ++ c.preds }
  | _, _ =>
    { head := t.pc, headWord := i.word0, len := 1, regs := sh.regsR, preds := sh.predsR,
      headSelf := sh.regsW.any sh.regsR.contains || sh.predsWr.any sh.predsR.contains, rng := e.rngCtr }

/-- Go on after a short instruction that put `v` in bl0 (R89): `t0` is the thread as it issued, `t` with the
instruction's own writes. -/
def Thread.advanceShort (e : Env) (t0 t : Thread) (i : Instr) (v : Word128) : Thread :=
  match i.shape with
  | none => t
  | some sh =>
    { t with pc := t0.nextPc i, latches := (v :: t0.latches).take 8, chain := some (nextChain e t0 i sh),
             wait := Wait.idle, blockCtr := 0 }

/-! ### Changing a thread in the state -/

def State.setThread (s : State) (k : TKey) (t : Thread) : State := { s with threads := s.threads.set k t }

/-- Change a thread that exists, with its environment. -/
def State.onThread (s : State) (k : TKey) (f : Env → Thread → Thread) : State :=
  match s.threads.find k with
  | some t => s.setThread k (f (s.env k) t)
  | none => s

/-- A fresh number. -/
def State.bump (s : State) : State := { s with serial := s.serial + 1 }

/-- The thread belongs to a crew (02 R23). -/
def ofCrew (rcd : Rec) (c : CKey) (k : TKey) : Bool :=
  k.launch == c.launch && rcd.blockOf k.wid.toNat == c.block && fld k.wid.toNat 0 rcd.bw / 32 == c.crew

/-- The crew is parked at a completed barrier (10 R250). -/
def State.crewParked (s : State) (c : CKey) : Bool :=
  s.threads.any fun p => p.2.wait.kind == .parked && ofCrew (s.recOf c.launch) c p.1

/-- The block is resident: its threads stand in the thread tables of its cluster's quarters. -/
def State.blockResident (s : State) (b : BKey) : Bool :=
  match s.blocks.find b with | some b => b.resident | none => false

/-- The thread's block is resident. -/
def State.isResident (s : State) (k : TKey) : Bool := s.blockResident (s.env k).bkey

/-- The thread may execute: it is resident, its gang is neither saved nor frozen, and its crew is not parked and has not become
reconverged for a save (02 R38, R53; 10 R250; 21 R390). -/
def State.mayRun (s : State) (k : TKey) : Bool :=
  let e := s.env k
  (match s.blocks.find e.bkey with | some b => b.resident | none => false) && !s.crewParked e.ckey
    && (match s.gangs.find e.gkey with
        | some g => !g.frozen && (match g.status with
            | .running => true
            | .requested .. => !(s.crews.get e.ckey Crew.start).stopped
            | .saved _ => false)
        | none => true)

/-! ### Starting, killing and relaunching a gang -/

/-- The WIDs of a block's threads (R30). -/
def blockWids (rcd : Rec) (block : Nat) : List Nat :=
  (List.range rcd.blockSize).map fun r => block * rcd.blockSize + r

/-- The blocks of a gang (R30). -/
def gangBlocks (rcd : Rec) (gang : Nat) : List Nat :=
  (List.range rcd.gangSize).map fun j => gang * rcd.gangSize + j

/-- The scratchpad of a block that starts: zero but for ARGS (03 R61, R59). -/
def startScratch (rcd : Rec) : Cells 8 :=
  if rcd.scratchBytes = 0 then [] else Cells.setBytes [] 0 rcd.args

/-- Start the threads of one block on a cluster (03 R61). -/
def State.startBlock (s : State) (l : Nat) (rcd : Rec) (block cluster place : Nat) (starve : Word128) : State :=
  let b : Block := { cluster := cluster, place := place, resident := true, scratch := startScratch rcd, poison := [],
                     arrivals := [], starve := starve }
  let ts := (blockWids rcd block).map fun w =>
    (({ launch := l, wid := BitVec.ofNat 64 w } : TKey), Thread.start rcd.code)
  let cs := (List.range (ceilDiv rcd.blockSize 32)).map fun c =>
    (({ launch := l, block := block, crew := c } : CKey), Crew.start)
  { s with
    blocks := s.blocks.set { launch := l, block := block } b
    threads := ts.foldl (fun m p => m.set p.1 p.2) s.threads
    crews := cs.foldl (fun m p => m.set p.1 p.2) s.crews }

/-- The thread belongs to a gang (R30). -/
def inGang (rcd : Rec) (g : GKey) (k : TKey) : Bool :=
  k.launch == g.launch && rcd.gangOf (rcd.blockOf k.wid.toNat) == g.gang

/-- The block belongs to a gang. -/
def blockInGang (rcd : Rec) (g : GKey) (b : BKey) : Bool :=
  b.launch == g.launch && rcd.gangOf b.block == g.gang

/-- A fault request someone still waits on. -/
def State.tokenUsed (s : State) (tok : Nat) : Bool :=
  s.log.any (fun l => l.accs.any fun a => a.tokens.contains tok)
    || s.threads.any (fun p => (match p.2.wait.kind with
        | .page x _ => x == tok
        | .fetch (some (x, _)) => x == tok
        | _ => false))
    || s.launches.any (fun p => p.2.token == some tok)
    || s.lqueues.any (fun p => p.2.token == some tok)
    || s.clusters.any (fun p => p.2.hawk.copies.any (fun c => c.tokens.contains tok)
        || p.2.matrix.tasks.any (fun t => t.tokens.contains tok))
    || s.saved.any (fun p => p.2.copies.any (fun c => c.tokens.contains tok)
        || (match p.2.matrix with | some m => m.tasks.any (fun t => t.tokens.contains tok) | none => false))

/-- Drop the fault requests that nothing waits on any more (06 R160). -/
def State.cancelFaults (s : State) : State := { s with faults := s.faults.filter fun f => s.tokenUsed f.token }

/-- Promoted runs without the threads that meet a test; a run of which none is left is over (02 R39). -/
def without (p : TKey → Bool) (rs : List Promoted) : List Promoted :=
  (rs.map fun r => { r with keys := r.keys.filter fun k => !p k }).filter fun r => !r.keys.isEmpty

/-- A cluster without the work of a gang: its copies stop, its slots, queues and matrix state go, its threads
leave the promoted runs (16 R333; 19 R365). The store queue and the block store stand (05 R112; 14 R301), but for the packets of
its copies that have not begun to leave their port (16 R333). -/
def Cluster.dropGang (rcd : Rec) (g : GKey) (c : Cluster) : Cluster :=
  { c with
    sq := c.sq.filter fun x => !(x.port.isSome && x.tag.isNone
      && c.hawk.copies.any fun y => x.copy == some y.id && blockInGang rcd g y.block)
    hawk := { copies := c.hawk.copies.filter (fun x => !blockInGang rcd g x.block)
              slots := c.hawk.slots.keep fun k _ => !blockInGang rcd g k.1
              dqs := c.hawk.dqs.keep fun k _ => !blockInGang rcd g k.1 }
    matrix := (match c.matrix.holder with
      | some b => if blockInGang rcd g b then Matrix.free else c.matrix
      | none => c.matrix)
    quarters := c.quarters.mapAll fun _ q => { q with promoted := without (inGang rcd g) q.promoted } }

/-- The queued entries of a killed gang count for no crew any more (05 R110): a gang started again counts its own alone. -/
def Cluster.uncount (rcd : Rec) (g : GKey) (c : Cluster) : Cluster :=
  { c with sq := c.sq.map fun x => if inGang rcd g x.key then { x with counted := false } else x }

/-- A barrier instance without a gang's part in it (10 R245): an instance inside the gang goes, and the
gang's arrivals leave the launch's instance. -/
def dropBarriers (rcd : Rec) (g : GKey) (bars : Tbl BarKey Barrier) : Tbl BarKey Barrier :=
  (bars.keep fun k _ =>
      !(k.launch == g.launch &&
        (match k.scope with
         | .launch => false
         | .gang => k.unit == g.gang
         | _ => rcd.gangOf k.unit == g.gang))).mapAll fun k b =>
    if k.launch == g.launch then
      let gone := b.arrived.filter (inGang rcd g)
      let n := b.arrivals - gone.length
      { b with arrived := b.arrived.filter (fun t => !inGang rcd g t), arrivals := n, expected := if n = 0 then none else b.expected }
    else b

/-- Everything a gang's threads have outstanding is dropped (06 R160; 05 R126; 16 R333). The dirty blocks that a full save of
the gang could not send still go home (14 R301). -/
def State.dropGangWork (s : State) (g : GKey) : State :=
  let rcd := s.recOf g.launch
  let mine := inGang rcd g
  ({ s with
    threads := s.threads.keep fun k _ => !mine k
    crews := s.crews.keep fun k _ => !(k.launch == g.launch && rcd.gangOf k.block == g.gang)
    barriers := dropBarriers rcd g s.barriers
    loads := s.loads.filter fun l => !mine l.key
    log := s.log.filter fun l => !(l.crew.launch == g.launch && rcd.gangOf l.crew.block == g.gang)
    saved := s.saved.keep fun b _ => !blockInGang rcd g b
    orphans := s.orphans ++ (s.saved.filter fun p => blockInGang rcd g p.1).flatMap fun p =>
      p.2.unsent.map fun x => ((match s.blocks.find p.1 with | some b => b.cluster | none => 0), x)
    acqs := s.acqs.filter fun a => (match a.who with | .thread k _ _ => !mine k | .peer .. => true)
    deqs := s.deqs.filter fun d => !mine d.key
    clusters := s.clusters.mapAll fun _ c => (c.dropGang rcd g).uncount rcd g } : State).cancelFaults

/-- A gang ceases to exist with its blocks (02 R26). -/
def State.dropGang (s : State) (g : GKey) : State :=
  let rcd := s.recOf g.launch
  let s1 := s.dropGangWork g
  { s1 with blocks := s1.blocks.keep fun b _ => !blockInGang rcd g b
            gangs := s1.gangs.erase g }

/-- Write the fault report of a partition (21 R394): the first kill since VALID was cleared, else OVF. -/
def State.reportKill (s : State) (part owner : Nat) (k : Kill) : State :=
  let p := s.parts.get part Partition.reset
  let f : BitVec 256 :=
    if p.fault.getLsbD 0 then p.fault ||| 2
    else k.tinfo ++ k.tpc ++ BitVec.ofNat 16 owner ++ (0 : BitVec 8) ++ k.cause ++ (0 : BitVec 28)
      ++ k.kind ++ (0 : BitVec 1) ++ (1 : BitVec 1)
  { s with parts := s.parts.set part { p with fault := f } }

/-- A record leaves the head of its launch queue (03 R67; 22 R401). -/
def LQueue.leave (q : LQueue) : LQueue := { q with recs := q.recs.tail, head := none, token := none }

/-- A launch ends with a status (03 R64): all its gangs go, with the places kept for retired ones (02 R35), and a record of it still at its queue's head
leaves. The completion record follows when its patches are acknowledged (14 R301). -/
def State.endLaunch (s : State) (l : Nat) (status : Byte) : State :=
  match s.launches.find l with
  | none => s
  | some x =>
    let gs := (s.gangs.filter fun p => p.1.launch == l).map (·.1)
    let s1 := gs.foldl State.dropGang s
    { s1 with
      launches := s1.launches.set l { x with status := .ending status, pending := [] }
      blocks := s1.blocks.keep fun b _ => b.launch != l
      barriers := s1.barriers.keep fun k _ => k.launch != l
      replicas := s1.replicas.filter fun r => r.launch != l
      lqueues := s1.lqueues.upd x.queue fun q => if q.head == some l then q.leave else q }

/-- Priority class `prio` is shed (21 R390). -/
def State.shed (s : State) (prio : Nat) : Bool := decide (prio < s.gov.level)

/-- Start a killed gang again from CODE in its place (03 R66). A gang asked to save keeps its place and waits for its group's
save, and one that is asked or saved starts fresh at its restore (03 R73). A gang of a shed class issues nothing until its
class is restored (21 R390). It keeps its place in the order of placement and the STARVE record it had (LOG 66). -/
def State.relaunchGang (s : State) (g : GKey) (x : Launch) (gg : Gang) : State :=
  let rcd := x.record
  let s1 := s.dropGangWork g
  let running := gg.status == .running
  let s2 := (gangBlocks rcd g.gang).foldl (fun st b =>
    match st.blocks.find { launch := g.launch, block := b } with
    | none => st
    | some old =>
      let st1 := st.startBlock g.launch rcd b old.cluster old.place old.starve
      { st1 with blocks := st1.blocks.upd { launch := g.launch, block := b } fun nb => { nb with resident := running } })
    s1
  { s2 with
    gangs := s2.gangs.set g { gg with kills := gg.kills + 1, frozen := running && s.shed rcd.prio, shedAt := none,
                                      quantumAt := s.ns gg.die }
    launches := s2.launches.set g.launch { x with relaunches := min 255 (x.relaunches + 1) } }

/-- The leaves through which threads have consumed UE marks, for the repair of their blocks (21 R395). -/
def State.noteUe (s : State) : State :=
  { s with consumed := s.consumed ++ s.threads.filterMap fun p => p.2.dying.bind (·.leaf) }

/-- Kill a gang (06 R150; 21 R393, R394; 03 R66). -/
def State.killGang (s : State) (g : GKey) (k : Kill) : State :=
  match s.launches.find g.launch, s.gangs.find g with
  | some x, some gg =>
    let s1 := s.reportKill x.part x.record.owner k
    if (k.kind == 2 || k.kind == 3) && x.record.rela && decide (gg.kills < 3) then s1.relaunchGang g x gg
    else s1.endLaunch g.launch 0x04
  | _, _ => s

/-- Kill the gang of each thread that is to die, in table order. -/
def State.reap (s : State) : State :=
  (s.threads.filter fun p => p.2.dying.isSome).foldl (fun st p =>
    match st.threads.find p.1 with
    | some t =>
      match t.dying with
      | some k =>
        let rcd := st.recOf p.1.launch
        st.killGang { launch := p.1.launch, gang := rcd.gangOf (rcd.blockOf p.1.wid.toNat) } k
      | none => st
    | none => st) s.noteUe

/-! ### One issue of an instruction that is not short -/

/-- Issue for one thread of the run (02 R46): the checks of orders 2 to 5, then nothing for a guard-false
thread (R84), and `act` for a guard-true one. -/
def State.issueOne (i : Instr) (act : State → Env → Thread → State) (st : State) (k : TKey) : State :=
  match st.threads.find k with
  | none => st
  | some t =>
    let e := st.env k
    match precheck e t i with
    | some tr => st.setThread k (t.raise e i tr)
    | none => if t.guard (guardOf i) then act st e t else st.setThread k (t.advance i)

/-- Issue for each thread of the run in ascending order. -/
def State.issueEach (s : State) (i : Instr) (act : State → Env → Thread → State) : State :=
  (s.run.foldl (State.issueOne i act) s).reap

/-- As `issueEach`, for an instruction whose effect on a thread is its own. -/
def State.issueLocal (s : State) (i : Instr) (act : Env → Thread → Thread) : State :=
  s.issueEach i fun st e t => st.setThread e.key (act e t)

/-! ### One issue of a short instruction -/

/-- Some thread of the run traps at a chain instruction after the head: a forced switch (R94). -/
def State.chainTrap (s : State) (i : Instr) : Bool :=
  s.run.any fun k =>
    match s.threads.find k with
    | some t => t.continues i && (precheck (s.env k) t i).isSome
    | none => false

/-- The effect on one thread: `eff` gives the writes and the value for bl0 of a thread that executes, `off`
those of a guard-false one (R84, R89; R85 for `sel`). -/
def shortOne (i : Instr) (switch : Bool) (eff off : Env → Thread → Thread × Word128) (e : Env) (t : Thread) : Thread :=
  match precheck e t i with
  | some tr => t.raise e i tr
  | none =>
    if switch then t.rewind
    else
      let r := if t.guard (guardOf i) then eff e t else off e t
      Thread.advanceShort e t r.1 i r.2

/-- The counters of the crews of the run go back to the chain's head (R94). -/
def State.rewindRng (s : State) : State :=
  s.run.foldl (fun st k =>
    match s.threads.find k with
    | some t =>
      match t.chain with
      | some c => { st with crews := st.crews.upd (s.env k).ckey fun x => { x with rngCtr := c.rng } }
      | none => st
    | none => st) s

/-- A guard-false thread: no write, 0 in bl0 (R84, R89). -/
def shortOff (_ : Env) (t : Thread) : Thread × Word128 := (t, 0)

/-- A short instruction for each thread of the run, before kills. -/
def State.runShort (s : State) (i : Instr) (eff off : Env → Thread → Thread × Word128) : State :=
  let switch := s.chainTrap i
  let s0 := if switch then s.rewindRng else s
  s.run.foldl (fun st k => st.onThread k (shortOne i switch eff off)) s0

/-- Issue a short instruction for the run. -/
def State.issueShort (s : State) (i : Instr) (eff off : Env → Thread → Thread × Word128) : State :=
  (s.runShort i eff off).reap

/-! ### One issue of an instruction that executes per crew (02 R46, R47; R98) -/

/-- The source value at its full width (R80), for the uniform check. -/
abbrev Reader := Env → Thread → Src → Nat

/-- The crews of the run in ascending order of launch, block and crew. -/
def State.runCrews (s : State) : List CKey := dedup (s.run.map fun k => (s.env k).ckey)

/-- The participants of a crew: its guard-true threads of the run that pass the checks (02 R46). -/
def State.participants (s : State) (i : Instr) (c : CKey) : List TKey :=
  s.run.filter fun k =>
    match s.threads.find k with
    | some t => (s.env k).ckey == c && (precheck (s.env k) t i).isNone && t.guard (guardOf i)
    | none => false

/-- The mask of crew ranks of some threads. -/
def State.rankMask (s : State) (ks : List TKey) : Nat :=
  (ks.map fun k => 2 ^ (s.env k).crank).foldl (· + ·) 0

/-- The uniform operands of the participants agree (R98). -/
def State.uniform (rd : Reader) (s : State) (i : Instr) (ks : List TKey) : Bool :=
  match i.shape with
  | none => true
  | some sh =>
    (sh.srcs.filter (·.uni)).all fun x =>
      let vs := ks.map fun k => match s.threads.find k with | some t => rd (s.env k) t x | none => 0
      vs.all fun v => v == vs.headD 0

/-- Raise one trap for each of some threads. -/
def State.raiseAll (s : State) (i : Instr) (ks : List TKey) (tr : Trap) : State :=
  ks.foldl (fun st k => st.onThread k fun e t => t.raise e i tr) s

/-- Go on for each of some threads. -/
def State.advanceAll (s : State) (i : Instr) (ks : List TKey) : State :=
  ks.foldl (fun st k => st.onThread k fun _ t => t.advance i) s

/-- Issue per crew: threads that fail orders 2 to 5 trap, guard-false threads go on, and `act` runs once for each
crew with participants whose uniform operands agree; otherwise every participant raises UNIFORM (R98). -/
def State.issueCrews (rd : Reader) (s : State) (i : Instr) (act : State → CKey → List TKey → State) : State :=
  let crews := s.runCrews
  let parts := crews.map fun c => (c, s.participants i c)
  let s1 := s.run.foldl (fun st k =>
    match st.threads.find k with
    | none => st
    | some t =>
      let e := st.env k
      match precheck e t i with
      | some tr => st.setThread k (t.raise e i tr)
      | none => if t.guard (guardOf i) then st else st.setThread k (t.advance i)) s
  (parts.foldl (fun st p =>
    if p.2.isEmpty then st
    else if st.uniform rd i p.2 then act st p.1 p.2
    else st.raiseAll i p.2 (Trap.uniform (st.rankMask p.2))) s1).reap

end Sys2Proof.Machine
end

