-- ==== Sys2Proof/Machine/Operands.lean ====
section
/-!
DEFINITION. Reading a source operand at each width and writing a destination
(04_instruction_formats.md R79 to R82).
-/

namespace Sys2Proof.Machine

/-- A binary32 literal widened exactly to binary64 (R80): a NaN keeps its sign and its payload moves up. -/
def widenLit (v : Word32) : Word64 :=
  let s : BitVec 1 := v.extractLsb' 31 1
  let e := (v.extractLsb' 23 8).toNat
  let f := (v.extractLsb' 0 23).toNat
  if e = 255 then s ++ (0x7FF : BitVec 11) ++ BitVec.ofNat 52 (f <<< 29)
  else if e = 0 then
    if f = 0 then s ++ (0 : BitVec 63)
    else
      let n := bitLen f
      s ++ BitVec.ofNat 11 (n - 1 + 874) ++ BitVec.ofNat 52 (f <<< (53 - n))
  else s ++ BitVec.ofNat 11 (e + 896) ++ BitVec.ofNat 52 (f <<< 29)

/-- A source as a 32-bit operand (R80). Codes that R80 refuses at this width read 0; they trap before. -/
def src32 (e : Env) (t : Thread) (o : Operand) : Word32 :=
  match o with
  | .reg n => t.reg e n.val
  | .latch k => ((t.latches.getD k.val 0)).setWidth 32
  | .zero => 0
  | .rank => BitVec.ofNat 32 e.rank
  | .crank => BitVec.ofNat 32 e.crank
  | .widLo => e.wid.extractLsb' 0 32
  | .widHi => e.wid.extractLsb' 32 32
  | .reserved => 0
  | .lit32 v => v
  | .lit64 _ => 0

/-- A source as a 64-bit operand, with the way a 32-bit literal fills it (R80). -/
def src64with (lit : Word32 → Word64) (e : Env) (t : Thread) (o : Operand) : Word64 :=
  match o with
  | .reg n => BitVec.ofNat 64 (t.regsAt e n.val 2)
  | .latch k => ((t.latches.getD k.val 0)).setWidth 64
  | .zero => 0
  | .rank => BitVec.ofNat 64 e.rank
  | .crank => BitVec.ofNat 64 e.crank
  | .widLo => e.wid
  | .widHi => 0
  | .reserved => 0
  | .lit32 v => lit v
  | .lit64 v => v

/-- A 64-bit operand, a 32-bit literal sign-extended. -/
def src64 : Env → Thread → Operand → Word64 := src64with fun v => v.signExtend 64
/-- A 64-bit operand of type `.b64` or `.z64`: a 32-bit literal zero-extended. -/
def srcZ64 : Env → Thread → Operand → Word64 := src64with fun v => v.setWidth 64
/-- An f64 operand: a 32-bit literal is a binary32 value widened. -/
def srcF64 : Env → Thread → Operand → Word64 := src64with widenLit

/-- A source as a 128-bit operand (R80). -/
def src128 (e : Env) (t : Thread) (o : Operand) : Word128 :=
  match o with
  | .reg n => BitVec.ofNat 128 (t.regsAt e n.val 4)
  | .latch k => t.latches.getD k.val 0
  | _ => 0

/-- The octet of `rqnt.s4` (08 R209). -/
def srcOct (e : Env) (t : Thread) (o : Operand) : BitVec 256 :=
  match o with
  | .reg n => BitVec.ofNat 256 (t.regsAt e n.val 8)
  | _ => 0

/-- Any source at its own width, as a number. -/
def srcNat : Reader := fun e t x =>
  match x.w with
  | .w32 => (src32 e t x.o).toNat
  | .w64 => (src64 e t x.o).toNat
  | .z64 => (srcZ64 e t x.o).toNat
  | .f64 => (srcF64 e t x.o).toNat
  | .w128 => (src128 e t x.o).toNat
  | .oct => (srcOct e t x.o).toNat

/-- The register D read as a source (R81). -/
def dst32 (e : Env) (t : Thread) (d : BitVec 7) : Word32 := t.reg e d.toNat
def dst64 (e : Env) (t : Thread) (d : BitVec 7) : Word64 := BitVec.ofNat 64 (t.regsAt e d.toNat 2)
def dst128 (e : Env) (t : Thread) (d : BitVec 7) : Word128 := BitVec.ofNat 128 (t.regsAt e d.toNat 4)

/-- Write a 32-bit, 64-bit or 128-bit destination unless W suppresses it (R81, R82). -/
def Thread.put32 (e : Env) (t : Thread) (w : Bool) (d : BitVec 7) (v : Word32) : Thread :=
  if w then t else t.setRegs e d.toNat 1 v.toNat
def Thread.put64 (e : Env) (t : Thread) (w : Bool) (d : BitVec 7) (v : Word64) : Thread :=
  if w then t else t.setRegs e d.toNat 2 v.toNat
def Thread.put128 (e : Env) (t : Thread) (w : Bool) (d : BitVec 7) (v : Word128) : Thread :=
  if w then t else t.setRegs e d.toNat 4 v.toNat

/-- The address of a memory operand: A + sext(IMM, 20), exact (09 R216). -/
def memAddr (e : Env) (t : Thread) (a : Operand) (imm : BitVec 20) : Int := (src64 e t a).toNat + imm20 imm

/-- A scratchpad address: (A + sext(IMM, 20)) mod 2^32 (09 R218). -/
def spadAddr (e : Env) (t : Thread) (a : Operand) (imm : BitVec 20) : Word32 :=
  src32 e t a + imm.signExtend 32

/-! ### The shapes of short effects: what is written, and the value for bl0 (R89) -/

/-- The effect of a short instruction with a 32-bit result. -/
def eff32 (w : Bool) (d : BitVec 7) (val : Env → Thread → Word32) : Env → Thread → Thread × Word128 :=
  fun e t => (t.put32 e w d (val e t), (val e t).setWidth 128)

/-- With a 64-bit result. -/
def eff64 (w : Bool) (d : BitVec 7) (val : Env → Thread → Word64) : Env → Thread → Thread × Word128 :=
  fun e t => (t.put64 e w d (val e t), (val e t).setWidth 128)

/-- With a 128-bit result. -/
def eff128 (w : Bool) (d : BitVec 7) (val : Env → Thread → Word128) : Env → Thread → Thread × Word128 :=
  fun e t => (t.put128 e w d (val e t), val e t)

/-- With a predicate result: the descriptor, and 1 or 0 in bl0 (R86, R89). -/
def effPred (w : Bool) (p : PredD) (val : Env → Thread → Bool) : Env → Thread → Thread × Word128 :=
  fun e t => (t.setPredD p w (val e t), if val e t then 1 else 0)

/-- Two 32-bit sources to a 32-bit result. -/
def two32 (f : FDAB) (op : Word32 → Word32 → Word32) : Env → Thread → Thread × Word128 :=
  eff32 f.w f.d fun e t => op (src32 e t f.a) (src32 e t f.b)

/-- Two 32-bit sources and D to a 32-bit result. -/
def three32 (f : FDAB) (op : Word32 → Word32 → Word32 → Word32) : Env → Thread → Thread × Word128 :=
  eff32 f.w f.d fun e t => op (src32 e t f.a) (src32 e t f.b) (dst32 e t f.d)

/-- Two 64-bit sources to a 64-bit result. -/
def two64 (f : FDAB) (op : Word64 → Word64 → Word64) : Env → Thread → Thread × Word128 :=
  eff64 f.w f.d fun e t => op (src64 e t f.a) (src64 e t f.b)

/-- A 64-bit and a 32-bit source to a 64-bit result. -/
def shift64 (f : FDAB) (op : Word64 → Word32 → Word64) : Env → Thread → Thread × Word128 :=
  eff64 f.w f.d fun e t => op (src64 e t f.a) (src32 e t f.b)

/-- Two f64 sources to an f64 result. -/
def twoF64 (f : FDAB) (op : Thread → Word64 → Word64 → Word64) : Env → Thread → Thread × Word128 :=
  eff64 f.w f.d fun e t => op t (srcF64 e t f.a) (srcF64 e t f.b)

/-- Two 32-bit float sources to a 32-bit result under the thread's mode. -/
def twoF32 (f : FDAB) (op : Thread → Word32 → Word32 → Word32) : Env → Thread → Thread × Word128 :=
  eff32 f.w f.d fun e t => op t (src32 e t f.a) (src32 e t f.b)

end Sys2Proof.Machine
end

