-- ==== Sys2Proof/Machine/Barrier.lean ====
section
/-!
DEFINITION. Fences (05_memory_model.md R119) and barriers (10_core_crews_and_waiting.md R245 to R251): arriving,
completing a phase, releasing the waiters in waves, and the instructions `fence`, `bar` and `arrive`.
-/

namespace Sys2Proof.Machine

/-! ### Fences -/

/-- The entry goes to a host range or a peer window. -/
def Loc.outside : Loc → Bool
  | .host _ => true
  | .peer _ => true
  | _ => false

/-- The cluster's L1 is emptied. -/
def Cluster.dropL1 (c : Cluster) : Cluster := { c with l1 := [] }

/-- The Trowel drops the clean blocks that meet a test and marks the dirty ones, and the fetches of such blocks in
flight, to be decoded again (05 R115; 14 R299, R303). -/
def Cluster.refresh (c : Cluster) (p : BsBlock → Bool) : Cluster :=
  { c with
    store := (c.store.filter fun b => !p b || b.dirty != 0).map fun b => if p b then { b with refresh := true } else b
    fetches := c.fetches.map fun x => if p x.tag then { x with stale := true } else x }

/-- The block belongs to a context. -/
def BsBlock.ofCtx (part ctx : Nat) (b : BsBlock) : Bool := b.part == part && b.ctx == ctx

/-- A fence of gang scope or wider (R119, R232). -/
def fenceWide : FenceScope → Bool
  | .crew => false
  | .block => false
  | _ => true

/-- The store-queue entries a fence waits for (R119). -/
def fenceSnap (sc : FenceScope) (c : Cluster) : List Nat :=
  (c.sq.filter fun x => sc == .system || !x.loc.outside).map (·.id)

/-- One attempt of the fence of R119 by a thread: whether it is done, and the state. Until it is done the thread
waits, counted as stalled on the store queue, and attempts it again with the snapshot it took. -/
def State.fence (s : State) (e : Env) (t : Thread) (sc : FenceScope) : Bool × State :=
  if e.drain then (false, s.setThread e.key (t.stall true))
  else if !fenceWide sc then (true, s)
  else
    let c := s.cluster e.cl
    let snap := match t.wait.kind with
      | .fence l => l
      | _ => fenceSnap sc c
    let left := snap.filter fun id => c.sq.any fun x => x.id == id
    if left.isEmpty then (true, s.setCluster e.cl (c.dropL1.refresh (BsBlock.ofCtx e.part e.ctx)))
    else (false, s.setThread e.key { t with wait := { kind := .fence left, counts := true } })

/-- `fence` (09 R232). -/
def execFence (f : FFence) (s : State) : Out :=
  .next (s.issueEach (.fence f) fun st e t =>
    let r := st.fence e t f.scope
    if r.1 then r.2.setThread e.key (t.advance (.fence f)) else r.2)

/-! ### Barrier instances -/

/-- The instance a thread arrives at (R245). -/
def barKey (e : Env) (sc : BarScope) (id : BitVec 4) : BarKey :=
  match sc with
  | .crew => { scope := .crew, launch := e.key.launch, unit := e.block, crew := e.crew, id := 0 }
  | .block => { scope := .block, launch := e.key.launch, unit := e.block, crew := 0, id := id.toNat }
  | .gang => { scope := .gang, launch := e.key.launch, unit := e.gang, crew := 0, id := id.toNat }
  | .launch => { scope := .launch, launch := e.key.launch, unit := 0, crew := 0, id := 0 }

/-- The thread lies in the instance's scope. -/
def inScope (rcd : Rec) (b : BarKey) (k : TKey) : Bool :=
  k.launch == b.launch &&
    (let block := rcd.blockOf k.wid.toNat
     match b.scope with
     | .crew => block == b.unit && fld k.wid.toNat 0 rcd.bw / 32 == b.crew
     | .block => block == b.unit
     | .gang => rcd.gangOf block == b.unit
     | .launch => true)

def State.barrier (s : State) (b : BarKey) : Barrier := s.barriers.get b Barrier.start

/-- Every thread of the scope that has not exited has arrived: those of gangs not started yet have not (R247). -/
def State.allArrived (s : State) (b : BarKey) (x : Barrier) : Bool :=
  (b.scope != .launch || (match s.launches.find b.launch with | some l => l.pending.isEmpty | none => true))
    && s.threads.all fun p => !inScope (s.recOf b.launch) b p.1 || x.arrived.contains p.1

/-- The pending phase is complete (R247): the explicit count, or every thread not exited. -/
def State.phaseDone (s : State) (b : BarKey) (x : Barrier) : Bool :=
  match x.expected with
  | none => false
  | some 0 => decide (0 < x.arrivals) && s.allArrived b x
  | some n => x.arrivals == n

/-- The wave width and spacing of a cluster (R249; 21 R386): 0 acts as 1, above 64 acts as 64. -/
def Cluster.waveWidth (c : Cluster) : Nat := max 1 (min 64 (c.power.extractLsb' 0 7).toNat)
def Cluster.waveSpace (c : Cluster) : Nat := (c.power.extractLsb' 8 8).toNat

/-- The waiting crews of a cluster in ascending order of block placement, then crew number (R249). -/
def State.crewOrder (s : State) (cl : Nat) (ks : List TKey) : List CKey :=
  let here := ks.filter fun k => (s.env k).cl == cl
  let crews := dedup (here.map fun k => (s.env k).ckey)
  let place : CKey → Nat := fun c =>
    match s.blocks.find { launch := c.launch, block := c.block } with | some b => b.place | none => 0
  sortBy (fun a b => decide (place a < place b) || (place a == place b && decide (a.crew < b.crew))) crews

/-- Release some waiting threads in waves on each cluster (R249): crew n of the order leaves in wave n / m, at
s × (n / m) cycles. `wide` says whether the barrier's scope is above the crew. -/
def State.release (s : State) (wide : Bool) (ks : List TKey) : State :=
  let cls := dedup (ks.map fun k => (s.env k).cl)
  cls.foldl (fun st cl =>
    let c := st.cluster cl
    let order := s.crewOrder cl ks
    (ks.filter fun k => (s.env k).cl == cl).foldl (fun st k =>
      let n := (order.findIdx? fun x => x == (s.env k).ckey).getD 0
      st.onThread k fun _ t =>
        { t with wait := { kind := .wave (c.cyc + c.waveSpace * (n / c.waveWidth)) wide, counts := true } }) st) s

/-- The threads that wait for a phase of an instance. -/
def State.waitersOf (s : State) (b : BarKey) (phase : Word32) : List TKey :=
  (s.threads.filter fun p => p.2.wait.kind == .bar b phase).map (·.1)

/-- Park some threads at their barrier (R250): their blocking counters pause. -/
def State.park (s : State) (ks : List TKey) : State :=
  ks.foldl (fun st k => st.onThread k fun _ t => { t with wait := { kind := .parked, counts := false } }) s

/-- Complete the pending phase if its count is reached (R247): the phase advances and the waiters are released,
or park when their launch's class is shed and the scope is above the crew (R250). -/
def State.settleBarrier (s : State) (b : BarKey) : State :=
  let x := s.barrier b
  if s.phaseDone b x then
    let ks := s.waitersOf b x.phase
    let s1 := { s with
      barriers := s.barriers.set b { phase := x.phase + 1, arrivals := 0, expected := none, arrived := [] } }
    if s.shed (s.recOf b.launch).prio && b.scope != .crew then s1.park ks else s1.release (b.scope != .crew) ks
  else s

/-- The instances of a launch with a pending phase. -/
def State.pendingBars (s : State) (l : Nat) : List BarKey :=
  (s.barriers.filter fun p => p.1.launch == l && p.2.expected == some 0).map (·.1)

/-- An exit may complete the pending phases of the instances that wait for all (R247). -/
def State.settleExits (s : State) (l : Nat) : State := (s.pendingBars l).foldl State.settleBarrier s

/-- The trap an arrival takes (R247): a different count, or a second arrival of a thread at an all phase. -/
def arriveFault (x : Barrier) (k : TKey) (count : Nat) : Option Trap :=
  match x.expected with
  | none => none
  | some n =>
    if count ≠ n then some (Trap.illegalWait 2)
    else if count = 0 && x.arrived.contains k then some (Trap.illegalWait 3)
    else none

/-- Record an arrival. -/
def Barrier.arrive (x : Barrier) (k : TKey) (count : Nat) : Barrier :=
  { x with arrivals := x.arrivals + 1, expected := some (x.expected.getD count), arrived := k :: x.arrived }

/-- Withdraw an arrival (R251): with the last one gone the count is no longer fixed. -/
def Barrier.withdraw (x : Barrier) (k : TKey) : Barrier :=
  if x.arrived.contains k then
    let n := x.arrivals - 1
    { x with arrivals := n, expected := if n = 0 then none else x.expected, arrived := x.arrived.erase k }
  else x

/-- The scope of a publishing arrival's fence (R248). -/
def barFence : BarScope → FenceScope
  | .crew => .crew
  | .block => .block
  | .gang => .gang
  | .launch => .device

/-- `bar` of one thread (R247, R248, R251). The thread whose arrival completes the phase waits with the others, and leaves
with its crew's wave, or parks. Executed again after its arrival it waits for that phase, or goes on if the phase has
completed. -/
def barOne (f : FBar) (s : State) (e : Env) (t : Thread) : State :=
  let i := Instr.bar f
  let b := barKey e f.scope f.id
  match t.wait.kind with
  | .bar b' ph =>
    if (s.barrier b').phase == ph then s else s.setThread e.key (t.advance i)
  | .wave _ _ => s.setThread e.key (t.advance i)
  | _ =>
    if f.scope == .launch && !e.rcd.launchBarOk then s.setThread e.key (t.raise e i (Trap.illegalWait 1))
    else
      match arriveFault (s.barrier b) e.key f.count.toNat with
      | some tr => s.setThread e.key (t.raise e i tr)
      | none =>
        let r := if f.pub then s.fence e t (barFence f.scope) else (true, s)
        if r.1 then
          let x := (r.2.barrier b).arrive e.key f.count.toNat
          let s1 := { r.2 with barriers := r.2.barriers.set b x }
          (s1.setThread e.key { t with wait := { kind := .bar b x.phase, counts := true }, chain := none }).settleBarrier b
        else r.2

/-- `bar` (R246 to R248). -/
def execBar (f : FBar) (s : State) : Out := .next (s.issueEach (.bar f) (barOne f))

/-- `arrive` of one thread (R246, R247): D receives the phase, and the thread goes on. -/
def arriveOne (f : FArrive) (s : State) (e : Env) (t : Thread) : State :=
  let i := Instr.arrive f
  let b := barKey e f.scope f.id
  match arriveFault (s.barrier b) e.key f.count.toNat with
  | some tr => s.setThread e.key (t.raise e i tr)
  | none =>
    let r := if f.pub then s.fence e t (barFence f.scope) else (true, s)
    if r.1 then
      let x0 := r.2.barrier b
      let s1 := { r.2 with barriers := r.2.barriers.set b (x0.arrive e.key f.count.toNat) }
      (s1.setThread e.key ((t.put32 e f.w f.d x0.phase).advance i)).settleBarrier b
    else r.2

/-- `arrive` (R246, R247). -/
def execArrive (f : FArrive) (s : State) : Out := .next (s.issueEach (.arrive f) (arriveOne f))

/-- A released thread leaves its `bar`, two words long. -/
def Thread.leaveBar (t : Thread) : Thread := { t with pc := t.pc + 8, chain := none, wait := Wait.idle, blockCtr := 0 }

/-- The thread leaves in a wave that is due, and it may run: its gang is not frozen or saved, and its crew does not stand for
a save (R249; R261). -/
def State.waveDue (s : State) (cl : Nat) (k : TKey) (t : Thread) : Bool :=
  (s.env k).cl == cl && s.mayRun k &&
    (match t.wait.kind with
     | .wave due _ => decide (due ≤ (s.cluster cl).cyc)
     | _ => false)

/-- BARRIER_WAVE_RELEASE (R249): the crews of a cluster whose wave is due leave. -/
def execBarrierWaveRelease (cl : Nat) (s : State) : Out :=
  .next { s with threads := s.threads.mapAll fun k t => if s.waveDue cl k t then t.leaveBar else t }

end Sys2Proof.Machine
end

