-- ==== Sys2Proof/Machine/Control.lean ====
section
/-!
DEFINITION. The control instructions and special registers (07_core_integer_and_control.md R161 to R173).
-/

namespace Sys2Proof.Machine

/-- A canonical virtual address (06 R127), as an exact integer. -/
def canonical (a : Int) : Bool :=
  (decide (0 ≤ a) && decide (a < 2 ^ 56)) || (decide (2 ^ 64 - 2 ^ 56 ≤ a) && decide (a < 2 ^ 64))

/-! ### Branches (R161, R162) -/

/-- Go to a target, or raise ADDRESS; `link` writes the link first (R162). -/
def branchTo (e : Env) (t : Thread) (i : Instr) (target : Int) (link : Thread → Thread) : Thread :=
  if canonical target && target % 4 == 0 then
    { (link t).advance i with pc := BitVec.ofInt 64 target }
  else t.raise e i (Trap.address target)

/-- The target of `bra` and `call`: exact, with no wrap. -/
def relTarget (t : Thread) (imm : BitVec 20) : Int := (t.pc.toNat : Int) + 4 * imm20 imm

def execBra (f : FBra) (s : State) : Out :=
  .next (s.issueLocal (.bra f) fun e t => branchTo e t (.bra f) (relTarget t f.imm) id)
def execCall (f : FCall) (s : State) : Out :=
  .next (s.issueLocal (.call f) fun e t =>
    branchTo e t (.call f) (relTarget t f.imm) fun u => u.put64 e false f.d (t.nextPc (.call f)))
def execBrx (f : FDA) (s : State) : Out :=
  .next (s.issueLocal (.brx f) fun e t =>
    branchTo e t (.brx f) (src64 e t f.a).toNat fun u => u.put64 e f.w f.d (t.nextPc (.brx f)))
def execRet (f : FA) (s : State) : Out :=
  .next (s.issueLocal (.ret f) fun e t => branchTo e t (.ret f) (src64 e t f.a).toNat id)

/-! ### Ending, yielding, trapping (R164 to R169) -/

def execNop (f : FG) (s : State) : Out := .next (s.issueLocal (.nop f) fun _ t => t.advance (.nop f))

/-- The thread ceases to exist (02 R26); its exit may complete a barrier phase (10 R247). -/
def State.exitThread (s : State) (k : TKey) : State :=
  ({ s with threads := s.threads.erase k } : State).settleExits k.launch

/-- `exit` waits until the thread has no logged access (R166; 06 R143). -/
def execExit (f : FG) (s : State) : Out :=
  .next (s.issueEach (.exit f) fun st e t =>
    if st.log.any (fun l => l.accs.any fun a => a.key == e.key) then st.setThread e.key (t.stall false)
    else st.exitThread e.key)

/-- `trap` raises SOFTWARE with `%tpc` the next instruction (R167). -/
def execTrap (f : FTrap) (s : State) : Out :=
  .next (s.issueLocal (.trap f) fun e t =>
    let w : TrapAt := { tpc := t.nextPc (.trap f), ipc := t.pc, defer := false, chain := false, resume := 0 }
    if e.drain then t.holdTrap (Trap.software f.imm) w else t.enterTrap e (Trap.software f.imm) w)

/-- `rti` (06 R154); outside a handler it raised ILLEGAL_ENCODING before (R168). -/
def execRti (s : State) : Out :=
  .next (s.issueLocal .rti fun _ t => { t.returnFromTrap with wait := Wait.idle, blockCtr := 0 })

/-- `yield` (R169): on to the next instruction, and not eligible in the next slot. -/
def execYield (f : FG) (s : State) : Out :=
  .next (s.issueLocal (.yield f) fun _ t =>
    { t.advance (.yield f) with wait := { kind := .yield 0, counts := false } })

/-- YIELD_EXPIRY (R169): after 16 slots a yielding thread is eligible again. -/
def execYieldExpiry (launch : Nat) (wid : Word64) (s : State) : Out :=
  .next (s.onThread { launch := launch, wid := wid } fun _ t =>
    match t.wait.kind with
    | .yield n => if 16 ≤ n then { t with wait := Wait.idle } else t
    | _ => t)

/-! ### The window (R170) -/

/-- A value the window base may take: a multiple of 16 below U. -/
def baseOk (e : Env) (v : Word32) : Bool := v.toNat % 16 == 0 && decide (v.toNat < e.U)

def execWbase (f : FA) (s : State) : Out :=
  .next (s.issueLocal (.wbase f) fun e t =>
    let nb := src32 e t f.a
    if t.inHandler || !baseOk e nb then t.raise e (.wbase f) (Trap.window 1 nb.toNat)
    else { t.advance (.wbase f) with base := nb.toNat })

/-! ### Special registers (R171 to R173) -/

/-- The value of a special register (R171; 02 R30, R34; 06 R156, R157, R159). -/
def sregVal (e : Env) (t : Thread) (r : SReg) : Word128 :=
  let w32 : Nat → Word128 := fun v => (BitVec.ofNat 32 v).setWidth 128
  match r with
  | .rank => w32 e.rank
  | .crank => w32 e.crank
  | .crew => w32 e.crew
  | .gang => w32 e.gangIx
  | .block => (BitVec.ofNat 64 e.block).setWidth 128
  | .wid => e.wid.setWidth 128
  | .wf0 => w32 (e.rcd.wf e.wid.toNat 0)
  | .wf1 => w32 (e.rcd.wf e.wid.toNat 1)
  | .wf2 => w32 (e.rcd.wf e.wid.toNat 2)
  | .wf3 => w32 (e.rcd.wf e.wid.toNat 3)
  | .wf4 => w32 (e.rcd.wf e.wid.toNat 4)
  | .wf5 => w32 (e.rcd.wf e.wid.toNat 5)
  | .clid => w32 e.cl
  | .die => w32 e.die
  | .dev => e.dev.setWidth 128
  | .owner => w32 e.rcd.owner
  | .cls => e.rcd.classWord.setWidth 128
  | .scan => e.scan.setWidth 128
  | .cyc => (BitVec.ofNat 64 e.cyc).setWidth 128
  | .fpm => t.fpm.setWidth 128
  | .rngkey => e.rngKey.setWidth 128
  | .rngctr => e.rngCtr.setWidth 128
  | .tcause => t.tcause.setWidth 128
  | .tpc => t.tpc.setWidth 128
  | .twb => t.twb.setWidth 128
  | .tinfo => t.tinfo

def execSreg (f : FSreg) (s : State) : Out :=
  .next (s.issueLocal (.sreg f) fun e t =>
    (if f.w then t else t.setRegs e f.d.toNat f.r.regs (sregVal e t f.r).toNat).advance (.sreg f))

/-- `sset` of a thread's own register (R172, R173): MBZ bits of `%fpm` are ignored, only FPMSAVE and PSAVE of
`%tcause` are written, and `%twb` takes a window base. -/
def ssetOne (f : FSset) (e : Env) (t : Thread) : Thread :=
  let v32 := src32 e t f.a
  match f.r with
  | .fpm => { t.advance (.sset f) with fpm := v32 &&& 0x1FF }
  | .tcause => { t.advance (.sset f) with
      tcause := (v32 &&& 0xFFFF0000) ||| (t.tcause &&& 0x0000FFFF) }
  | .tpc => { t.advance (.sset f) with tpc := srcZ64 e t f.a }
  | .twb =>
    if baseOk e v32 then { t.advance (.sset f) with twb := v32 }
    else t.raise e (.sset f) (Trap.window 1 v32.toNat)
  | _ => t.advance (.sset f)

/-- The value the participants of a crew write: they agree (R98). -/
def State.crewVal (s : State) (ks : List TKey) (rd : Env → Thread → Word64) : Word64 :=
  match ks with
  | [] => 0
  | k :: _ => match s.threads.find k with | some t => rd (s.env k) t | none => 0

/-- `sset` of the crew's generator state (R173). -/
def ssetCrew (f : FSset) (s : State) (c : CKey) (ks : List TKey) : State :=
  let v := s.crewVal ks fun e t => srcZ64 e t f.a
  let s1 := { s with crews := s.crews.upd c fun x =>
    if f.r == SReg.rngkey then { x with rngKey := v } else { x with rngCtr := v } }
  s1.advanceAll (.sset f) ks

def execSset (f : FSset) (s : State) : Out :=
  if f.r == SReg.rngkey || f.r == SReg.rngctr then .next (s.issueCrews srcNat (.sset f) (ssetCrew f))
  else .next (s.issueLocal (.sset f) (ssetOne f))

end Sys2Proof.Machine
end

