-- ==== Sys2Proof/Machine/Flags.lean ====
section
/-!
DEFINITION. The conditions that set predicates: the compares of 04_instruction_formats.md R87 on integers, the
conditions of memory waits (10 R252), and the truth table of `pset` (07 R180). The machine has no other flags.
-/

namespace Sys2Proof.Machine

/-- The conditions of `cmps` (R87). -/
def condS (c : BitVec 3) (a b : Word32) : Bool :=
  match c.toNat with
  | 0 => a == b
  | 1 => a != b
  | 2 => a.slt b
  | 3 => a.sle b
  | 4 => b.slt a
  | 5 => b.sle a
  | 6 => (a &&& b) != 0
  | _ => (a &&& b) == 0

/-- The conditions of `cmpz` (R87). -/
def condZ (c : BitVec 3) (a b : Word32) : Bool :=
  match c.toNat with
  | 0 => a == b
  | 1 => a != b
  | 2 => a.ult b
  | 3 => a.ule b
  | 4 => b.ult a
  | 5 => b.ule a
  | 6 => (a &&& b) != 0
  | _ => (a &&& b) == 0

/-- The conditions of `cmp64` (R87): eq, ne, lts, les, ltz, lez, gts, gtz. -/
def cond64 (c : BitVec 3) (a b : Word64) : Bool :=
  match c.toNat with
  | 0 => a == b
  | 1 => a != b
  | 2 => a.slt b
  | 3 => a.sle b
  | 4 => a.ult b
  | 5 => a.ule b
  | 6 => b.slt a
  | _ => b.ult a

/-- The conditions of `wait` and `pchk` on the value read (10 R252): eq, ne, lts, ges, ltz, gez, test, tz. -/
def condWait {n : Nat} (c : BitVec 3) (v b : BitVec n) : Bool :=
  match c.toNat with
  | 0 => v == b
  | 1 => v != b
  | 2 => v.slt b
  | 3 => b.sle v
  | 4 => v.ult b
  | 5 => b.ule v
  | 6 => (v &&& b) != 0
  | _ => (v &&& b) == 0

/-- The bit of a truth table that `pset` selects: a + 2 b (07 R180). -/
def truthBit (t : BitVec 4) (a b : Bool) : Bool := t.getLsbD ((if a then 1 else 0) + 2 * (if b then 1 else 0))

end Sys2Proof.Machine
end

