-- ==== Sys2Proof/Config.lean ====
section
/-!
DEFINITION. What an implementation fixes and the spec leaves open: the free values. Each is an opaque constant,
so no proof sees what it is (notes/assumptions/9.md).
-/

namespace Sys2Proof.Config

/-- The value a special function returns where 08 R205 gives only a bound: a fixed function of FUNC, TYPE and the
input bits. The machine takes it only where it lies within the bound. -/
opaque sfu : Nat → Bool → Nat → Nat

/-- The energy the management controller estimates for one charge, in microjoules (21 R383). -/
opaque energy : Nat → Nat

/-- A byte whose value is not promised: what a host access to a device-owned range returns or writes (06 R136),
and device memory after an abandoned restore (22 R411). -/
opaque freeByte : Nat → Byte

/-- The two root-key hashes in the boot ROM (22 R406). -/
opaque rootKeyHash : Nat → BitVec 384

end Sys2Proof.Config
end

