-- ==== Sys2Proof/Machine/Float.lean ====
section
/-!
DEFINITION. Number formats and rounding (08_core_numbers.md R185 to R195, R199, R206 to R209): a value is NaN, an
infinity or a signed dyadic, computed exactly and rounded once.
-/

namespace Sys2Proof.Machine

/-- A decoded value: `fin neg m e` is (-1)^neg · m · 2^e. -/
inductive FVal where
  | nan
  | inf (neg : Bool)
  | fin (neg : Bool) (m : Nat) (e : Int)
  deriving DecidableEq, Repr

/-- A rounding mode (R190); `rna` is for `fround` only. -/
inductive RMode where | rn | rz | ru | rd | rna
  deriving DecidableEq, Repr

/-- A binary format (R185, R186): exponent and fraction widths, and whether it has infinities (E4M3 has none and
one NaN mantissa). -/
structure Fmt where
  eb : Nat
  mb : Nat
  ieee : Bool
  deriving DecidableEq, Repr

namespace Fmt

def f64 : Fmt := { eb := 11, mb := 52, ieee := true }
def f32 : Fmt := { eb := 8, mb := 23, ieee := true }
def f16 : Fmt := { eb := 5, mb := 10, ieee := true }
def bf16 : Fmt := { eb := 8, mb := 7, ieee := true }
def e5m2 : Fmt := { eb := 5, mb := 2, ieee := true }
def e4m3 : Fmt := { eb := 4, mb := 3, ieee := false }

def bias (f : Fmt) : Int := 2 ^ (f.eb - 1) - 1
def width (f : Fmt) : Nat := 1 + f.eb + f.mb
/-- The exponent of the least normal value. -/
def emin (f : Fmt) : Int := 1 - f.bias
/-- The largest finite magnitude as bits. -/
def maxBits (f : Fmt) : Nat := if f.ieee then (2 ^ f.eb - 1) * 2 ^ f.mb - 1 else 2 ^ (f.eb + f.mb) - 2
/-- The magnitude bits of infinity. -/
def infBits (f : Fmt) : Nat := (2 ^ f.eb - 1) * 2 ^ f.mb
/-- The canonical NaN (R185, R186). -/
def nanBits (f : Fmt) : Nat := if f.ieee then f.infBits + 2 ^ (f.mb - 1) else 2 ^ (f.eb + f.mb) - 1
def signBit (f : Fmt) (neg : Bool) : Nat := if neg then 2 ^ (f.eb + f.mb) else 0

end Fmt

/-- The sign of a bit pattern. -/
def fneg (f : Fmt) (x : Nat) : Bool := bit x (f.eb + f.mb)
def fexp (f : Fmt) (x : Nat) : Nat := fld x f.mb f.eb
def ffrac (f : Fmt) (x : Nat) : Nat := fld x 0 f.mb

/-- The pattern is a NaN (R185, R186). -/
def isNanBits (f : Fmt) (x : Nat) : Bool :=
  if f.ieee then fexp f x == 2 ^ f.eb - 1 && ffrac f x != 0
  else fexp f x == 2 ^ f.eb - 1 && ffrac f x == 2 ^ f.mb - 1

/-- The pattern is subnormal: exponent field 0, fraction not 0. -/
def isSubBits (f : Fmt) (x : Nat) : Bool := fexp f x == 0 && ffrac f x != 0

/-- The value of a pattern (R185, R186). -/
def fval (f : Fmt) (x : Nat) : FVal :=
  if isNanBits f x then .nan
  else if f.ieee && fexp f x == 2 ^ f.eb - 1 then .inf (fneg f x)
  else if fexp f x = 0 then .fin (fneg f x) (ffrac f x) (f.emin - f.mb)
  else .fin (fneg f x) (2 ^ f.mb + ffrac f x) ((fexp f x : Int) - f.bias - f.mb)

/-- Input flush (R193): a subnormal operand is a zero of the same sign. -/
def flushIn (f : Fmt) (on : Bool) (x : Nat) : Nat :=
  if on && isSubBits f x then f.signBit (fneg f x) else x

/-- Result flush (R193). -/
def flushOut (f : Fmt) (on : Bool) (x : Nat) : Nat := flushIn f on x

/-- Whether a magnitude cut to `k` with a remainder is rounded up: `cmp` compares the rest with a half, `inexact`
says that the rest is not 0. -/
def roundUp (mode : RMode) (neg : Bool) (k : Nat) (cmp : Ordering) (inexact : Bool) : Bool :=
  match mode with
  | .rn => cmp == .gt || (cmp == .eq && k % 2 == 1)
  | .rna => cmp == .gt || cmp == .eq
  | .rz => false
  | .ru => inexact && !neg
  | .rd => inexact && neg

/-- m · 2^e, plus something below one unit of m when `sticky`, rounded to a multiple of 2^q. -/
def roundAt (mode : RMode) (neg : Bool) (m : Nat) (e q : Int) (sticky : Bool) : Nat :=
  if q ≤ e then
    let k := m <<< (e - q).toNat
    if roundUp mode neg k .lt sticky then k + 1 else k
  else
    let sh := (q - e).toNat
    if bitLen m + 1 < sh then
      if roundUp mode neg 0 .lt (m != 0 || sticky) then 1 else 0
    else
      let k := m >>> sh
      let r := m % 2 ^ sh
      let half := 2 ^ (sh - 1)
      let cmp : Ordering := if r < half then .lt else if half < r || sticky then .gt else .eq
      if roundUp mode neg k cmp (r != 0 || sticky) then k + 1 else k

/-- The overflow result (R192): NSAT matters for the FP8 formats only. -/
def overflowBits (f : Fmt) (mode : RMode) (nsat neg : Bool) : Nat :=
  if nsat then f.signBit neg + f.maxBits
  else if !f.ieee then f.nanBits
  else
    let inf :=
      match mode with
      | .rn => true
      | .rna => true
      | .rz => false
      | .ru => !neg
      | .rd => neg
    f.signBit neg + (if inf then f.infBits else f.maxBits)

/-- `Round` (R192) of (-1)^neg · (m · 2^e, plus a sticky rest): one rounding; a zero keeps its sign. -/
def roundBits (f : Fmt) (mode : RMode) (nsat neg : Bool) (m : Nat) (e : Int) (sticky : Bool) : Nat :=
  if m = 0 && !sticky then f.signBit neg
  else
    let top : Int := (bitLen m : Int) + e - 1
    let q : Int := max top f.emin - f.mb
    let k := roundAt mode neg m e q sticky
    if k < 2 ^ f.mb then f.signBit neg + k
    else
      let be : Int := q + f.mb + f.bias
      let bits := be.toNat * 2 ^ f.mb + (k - 2 ^ f.mb)
      if f.maxBits < bits then overflowBits f mode nsat neg else f.signBit neg + bits

/-- An infinity in a format (R192): narrow formats saturate with NSAT; E4M3 has none. -/
def infResult (f : Fmt) (nsat neg : Bool) : Nat :=
  if nsat then f.signBit neg + f.maxBits
  else if f.ieee then f.signBit neg + f.infBits
  else f.nanBits

/-- A value rounded to a format. -/
def FVal.round (f : Fmt) (mode : RMode) (nsat : Bool) : FVal → Nat
  | .nan => f.nanBits
  | .inf neg => infResult f nsat neg
  | .fin neg m e => roundBits f mode nsat neg m e false

/-! ### Exact arithmetic -/

/-- The signed integer of a finite value at exponent `e0 ≤ e`. -/
def scaled (neg : Bool) (m : Nat) (e e0 : Int) : Int :=
  let v : Int := ((m <<< (e - e0).toNat : Nat) : Int)
  if neg then -v else v

/-- The sign of an exact zero sum (R195): −0 in RD, +0 otherwise. -/
def zeroNeg (mode : RMode) : Bool := mode == .rd

/-- The exact sum (R195). -/
def FVal.add (mode : RMode) (a b : FVal) : FVal :=
  match a, b with
  | .nan, _ => .nan
  | _, .nan => .nan
  | .inf x, .inf y => if x == y then .inf x else .nan
  | .inf x, _ => .inf x
  | _, .inf y => .inf y
  | .fin na ma ea, .fin nb mb eb =>
    let e0 := min ea eb
    let v := scaled na ma ea e0 + scaled nb mb eb e0
    if v = 0 then
      if ma = 0 && mb = 0 && na == nb then .fin na 0 e0 else .fin (zeroNeg mode) 0 e0
    else .fin (decide (v < 0)) v.natAbs e0

def FVal.neg : FVal → FVal
  | .nan => .nan
  | .inf x => .inf (!x)
  | .fin n m e => .fin (!n) m e

def FVal.isZero : FVal → Bool
  | .fin _ m _ => m == 0
  | _ => false

def FVal.sign : FVal → Bool
  | .nan => false
  | .inf n => n
  | .fin n _ _ => n

/-- The exact product (R195). -/
def FVal.mul (a b : FVal) : FVal :=
  match a, b with
  | .nan, _ => .nan
  | _, .nan => .nan
  | .fin na ma ea, .fin nb mb eb => .fin (na != nb) (ma * mb) (ea + eb)
  | x, y => if x.isZero || y.isZero then .nan else .inf (x.sign != y.sign)

/-- Multiply by 2^k exactly. -/
def FVal.scale (k : Int) : FVal → FVal
  | .fin n m e => .fin n m (e + k)
  | x => x

/-- A quotient rounded once (R197): the division is cut with a sticky rest. -/
def divBits (f : Fmt) (mode : RMode) (a b : FVal) : Nat :=
  match a, b with
  | .nan, _ => f.nanBits
  | _, .nan => f.nanBits
  | .inf _, .inf _ => f.nanBits
  | .inf x, y => infResult f false (x != y.sign)
  | .fin na _ _, .inf y => f.signBit (na != y)
  | .fin na ma ea, .fin nb mb eb =>
    if mb = 0 then if ma = 0 then f.nanBits else infResult f false (na != nb)
    else
      let k := f.mb + 4 + bitLen mb - bitLen ma
      let q := (ma <<< k) / mb
      let r := (ma <<< k) % mb
      roundBits f mode false (na != nb) q (ea - eb - k) (r != 0)

/-- The integer square root of `x` below 2^n: n bits from the top. -/
def isqrtAux (x : Nat) : Nat → Nat → Nat
  | 0, r => r
  | n + 1, r => isqrtAux x n (if (r + 2 ^ n) * (r + 2 ^ n) ≤ x then r + 2 ^ n else r)

/-- ⌊√x⌋. -/
def isqrt (x : Nat) : Nat := isqrtAux x (bitLen x / 2 + 1) 0

/-- A square root rounded once (R205). -/
def sqrtBits (f : Fmt) (mode : RMode) (a : FVal) : Nat :=
  match a with
  | .nan => f.nanBits
  | .inf n => if n then f.nanBits else infResult f false false
  | .fin n m e =>
    if m = 0 then f.signBit n
    else if n then f.nanBits
    else
      let k := 2 * (f.mb + 4)
      let k := if (e - k) % 2 = 0 then k else k + 1
      let x := m <<< k
      let r := isqrt x
      roundBits f mode false false r ((e - k) / 2) (r * r != x)

/-- The order of two values, none when a NaN is among them: −0 equals +0. -/
def FVal.cmp (a b : FVal) : Option Ordering :=
  match a, b with
  | .nan, _ => none
  | _, .nan => none
  | .inf x, .inf y => some (if x == y then .eq else if x then .lt else .gt)
  | .inf x, _ => some (if x then .lt else .gt)
  | _, .inf y => some (if y then .gt else .lt)
  | .fin na ma ea, .fin nb mb eb =>
    let e0 := min ea eb
    some (compare (scaled na ma ea e0) (scaled nb mb eb e0))

/-- minimumNumber and maximumNumber on patterns (R199): a single NaN is passed over, −0 is below +0. -/
def minBits (f : Fmt) (x y : Nat) : Nat :=
  match (fval f x).cmp (fval f y) with
  | some .lt => x
  | some .gt => y
  | some .eq => if fneg f x then x else y
  | none => if isNanBits f x then (if isNanBits f y then f.nanBits else y) else x
def maxBitsOf (f : Fmt) (x y : Nat) : Nat :=
  match (fval f x).cmp (fval f y) with
  | some .lt => y
  | some .gt => x
  | some .eq => if fneg f x then y else x
  | none => if isNanBits f x then (if isNanBits f y then f.nanBits else y) else x

/-- The conditions of `fcmp` (04 R87). -/
def condF (c : BitVec 3) (o : Option Ordering) : Bool :=
  match c.toNat, o with
  | 0, some .eq => true
  | 1, some .eq => false
  | 1, _ => true
  | 2, some .lt => true
  | 3, some .lt => true
  | 3, some .eq => true
  | 4, some .gt => true
  | 5, some .gt => true
  | 5, some .eq => true
  | 6, none => true
  | 7, some _ => true
  | _, _ => false

/-! ### Integers -/

/-- A value rounded to an integer (R207): none for NaN, the bounds for infinities are the caller's. -/
def toIntRound (mode : RMode) : FVal → Int
  | .fin neg m e =>
    let k := if 4200 < e then (if m = 0 then 0 else 2 ^ 4200) else roundAt mode neg m e 0 false
    if neg then -(k : Int) else k
  | _ => 0

/-- Convert to an integer type with saturation (R207). -/
def toIntSat (mode : RMode) (lo hi : Int) : FVal → Int
  | .nan => 0
  | .inf neg => if neg then lo else hi
  | x => clampInt (toIntRound mode x) lo hi

/-- An integer as a value. -/
def ofInt (v : Int) : FVal := .fin (decide (v < 0)) v.natAbs 0

/-! ### The mode register (R190) -/

/-- `%fpm` read as fields. -/
structure Fpm where
  rm : RMode
  fiw : Bool
  frw : Bool
  fih : Bool
  frh : Bool
  fin : Bool
  frn : Bool
  nsat : Bool
  deriving DecidableEq, Repr

/-- A code of RM. -/
def rmOf (c : Nat) : RMode :=
  match c % 4 with
  | 0 => .rn
  | 1 => .rz
  | 2 => .ru
  | _ => .rd

def Fpm.of (v : Word32) : Fpm :=
  { rm := rmOf (v.extractLsb' 0 2).toNat, fiw := v.getLsbD 2, frw := v.getLsbD 3, fih := v.getLsbD 4,
    frh := v.getLsbD 5, fin := v.getLsbD 6, frn := v.getLsbD 7, nsat := v.getLsbD 8 }

/-- The input flush bit of a format's class. -/
def Fpm.inFlush (p : Fpm) (f : Fmt) : Bool :=
  if 23 ≤ f.mb then p.fiw else if f.width = 16 then p.fih else p.fin
/-- The result flush bit of a format's class. -/
def Fpm.outFlush (p : Fpm) (f : Fmt) : Bool :=
  if 23 ≤ f.mb then p.frw else if f.width = 16 then p.frh else p.frn

/-- A flushed operand as a value. -/
def fin (p : Fpm) (f : Fmt) (x : Nat) : FVal := fval f (flushIn f (p.inFlush f) x)

/-- A value rounded in RM and flushed (R192, R193). NSAT applies to the FP8 formats. -/
def fout (p : Fpm) (f : Fmt) (v : FVal) : Nat :=
  flushOut f (p.outFlush f) (v.round f p.rm (p.nsat && f.width == 8))

def faddBits (p : Fpm) (f : Fmt) (x y : Nat) : Nat := fout p f ((fin p f x).add p.rm (fin p f y))
def fsubBits (p : Fpm) (f : Fmt) (x y : Nat) : Nat := fout p f ((fin p f x).add p.rm (fin p f y).neg)
def fmulBits (p : Fpm) (f : Fmt) (x y : Nat) : Nat := fout p f ((fin p f x).mul (fin p f y))
def fmaBits (p : Fpm) (f : Fmt) (x y z : Nat) : Nat :=
  fout p f (((fin p f x).mul (fin p f y)).add p.rm (fin p f z))
def fdivBits (p : Fpm) (f : Fmt) (x y : Nat) : Nat :=
  flushOut f (p.outFlush f) (divBits f p.rm (fin p f x) (fin p f y))
/-- `fmin` and `fmax`: input flush only (R199); a NaN result is canonical. -/
def fminBits (p : Fpm) (f : Fmt) (x y : Nat) : Nat :=
  minBits f (flushIn f (p.inFlush f) x) (flushIn f (p.inFlush f) y)
def fmaxBits (p : Fpm) (f : Fmt) (x y : Nat) : Nat :=
  maxBitsOf f (flushIn f (p.inFlush f) x) (flushIn f (p.inFlush f) y)
/-- `fscale` (R201). -/
def fscaleBits (p : Fpm) (f : Fmt) (x : Nat) (k : Int) : Nat := fout p f ((fin p f x).scale k)

/-- Apply a 16-bit operation to both elements of a packed register (R188). -/
def packed2 (op : Nat → Nat → Nat) (a b : Word32) : Word32 :=
  BitVec.ofNat 32 (op (a.extractLsb' 0 16).toNat (b.extractLsb' 0 16).toNat
    + 2 ^ 16 * op (a.extractLsb' 16 16).toNat (b.extractLsb' 16 16).toNat)
def packed3 (op : Nat → Nat → Nat → Nat) (a b c : Word32) : Word32 :=
  BitVec.ofNat 32 (op (a.extractLsb' 0 16).toNat (b.extractLsb' 0 16).toNat (c.extractLsb' 0 16).toNat
    + 2 ^ 16 * op (a.extractLsb' 16 16).toNat (b.extractLsb' 16 16).toNat (c.extractLsb' 16 16).toNat)
def packed1 (op : Nat → Nat) (a : Word32) : Word32 :=
  BitVec.ofNat 32 (op (a.extractLsb' 0 16).toNat + 2 ^ 16 * op (a.extractLsb' 16 16).toNat)

/-! ### Narrow formats (R187 to R189) -/

/-- An E8M0 value (R187). -/
def e8m0Val (x : Nat) : FVal := if x = 255 then .nan else .fin false 1 ((x : Int) - 127)

/-- `.e8m0.f32` (R207). -/
def toE8m0 : FVal → Nat
  | .fin _ m e => if m = 0 then 0 else (clampInt ((bitLen m : Int) + e - 1 + 127) 0 254).toNat
  | _ => 255

/-- The eight weights of a CB16 index in units of one quarter (R189). -/
def cb16 (x : Nat) : List Int :=
  let mag : Nat → Int := fun i => if bit x (8 + i) then 3 else 1
  let w : Nat → Int := fun i => if bit x (1 + i) then -(mag i) else mag i
  let s := ((List.range 7).map w).foldl (· + ·) (mag 7)
  let w7 := if (s / 2) % 2 = 0 then mag 7 else -(mag 7)
  let k : Int := if bit x 0 then 1 else 2
  ((List.range 7).map fun i => k * w i) ++ [k * w7]

/-- A CB16 weight as a value. -/
def cb16Val (q : Int) : FVal := .fin (decide (q < 0)) q.natAbs (-2)

end Sys2Proof.Machine
end

