-- ==== Sys2Proof/Machine/Sfu.lean ====
section
/-!
DEFINITION. The special functions (08_core_numbers.md R205). Where the spec gives only a bound, the result is the
free value `Config.sfu`, taken when it lies within the bound of a fixed-point approximation of the exact result,
and that approximation rounded to nearest otherwise (notes/assumptions/9.md).
-/

namespace Sys2Proof.Machine

/-- Fraction bits of the fixed-point approximations. -/
def fxBits : Nat := 160

/-- ln 2 in fixed point: the sum of 1 / (k · 2^k). -/
def fxLn2 : Nat := ((upFrom 1 170).map fun k => 2 ^ fxBits / (k * 2 ^ k)).foldl (· + ·) 0

/-- arctan(1/n) in fixed point, from its series. -/
def fxAtanInv (n : Nat) : Int :=
  ((List.range 120).map fun k =>
    let t : Int := ((2 ^ fxBits / ((2 * k + 1) * n ^ (2 * k + 1)) : Nat) : Int)
    if k % 2 = 0 then t else -t).foldl (· + ·) 0

/-- π in fixed point, by Machin's formula. -/
def fxPi : Int := 16 * fxAtanInv 5 - 4 * fxAtanInv 239

/-- A product of fixed-point numbers. -/
def fxMul (a b : Int) : Int := a * b / 2 ^ fxBits

/-- The value in fixed point, cut toward −∞. -/
def fxOf : FVal → Int
  | .fin neg m e =>
    let v : Int := if 0 ≤ e + fxBits then ((m <<< (e + fxBits).toNat : Nat) : Int) else ((m >>> (-(e + fxBits)).toNat : Nat) : Int)
    if neg then -v else v
  | _ => 0

/-- Terms of a power series: term k + 1 is term k times `step k`. -/
def fxSeries (first : Int) (step : Nat → Int → Int) : Nat → Nat → Int
  | 0, _ => 0
  | n + 1, k => first + fxSeries (step k first) step n (k + 1)

/-- exp(x) for |x| < 1. -/
def fxExp (x : Int) : Int := fxSeries (2 ^ fxBits) (fun k t => fxMul t x / (k + 1)) 40 0

/-- sin(x) and cos(x) for |x| < 2. -/
def fxSin (x : Int) : Int := fxSeries x (fun k t => -(fxMul (fxMul t x) x) / ((2 * k + 2) * (2 * k + 3))) 30 0
def fxCos (x : Int) : Int := fxSeries (2 ^ fxBits) (fun k t => -(fxMul (fxMul t x) x) / ((2 * k + 1) * (2 * k + 2))) 30 0

/-- The fraction bits of log2 of y in [1, 2): squaring, one bit at a time. -/
def fxLogBits : Nat → Int → Int
  | 0, _ => 0
  | n + 1, y =>
    let z := fxMul y y
    if 2 ^ (fxBits + 1) ≤ z then 2 ^ n + fxLogBits n (z / 2) else fxLogBits n z

/-- A dyadic approximation v · 2^e of an exact result. -/
structure Approx where
  v : Int
  e : Int
  deriving DecidableEq, Repr

/-- 2^x: the integer part is the exponent. Far outside every format it is a value as far outside. -/
def approxExp2 (x : FVal) : Approx :=
  match x with
  | .fin neg m e =>
    if 12 < (bitLen m : Int) + e then { v := 1, e := if neg then -5000 else 5000 }
    else
      let fx := fxOf x
      let n := fx / 2 ^ fxBits
      let f := fx % 2 ^ fxBits
      { v := fxExp (fxMul f fxLn2), e := n - fxBits }
  | _ => { v := 0, e := 0 }

/-- log2 x for x > 0, with 120 fraction bits. -/
def approxLog2 (m : Nat) (e : Int) : Approx :=
  let n := bitLen m
  let y : Int := ((m <<< (fxBits + 1 - n) : Nat) : Int)
  { v := ((n : Int) - 1 + e) * 2 ^ 120 + fxLogBits 120 y, e := -120 }

/-- x mod 2 for sin and cos of π x, in fixed point. -/
def fxMod2 (x : FVal) : Int :=
  match x with
  | .fin neg m e =>
    let r : Nat := if 2 ≤ e then 0 else if 0 ≤ e then (m <<< e.toNat) % 2 * 2 ^ fxBits
      else if (-e).toNat ≤ fxBits then (m <<< (fxBits - (-e).toNat)) % 2 ^ (fxBits + 1)
      else m >>> ((-e).toNat - fxBits)
    if neg && r != 0 then 2 ^ (fxBits + 1) - (r : Int) else r
  | _ => 0

/-- sin(π r) for r in [0, 2); at a half-integer it is 1 or −1 exactly. -/
def fxSinPi (r : Int) : Int :=
  let half : Int := 2 ^ (fxBits - 1)
  let one : Int := 2 ^ fxBits
  let s := if one ≤ r then -1 else 1
  let r1 := if one ≤ r then r - one else r
  let r2 := if half < r1 then one - r1 else r1
  s * (if r2 = half then one else fxSin (fxMul fxPi r2))

/-- tanh of a positive m · 2^e: a short series for small x, else from 2^(−2 x log2 e). It lies below x and below 1, as the exact
result does, so that the spacing of the format there is the one at the exact result. -/
def approxTanh (m : Nat) (e : Int) : Approx :=
  let top := (bitLen m : Int) + e
  if top ≤ -40 then { v := ((m <<< fxBits : Nat) : Int) - 1, e := e - fxBits }
  else if top ≤ -8 then
    let one : Int := 2 ^ fxBits
    let x : Int := ((m <<< (fxBits - bitLen m) : Nat) : Int)
    -- x is scaled so that it lies in [1/2, 1); the true argument is x · 2^top
    let sq := fxMul x x / 2 ^ (2 * (-top).toNat)
    let c := one - sq / 3 + 2 * fxMul sq sq / 15 - 17 * fxMul (fxMul sq sq) sq / 315
      + 62 * fxMul (fxMul sq sq) (fxMul sq sq) / 2835
    { v := fxMul x c, e := top - fxBits }
  else if 6 < top then { v := 2 ^ fxBits - 1, e := -(fxBits : Int) }
  else
    let x2 := 2 * fxOf (.fin false m e)
    let l : Int := fxLn2
    let n := x2 / l
    let r := x2 - n * l
    let ex := fxExp (-r) / 2 ^ n.toNat
    { v := min (2 ^ fxBits - 1) (((2 : Int) ^ fxBits - ex) * 2 ^ fxBits / (2 ^ fxBits + ex)), e := -(fxBits : Int) }

/-- 1/√x of a positive m · 2^e. -/
def approxRsqrt (m : Nat) (e : Int) : Approx :=
  let k := if e % 2 = 0 then 4 * fxBits else 4 * fxBits + 1
  -- 1/√(m 2^e) = √(2^k / m) · 2^(-(e + k) / 2)
  let s := bitLen m + 1
  let k := k + 2 * s
  { v := (isqrt (2 ^ k / m) : Nat), e := -(e + k) / 2 }

/-- cos(π x) of m · 2^e: for a tiny x that is not 0 just below 1, as the exact result is. -/
def approxCosPi (neg : Bool) (m : Nat) (e : Int) : Approx :=
  if m ≠ 0 ∧ (bitLen m : Int) + e ≤ -40 then { v := 2 ^ fxBits - 1, e := -(fxBits : Int) }
  else { v := fxSinPi ((fxMod2 (.fin neg m e) + 2 ^ (fxBits - 1)) % 2 ^ (fxBits + 1)), e := -(fxBits : Int) }

/-- |x − a| ≤ b, for dyadics: exactly, on the approximation. That is a dyadic result itself, and lies on the same side of every
bound as any other result (LOG 9). -/
def Approx.near (a : Approx) (x : FVal) (bnd : Approx) : Bool :=
  match x with
  | .fin neg m e =>
    let e0 := min (min a.e e) bnd.e
    let d := (scaled (decide (a.v < 0)) a.v.natAbs a.e e0 - scaled neg m e e0).natAbs
    let b := (scaled false bnd.v.natAbs bnd.e e0).natAbs
    decide (d ≤ b)
  | _ => false

/-- n ulp of a format at an approximation. -/
def Approx.ulp (f : Fmt) (a : Approx) (n : Nat) : Approx :=
  { v := n, e := max ((bitLen a.v.natAbs : Int) + a.e - 1) f.emin - f.mb }

/-- The approximation rounded to nearest. -/
def Approx.bits (f : Fmt) (a : Approx) : Nat := roundBits f .rn false (decide (a.v < 0)) a.v.natAbs a.e false

/-- The free value where it lies within the bound, else the approximation (R205). -/
def withinBound (f : Fmt) (fn x : Nat) (a bnd : Approx) : Nat :=
  let v := Config.sfu fn (f.mb == 52) x % 2 ^ f.width
  if a.near (fval f v) bnd then v else a.bits f

/-- The functions that are not correctly rounded, on a flushed operand pattern (R205). -/
def sfuApprox (f : Fmt) (fn : SfuFn) (x : Nat) : Nat :=
  let neg := fneg f x
  match fn, fval f x with
  | _, .nan => f.nanBits
  | .rsqrt, .inf n => if n then f.nanBits else 0
  | .rsqrt, .fin n m e =>
    if m = 0 then infResult f false n
    else if n then f.nanBits
    else let a := approxRsqrt m e; withinBound f 2 x a (a.ulp f 1)
  | .exp2, .inf n => if n then 0 else f.infBits
  | .exp2, .fin n m e =>
    if !n && decide (8 ≤ (bitLen m : Int) + e) then f.infBits
    else
      let a := approxExp2 (.fin n m e)
      let top := (bitLen a.v.natAbs : Int) + a.e - 1
      withinBound f 3 x a (if f.emin ≤ top then a.ulp f 2 else { v := 1, e := -149 })
  | .log2, .inf n => if n then f.nanBits else f.infBits
  | .log2, .fin n m e =>
    if m = 0 then infResult f false true
    else if n then f.nanBits
    else if (FVal.fin n m e).cmp (.fin false 1 0) = some .eq then 0
    else
      let a := approxLog2 m e
      let inner := (FVal.fin n m e).cmp (.fin false 1 (-1)) != some .lt && (FVal.fin n m e).cmp (.fin false 1 1) != some .gt
      withinBound f 4 x a (if inner then { v := 1, e := -22 } else a.ulp f 2)
  | .sinpi, .inf _ => f.nanBits
  | .sinpi, .fin n m e =>
    let r := fxMod2 (.fin n m e)
    if m = 0 || 0 ≤ e || (decide ((-e).toNat ≤ bitLen m) && m % 2 ^ (-e).toNat == 0) then 0
    else withinBound f 5 x { v := fxSinPi r, e := -(fxBits : Int) } { v := 1, e := -22 }
  | .cospi, .inf _ => f.nanBits
  | .cospi, .fin n m e => withinBound f 6 x (approxCosPi n m e) { v := 1, e := -22 }
  | .tanh, .inf n => roundBits f .rn false n 1 0 false
  | .tanh, .fin n m e =>
    if m = 0 then f.signBit n
    else
      let a := approxTanh m e
      let a := { a with v := if n then -a.v else a.v }
      withinBound f 7 x a (a.ulp f 3)
  | .rcp, _ => f.signBit neg
  | .sqrt, _ => f.signBit neg

/-- `fsfu` on an operand pattern (R205): input flush, the function, result flush. -/
def sfuBits (p : Fpm) (f : Fmt) (fn : SfuFn) (x : Nat) : Nat :=
  let x1 := flushIn f (p.inFlush f) x
  flushOut f (p.outFlush f)
    (match fn with
     | .rcp => divBits f p.rm (.fin false 1 0) (fval f x1)
     | .sqrt => sqrtBits f p.rm (fval f x1)
     | _ => sfuApprox f fn x1)

end Sys2Proof.Machine
end

