-- ==== Sys2Proof/Machine/Numbers.lean ====
section
/-!
DEFINITION. The floating and narrow-format instructions (08_core_numbers.md R197 to R212).
-/

namespace Sys2Proof.Machine

/-- The mode a thread samples at issue (R191). -/
def Thread.mode (t : Thread) : Fpm := Fpm.of t.fpm

/-! ### Shapes of the results -/

/-- A binary operation of FP64 or FP32 under the thread's mode. -/
def op64 (op : Fpm → Fmt → Nat → Nat → Nat) : Thread → Word64 → Word64 → Word64 :=
  fun t a b => BitVec.ofNat 64 (op t.mode Fmt.f64 a.toNat b.toNat)
def op32 (op : Fpm → Fmt → Nat → Nat → Nat) : Thread → Word32 → Word32 → Word32 :=
  fun t a b => BitVec.ofNat 32 (op t.mode Fmt.f32 a.toNat b.toNat)
/-- On both elements of a packed register. -/
def op16 (f : Fmt) (op : Fpm → Fmt → Nat → Nat → Nat) : Thread → Word32 → Word32 → Word32 :=
  fun t a b => packed2 (op t.mode f) a b

/-! ### Arithmetic (R197 to R201) -/

def execFaddF64 (f : FDAB) (s : State) : Out :=
  .next (s.issueShort (.faddF64 f) (twoF64 f (op64 faddBits)) shortOff)
def execFaddF32 (f : FDAB) (s : State) : Out :=
  .next (s.issueShort (.faddF32 f) (twoF32 f (op32 faddBits)) shortOff)
def execFaddF16x2 (f : FDAB) (s : State) : Out :=
  .next (s.issueShort (.faddF16x2 f) (twoF32 f (op16 Fmt.f16 faddBits)) shortOff)
def execFaddBf16x2 (f : FDAB) (s : State) : Out :=
  .next (s.issueShort (.faddBf16x2 f) (twoF32 f (op16 Fmt.bf16 faddBits)) shortOff)
def execFsubF64 (f : FDAB) (s : State) : Out :=
  .next (s.issueShort (.fsubF64 f) (twoF64 f (op64 fsubBits)) shortOff)
def execFsubF32 (f : FDAB) (s : State) : Out :=
  .next (s.issueShort (.fsubF32 f) (twoF32 f (op32 fsubBits)) shortOff)
def execFmulF64 (f : FDAB) (s : State) : Out :=
  .next (s.issueShort (.fmulF64 f) (twoF64 f (op64 fmulBits)) shortOff)
def execFmulF32 (f : FDAB) (s : State) : Out :=
  .next (s.issueShort (.fmulF32 f) (twoF32 f (op32 fmulBits)) shortOff)
def execFmulF16x2 (f : FDAB) (s : State) : Out :=
  .next (s.issueShort (.fmulF16x2 f) (twoF32 f (op16 Fmt.f16 fmulBits)) shortOff)
def execFmulBf16x2 (f : FDAB) (s : State) : Out :=
  .next (s.issueShort (.fmulBf16x2 f) (twoF32 f (op16 Fmt.bf16 fmulBits)) shortOff)

/-- `fma`: A × B + D, the addend read from D (R198). -/
def execFmaF64 (f : FDAB) (s : State) : Out :=
  .next (s.issueShort (.fmaF64 f) (eff64 f.w f.d fun e t => BitVec.ofNat 64
    (fmaBits t.mode Fmt.f64 (srcF64 e t f.a).toNat (srcF64 e t f.b).toNat (dst64 e t f.d).toNat)) shortOff)
def execFmaF32 (f : FDAB) (s : State) : Out :=
  .next (s.issueShort (.fmaF32 f) (eff32 f.w f.d fun e t => BitVec.ofNat 32
    (fmaBits t.mode Fmt.f32 (src32 e t f.a).toNat (src32 e t f.b).toNat (dst32 e t f.d).toNat)) shortOff)
def execFmaF16x2 (f : FDAB) (s : State) : Out :=
  .next (s.issueShort (.fmaF16x2 f) (eff32 f.w f.d fun e t =>
    packed3 (fmaBits t.mode Fmt.f16) (src32 e t f.a) (src32 e t f.b) (dst32 e t f.d)) shortOff)
def execFmaBf16x2 (f : FDAB) (s : State) : Out :=
  .next (s.issueShort (.fmaBf16x2 f) (eff32 f.w f.d fun e t =>
    packed3 (fmaBits t.mode Fmt.bf16) (src32 e t f.a) (src32 e t f.b) (dst32 e t f.d)) shortOff)

def execFminF64 (f : FDAB) (s : State) : Out :=
  .next (s.issueShort (.fminF64 f) (twoF64 f (op64 fminBits)) shortOff)
def execFminF32 (f : FDAB) (s : State) : Out :=
  .next (s.issueShort (.fminF32 f) (twoF32 f (op32 fminBits)) shortOff)
def execFmaxF64 (f : FDAB) (s : State) : Out :=
  .next (s.issueShort (.fmaxF64 f) (twoF64 f (op64 fmaxBits)) shortOff)
def execFmaxF32 (f : FDAB) (s : State) : Out :=
  .next (s.issueShort (.fmaxF32 f) (twoF32 f (op32 fmaxBits)) shortOff)

/-- The comparison of flushed operands (R200). -/
def fcmpOf (p : Fpm) (f : Fmt) (c : BitVec 3) (x y : Nat) : Bool := condF c ((fin p f x).cmp (fin p f y))
def execFcmpF64 (f : FCmp) (s : State) : Out :=
  .next (s.issueShort (.fcmpF64 f) (effPred f.w f.p fun e t =>
    fcmpOf t.mode Fmt.f64 f.cond (srcF64 e t f.a).toNat (srcF64 e t f.b).toNat) shortOff)
def execFcmpF32 (f : FCmp) (s : State) : Out :=
  .next (s.issueShort (.fcmpF32 f) (effPred f.w f.p fun e t =>
    fcmpOf t.mode Fmt.f32 f.cond (src32 e t f.a).toNat (src32 e t f.b).toNat) shortOff)

def execFscaleF64 (f : FDAB) (s : State) : Out :=
  .next (s.issueShort (.fscaleF64 f) (eff64 f.w f.d fun e t => BitVec.ofNat 64
    (fscaleBits t.mode Fmt.f64 (srcF64 e t f.a).toNat (src32 e t f.b).toInt)) shortOff)
def execFscaleF32 (f : FDAB) (s : State) : Out :=
  .next (s.issueShort (.fscaleF32 f) (eff32 f.w f.d fun e t => BitVec.ofNat 32
    (fscaleBits t.mode Fmt.f32 (src32 e t f.a).toNat (src32 e t f.b).toInt)) shortOff)

/-- `fdiv` is not short (R88, R196). -/
def execFdivF64 (f : FDAB) (s : State) : Out :=
  .next (s.issueLocal (.fdivF64 f) fun e t => (t.put64 e f.w f.d
    (op64 fdivBits t (srcF64 e t f.a) (srcF64 e t f.b))).advance (.fdivF64 f))
def execFdivF32 (f : FDAB) (s : State) : Out :=
  .next (s.issueLocal (.fdivF32 f) fun e t => (t.put32 e f.w f.d
    (op32 fdivBits t (src32 e t f.a) (src32 e t f.b))).advance (.fdivF32 f))

/-! ### Sign, class, rounding, special functions (R202 to R205) -/

/-- The sign operation on a pattern of `n` bits with its sign on top: only sign bits change (R202). -/
def signBits (op : SignOp) (n x : Nat) : Nat :=
  match op with
  | .abs => x % 2 ^ (n - 1)
  | .neg => x ^^^ 2 ^ (n - 1)
  | .nabs => x % 2 ^ (n - 1) + 2 ^ (n - 1)

def execFsgn (f : FSgn) (s : State) : Out :=
  .next (s.issueShort (.fsgn f)
    (match f.ty with
     | .f64 => eff64 f.w f.d fun e t => BitVec.ofNat 64 (signBits f.op 64 (srcF64 e t f.a).toNat)
     | .f32 => eff32 f.w f.d fun e t => BitVec.ofNat 32 (signBits f.op 32 (src32 e t f.a).toNat)
     | _ => eff32 f.w f.d fun e t => packed1 (signBits f.op 16) (src32 e t f.a)) shortOff)

/-- The class bit of a pattern (R203): every FP8 NaN is quiet. -/
def classBit (f : Fmt) (x : Nat) : Nat :=
  if isNanBits f x then (if f.width == 8 || bit x (f.mb - 1) then 1 else 0)
  else
    match fval f x with
    | .inf n => if n then 2 else 9
    | _ =>
      let n := fneg f x
      if fexp f x = 0 then
        if ffrac f x = 0 then (if n then 5 else 6) else (if n then 4 else 7)
      else (if n then 3 else 8)

/-- The format and width `fclass` reads (R203). -/
def classFmt : ClassType → Fmt
  | .f64 => Fmt.f64 | .f32 => Fmt.f32 | .f16 => Fmt.f16 | .bf16 => Fmt.bf16 | .e4m3 => Fmt.e4m3 | .e5m2 => Fmt.e5m2

def execFclass (f : FClass) (s : State) : Out :=
  .next (s.issueShort (.fclass f) (eff32 f.w f.d fun e t =>
    let x := if f.ty = .f64 then (srcF64 e t f.a).toNat else (src32 e t f.a).toNat
    let fm := classFmt f.ty
    BitVec.ofNat 32 (2 ^ classBit fm (x % 2 ^ fm.width))) shortOff)

/-- The mode of `fround` (R204). -/
def roundMode (p : Fpm) : RoundSel → RMode
  | .fpm => p.rm | .rn => .rn | .rz => .rz | .ru => .ru | .rd => .rd | .rna => .rna

/-- `fround` of one element: to an integral value, the operand's sign kept, input flush (R204). -/
def froundBits (p : Fpm) (f : Fmt) (m : RMode) (x : Nat) : Nat :=
  match fin p f x with
  | .nan => f.nanBits
  | .inf n => infResult f false n
  | .fin n k e => if 0 ≤ e then x else roundBits f .rn false n (roundAt m n k e 0 false) 0 false

def execFround (f : FRound) (s : State) : Out :=
  .next (s.issueShort (.fround f)
    (match f.ty with
     | .f64 => eff64 f.w f.d fun e t =>
         BitVec.ofNat 64 (froundBits t.mode Fmt.f64 (roundMode t.mode f.mode) (srcF64 e t f.a).toNat)
     | .f32 => eff32 f.w f.d fun e t =>
         BitVec.ofNat 32 (froundBits t.mode Fmt.f32 (roundMode t.mode f.mode) (src32 e t f.a).toNat)
     | .f16x2 => eff32 f.w f.d fun e t =>
         packed1 (froundBits t.mode Fmt.f16 (roundMode t.mode f.mode)) (src32 e t f.a)
     | .bf16x2 => eff32 f.w f.d fun e t =>
         packed1 (froundBits t.mode Fmt.bf16 (roundMode t.mode f.mode)) (src32 e t f.a)) shortOff)

/-- `fsfu` is not short (R88, R205). -/
def execFsfu (f : FSfu) (s : State) : Out :=
  .next (s.issueLocal (.fsfu f) fun e t =>
    (if f.wide then
       t.put64 e f.w f.d (BitVec.ofNat 64 (sfuBits t.mode Fmt.f64 f.fn (srcF64 e t f.a).toNat))
     else
       t.put32 e f.w f.d (BitVec.ofNat 32 (sfuBits t.mode Fmt.f32 f.fn (src32 e t f.a).toNat))).advance (.fsfu f))

/-! ### Conversions (R206, R207) -/

/-- A float-to-float conversion with the flushes of its classes (R193, R207). -/
def cvtFF (p : Fpm) (src dst : Fmt) (x : Nat) : Nat := fout p dst (fin p src x)
/-- A conversion to E8M0 or from it never flushes (R193). -/
def cvtFromE8m0 (x : Nat) : Nat := (e8m0Val x).round Fmt.f32 .rn false
/-- Float to integer with saturation. -/
def cvtFI (p : Fpm) (src : Fmt) (lo hi : Int) (x : Nat) : Int := toIntSat p.rm lo hi (fin p src x)
/-- Integer to float. -/
def cvtIF (p : Fpm) (dst : Fmt) (v : Int) : Nat := fout p dst (ofInt v)

def minS (n : Nat) : Int := -(2 ^ (n - 1))
def maxS (n : Nat) : Int := 2 ^ (n - 1) - 1
def maxZ (n : Nat) : Int := 2 ^ n - 1

/-- The result of `cvt` as the number D receives: `x` is A at the width the code gives (R206). -/
def cvtBits (p : Fpm) (c : CvtCode) (x : Nat) : Nat :=
  let lo16 := x % 2 ^ 16
  let hi16 := (x / 2 ^ 16) % 2 ^ 16
  let s32 : Int := sext x 32
  let s64 : Int := sext x 64
  match c with
  | .f32_f64 => cvtFF p Fmt.f64 Fmt.f32 x
  | .f64_f32 => cvtFF p Fmt.f32 Fmt.f64 x
  | .f32_f16 => cvtFF p Fmt.f16 Fmt.f32 lo16
  | .f32_f16h => cvtFF p Fmt.f16 Fmt.f32 hi16
  | .f32_bf16 => cvtFF p Fmt.bf16 Fmt.f32 lo16
  | .f32_bf16h => cvtFF p Fmt.bf16 Fmt.f32 hi16
  | .f16x2_f32 => cvtFF p Fmt.f32 Fmt.f16 (x % 2 ^ 32) + 2 ^ 16 * cvtFF p Fmt.f32 Fmt.f16 (x / 2 ^ 32)
  | .bf16x2_f32 => cvtFF p Fmt.f32 Fmt.bf16 (x % 2 ^ 32) + 2 ^ 16 * cvtFF p Fmt.f32 Fmt.bf16 (x / 2 ^ 32)
  | .f32_e4m3 => cvtFF p Fmt.e4m3 Fmt.f32 (x % 2 ^ 8)
  | .f32_e5m2 => cvtFF p Fmt.e5m2 Fmt.f32 (x % 2 ^ 8)
  | .f32_e8m0 => cvtFromE8m0 (x % 2 ^ 8)
  | .e8m0_f32 => toE8m0 (fval Fmt.f32 x)
  | .s32_f32 => wrap (cvtFI p Fmt.f32 (minS 32) (maxS 32) x) 32
  | .z32_f32 => wrap (cvtFI p Fmt.f32 0 (maxZ 32) x) 32
  | .s32_f64 => wrap (cvtFI p Fmt.f64 (minS 32) (maxS 32) x) 32
  | .z32_f64 => wrap (cvtFI p Fmt.f64 0 (maxZ 32) x) 32
  | .s64_f32 => wrap (cvtFI p Fmt.f32 (minS 64) (maxS 64) x) 64
  | .z64_f32 => wrap (cvtFI p Fmt.f32 0 (maxZ 64) x) 64
  | .s64_f64 => wrap (cvtFI p Fmt.f64 (minS 64) (maxS 64) x) 64
  | .z64_f64 => wrap (cvtFI p Fmt.f64 0 (maxZ 64) x) 64
  | .f32_s32 => cvtIF p Fmt.f32 s32
  | .f32_z32 => cvtIF p Fmt.f32 (x % 2 ^ 32 : Nat)
  | .f64_s32 => cvtIF p Fmt.f64 s32
  | .f64_z32 => cvtIF p Fmt.f64 (x % 2 ^ 32 : Nat)
  | .f32_s64 => cvtIF p Fmt.f32 s64
  | .f32_z64 => cvtIF p Fmt.f32 (x : Nat)
  | .f64_s64 => cvtIF p Fmt.f64 s64
  | .f64_z64 => cvtIF p Fmt.f64 (x : Nat)

/-- The mode of `cvt`: RZ with TRUNC (R206). -/
def cvtMode (p : Fpm) (trunc : Bool) : Fpm := if trunc then { p with rm := .rz } else p

def execCvt (f : FCvt) (s : State) : Out :=
  .next (s.issueShort (.cvt f)
    (if f.code.regs.1 = 2 then
       eff64 f.w f.d fun e t =>
         BitVec.ofNat 64 (cvtBits (cvtMode t.mode f.trunc) f.code (srcNat e t { o := f.a, w := f.code.src }))
     else
       eff32 f.w f.d fun e t =>
         BitVec.ofNat 32 (cvtBits (cvtMode t.mode f.trunc) f.code (srcNat e t { o := f.a, w := f.code.src })))
    shortOff)

/-! ### `pack` and `rqnt` (R208, R209) -/

/-- N of `pack`: Round with NSAT and the narrow result flush, or an integer saturated to s8. -/
def packByte (p : Fpm) (fmt : PackFmt) (k : Int) (x : Nat) : Nat :=
  let v := (fin p Fmt.f32 x).scale k
  match fmt with
  | .e4m3 => fout p Fmt.e4m3 v
  | .e5m2 => fout p Fmt.e5m2 v
  | .s8 => wrap (toIntSat p.rm (-128) 127 v) 8

def execPack (f : FPack) (s : State) : Out :=
  .next (s.issueShort (.pack f) (eff32 f.w f.d fun e t =>
    let na := packByte t.mode f.fmt (imm20 f.k) (src32 e t f.a).toNat
    let nb := packByte t.mode f.fmt (imm20 f.k) (src32 e t f.b).toNat
    (dst32 e t f.d).extractLsb' 0 16 ++ BitVec.ofNat 8 nb ++ BitVec.ofNat 8 na) shortOff)

/-- One element of `rqnt`. -/
def rqntElem (he : Bool) (sh : Nat) (zp lo hi : Int) (a b : Int) : Int :=
  let p := a * b
  let q :=
    if sh = 0 then p
    else if he then
      let fl := p / 2 ^ sh
      let r := p % 2 ^ sh
      if r < 2 ^ (sh - 1) then fl
      else if r = 2 ^ (sh - 1) then (if fl % 2 = 0 then fl else fl + 1)
      else fl + 1
    else (p + 2 ^ (sh - 1)) / 2 ^ sh
  clampInt (q + zp) lo hi

/-- The packed result of `rqnt`: elements of A, 32 bits each, to fields of `w` bits (R188, R209). -/
def rqntWord (f : FRqnt) (a : Nat) (b : Word32) : Word32 :=
  let n := if f.s4 then 8 else 4
  let w := if f.s4 then 4 else 8
  let lo : Int := if f.s4 then -8 else -128
  let hi : Int := if f.s4 then 7 else 127
  BitVec.ofNat 32 (((List.range n).map fun i =>
    wrap (rqntElem f.he f.sh.toNat (imm20 f.zp) lo hi (sext (a / 2 ^ (32 * i)) 32) b.toInt) w * 2 ^ (w * i)).foldl (· + ·) 0)

def execRqnt (f : FRqnt) (s : State) : Out :=
  .next (s.issueShort (.rqnt f) (eff32 f.w f.d fun e t =>
    rqntWord f (srcNat e t { o := f.a, w := if f.s4 then .oct else .w128 }) (src32 e t f.b)) shortOff)

/-! ### Dot products and codebook expansion (R210 to R212) -/

/-- The sum of products of `n` signed fields of `w` bits. -/
def dotSigned (w n : Nat) (a b : Word32) : Int :=
  ((List.range n).map fun i => sext (a.toNat / 2 ^ (w * i)) w * sext (b.toNat / 2 ^ (w * i)) w).foldl (· + ·) 0

def execDp4 (f : FDAB) (s : State) : Out :=
  .next (s.issueShort (.dp4 f) (three32 f fun a b d => d + BitVec.ofInt 32 (dotSigned 8 4 a b)) shortOff)
def execDp8 (f : FDAB) (s : State) : Out :=
  .next (s.issueShort (.dp8 f) (three32 f fun a b d => d + BitVec.ofInt 32 (dotSigned 4 8 a b)) shortOff)

/-- The exact sum of three terms with the zero rule of R211. -/
def sum3 (mode : RMode) (a b c : FVal) : FVal :=
  match a, b, c with
  | .fin na ma ea, .fin nb mb eb, .fin nc mc ec =>
    let e0 := min ea (min eb ec)
    let v := scaled na ma ea e0 + scaled nb mb eb e0 + scaled nc mc ec e0
    if v = 0 then
      if ma = 0 && mb = 0 && mc = 0 && na == nb && nb == nc then .fin na 0 e0 else .fin (zeroNeg mode) 0 e0
    else .fin (decide (v < 0)) v.natAbs e0
  | x, y, z => (x.add mode y).add mode z

/-- `fdp2` (R211): A and B flush under the half class, D and the result under the wide class. -/
def fdp2Bits (p : Fpm) (a b d : Word32) : Nat :=
  let h := fun (x : Word32) (i : Nat) => fin p Fmt.bf16 (x.extractLsb' (16 * i) 16).toNat
  fout p Fmt.f32 (sum3 p.rm ((h a 0).mul (h b 0)) ((h a 1).mul (h b 1)) (fin p Fmt.f32 d.toNat))

def execFdp2 (f : FDAB) (s : State) : Out :=
  .next (s.issueShort (.fdp2 f) (eff32 f.w f.d fun e t => BitVec.ofNat 32
    (fdp2Bits t.mode (src32 e t f.a) (src32 e t f.b) (dst32 e t f.d))) shortOff)

/-- The weights of an index packed in a format, weight k at bit `n` k (R212). -/
def cbkPack (f : Fmt) (x : Nat) : Nat :=
  ((cb16 x).zipIdx.map fun q => ((cb16Val q.1).round f .rn false) * 2 ^ (f.width * q.2)).foldl (· + ·) 0

def execFcbk (f : FCbk) (s : State) : Out :=
  let idx := fun (e : Env) (t : Thread) =>
    if f.half then ((src32 e t f.a).extractLsb' 16 16).toNat else ((src32 e t f.a).extractLsb' 0 16).toNat
  .next (s.issueShort (.fcbk f)
    (match f.fmt with
     | .bf16 => eff128 f.w f.d fun e t => BitVec.ofNat 128 (cbkPack Fmt.bf16 (idx e t))
     | .e4m3 => eff64 f.w f.d fun e t => BitVec.ofNat 64 (cbkPack Fmt.e4m3 (idx e t))
     | .e5m2 => eff64 f.w f.d fun e t => BitVec.ofNat 64 (cbkPack Fmt.e5m2 (idx e t))) shortOff)

end Sys2Proof.Machine
end

