-- ==== Sys2Proof/Machine/Chain.lean ====
section
/-!
DEFINITION. What the Hawk does to bytes (16_hawk_access_engine.md): element-wise chains (R314), packed weight blocks
(R326, R327) and layout conversion (R328).
-/

namespace Sys2Proof.Machine

/-! ### Element-wise chains (R314) -/

/-- Byte k of OPS: its CODE and ARG. -/
def opCode (ops k : Nat) : Nat := fld ops (8 * k + 4) 4
def opArg (ops k : Nat) : Nat := fld ops (8 * k) 4

/-- Bytes of a source element. -/
def etSize : CopyEt → Nat
  | .raw => 1 | .f32 => 4 | .bf16 => 2 | .f16 => 2 | .s32 => 4

/-- Bytes of a converted type. -/
def cvtSize (ty : Nat) : Nat :=
  match ty with | 0 => 4 | 1 => 2 | 2 => 2 | 3 => 1 | 4 => 1 | 5 => 4 | _ => 1

/-- The conversion of a chain. -/
def chainCvt (ops : Nat) : Option Nat :=
  ((List.range 8).find? fun k => opCode ops k == 8).map (opArg ops)

/-- Bytes of an output element. -/
def outSize (et : CopyEt) (ops : Nat) : Nat :=
  match chainCvt ops with
  | some ty => cvtSize ty
  | none => etSize et

/-- The chain breaks R314: a reserved code or type, a byte after END, an operation after CVT, a chain on raw bytes. -/
def chainBad (et : CopyEt) (ops : Nat) : Bool :=
  (et == .raw && ops != 0) || (List.range 8).any fun k =>
    let c := opCode ops k
    decide (9 ≤ c) || (c == 8 && decide (6 < opArg ops k))
      || ((c == 0 || c == 8) && (fld ops (8 * k + 8) 64 != 0)) || (c == 0 && opArg ops k != 0)

/-- An element on its way through a chain. -/
inductive Elem where
  | f (bits : Nat)
  | i (v : Int)
  /-- Converted: the bits of the output. -/
  | out (bits : Nat)
  deriving DecidableEq, Repr

/-- An f32 result of a chain, rounded RN. -/
def elemF (v : FVal) : Elem := .f (v.round Fmt.f32 .rn false)

/-- CVT of a value to a type; narrow results saturate. -/
def cvtTo (v : FVal) (ty : Nat) : Nat :=
  match ty with
  | 0 => v.round Fmt.f32 .rn false
  | 1 => v.round Fmt.bf16 .rn false
  | 2 => v.round Fmt.f16 .rn false
  | 3 => v.round Fmt.e4m3 .rn true
  | 4 => v.round Fmt.e5m2 .rn true
  | 5 => wrap (toIntSat .rn (minS 32) (maxS 32) v) 32
  | _ => wrap (toIntSat .rn (-128) 127 v) 8

/-- One operation on an f32 value. -/
def opFloat (x : Nat) (code arg : Nat) : Elem :=
  let v := fval Fmt.f32 x
  let a := sext arg 4
  match code with
  | 1 => elemF (v.scale a)
  | 2 => elemF (v.add .rn (ofInt a))
  | 3 => .f (maxBitsOf Fmt.f32 x 0)
  | 4 =>
    let hi := (ofInt (2 ^ arg)).round Fmt.f32 .rn false
    let lo := (ofInt (-(2 ^ arg))).round Fmt.f32 .rn false
    if v = .nan then .f Fmt.f32.nanBits else .f (maxBitsOf Fmt.f32 (minBits Fmt.f32 x hi) lo)
  | 5 => elemF (v.mul v)
  | 6 => elemF v.neg
  | 7 => elemF (if v.sign then v.neg else v)
  | 8 => .out (cvtTo v arg)
  | _ => .f x

/-- An s32 result. -/
def elemI (v : Int) : Elem := .i (sext (wrap v 32) 32)

/-- One operation on an s32 value. -/
def opInt (x : Int) (code arg : Nat) : Elem :=
  let a := sext arg 4
  match code with
  | 1 => if 0 ≤ a then elemI (x * 2 ^ a.toNat) else elemI (x / 2 ^ (-a).toNat)
  | 2 => elemI (x + a)
  | 3 => elemI (max x 0)
  | 4 => elemI (clampInt x (-(2 ^ arg)) (2 ^ arg))
  | 5 => elemI (x * x)
  | 6 => elemI (-x)
  | 7 => elemI (if x < 0 then -x else x)
  | 8 => .out (if arg = 5 then wrap x 32 else cvtTo (ofInt x) arg)
  | _ => .i x

/-- The source element as a value: floats widened exactly to f32. -/
def elemIn (et : CopyEt) (bits : Nat) : Elem :=
  match et with
  | .f32 => elemF (fval Fmt.f32 bits)
  | .bf16 => elemF (fval Fmt.bf16 bits)
  | .f16 => elemF (fval Fmt.f16 bits)
  | _ => .i (sext bits 32)

/-- The result as output bits: unconverted results are rounded back to ET. -/
def elemOut (et : CopyEt) : Elem → Nat
  | .out b => b
  | .i v => wrap v 32
  | .f x =>
    match et with
    | .bf16 => (fval Fmt.f32 x).round Fmt.bf16 .rn false
    | .f16 => (fval Fmt.f32 x).round Fmt.f16 .rn false
    | _ => x

/-- A chain applied to one element. -/
def chainElem (et : CopyEt) (ops bits : Nat) : Nat :=
  elemOut et ((List.range 8).foldl (fun (x : Elem) k =>
    match x with
    | .f v => opFloat v (opCode ops k) (opArg ops k)
    | .i v => opInt v (opCode ops k) (opArg ops k)
    | .out b => .out b) (elemIn et bits))

/-- The mark and address that bytes taken together carry: a UE mark first (R312), else the first. The address is that of the first
marked byte in the order of delivery, which need not be the source's where a conversion reorders bytes: the model's choice of the
first granule of 19 R360 (LOG 100). -/
def marksOf (bs : List HByte) : BitVec 2 × Word64 :=
  match bs.find? fun x => x.mark == 1 with
  | some x => (1, ((bs.find? fun y => y.mark != 0).map (·.pa)).getD x.pa)
  | none =>
    match bs.find? fun x => x.mark != 0 with
    | some x => (x.mark, x.pa)
    | none => (0, 0)

/-- Whole elements through a chain: at most `fuel`; the converted bytes and the rest. -/
def chainRun (et : CopyEt) (ops : Nat) : Nat → List HByte → List HByte × List HByte
  | 0, raw => ([], raw)
  | fuel + 1, raw =>
    if raw.length < etSize et then ([], raw)
    else
      let el := raw.take (etSize et)
      let m := marksOf el
      let v := chainElem et ops (ofBytes (el.map (·.b)))
      let ys := (toBytes (outSize et ops) v).map fun b => ({ b := b, mark := m.1, pa := m.2 } : HByte)
      let r := chainRun et ops fuel (raw.drop (etSize et))
      (ys ++ r.1, r.2)

/-- The chain of a copy applied to the bytes read: an empty chain moves them unchanged. -/
def applyChain (et : CopyEt) (ops : Nat) (raw : List HByte) : List HByte × List HByte :=
  if ops = 0 then (raw, []) else chainRun et ops raw.length raw

/-! ### Layout conversion (R328) -/

/-- The input byte of an output byte in a 1 KiB unit. -/
def layoutFrom (lc o : Nat) : Nat :=
  match lc with
  | 1 => 32 * (o % 32) + o / 32
  | 2 => 4 * (16 * (o / 4 % 16) + o / 64) + o % 4
  | 3 => 32 * (16 * (o / 512) + o / 16 % 16) + 16 * (o / 256 % 2) + o % 16
  | _ => o

/-! ### Packed weight blocks (R326, R327) -/

/-- The header of a packed block. -/
structure PackHead where
  check : Nat
  codLen : Nat
  rawLen : Nat
  dcnt : Nat
  ok : Bool
  deriving DecidableEq, Repr

def packHead (bs : List Byte) : PackHead :=
  let x := ofBytes (bs.take 16)
  let raw := fld x 32 32
  { check := fld x 96 32, codLen := fld x 64 32, rawLen := raw, dcnt := fld x 16 4,
    ok := fld x 0 16 == 0xB7E5 && fld x 20 12 == 0 && raw % 2 == 0 && decide (2 ≤ raw) && decide (raw ≤ 1048576) }

/-- Bytes of the block after its header, up to the next block. -/
def PackHead.body (h : PackHead) : Nat := ceilDiv (2 * h.dcnt + h.codLen) 16 * 16

/-- Take symbols from a bitstream: none at a FORMAT error. -/
def packSyms (dict : List Nat) (bits lim : Nat) : Nat → Nat → Option (List Nat)
  | 0, _ => some []
  | n + 1, k =>
    let hit := fld bits k 1 == 0
    let x := fld bits (k + 1) 4
    let k1 := if hit then k + 5 else k + 17
    if (hit && decide (dict.length ≤ x)) || decide (lim < k1) then none
    else
      let sym := if hit then dict.getD x 0 else fld bits (k + 1) 16
      (packSyms dict bits lim n k1).map fun r => sym :: r

/-- The raw words of a block. -/
def packWords (h : PackHead) (body : List Byte) : Option (List Nat) :=
  let dict := (List.range h.dcnt).map fun j => ofBytes ((body.drop (2 * j)).take 2)
  let bits := ofBytes ((body.drop (2 * h.dcnt)).take h.codLen)
  packSyms dict bits (8 * h.codLen) (h.rawLen / 2) 0

/-- Fletcher-32 of raw words. -/
def fletcher (ws : List Nat) : Nat :=
  let c := ws.foldl (fun (c : Nat × Nat) w =>
    let c0 := (c.1 + w) % 65535
    (c0, (c.2 + c0) % 65535)) (0, 0)
  c.2 * 65536 + c.1

end Sys2Proof.Machine
end

