-- ==== Sys2Proof/Machine/Link.lean ====
section
/-!
DEFINITION. The sending side of a Scrim port (17_scrim_links.md R337 to R339): CRC-32C, transactions, data flits and
the replay buffer.
-/

namespace Sys2Proof.Machine

/-! ### CRC-32C (17 R337; 22 R409): reflected, initial value and final xor all ones -/

/-- One bit of the reflected division by 0x1EDC6F41. -/
def crcBit (c : Word32) : Word32 := if c.getLsbD 0 then (c >>> 1) ^^^ 0x82F63B78 else c >>> 1

/-- Eight bits. -/
def crcByte (c : Word32) (b : Byte) : Word32 :=
  let x := c ^^^ b.setWidth 32
  crcBit (crcBit (crcBit (crcBit (crcBit (crcBit (crcBit (crcBit x)))))))

/-- The CRC-32C of some bytes, the first byte first. -/
def crc32c (bs : List Byte) : Word32 := (bs.foldl crcByte 0xFFFFFFFF) ^^^ 0xFFFFFFFF

/-! ### Transactions (R338) -/

/-- A transaction header. -/
def txHeader (addr : Nat) (src : Byte) (tag : Nat) (kind sub : Nat) (len : Nat) : Word128 :=
  BitVec.ofNat 64 addr ++ src ++ BitVec.ofNat 12 tag ++ BitVec.ofNat 4 kind ++ BitVec.ofNat 4 sub
    ++ (0 : BitVec 4) ++ BitVec.ofNat 16 len ++ (0 : BitVec 16)

def txAddr (h : Word128) : Nat := (h.extractLsb' 64 64).toNat
def txDev (h : Word128) : Nat := (h.extractLsb' 56 8).toNat
def txTag (h : Word128) : Nat := (h.extractLsb' 44 12).toNat
def txKind (h : Word128) : Nat := (h.extractLsb' 40 4).toNat
def txSub (h : Word128) : Nat := (h.extractLsb' 36 4).toNat
def txLen (h : Word128) : Nat := (h.extractLsb' 16 16).toNat

/-- The bytes of a transaction. -/
def txBytes (h : Word128) (data : List Byte) : List Byte := toBytes 16 h.toNat ++ data

/-! ### Flits (R337) -/

/-- A flit from its bytes 0 to 11 and its payload; the payload is padded with 0. -/
def flitOf (low : BitVec 96) (payload : List Byte) : BitVec 2048 :=
  let pay := (payload ++ rep 240 (0 : Byte)).take 240
  BitVec.ofNat 1920 (ofBytes pay) ++ crc32c (toBytes 12 low.toNat ++ pay) ++ low

/-- Bits 95:0 of a flit. -/
def flitLow (seq ack : BitVec 12) (av nak : Bool) (fill kind : Nat) : BitVec 96 :=
  seq ++ ack ++ BitVec.ofBool av ++ BitVec.ofBool nak ++ BitVec.ofNat 8 fill ++ BitVec.ofNat 2 kind
    ++ (0 : BitVec 60)

def flitSeq (f : BitVec 2048) : BitVec 12 := f.extractLsb' 84 12
def flitAck (f : BitVec 2048) : BitVec 12 := f.extractLsb' 72 12
def flitAv (f : BitVec 2048) : Bool := f.getLsbD 71
def flitNak (f : BitVec 2048) : Bool := f.getLsbD 70
def flitFill (f : BitVec 2048) : Nat := (f.extractLsb' 62 8).toNat
def flitKind (f : BitVec 2048) : Nat := (f.extractLsb' 60 2).toNat
/-- The CRC of a flit matches. -/
def flitGood (f : BitVec 2048) : Bool :=
  f.extractLsb' 96 32 == crc32c (toBytes 12 (f.extractLsb' 0 96).toNat ++ toBytes 240 (f.extractLsb' 128 1920).toNat)
/-- The payload bytes in use. Of a FILL above 240, of which the rule says nothing, the model takes that many bytes, zeros past 240
(LOG 99). -/
def flitPayload (f : BitVec 2048) : List Byte := toBytes (flitFill f) (f.extractLsb' 128 1920).toNat

/-- The port sends flits: it is up, not paused, and connected and ready (22 R405, R408). -/
def Port.up (p : Port) : Bool := p.state != 0 && !p.paused

/-- The next data flit of a port: up to 240 bytes of its unsent transactions, kept until acknowledged (R339). -/
def Port.sendFlit (p : Port) : Port :=
  let pay := p.stream.take 240
  let f := flitOf (flitLow p.nextSeq (p.expect - 1) p.gotAny false pay.length 0) pay
  { p with kept := p.kept ++ [f], sent := p.sent ++ [f], stream := p.stream.drop 240, nextSeq := p.nextSeq + 1 }

/-- Send data flits while there is something to send and the replay buffer has room (R339). -/
def Port.pump : Nat → Port → Port
  | 0, p => p
  | n + 1, p =>
    if p.up && !p.stream.isEmpty && decide (p.kept.length < 512) then Port.pump n p.sendFlit else p

/-- Put a transaction behind the unsent ones and send what can be sent. -/
def Port.put (p : Port) (h : Word128) (data : List Byte) : Port :=
  let p1 := { p with stream := p.stream ++ txBytes h data }
  p1.pump 512

/-- A tag of the port that no outstanding request uses. -/
def Port.freeTag (p : Port) : Option Nat :=
  (List.range (p.tags.length + 1)).find? fun t => (p.tags.find t).isNone && decide (t < 4096)

def State.setPort (s : State) (n : Nat) (p : Port) : State := { s with ports := s.ports.set n p }

/-- Count payload bytes sent for an owner (21 R383). -/
def State.charge (s : State) (o : Nat) (f : Usage → Usage) : State :=
  { s with usage := s.usage.set o (f (s.usage.get o Usage.zero)) }

/-- Add one charge's estimated energy (21 R383): a free value, LOG 9. -/
def State.energy (s : State) (o : Nat) : State :=
  { s.charge o fun u => { u with energy := u.energy + Config.energy s.free } with free := s.free + 1 }

/-- Send a request with a fresh tag; none while every tag is outstanding. -/
def State.ask (s : State) (port : Nat) (use : TagUse) (addr kind sub len : Nat) (data : List Byte) : Option State :=
  let p := s.port port
  p.freeTag.map fun tag =>
    let h := txHeader addr s.mgmt.image.dev tag kind sub len
    s.setPort port ({ p with tags := p.tags.set tag use }.put h data)

/-- The same for an owner's work, which its LINK counts (21 R383). -/
def State.request (s : State) (port owner : Nat) (use : TagUse) (addr kind sub len : Nat) (data : List Byte) :
    Option State :=
  (s.ask port use addr kind sub len data).map fun s1 =>
    s1.charge owner fun u => { u with link := u.link + BitVec.ofNat 64 (16 + data.length) }

/-- Send a response to a peer's request. -/
def State.respond (s : State) (port : Nat) (addr tag kind sub : Nat) (data : List Byte) : State :=
  s.setPort port ((s.port port).put (txHeader addr s.mgmt.image.dev tag kind sub data.length) data)

end Sys2Proof.Machine
end

