-- ==== Sys2Proof/Machine/Queues.lean ====
section
/-!
DEFINITION. Hardware queues (02_execution_model.md R49 to R51; 10_core_crews_and_waiting.md R256 to R259), deficit
round-robin, the device's own items (06_translation_and_traps.md R145), and the instructions `deq` and `enq`.
-/

namespace Sys2Proof.Machine

/-! ### Deficit round-robin (02 R51; 03 R68) -/

/-- How a member stands for a pick: it has nothing, it is passed over (03 R68 rule 3), or it can be taken. -/
inductive Ready where | empty | passed | ready
  deriving DecidableEq, Repr

/-- A ring in the initial state of R51. -/
def RR.start (members : List Nat) (weight : Nat → Nat) : RR :=
  { members := members, cur := 0,
    deficit := members.zipIdx.map fun p => if p.2 = 0 then weight p.1 else 0 }

/-- The procedure of R51, at most `fuel` turns: the member picked, and the ring after it. -/
def RR.pick (weight : Nat → Nat) (st : Nat → Ready) : Nat → RR → Option (Nat × RR)
  | 0, _ => none
  | fuel + 1, r =>
    let m := r.members.getD r.cur 0
    let d := r.deficit.getD r.cur 0
    if st m = .ready ∧ 1 ≤ d then some (m, { r with deficit := r.deficit.set r.cur (d - 1) })
    else
      let d1 := if st m = .empty then r.deficit.set r.cur 0 else r.deficit
      let c := (r.cur + 1) % r.members.length
      RR.pick weight st fuel
        { r with cur := c, deficit := d1.set c (d1.getD c 0 + weight (r.members.getD c 0)) }

/-- A pick from a ring: none when no member can be taken. -/
def RR.choose (weight : Nat → Nat) (st : Nat → Ready) (r : RR) : Option (Nat × RR) :=
  if r.members.any fun m => st m = .ready then RR.pick weight st (2 * r.members.length + 2) r else none

/-- A ring of the state, in its initial state where its members are not those it was started with (03 R68 rule 4). -/
def State.ring (s : State) (k : RingKey) (members : List Nat) (weight : Nat → Nat) : RR :=
  match s.rings.find k with
  | some r => if r.members = members then r else RR.start members weight
  | none => RR.start members weight

/-- Put a ring that is not there into its initial state, with the weights of this moment (02 R51; 03 R68 rule 4). -/
def State.startRing (s : State) (k : RingKey) (members : List Nat) (weight : Nat → Nat) : State :=
  if members.isEmpty || (s.rings.find k).isSome then s else { s with rings := s.rings.set k (RR.start members weight) }

/-! ### Queues -/

def State.queueOn (s : State) (q : Nat) : Bool := decide (q < 512) && queueEn (s.mgmt.queues.get q)
def State.queue (s : State) (q : Nat) : HwQueue := s.queues.get q HwQueue.empty
/-- The queue can take an item (10 R258). -/
def State.queueRoom (s : State) (q : Nat) : Bool :=
  s.queueOn q && decide ((s.queue q).items.length < queueCap (s.mgmt.queues.get q))
/-- The weight of a queue's owner (02 R51). -/
def State.queueWeight (s : State) (q : Nat) : Nat := ownerWeight (s.mgmt.owners.get (queueOwner (s.mgmt.queues.get q)))

/-- Take a queue's head item. -/
def State.popQueue (s : State) (q : Nat) : Option (Word128 × State) :=
  match (s.queue q).items with
  | [] => none
  | x :: rest => some (x, { s with queues := s.queues.set q { s.queue q with items := rest } })

/-- The valid slots of a launch (03 R60); an enabled queue whose owner is not valid is not bound (21 R377), and a
disabled queue stays bound, for QUEUE SUB 3 (10 R259; 21 R377). -/
def State.slotOk (s : State) (b : BitVec 16) : Bool :=
  qbValid b && (!s.queueOn (qbQueue b) || ownerV (s.mgmt.owners.get (queueOwner (s.mgmt.queues.get (qbQueue b)))))

/-- The queues of group g in ascending slot order (03 R60). -/
def State.groupOf (s : State) (rcd : Rec) (g : Nat) : List Nat :=
  ((List.range 16).filter fun j => s.slotOk (rcd.qbind j) && qbGroup (rcd.qbind j) == g && g != 0).map
    fun j => qbQueue (rcd.qbind j)

/-- The groups of a launch are configured (02 R51): their rings start. -/
def State.startGroups (s : State) (l : Nat) (r : Rec) : State :=
  (upFrom 1 7).foldl (fun st g => st.startRing (.group l g) (s.groupOf r g) s.queueWeight) s

/-- What a request names: a queue, a group, or nothing (10 R259). -/
inductive QSel where
  | one (q : Nat)
  | group (launch g : Nat) (members : List Nat)
  | bad (tr : Trap)
  deriving DecidableEq, Repr

/-- Resolve a selector (10 R256, R259). -/
def State.qsel (s : State) (launch : Nat) (grp : Bool) (sel : Nat) : QSel :=
  let rcd := s.recOf launch
  let j := sel % 16
  if grp then
    let ms := if j < 8 then s.groupOf rcd j else []
    if ms.isEmpty then .bad (Trap.queue 2 (0x210 + j))
    else if ms.all fun q => !s.queueOn q then .bad (Trap.queue 3 (ms.headD 0))
    else .group launch j ms
  else
    let b := rcd.qbind j
    if !s.slotOk b then .bad (Trap.queue 1 (0x200 + j))
    else if !s.queueOn (qbQueue b) then .bad (Trap.queue 3 (qbQueue b))
    else .one (qbQueue b)

/-- Take an item for a request, under R51 for a group. -/
def State.takeItem (s : State) (x : QSel) : Option (Word128 × State) :=
  match x with
  | .one q => s.popQueue q
  | .group l g ms =>
    let st := fun q => if s.queueOn q && !(s.queue q).items.isEmpty then Ready.ready else Ready.empty
    match RR.choose s.queueWeight st (s.ring (.group l g) ms s.queueWeight) with
    | some (q, r) => ({ s with rings := s.rings.set (.group l g) r } : State).popQueue q
    | none => none
  | .bad _ => none

/-- A waiting `deq` receives its item: D is written and its thread goes on (02 R50; 10 R257). -/
def State.completeDeq (s : State) (r : DeqReq) (item : Word128) : State :=
  ({ s with deqs := s.deqs.filter fun d => d.id != r.id } : State).onThread r.key fun _ t =>
    let t1 := match r.dst with | some p => t.setPhys p 4 item.toNat | none => t
    { t1 with pc := r.next, chain := none, wait := Wait.idle, blockCtr := 0 }

/-- Serve the waiting requests in order, each at most once (02 R50). -/
def State.serveDeqs (s : State) : State :=
  s.deqs.foldl (fun st r =>
    match st.takeItem (st.qsel r.key.launch r.grp r.sel) with
    | some (item, st1) => st1.completeDeq r item
    | none => st) s

/-- An item enters a queue at its tail and goes to the oldest waiting `deq` (02 R49, R50). -/
def State.enterQueue (s : State) (q : Nat) (item : Word128) : State :=
  ({ s with queues := s.queues.set q { s.queue q with items := (s.queue q).items ++ [item] } } : State).serveDeqs

/-! ### Items of the device's own (06 R145) -/

/-- Sources: a quarter, a Lath base die, the management controller. -/
def srcQuarter (cl q : Nat) : Nat := cl * 4 + q
def srcStack (st : Nat) : Nat := 1000 + st
def srcMgmt : Nat := 2000
/-- A die scheduler, for a launch's own requests (03 R425). -/
def srcDie (d : Nat) : Nat := 3000 + d

/-- A device item goes to its queue, or is held by its source behind the items it holds: those of one source enter in the
order they arose (R145). -/
def State.post (s : State) (src q : Nat) (item : Word128) : State :=
  if s.queueRoom q && !(s.held.any fun h => h.source == src) then s.enterQueue q item
  else { s with held := s.held ++ [{ source := src, queue := q, item := item }] }

/-- Offer the held items again in the order they arose (R145): one enters when its queue has room and its source holds none
that arose before it. -/
def State.reoffer (s : State) : State :=
  s.held.foldl (fun st h =>
    if st.queueRoom h.queue && (st.held.find? fun x => x.source == h.source) == some h then
      ({ st with held := st.held.erase h } : State).enterQueue h.queue h.item
    else st) s

/-! ### `deq` and `enq` -/

/-- Raise a precise trap at a thread's PC, for an instruction that is not short. -/
def Thread.raiseHere (e : Env) (t : Thread) (tr : Trap) : Thread :=
  let w : TrapAt := { tpc := t.pc, ipc := t.pc, defer := false, chain := false, resume := 0 }
  if e.drain then t.holdTrap tr w else t.enterTrap e tr w

/-- The first physical register of a destination, or none when W suppresses it. -/
def Thread.dstOf (e : Env) (t : Thread) (w : Bool) (d : BitVec 7) : Option Nat :=
  if w then none else some (t.phys e d.toNat)

/-- `deq` of one participant (10 R257, R259): it takes an item, or waits among the requests. -/
def deqOne (f : FDeq) (s : State) (k : TKey) : State :=
  match s.threads.find k with
  | none => s
  | some t =>
    let i := Instr.deq f
    let e := s.env k
    let sel := (src32 e t f.b).toNat % 16
    let x := s.qsel k.launch f.grp sel
    match x with
    | .bad tr => s.setThread k (t.raise e i tr)
    | _ =>
      match s.takeItem x with
      | some (item, s1) => s1.setThread k ((t.put128 e f.w f.d item).advance i)
      | none =>
        let s1 := s.bump
        ({ s1 with deqs := s1.deqs ++
            [{ id := s.serial, key := k, grp := f.grp, sel := sel, dst := t.dstOf e f.w f.d,
               next := t.nextPc i }] } : State).setThread k
          { t with wait := { kind := .deq s.serial, counts := false }, chain := none }

/-- `deq` (10 R256, R257). -/
def execDeq (f : FDeq) (s : State) : Out :=
  .next (s.issueCrews srcNat (.deq f) fun st _ ks => ks.foldl (deqOne f) st)

/-- `deq.try` of one participant. -/
def deqTryOne (f : FDeqTry) (s : State) (k : TKey) : State :=
  match s.threads.find k with
  | none => s
  | some t =>
    let i := Instr.deqTry f
    let e := s.env k
    let x := s.qsel k.launch f.grp ((src32 e t f.b).toNat % 16)
    match x with
    | .bad tr => s.setThread k (t.raise e i tr)
    | _ =>
      match s.takeItem x with
      | some (item, s1) =>
        s1.setThread k (((t.put128 e f.w f.d item).setPred f.pr.toNat true).advance i)
      | none => s.setThread k ((t.setPred f.pr.toNat false).advance i)

/-- `deq.try` (10 R257). -/
def execDeqTry (f : FDeqTry) (s : State) : Out :=
  .next (s.issueCrews srcNat (.deqTry f) fun st _ ks => ks.foldl (deqTryOne f) st)

/-- `enq` of one participant (10 R258): on a full queue it stalls. -/
def enqOne (f : FEnq) (s : State) (k : TKey) : State :=
  match s.threads.find k with
  | none => s
  | some t =>
    let i := Instr.enq f
    let e := s.env k
    match s.qsel k.launch false ((src32 e t f.b).toNat % 16) with
    | .one q =>
      if s.queueRoom q then (s.enterQueue q (src128 e t f.a)).onThread k fun _ u => u.advance i
      else s.setThread k (t.stall false)
    | .bad tr => s.setThread k (t.raise e i tr)
    | .group .. => s

/-- `enq` (10 R256, R258). -/
def execEnq (f : FEnq) (s : State) : Out :=
  .next (s.issueCrews srcNat (.enq f) fun st _ ks => ks.foldl (enqOne f) st)

/-- `enq.try` of one participant. -/
def enqTryOne (f : FEnqTry) (s : State) (k : TKey) : State :=
  match s.threads.find k with
  | none => s
  | some t =>
    let i := Instr.enqTry f
    let e := s.env k
    match s.qsel k.launch false ((src32 e t f.b).toNat % 16) with
    | .one q =>
      if s.queueRoom q then
        (s.enterQueue q (src128 e t f.a)).onThread k fun _ u => (u.setPred f.pr.toNat true).advance i
      else s.setThread k ((t.setPred f.pr.toNat false).advance i)
    | .bad tr => s.setThread k (t.raise e i tr)
    | .group .. => s

/-- `enq.try` (10 R258). -/
def execEnqTry (f : FEnqTry) (s : State) : Out :=
  .next (s.issueCrews srcNat (.enqTry f) fun st _ ks => ks.foldl (enqTryOne f) st)

end Sys2Proof.Machine
end

