-- ==== Sys2Proof/Machine/Translate.lean ====
section
/-!
DEFINITION. From a virtual address to where its bytes lie (06_translation_and_traps.md R127 to R138): canonical
addresses, the dado window (09 R231), ownership ranges, page walks and translation caches, fault requests (R144), and
reading bytes that a client needs at once.
-/

namespace Sys2Proof.Machine

/-! ### The physical map (01 R11, R14; 22 R404) -/

/-- The first physical address above device memory. -/
def deviceTop : Nat := 0xC000000000
def stackOf (pa : Nat) : Nat := pa / 0x1800000000
/-- Home addresses of the dado regions lie above every physical address, one GiB apart. -/
def dadoHome (part : Nat) : Nat := 2 ^ 52 + part * 2 ^ 30
def dadoVa : Nat := 0x00FE000000000000
def dadoSpan : Nat := 2 ^ 29
/-- A home address in device memory, not in a dado region. -/
def inDevice (a : Nat) : Bool := decide (a < deviceTop)

/-- The range of KIND 0 or 1 that holds a physical address. -/
def State.rangeOf (s : State) (pa : Nat) : Option RangeE :=
  s.mgmt.image.ranges.find? fun r => decide (rgKind r ≤ 1) && rgHolds r pa

/-- Where a physical address lies: none when the image maps it to nothing. -/
def State.locOf (s : State) (pa : Nat) : Option Loc :=
  if pa < deviceTop then some (.home pa)
  else (s.rangeOf pa).map fun r =>
    if rgKind r = 0 then .host (rgTbase r + (pa - rgBase r)) else .peer pa

/-- The bytes of a span that ranges of KIND 0 or 1 map: they do not overlap. -/
def State.mapped (s : State) (pa n : Nat) : Nat :=
  (s.mgmt.image.ranges.map fun r =>
    if rgKind r ≤ 1 then min (pa + n) (rgBase r + rgSize r) - max pa (rgBase r) else 0).foldl (· + ·) 0

/-- Every byte of the span exists. -/
def State.spanMapped (s : State) (pa n : Nat) : Bool := decide (pa + n ≤ deviceTop) || s.mapped pa n == n

/-- READY has the bit (22 R408). -/
def State.readyBit (s : State) (k : Nat) : Bool := s.mgmt.ready.getLsbD k
def State.failedBit (s : State) (k : Nat) : Bool := s.mgmt.failed.getLsbD k

/-- An access to a home address waits: its stack is not ready and has not failed, or its block is under reload
(22 R408; 21 R395). -/
def State.homeWaits (s : State) (a : Nat) : Bool :=
  inDevice a && ((!s.readyBit (2 + stackOf a) && !s.failedBit (2 + stackOf a))
    || s.reloading.any (fun r => r.1 == a / 65536))

/-- The stack of a home address has failed. -/
def State.homeFailed (s : State) (a : Nat) : Bool :=
  inDevice a && !s.readyBit (2 + stackOf a) && s.failedBit (2 + stackOf a)

/-! ### Sub-partition blocks -/

def State.part (s : State) (p : Nat) : Partition := s.parts.get p Partition.reset
def State.sub (s : State) (p sub : Nat) : SubCfg := (s.part p).subs.get sub SubCfg.reset
/-- The committed block of a sub-partition (21 R373). -/
def State.live (s : State) (p sub : Nat) : Block1K := (s.sub p sub).live

/-! ### Translation -/

/-- A valid leaf. -/
structure Leaf where
  base : Nat
  size : Nat
  pa : Nat
  wr : Bool
  ex : Bool
  rld : Bool
  deriving DecidableEq, Repr

/-- What a translation finds: a page, no page (with ILLF), or tables that cannot be read yet. -/
inductive Walk where
  | leaf (l : Leaf)
  | absent (illf : Bool)
  | wait
  deriving DecidableEq, Repr

/-- Low bit of the VA bits a level indexes, and their number (R129). -/
def levelShift (lv : Nat) : Nat := if lv = 4 then 16 else 48 - 9 * lv
def levelBits (lv : Nat) : Nat := if lv = 4 then 5 else 9
/-- Size of the table a pointer at this level names. -/
def tableSize (lv : Nat) : Nat := if lv = 4 then 256 else 4096

/-- An entry with V = 1 is ill-formed at a level (R131, R132). -/
def State.illFormed (s : State) (lv e : Nat) : Bool :=
  let pa := fld e 8 44 * 256
  fld e 52 12 != 0 || fld e 5 3 != 0
    || (bit e 1 && decide (lv < 2)) || (!bit e 1 && lv == 4)
    || (if bit e 1 then pa % 2 ^ levelShift lv != 0 || !s.spanMapped pa (2 ^ levelShift lv)
        else pa % tableSize (lv + 1) != 0 || decide (deviceTop ≤ pa))

/-- Walk from a table at a level (R129 to R131). -/
def State.walkFrom (s : State) (va : Nat) : List Nat → Nat → Walk
  | [], _ => .absent true
  | lv :: rest, table =>
    let at_ := table + 8 * fld va (levelShift lv) (levelBits lv)
    if s.homeWaits at_ then .wait
    else
      let e := s.mem.le at_ 8
      if !bit e 0 then .absent false
      else if s.illFormed lv e then .absent true
      else if bit e 1 then
        .leaf { base := alignDown va (2 ^ levelShift lv), size := 2 ^ levelShift lv, pa := fld e 8 44 * 256,
                wr := bit e 2, ex := bit e 3, rld := bit e 4 }
      else State.walkFrom s va rest (fld e 8 44 * 256)

/-- The root entry of a context (21 R375), 0 while its MBZ bits are not zero. -/
def State.rootEntry (s : State) (part ctx : Nat) : Nat :=
  let e := s.mem.le ((s.live part 0).ptroots + 8 * ctx) 8
  if fld e 52 12 != 0 || fld e 4 8 != 0 then 0 else e
def rootV (e : Nat) : Bool := bit e 3
def rootSub (e : Nat) : Nat := fld e 0 3

/-- The root entry that a walk goes through: the cached one, or the one in memory, if it can be read (21 R375). -/
def State.walkRoot (s : State) (part ctx : Nat) : Option Nat :=
  match s.roots.find (part, ctx) with
  | some e => some e
  | none => if s.homeWaits ((s.live part 0).ptroots + 8 * ctx) then none else some (s.rootEntry part ctx)

/-- The walker caches the valid root entry of a context (21 R375). -/
def State.keepRoot (s : State) (part ctx : Nat) : State :=
  match s.walkRoot part ctx with
  | some e => if rootV e then { s with roots := s.roots.set (part, ctx) e } else s
  | none => s

/-- A walk through the tables as they stand. -/
def State.walk (s : State) (part ctx va : Nat) : Walk :=
  match s.walkRoot part ctx with
  | none => .wait
  | some e =>
    if !rootV e then .absent false
    else if deviceTop ≤ fld e 12 40 * 4096 then .absent true
    else s.walkFrom va [0, 1, 2, 3, 4] (fld e 12 40 * 4096)

/-- Who asks for a translation: its context and the caches it goes through. -/
structure Who where
  part : Nat
  sub : Nat
  ctx : Nat
  caches : List TlbAt
  deriving DecidableEq, Repr

/-- The caches of a thread's data accesses, of its fetches, and of the cluster's engines (R133). -/
def Env.who (e : Env) : Who :=
  { part := e.part, sub := e.sub, ctx := e.ctx,
    caches := [.lane e.cl (e.crew % 4) e.crank, .quarter e.cl (e.crew % 4), .cluster e.cl, .die e.die] }
def engineWho (part sub ctx cl : Nat) : Who :=
  { part := part, sub := sub, ctx := ctx, caches := [.cluster cl, .die (cl / 48)] }

/-- Entries of a cache. -/
def tlbCap : TlbAt → Nat
  | .lane .. => 1
  | .quarter .. => 64
  | .cluster _ => 512
  | .die _ => 2048

/-- The cached translation matches a request. -/
def TlbEntry.hits (x : TlbEntry) (w : Who) (va : Nat) : Bool :=
  w.caches.contains x.at_ && x.part == w.part && x.ctx == w.ctx
    && decide (x.base ≤ va) && decide (va < x.base + x.size)

/-- Put a translation into one cache; the oldest entry leaves a full one. -/
def tlbPut (l : Leaf) (w : Who) (tlb : List TlbEntry) (a : TlbAt) : List TlbEntry :=
  let x : TlbEntry := { at_ := a, part := w.part, ctx := w.ctx, base := l.base, size := l.size, pa := l.pa,
                        wr := l.wr, ex := l.ex, rld := l.rld }
  let others := tlb.filter fun y =>
    !(y.at_ == a && y.part == w.part && y.ctx == w.ctx && y.base == l.base && y.size == l.size)
  let same := others.filter fun y => y.at_ == a
  x :: (if same.length < tlbCap a then others
        else others.filter fun y => !(y.at_ == a) || (same.take (tlbCap a - 1)).contains y)

/-- The next choice the spec leaves open (LOG 4). -/
def State.choose (s : State) : Nat × State :=
  match s.oracle with
  | [] => (0, s)
  | x :: r => (x, { s with oracle := r })

/-- The first cache of a list that holds a translation, in the order they are asked: how many come before it (R133). -/
def tlbFind (tlb : List TlbEntry) (w : Who) (va : Nat) : Option (Nat × TlbEntry) :=
  w.caches.zipIdx.findSome? fun c => (tlb.find? fun x => x.at_ == c.1 && x.hits w va).map fun x => (c.2, x)

/-- Translate one address (R129 to R133): by the first cache that holds it, unless the entry has been evicted (LOG 4), else
by a walk; a valid leaf is cached. A lane that hits its last-page register uses no other cache. -/
def State.translate (s : State) (w : Who) (va : Nat) : Walk × State :=
  let walked := fun (s : State) =>
    match s.walk w.part w.ctx va with
    | .leaf l => (.leaf l, { s.keepRoot w.part w.ctx with tlb := w.caches.foldl (tlbPut l w) s.tlb })
    | r => (r, s.keepRoot w.part w.ctx)
  match tlbFind s.tlb w va with
  | none => walked s
  | some (n, x) =>
    let (c, s1) := s.choose
    if c = 1 then walked { s1 with tlb := s1.tlb.filter fun y => !y.hits w va }
    else
      let l : Leaf := { base := x.base, size := x.size, pa := x.pa, wr := x.wr, ex := x.ex, rld := x.rld }
      (.leaf l, { s1 with tlb := (w.caches.take (n + 1)).foldl (tlbPut l w) s1.tlb })

/-! ### Fault requests (R144) -/

/-- The item of a fault request. -/
def faultItem (f : FaultReq) : Word128 :=
  BitVec.ofNat 10 f.ctx ++ BitVec.ofNat 3 f.part ++ BitVec.ofNat 3 f.sub ++ (0 : BitVec 15) ++ BitVec.ofBool f.illf
    ++ BitVec.ofNat 32 f.token ++ (0 : BitVec 7) ++ BitVec.ofNat 41 (f.va / 65536) ++ (0 : BitVec 14)
    ++ BitVec.ofBool f.wr ++ BitVec.ofBool f.fetch

/-- A quarter holds the item of a request on its way to the fault queue (R145). -/
def State.itemHeld (s : State) (tok : Nat) : Bool :=
  s.held.any fun h => decide (h.source < 1000) && (h.item.extractLsb' 64 32).toNat == tok

/-- A fault request for a page, or the one outstanding that is shared: its token. It is sent, unless the log entry or the stalled
crew that asks has other requests `mine` one of whose items its quarter holds: a quarter holds at most one for each (R145). -/
def State.requestPage (s : State) (src : Nat) (w : Who) (mine : List Nat) (va : Nat) (wr fetch illf : Bool) : Nat × State :=
  match s.faults.find? fun f => f.part == w.part && f.ctx == w.ctx && f.va / 65536 == va % 2 ^ 57 / 65536 with
  | some f => (f.token, s)
  | none =>
    let f : FaultReq := { token := s.serial % 2 ^ 32, offered := !(mine.any s.itemHeld), part := w.part, sub := w.sub, ctx := w.ctx,
                          va := va % 2 ^ 57, wr := wr, fetch := fetch, illf := illf }
    let s1 : State := { s.bump with faults := s.faults ++ [f] }
    (f.token, if f.offered then s1.post src (s.live w.part 0).faultq (faultItem f) else s1)

/-- The fault request that a thread waits for. -/
def WaitKind.token (w : WaitKind) : Option Nat :=
  match w with
  | .page tok _ => some tok
  | .fetch x => x.map (·.1)
  | _ => .none

/-- The requests that a crew stalls for. -/
def State.crewTokens (s : State) (c : CKey) : List Nat :=
  s.threads.filterMap fun p => if (s.env p.1).ckey == c then p.2.wait.kind.token else none

/-- Who asks for a request: the quarter, and the requests of the same log entry or stalled crew (R145). -/
def State.askedBy (s : State) (tok : Nat) : Option (Nat × List Nat) :=
  match s.log.find? fun l => l.accs.any fun a => a.tokens.contains tok with
  | some l => some (srcQuarter l.cl l.quarter, l.accs.flatMap (·.tokens))
  | none =>
    match s.threads.find? fun p => p.2.wait.kind.token == some tok with
    | some p => let e := s.env p.1
                some (srcQuarter e.cl (e.crew % 4), s.crewTokens e.ckey)
    | none => none

/-- Send the requests that were not made yet and that nothing keeps back now (R145). -/
def State.offerRest (s : State) : State :=
  (s.faults.filter fun f => !f.offered).foldl (fun st f =>
    match st.askedBy f.token with
    | some (src, mine) =>
      if mine.any st.itemHeld then st
      else ({ st with faults := st.faults.map fun g => if g.token == f.token then { g with offered := true } else g } : State).post
        src (st.live f.part 0).faultq (faultItem f)
    | none => st) s

/-- The held items are offered again, then the requests that waited behind them (R145). -/
def State.reofferAll (s : State) : State := s.reoffer.offerRest

/-! ### Checking an access (R128, R136, R141; 09 R231) -/

/-- A piece of an access: where it lies, its virtual address and its length; one granule or less (05 R106). -/
abbrev Piece0 := Loc × Nat × Nat

/-- What the checks of an access find. -/
inductive Acc where
  | ok (ps : List Piece0)
  | fault (tr : Trap)
  /-- Pages not present, with the first byte of the access in each, and ILLF. -/
  | absent (pages : List (Nat × Bool))
  | wait
  deriving DecidableEq, Repr

/-- The context's data. -/
def State.ctxOf (s : State) (part ctx : Nat) : Ctx := s.ctxs.get (part, ctx) Ctx.empty

/-- Some byte of the access lies in a host-owned range (R136). The dado window takes no such check. -/
def State.hostOwned (s : State) (part ctx a n : Nat) : Bool :=
  (s.ctxOf part ctx).ranges.any fun r =>
    r.host && (List.range n).any fun k =>
      let b := a + k
      !(decide (dadoVa ≤ b) && decide (b < dadoVa + dadoSpan)) && decide (r.base ≤ b) && decide (b < r.base + r.size)

/-- Cut `n` bytes at `a` into its granule pieces: at most `fuel`. -/
def cutPieces (at_ : Nat → Loc) : Nat → Nat → Nat → List Piece0
  | 0, _, _ => []
  | fuel + 1, a, n =>
    if n = 0 then []
    else
      let k := min n (32 - a % 32)
      (at_ a, a, k) :: cutPieces at_ fuel (a + k) (n - k)

/-- The first bytes of an access in each page it may touch: pages are 64 KiB or larger. -/
def pageStarts (a n : Nat) : List Nat :=
  let second := (a / 65536 + 1) * 65536
  if second < a + n then [a, second] else [a]

/-- The trap of a page the access may not touch in this way (R131). -/
def leafFault (a : Nat) (wr fetch : Bool) (l : Leaf) : Option Trap :=
  if (wr && !l.wr) || (fetch && !l.ex) then some (Trap.access a) else none

/-- Bits 63:56 of an exact address; one that is negative or needs more than 64 bits has none of the canonical values. -/
def addrTop (a : Int) : Nat :=
  match a with
  | .ofNat n => n / 2 ^ 56
  | .negSucc _ => 1

/-- A canonical access of n bytes: both ends in the same canonical range (R128). -/
def accessCanonical (a : Int) (n : Nat) : Bool :=
  (addrTop a == 0 && addrTop (a + n - 1) == 0) || (addrTop a == 255 && addrTop (a + n - 1) == 255)

/-- Translate the pages of an access in turn. -/
def State.translateAll (s : State) (w : Who) : List Nat → List (Nat × Walk) × State
  | [] => ([], s)
  | a :: rest =>
    let r := s.translate w a
    let q := State.translateAll r.2 w rest
    ((a, r.1) :: q.1, q.2)

/-- Where a byte of an access lies once its pages are translated. -/
def State.locate (s : State) (ts : List (Nat × Walk)) (b : Nat) : Loc :=
  match ts.findSome? fun p => match p.2 with
      | .leaf l => if l.base ≤ b ∧ b < l.base + l.size then some (l.pa + (b - l.base)) else none
      | _ => none with
  | some pa => (s.locOf pa).getD (.home 0)
  | none => .home 0

/-- The checks of an access of n bytes after those of ADDRESS and OWNERSHIP (R141 steps 3 and 4; 09 R231). -/
def State.checkRest (s : State) (w : Who) (a n : Nat) (wr fetch : Bool) : Acc × State :=
  if decide (dadoVa < a + n) && decide (a < dadoVa + dadoSpan) then
    if fetch || decide (a < dadoVa) || decide (dadoVa + (s.live w.part 0).dadoBytes < a + n)
        || decide (dadoVa + dadoSpan < a + n) then
      (.fault (Trap.access a), s)
    else (.ok (cutPieces (fun b => .home (dadoHome w.part + (b - dadoVa))) 33 a n), s)
  else
    let r := s.translateAll w (pageStarts a n)
    let bad := r.1.findSome? fun p => match p.2 with | .leaf l => leafFault a wr fetch l | _ => none
    let gone := r.1.filterMap fun p => match p.2 with
      | .absent illf => some (p.1, illf)
      | _ => none
    if r.1.any (fun p => p.2 == .wait) then (.wait, r.2)
    else
      match bad with
      | some tr => (.fault tr, r.2)
      | none => if gone.isEmpty then (.ok (cutPieces (s.locate r.1) 33 a n), r.2) else (.absent gone, r.2)

/-- The checks of an access of n bytes at an exact address (R141 steps 1 to 4; 09 R231). -/
def State.check (s : State) (w : Who) (addr : Int) (n : Nat) (wr fetch : Bool) : Acc × State :=
  if !accessCanonical addr n then (.fault (Trap.address addr), s)
  else if s.hostOwned w.part w.ctx addr.toNat n then (.fault (Trap.ownership addr.toNat), s)
  else s.checkRest w addr.toNat n wr fetch

/-- A client has asked peers for all that an access needs of them. -/
def State.askedAll (s : State) (c : Client) (x : Acc) : Bool :=
  let at_ := fun (pa : Nat) => s.peerReads.any fun r => r.client == c && r.pa == pa
  match x with
  | .ok ps => ps.any (fun p => match p.1 with | .peer _ => true | _ => false)
      && ps.all fun p => match p.1 with | .peer pa => at_ pa | _ => true
  | _ => false

/-- The checks of a read of a client. One that it has asked a peer for was admitted then: OWNERSHIP is not checked anew (R138). -/
def State.checkRead (s : State) (c : Client) (w : Who) (addr : Int) (n : Nat) (fetch : Bool) : Acc × State :=
  if accessCanonical addr n && s.hostOwned w.part w.ctx addr.toNat n
      && s.askedAll c (s.checkRest w addr.toNat n false fetch).1 then
    s.checkRest w addr.toNat n false fetch
  else s.check w addr n false fetch

/-- The leaf that a translation of an address uses now: a cached one, else that of the tables. The dado window has none. -/
def State.leafFor (s : State) (w : Who) (va : Nat) : Option UsedLeaf :=
  let used := fun (base pa : Nat) (rld : Bool) => some { page := va / 65536, block := (pa + (va - base)) / 65536, rld := rld }
  if dadoVa ≤ va ∧ va < dadoVa + dadoSpan then none
  else
    match tlbFind s.tlb w va with
    | some (_, x) => used x.base x.pa x.rld
    | none =>
      match s.walk w.part w.ctx va with
      | .leaf l => used l.base l.pa l.rld
      | _ => none

/-- The leaves that an access whose checks have just been made used, at its bytes in this device's memory. -/
def State.leavesFor (s : State) (w : Who) (ps : List Piece0) : List UsedLeaf :=
  dedup (ps.filterMap fun p => match p.1 with | .home _ => s.leafFor w p.2.1 | _ => none)

/-- The leaf an access used at an address. -/
def leafAt (ls : List UsedLeaf) (va : Nat) : Option UsedLeaf := ls.find? fun l => l.page == va / 65536

/-! ### Reading for a client that waits for all its bytes -/

/-- The check field that a sector carries (22 R409): the CRC-32C of its data, but for what has gone wrong since it was made. -/
def State.checkField (s : State) (k : Nat) : Word32 := crc32c (s.mem.bytes (64 * k) 64) ^^^ s.fieldOff.get k

/-- The check field of a sector is not the CRC-32C of its data (`State.fieldBad_iff`). -/
def State.fieldBad (s : State) (k : Nat) : Bool := s.fieldOff.get k != 0

/-- The mark of the granule of a home address (21 R392): 0 none, 1 UE, 2 DATA. A stack that failed reads UE
(22 R408), and so does a sector whose check field does not match (22 R409). -/
def State.markAt (s : State) (a : Nat) : BitVec 2 :=
  if s.homeFailed a || s.fieldBad (a / 64) then 1 else s.poison.get (a / 32)

/-- The status, mark and bytes of one piece, when they are at hand. -/
inductive Got where
  | bytes (bs : List Byte) (mark : BitVec 2)
  | refused
  | wait
  deriving DecidableEq, Repr

/-- Read one piece at its point of coherence. -/
def State.readPiece (s : State) (c : Client) (p : Piece0) : Got :=
  match p.1 with
  | .home a => if s.homeWaits a then .wait else .bytes (s.mem.bytes a p.2.2) (s.markAt a)
  | .host h => .bytes (s.hostMem.bytes h p.2.2) 0
  | .spad b off =>
    match s.blocks.find b with
    | some x => .bytes (x.scratch.bytes off p.2.2) (x.poison.get (off / 32))
    | none => .wait
  | .peer pa =>
    match s.peerReads.find? fun r => r.client == c && r.pa == pa with
    | some r =>
      match r.answer with
      | some (st, bs) => if st = 2 then .refused else .bytes bs (if st = 1 then 2 else 0)
      | none => .wait
    | none => .wait

/-- The port that carries a peer window, and the address in the peer's memory (17 R344). -/
def State.peerOf (s : State) (pa : Nat) : Nat × Nat :=
  match s.rangeOf pa with
  | some r => (rgPort r, rgTbase r + (pa - rgBase r))
  | none => (0, 0)

/-- Set flags of a copy's status. -/
def Copy.flag (c : Copy) (bit : Nat) : Copy := { c with status := c.status ||| ((1 : Word64) <<< bit) }

/-- Set a port's bit of DEGR and DEGRADED (16 R322). -/
def Copy.degrade (c : Copy) (port : Nat) : Copy := (c.flag (40 + port)).flag 6

/-- A copy has something on a port: where the port is degraded its status says so (16 R322; 17 R345). -/
def State.copyUses (s : State) (cl id port : Nat) : State :=
  if s.degraded.getLsbD port then
    s.onCluster cl fun x =>
      { x with hawk := { x.hawk with copies := x.hawk.copies.map fun y => if y.id = id then y.degrade port else y } }
  else s

/-- Ask a peer for the bytes of a piece, once. -/
def State.askPeer (c : Client) (owner : Nat) (s : State) (p : Piece0) : State :=
  match p.1 with
  | .peer pa =>
    if s.peerReads.any fun r => r.client == c && r.pa == pa then s
    else
      let q := s.peerOf pa
      match s.request q.1 owner (.read c pa) q.2 0 0 p.2.2 [] with
      | some s1 =>
        let s2 := { s1 with peerReads := s1.peerReads ++ [{ client := c, pa := pa, n := p.2.2, answer := none }] }
        match c with
        | .copy cl id => s2.copyUses cl id q.1
        | _ => s2
      | none => s
  | _ => s

/-- Forget what a client has read from peers. -/
def State.forget (s : State) (c : Client) : State := { s with peerReads := s.peerReads.filter fun r => r.client != c }

/-- The bytes of an access for a client: all of them with the first marked granule, or a refusal, or not yet. -/
inductive Gather where
  | ready (bs : List Byte) (mark : Option (BitVec 2 × Nat))
  | refused (va : Nat)
  | wait
  deriving DecidableEq, Repr

/-- The mark a consumer meets: a UE mark before a DATA mark (21 R393), else the first. -/
def worseMark (m : BitVec 2) (va : Nat) (rest : Option (BitVec 2 × Nat)) : Option (BitVec 2 × Nat) :=
  match rest with
  | some (m', va') => if m = 0 || (m != 1 && m' = 1) then some (m', va') else some (m, va)
  | none => if m = 0 then none else some (m, va)

/-- Put pieces together. -/
def gatherAll : List (Got × Nat) → Gather
  | [] => .ready [] none
  | (g, va) :: rest =>
    match g, gatherAll rest with
    | .refused, _ => .refused va
    | .wait, .refused v => .refused v
    | .wait, _ => .wait
    | .bytes bs m, .ready bs' m' => .ready (bs ++ bs') (worseMark m (alignDown va 32) m')
    | .bytes _ _, r => r

/-- Read the pieces of an access for a client, asking peers for what they hold (17 R344). -/
def State.gather (s : State) (c : Client) (owner : Nat) (ps : List Piece0) : Gather × State :=
  let s1 := ps.foldl (State.askPeer c owner) s
  (gatherAll (ps.map fun p => (s1.readPiece c p, p.2.1)), s1)

end Sys2Proof.Machine
end

