-- ==== Sys2Proof/Machine/Home.lean ====
section
/-!
DEFINITION. What stands before a home slice: what L2 holds (09 R229), the write and read budgets (09 R226, R227; 21 R374,
R376), reads over the read lanes, and instruction fetch (04 R76).
-/

namespace Sys2Proof.Machine

/-! ### Home slices: L2 state (01 R12, R13; 09 R229) -/

/-- Lines of one home slice that are held. -/
def homeSlice (pa : Nat) : Nat :=
  64 * (stackOf pa / 2) + (fld pa 9 5 ^^^ fld pa 14 5 ^^^ fld pa 19 5)

/-- The granules of a line are no longer held. -/
def dropGranules (line : Nat) (g : Cells 1) : Cells 1 := (upFrom (16 * line) 16).foldl (fun m k => m.drop k) g

/-- Hold a line with a priority, and some of its granules; a slice of 8,192 lines evicts one of lowest priority (01 R13;
09 R229). What a line holds is counted in granules (LOG 61). -/
def State.touchL2 (s : State) (pa prio : Nat) (dirty : Bool) (grans : List Nat) : State :=
  if !inDevice pa then s
  else
    let line := pa / 512
    let mine := s.l2.filter fun p => homeSlice (p.1 * 512) == homeSlice pa && p.1 != line
    let out := if mine.length < 8192 then none else (sortBy (fun a b => decide (a.2.toNat < b.2.toNat)) mine).head?
    let l2 := match out with | some v => s.l2.drop v.1 | none => s.l2
    let l2d := match out with | some v => s.l2dirty.drop v.1 | none => s.l2dirty
    let l2g := match out with | some v => dropGranules v.1 s.l2gran | none => s.l2gran
    { s with l2 := l2.set line (BitVec.ofNat 4 (prio + 1))
             l2dirty := if dirty then l2d.set line 1 else l2d
             l2gran := grans.foldl (fun m g => m.set g 1) l2g }

/-! ### Budgets (09 R226, R227; 21 R374, R376) -/

/-- The counters a charge meets, with the budget each is held against. -/
def State.counters (s : State) (wr : Bool) (part sub stack : Nat) : List ((Nat × Nat × Nat) × Nat) :=
  let amt := fun p => let b := (s.sub part p).inForce; if wr then b.wbud stack else b.rbud stack
  let total := ((stack, part, 0), amt 0)
  if sub = 0 then [total]
  else if amt sub ≠ 0 then [total, ((stack, part, sub), amt sub)]
  else [total, ((stack, part, 8), amt 0 - ((upFrom 1 7).map amt).foldl (· + ·) 0)]

/-- A counter admits a charge (R227). -/
def admits (count budget charge : Nat) : Bool := decide (count + charge ≤ budget) || count == 0

/-- The 64-byte sectors of device memory that some pieces touch. -/
def sectorsOf (ps : List Loc) (ns : List Nat) : List Nat :=
  dedup ((ps.zip ns).flatMap fun p =>
    match p.1 with
    | .home a => if inDevice a then (List.range ((a + p.2 - 1) / 64 - a / 64 + 1)).map (a / 64 + ·) else []
    | _ => [])

/-- The charge of each stack: 64 bytes a sector. -/
def chargesOf (sectors : List Nat) : List (Nat × Nat) :=
  let sts := dedup (sectors.map fun x => stackOf (x * 64))
  sts.map fun st => (st, 64 * (sectors.filter fun x => stackOf (x * 64) == st).length)

/-- The first stack whose counters do not admit the charge. -/
def State.refusedStack (s : State) (wr : Bool) (part sub : Nat) (cs : List (Nat × Nat)) : Option Nat :=
  (cs.find? fun c => (s.counters wr part sub c.1).any fun k =>
    !admits ((if wr then s.wctr else s.rctr).get k.1 0) k.2 c.2).map (·.1)

/-- Make a charge. -/
def State.makeCharge (s : State) (wr : Bool) (part sub owner : Nat) (cs : List (Nat × Nat)) : State :=
  let add := fun (t : Tbl (Nat × Nat × Nat) Nat) =>
    cs.foldl (fun t c => (s.counters wr part sub c.1).foldl (fun t k => t.set k.1 (t.get k.1 0 + c.2)) t) t
  let n := (cs.map (·.2)).foldl (· + ·) 0
  let s1 := if wr then { s with wctr := add s.wctr } else { s with rctr := add s.rctr }
  if n = 0 then s1
  else (s1.charge owner fun u =>
    if wr then { u with wbytes := u.wbytes + BitVec.ofNat 64 n } else { u with rbytes := u.rbytes + BitVec.ofNat 64 n }).energy owner

/-! ### Reads over the read lanes (01 R12; 21 R376) -/

/-- The two granules of the sector of an address. -/
def sectorGranules (a : Nat) : List Nat := [2 * (a / 64), 2 * (a / 64) + 1]

/-- A read at a home over the read lanes: none while the stack's read budget does not admit its sector. A granule held in L2
needs no lane. -/
def State.readHome (s : State) (part sub owner a prio : Nat) : Option State :=
  if !inDevice a || s.l2gran.get (a / 32) == 1 then some (s.touchL2 a prio false [])
  else
    let cs := [(stackOf a, 64)]
    if (s.refusedStack false part sub cs).isSome then none
    else some ((s.makeCharge false part sub owner cs).touchL2 a prio false (sectorGranules a))

/-- Read the granules of some pieces over the read lanes with a priority, each sector admitted under the read budget, until
one is not admitted: whether all were. What was read is held in L2 and is not charged again. -/
def State.readPieces (s : State) (part sub owner prio : Nat) (ps : List Piece0) : Bool × State :=
  ps.foldl (fun (r : Bool × State) p =>
    match r.1, p.1 with
    | true, .home a =>
      match r.2.readHome part sub owner a prio with
      | some st => (true, st)
      | none => (false, r.2)
    | _, _ => r) (true, s)

/-! ### Instruction fetch (04 R76; R131, R144; 21 R393) -/

/-- What a fetch of one word finds. -/
inductive Fetched where
  | word (w : Word32)
  | trap (tr : Trap)
  /-- A marked granule: the mark, and its address. -/
  | marked (m : BitVec 2) (a : Nat)
  | page (va : Nat) (illf : Bool)
  | wait
  deriving DecidableEq, Repr

/-- Fetch the word at an address. -/
def State.fetchWord (s : State) (e : Env) (a : Nat) : Fetched × State :=
  let w := { e.who with caches := [.quarter e.cl (e.crew % 4), .cluster e.cl, .die e.die] }
  match s.checkRead (.thread e.key) w a 4 true with
  | (.fault tr, s1) => (.trap tr, s1)
  | (.wait, s1) => (.wait, s1)
  | (.absent ((va, illf) :: _), s1) => (.page va illf, s1)
  | (.absent [], s1) => (.wait, s1)
  | (.ok ps, s1) =>
    let r := s1.readPieces e.part e.sub e.rcd.owner 3 ps
    if !r.1 then (.wait, r.2)
    else
    match r.2.gather (.thread e.key) e.rcd.owner ps with
    | (.ready bs none, s2) => (.word (BitVec.ofNat 32 (ofBytes bs)), s2)
    | (.ready _ (some (m, va)), s2) => (.marked m va, s2)
    | (.refused va, s2) => (.trap (Trap.access va), s2)
    | (.wait, s2) => (.wait, s2)

/-- Fetch `n` words from an address, until one is not found. -/
def State.fetchWords (s : State) (e : Env) : Nat → Nat → List Word32 × Option Fetched × State
  | _, 0 => ([], none, s)
  | a, n + 1 =>
    match s.fetchWord e a with
    | (.word w, s1) =>
      let r := State.fetchWords s1 e (a + 4) n
      (w :: r.1, r.2)
    | (x, s1) => ([], some x, s1)

/-- What stands at a PC. -/
inductive AtPc where
  | instr (i : Instr)
  /-- The words are no instruction: ILLEGAL_ENCODING with the opcode word (04 R100). -/
  | illegal (w : Word32)
  /-- A word could not be fetched; `op` is the opcode word when it could. -/
  | stop (op : Option Word32) (f : Fetched)
  deriving DecidableEq, Repr

/-- Decode the words at a PC: the opcode word gives the length. -/
def State.fetchInstr (s : State) (e : Env) (pc : Word64) : AtPc × State :=
  if pc.toNat % 4 ≠ 0 then (.stop none (.trap (Trap.address pc.toNat)), s)
  else
    match s.fetchWord e pc.toNat with
    | (.word w, s1) =>
      match s1.fetchWords e (pc.toNat + 4) (lengthOf w - 1) with
      | (ws, none, s2) =>
        match decode (w :: ws) with
        | .ok (i, _) => (.instr i, s2)
        | .error _ => (.illegal w, s2)
      | (_, some f, s2) => (.stop (some w) f, s2)
    | (f, s1) => (.stop none f, s1)

/-- The instruction a thread would issue, when it can be fetched. -/
def State.peek (s : State) (k : TKey) (t : Thread) : Option Instr :=
  match (s.fetchInstr (s.env k) t.pc).1 with
  | .instr i => some i
  | _ => none

end Sys2Proof.Machine
end

