-- ==== Sys2Proof/Machine/Integer.lean ====
section
/-!
DEFINITION. The integer, address and predicate instructions and the per-crew generator
(07_core_integer_and_control.md R174 to R183).
-/

namespace Sys2Proof.Machine

/-! ### Results -/

/-- `mulhs`: bits 63:32 of the signed product (R174). -/
def mulhsOp (a b : Word32) : Word32 := (a.signExtend 64 * b.signExtend 64).extractLsb' 32 32
/-- `mulhz`: bits 63:32 of the unsigned product. -/
def mulhzOp (a b : Word32) : Word32 := (a.setWidth 64 * b.setWidth 64).extractLsb' 32 32
def minsOp {n : Nat} (a b : BitVec n) : BitVec n := if b.slt a then b else a
def minzOp {n : Nat} (a b : BitVec n) : BitVec n := if b.ult a then b else a
def maxsOp {n : Nat} (a b : BitVec n) : BitVec n := if a.slt b then b else a
def maxzOp {n : Nat} (a b : BitVec n) : BitVec n := if a.ult b then b else a
/-- `shl`: 0 from a count of the width up. -/
def shlOp {n : Nat} (a : BitVec n) (b : Word32) : BitVec n := if n ≤ b.toNat then 0 else a <<< b.toNat
/-- `shrz`: logical, 0 from a count of the width up. -/
def shrzOp {n : Nat} (a : BitVec n) (b : Word32) : BitVec n := if n ≤ b.toNat then 0 else a >>> b.toNat
/-- `shrs`: arithmetic, the count held at the width less 1. -/
def shrsOp {n : Nat} (a : BitVec n) (b : Word32) : BitVec n := a.sshiftRight (min b.toNat (n - 1))
/-- `rot`: left by B mod 32. -/
def rotOp (a b : Word32) : Word32 := a.rotateLeft (b.toNat % 32)

/-- The field length of a descriptor: min(LEN, 32, 32 - POS) (R175). -/
def fieldLen (b : Word32) : Nat := min (min (b.extractLsb' 8 6).toNat 32) (32 - (b.extractLsb' 0 5).toNat)
/-- `bfx` (R175). -/
def bfxOp (a b : Word32) : Word32 :=
  let pos := (b.extractLsb' 0 5).toNat
  let n := fieldLen b
  if n = 0 then 0
  else
    let f := fld a.toNat pos n
    if b.getLsbD 16 then BitVec.ofInt 32 (sext f n) else BitVec.ofNat 32 f
/-- `bfi` (R175). -/
def bfiOp (a b d : Word32) : Word32 :=
  let pos := (b.extractLsb' 0 5).toNat
  let m : Word32 := BitVec.ofNat 32 (2 ^ fieldLen b - 1) <<< pos
  (d &&& ~~~m) ||| ((a <<< pos) &&& m)

/-- The number of 1 bits. -/
def popcOp {n : Nat} (a : BitVec n) : Nat := ((List.range n).filter fun k => a.getLsbD k).length
/-- Leading zero bits; the width for 0. -/
def clzOp {n : Nat} (a : BitVec n) : Nat := n - bitLen a.toNat
/-- Trailing zero bits; the width for 0. -/
def ctzOp {n : Nat} (a : BitVec n) : Nat := ((List.range n).find? fun k => a.getLsbD k).getD n
/-- Bits in reverse order. -/
def brevOp {n : Nat} (a : BitVec n) : BitVec n := a.reverse
/-- Bytes in reverse order. -/
def bswapOp (bytes a : Nat) : Nat := ofBytes (toBytes bytes a).reverse

/-- The 32-bit result of `bitc` (R176). -/
def bitc32 (op : BitcOp) (a : Word32) (a64 : Word64) : Word32 :=
  match op with
  | .popc => BitVec.ofNat 32 (popcOp a)
  | .clz => BitVec.ofNat 32 (clzOp a)
  | .ctz => BitVec.ofNat 32 (ctzOp a)
  | .brev => brevOp a
  | .bswap => BitVec.ofNat 32 (bswapOp 4 a.toNat)
  | .popc64 => BitVec.ofNat 32 (popcOp a64)
  | .clz64 => BitVec.ofNat 32 (clzOp a64)
  | .ctz64 => BitVec.ofNat 32 (ctzOp a64)
  | _ => 0

/-- The 64-bit result of `bitc` (R176). -/
def bitc64 (op : BitcOp) (a : Word64) : Word64 :=
  match op with
  | .brev64 => brevOp a
  | .bswap64 => BitVec.ofNat 64 (bswapOp 8 a.toNat)
  | _ => 0

/-- `mix` of the generator (R182). -/
def mix (x : Word64) : Word64 :=
  let z1 := (x ^^^ (x >>> 30)) * 0xBF58476D1CE4E5B9
  let z2 := (z1 ^^^ (z1 >>> 27)) * 0x94D049BB133111EB
  z2 ^^^ (z2 >>> 31)

/-- The value the generator gives a thread (R182). -/
def rngValue (e : Env) : Word32 := (mix (e.rngKey + 32 * e.rngCtr + BitVec.ofNat 64 e.crank)).extractLsb' 0 32

/-! ### 32-bit instructions (R174 to R176) -/

def execAdd (f : FDAB) (s : State) : Out := .next (s.issueShort (.add f) (two32 f (· + ·)) shortOff)
def execSub (f : FDAB) (s : State) : Out := .next (s.issueShort (.sub f) (two32 f (· - ·)) shortOff)
def execMul (f : FDAB) (s : State) : Out := .next (s.issueShort (.mul f) (two32 f (· * ·)) shortOff)
def execMulhs (f : FDAB) (s : State) : Out := .next (s.issueShort (.mulhs f) (two32 f mulhsOp) shortOff)
def execMulhz (f : FDAB) (s : State) : Out := .next (s.issueShort (.mulhz f) (two32 f mulhzOp) shortOff)
def execMad (f : FDAB) (s : State) : Out :=
  .next (s.issueShort (.mad f) (three32 f fun a b d => a * b + d) shortOff)
def execMins (f : FDAB) (s : State) : Out := .next (s.issueShort (.mins f) (two32 f minsOp) shortOff)
def execMinz (f : FDAB) (s : State) : Out := .next (s.issueShort (.minz f) (two32 f minzOp) shortOff)
def execMaxs (f : FDAB) (s : State) : Out := .next (s.issueShort (.maxs f) (two32 f maxsOp) shortOff)
def execMaxz (f : FDAB) (s : State) : Out := .next (s.issueShort (.maxz f) (two32 f maxzOp) shortOff)
def execAnd (f : FDAB) (s : State) : Out := .next (s.issueShort (.and f) (two32 f (· &&& ·)) shortOff)
def execOr (f : FDAB) (s : State) : Out := .next (s.issueShort (.or f) (two32 f (· ||| ·)) shortOff)
def execXor (f : FDAB) (s : State) : Out := .next (s.issueShort (.xor f) (two32 f (· ^^^ ·)) shortOff)
def execAndn (f : FDAB) (s : State) : Out :=
  .next (s.issueShort (.andn f) (two32 f fun a b => a &&& ~~~b) shortOff)
def execShl (f : FDAB) (s : State) : Out := .next (s.issueShort (.shl f) (two32 f shlOp) shortOff)
def execShrs (f : FDAB) (s : State) : Out := .next (s.issueShort (.shrs f) (two32 f shrsOp) shortOff)
def execShrz (f : FDAB) (s : State) : Out := .next (s.issueShort (.shrz f) (two32 f shrzOp) shortOff)
def execRot (f : FDAB) (s : State) : Out := .next (s.issueShort (.rot f) (two32 f rotOp) shortOff)
def execBfx (f : FDAB) (s : State) : Out := .next (s.issueShort (.bfx f) (two32 f bfxOp) shortOff)
def execBfi (f : FDAB) (s : State) : Out := .next (s.issueShort (.bfi f) (three32 f bfiOp) shortOff)
def execBitc (f : FBitc) (s : State) : Out :=
  .next (s.issueShort (.bitc f)
    (if f.op.wideD then eff64 f.w f.d fun e t => bitc64 f.op (src64 e t f.a)
     else eff32 f.w f.d fun e t => bitc32 f.op (src32 e t f.a) (src64 e t f.a)) shortOff)
def execMov (f : FDA) (s : State) : Out :=
  .next (s.issueShort (.mov f) (eff32 f.w f.d fun e t => src32 e t f.a) shortOff)

/-! ### Compares and selection (R177, R178) -/

def execCmps (f : FCmp) (s : State) : Out :=
  .next (s.issueShort (.cmps f) (effPred f.w f.p fun e t => condS f.cond (src32 e t f.a) (src32 e t f.b)) shortOff)
def execCmpz (f : FCmp) (s : State) : Out :=
  .next (s.issueShort (.cmpz f) (effPred f.w f.p fun e t => condZ f.cond (src32 e t f.a) (src32 e t f.b)) shortOff)

/-- How `cmp64` reads an operand: zero-extended literals under ltz, lez and gtz (R177). -/
def cmp64Src (c : BitVec 3) : Env → Thread → Operand → Word64 :=
  if c = 4 || c = 5 || c = 7 then srcZ64 else src64
def execCmp64 (f : FCmp) (s : State) : Out :=
  .next (s.issueShort (.cmp64 f)
    (effPred f.w f.p fun e t => cond64 f.cond (cmp64Src f.cond e t f.a) (cmp64Src f.cond e t f.b)) shortOff)

/-- `sel` writes D := B where the guard is false (R85, R178). -/
def execSel (f : FDAB) (s : State) : Out :=
  .next (s.issueShort (.sel f) (eff32 f.w f.d fun e t => src32 e t f.a) (eff32 f.w f.d fun e t => src32 e t f.b))

/-! ### 64-bit and address instructions (R179) -/

def execAdd64 (f : FDAB) (s : State) : Out := .next (s.issueShort (.add64 f) (two64 f (· + ·)) shortOff)
def execSub64 (f : FDAB) (s : State) : Out := .next (s.issueShort (.sub64 f) (two64 f (· - ·)) shortOff)
def execMul64 (f : FDAB) (s : State) : Out := .next (s.issueShort (.mul64 f) (two64 f (· * ·)) shortOff)
def execShl64 (f : FDAB) (s : State) : Out := .next (s.issueShort (.shl64 f) (shift64 f shlOp) shortOff)
def execShrs64 (f : FDAB) (s : State) : Out := .next (s.issueShort (.shrs64 f) (shift64 f shrsOp) shortOff)
def execShrz64 (f : FDAB) (s : State) : Out := .next (s.issueShort (.shrz64 f) (shift64 f shrzOp) shortOff)
def execLea (f : FDAB) (s : State) : Out :=
  .next (s.issueShort (.lea f) (shift64 f fun a b => a + b.signExtend 64) shortOff)

/-! ### Predicates (R180, R181) -/

def execPset (f : FPset) (s : State) : Out :=
  .next (s.issueShort (.pset f)
    (effPred f.w f.p fun _ t => truthBit f.t (t.pred f.pa.toNat) (t.pred f.pb.toNat)) shortOff)

/-- All predicates in a register: 1, then p1 to p7 (R181). -/
def Thread.predWord (t : Thread) : Word32 := ((t.preds.extractLsb' 1 7 ++ (1 : BitVec 1) : Byte)).setWidth 32
/-- Predicates k of 1 to 7 whose bit of `sel` is set, from the bits of `from`. -/
def Thread.putPreds (t : Thread) (src sel : Word32) : Thread :=
  (upFrom 1 7).foldl (fun t k => if sel.getLsbD k then t.setPred k (src.getLsbD k) else t) t
def execPmov (f : FDAB) (s : State) : Out :=
  .next (s.issueShort (.pmov f)
    (fun e t => ((t.putPreds (src32 e t f.a) (src32 e t f.b)).put32 e f.w f.d t.predWord, t.predWord.setWidth 128))
    shortOff)

/-! ### The generator (R182) -/

/-- The crews of the run with a thread that executes: each crew executes once (R182). -/
def State.rngCrews (s : State) (i : Instr) : List CKey :=
  if s.chainTrap i then []
  else
    dedup ((s.run.filter fun k =>
      match s.threads.find k with
      | some t => (precheck (s.env k) t i).isNone
      | none => false).map fun k => (s.env k).ckey)

/-- A crew's counter advances (R182). -/
def State.stepRng (s : State) (c : CKey) : State :=
  { s with crews := s.crews.upd c fun x => { x with rngCtr := x.rngCtr + 1 } }

/-- Each guard-true thread draws with its crew's counter as it stood, then the counters advance (R182). -/
def execRng (f : FD) (s : State) : Out :=
  .next ((s.rngCrews (.rng f)).foldl State.stepRng
    (s.runShort (.rng f) (eff32 f.w f.d fun e _ => rngValue e) shortOff)).reap

end Sys2Proof.Machine
end

