-- ==== Sys2Proof/Machine/MemPath.lean ====
section
/-!
DEFINITION. The memory path (05_memory_model.md R105 to R112, R121, R122): writes at homes and scratchpads, the store
queue and its order, forwarding, L1, loads in flight, the write and read budgets (09 R226, R227; 21 R376), and taking a
trap at a thread that may wait (06 R423, R424).
-/

namespace Sys2Proof.Machine

/-! ### Locations -/

/-- The byte `k` after a location. -/
def Loc.plus (l : Loc) (k : Nat) : Loc :=
  match l with
  | .home a => .home (a + k)
  | .host a => .host (a + k)
  | .peer a => .peer (a + k)
  | .spad b o => .spad b (o + k)

/-- The spans `[a, a + n)` and `[b, b + k)` share a byte. -/
def meets (a n b k : Nat) : Bool := decide (a < b + k) && decide (b < a + n) && decide (0 < n) && decide (0 < k)

/-- Two spans of bytes share a byte. -/
def Loc.meets (l : Loc) (n : Nat) (m : Loc) (k : Nat) : Bool :=
  match l, m with
  | .home a, .home b => Machine.meets a n b k
  | .host a, .host b => Machine.meets a n b k
  | .peer a, .peer b => Machine.meets a n b k
  | .spad x a, .spad y b => x == y && Machine.meets a n b k
  | _, _ => false

/-- The 512-byte line of a location; a scratchpad is one (R111, R121). -/
def Loc.line (l : Loc) : Loc :=
  match l with
  | .home a => .home (a / 512)
  | .host a => .host (a / 512)
  | .peer a => .peer (a / 512)
  | .spad b _ => .spad b 0

/-- The bytes of `y` at the places where it covers `l`, over `bs`. -/
def overlay (l : Loc) (bs : List Byte) (m : Loc) (ys : List Byte) : List Byte :=
  bs.zipIdx.map fun p =>
    match l.plus p.2, m with
    | .home a, .home b => if b ≤ a ∧ a < b + ys.length then ys.getD (a - b) p.1 else p.1
    | .host a, .host b => if b ≤ a ∧ a < b + ys.length then ys.getD (a - b) p.1 else p.1
    | .peer a, .peer b => if b ≤ a ∧ a < b + ys.length then ys.getD (a - b) p.1 else p.1
    | .spad x a, .spad y b => if x = y ∧ b ≤ a ∧ a < b + ys.length then ys.getD (a - b) p.1 else p.1
    | _, _ => p.1

/-- The mark of a granule after a write of `n` bytes into it that carries mark `m` (21 R392): a whole granule takes
the write's mark, a part of one keeps the old mark unless the write is marked. -/
def markAfter (old : BitVec 2) (n : Nat) (m : BitVec 2) : BitVec 2 :=
  if n = 32 then m else if m = 0 then old else if old = 1 then 1 else m

/-! ### Writes at home slices -/

/-- A home slice applies a write of part of one granule (01 R15; 21 R392; 22 R408): it checks the sector's old field, whose
mismatch marks the sector, and makes the field of what the sector holds then (22 R409). -/
def State.homeWrite (s : State) (a : Nat) (bs : List Byte) (mark : BitVec 2) (prio : Nat) : State :=
  if s.homeFailed a then s
  else
    let g := a / 32
    let old := if s.fieldBad (a / 64) then 1 else s.poison.get g
    let other := if g % 2 = 0 then g + 1 else g - 1
    let p1 := s.poison.set g (markAfter old bs.length mark)
    let p2 := if s.fieldBad (a / 64) then p1.set other 1 else p1
    ({ s with mem := s.mem.setBytes a bs, poison := p2, fieldOff := s.fieldOff.drop (a / 64) } : State).touchL2 a prio true
      (if bs.length = 32 then [g] else [])

/-! ### Scratchpads and arrival words (16 R323) -/

def awArmed (w : Nat) : Bool := bit w 96
def awCount (w : Nat) : Nat := fld w 64 32
def awTarget (w : Nat) : Nat := fld w 32 32
def awGen (w : Nat) : Nat := fld w 0 32

/-- An item that leaves ARMED = 1 with COUNT ≥ TARGET ends the generation (R323). -/
def awSettle (w : Nat) : Nat :=
  if awArmed w && decide (awTarget w ≤ awCount w) then
    setFld (setFld (setFld w 0 32 (awGen w + 1)) 64 32 0) 96 1 0
  else w

/-- Settle the arrival word at an offset of a scratchpad. -/
def settleAt (m : Cells 8) (off : Nat) : Cells 8 :=
  let w := m.le off 16
  if awSettle w = w then m else m.setBytes off (toBytes 16 (awSettle w))

/-- Write bytes inside one granule of a scratchpad; the arrival words they touch are settled (R323). -/
def Block.write (b : Block) (off : Nat) (bs : List Byte) (mark : BitVec 2) : Block :=
  let m := b.scratch.setBytes off bs
  { b with
    scratch := (b.arrivals.filter fun w => meets w 16 off bs.length).foldl settleAt m
    poison := b.poison.set (off / 32) (markAfter (b.poison.get (off / 32)) bs.length mark) }

/-- Count one byte into an arrival word that is armed (R323). -/
def awByte (w : Nat) : Nat := if awArmed w then awSettle (setFld w 64 32 (awCount w + 1)) else w

/-- Count `n` bytes in turn into an arrival word (R323), and know it as one. -/
def Block.count (b : Block) (aw n : Nat) : Block :=
  let w := b.scratch.le aw 16
  let w1 := (List.range n).foldl (fun w _ => awByte w) w
  { b with scratch := if w1 = w then b.scratch else b.scratch.setBytes aw (toBytes 16 w1)
           arrivals := if b.arrivals.contains aw then b.arrivals else aw :: b.arrivals }

/-- Know an arrival word, and settle it. -/
def Block.know (b : Block) (aw : Nat) : Block :=
  if b.arrivals.contains aw then b else { b with arrivals := aw :: b.arrivals, scratch := settleAt b.scratch aw }

def State.onBlock (s : State) (b : BKey) (f : Block → Block) : State := { s with blocks := s.blocks.upd b f }

/-- Write one granule piece at its place: a home, the host's memory or a scratchpad. -/
def State.writeAt (s : State) (l : Loc) (bs : List Byte) (mark : BitVec 2) (prio : Nat) : State :=
  match l with
  | .home a => s.homeWrite a bs mark prio
  | .host a => { s with hostMem := s.hostMem.setBytes a bs }
  | .spad b off => s.onBlock b fun x => x.write off bs mark
  | .peer _ => s

/-! ### The store queue -/

/-- The spans of bytes an entry will write (R110; a patch covers its coded block). -/
def SqEntry.spans (x : SqEntry) : List (Loc × Nat) :=
  match x.op with
  | .patch p => p.pieces
  | _ => [(x.loc, x.n)]

def SqEntry.meets (x : SqEntry) (l : Loc) (n : Nat) : Bool := x.spans.any fun p => p.1.meets p.2 l n

/-- Store-queue entries of 64 bytes an item takes (01 R10; 14 R290): a packet takes one for each 64 of its bytes. -/
def SqEntry.slots (x : SqEntry) : Nat :=
  match x.op with
  | .patch p => ceilDiv (16 + 4 ^ p.dim * (if p.f64 then 8 else 4)) 64
  | _ => if x.port.isSome then ceilDiv x.n 64 else 1

def Cluster.sqUsed (c : Cluster) : Nat := (c.sq.map SqEntry.slots).foldl (· + ·) 0

/-- The queue has room for `n` entries (01 R10). -/
def Cluster.sqRoom (c : Cluster) (n : Nat) : Bool := decide (c.sqUsed + n ≤ 64)

/-- Two entries are pieces of one access of one thread: no order holds between them (R106). -/
def SqEntry.sameAccess (y x : SqEntry) : Bool := y.key == x.key && y.who.isSome && y.who == x.who

/-- An earlier entry goes first (R111, R121). The packets of a copy on one port begin to leave it in order (18 R350); one that has
been sent holds no later one back, and packets on different ports have no order (16 R329; 17 R343). -/
def SqEntry.before (y x : SqEntry) : Bool :=
  x.spans.any (fun p => y.meets p.1 p.2)
    || (y.key == x.key && y.strm.isSome && y.strm == x.strm && y.loc.line == x.loc.line && !y.sameAccess x)
    || (y.port.isSome && y.port == x.port && y.tag.isNone && y.copy == x.copy)

/-- No entry ahead of `x` in the queue goes first. -/
def mayLeave (x : SqEntry) : List SqEntry → Bool
  | [] => true
  | y :: rest => if y.id = x.id then true else !y.before x && mayLeave x rest

/-- The L1 sectors of a cluster after a write through it (01 R16). -/
def Cluster.l1Write (c : Cluster) (l : Loc) (bs : List Byte) (mark : BitVec 2) : Cluster :=
  match l with
  | .home a =>
    { c with l1 := c.l1.map fun x =>
        if x.sector = a / 64 then
          let off := if a % 64 < 32 then 0 else 2
          let old : BitVec 2 := x.marks.extractLsb' off 2
          let m := markAfter old bs.length mark
          { x with bytes := overlay (.home (x.sector * 64)) x.bytes l bs
                   marks := (x.marks &&& ~~~((3 : BitVec 4) <<< off)) ||| (m.setWidth 4 <<< off) }
        else x }
  | _ => c

/-- Drop the L1 sectors that a span touches: an eviction (R109). -/
def Cluster.l1Drop (c : Cluster) (l : Loc) (n : Nat) : Cluster :=
  match l with
  | .home a => { c with l1 := c.l1.filter fun x => !meets (x.sector * 64) 64 a n }
  | _ => c

/-- Put an entry at the end of a cluster's queue (R110): it takes a number, its crew's counter rises, and a write
updates the L1. -/
def State.enqueue (s : State) (cl : Nat) (x : SqEntry) : State :=
  let y := { x with id := s.serial }
  let c := s.cluster cl
  let c1 := match x.op with
    | .write bs m => c.l1Write x.loc bs m
    | _ => x.spans.foldl (fun (c : Cluster) (p : Loc × Nat) => c.l1Drop p.1 p.2) c
  let s1 := s.bump.setCluster cl { c1 with sq := c.sq ++ [y] }
  if x.counted then
    { s1 with crews := s1.crews.upd (s.env x.key).ckey fun w => { w with unacked := w.unacked + 1 } }
  else s1

/-- An entry is acknowledged: it leaves the queue, and its crew's counter falls (R110). -/
def State.acknowledge (s : State) (cl : Nat) (x : SqEntry) : State :=
  let s1 := s.onCluster cl fun c => { c with sq := c.sq.filter fun y => y.id != x.id }
  if x.counted then
    { s1 with crews := s1.crews.upd (s.env x.key).ckey fun w => { w with unacked := w.unacked - 1 } }
  else s1

/-! ### Taking a trap at a thread that may wait (06 R423, R424, R147) -/

/-- Enter the trap of a settled thread: DEFER gives the resume point the PC it has reached. -/
def Thread.takeDue (e : Env) (t : Thread) (d : Due) : Thread :=
  let tr : Trap := { cause := d.cause, sub := d.sub, value := d.value }
  { t with due := [] }.enterTrap e tr
    { tpc := d.tpc, ipc := d.ipc, defer := d.defer, chain := d.chain, resume := if d.defer then t.pc else 0 }

/-- The thread stands inside a chain: the next instruction goes on with it. Where the next instruction is not at hand, a chain
in progress counts as going on, unless its head writes one of its own sources, so that no instruction could follow it (04 R92;
LOG 19). -/
def Thread.inside (t : Thread) (i : Option Instr) : Bool :=
  match t.chain, i with
  | some _, some j => t.continues j
  | some c, none => !c.headSelf
  | none, _ => false

/-- The threads of the run whose chain a thread stands in. -/
def State.chainMates (s : State) (k : TKey) (t : Thread) : List TKey :=
  if t.inside (s.peek k t) then
    (s.threads.filter fun p => p.1.launch == k.launch && p.2.pc == t.pc && p.2.inHandler == t.inHandler
      && p.2.chain.map (·.head) == t.chain.map (·.head) && (s.env p.1).cl == (s.env k).cl
      && (s.env p.1).crew % 4 == (s.env k).crew % 4).map (·.1)
  else []

/-- A forced switch of some threads: they return to their chain's head, with invalid latches, and the generator's counter to
its value there (04 R94). -/
def State.switchChain (s : State) (ks : List TKey) : State :=
  let s1 := { ({ s with run := ks } : State).rewindRng with run := s.run }
  ks.foldl (fun st k => st.onThread k fun _ t => t.rewind) s1


/-- The object's address in the peer's memory, when the thread waits there in a blocking acquire with this tag. -/
def Port.acqAt (p : Port) (k : TKey) (tag : Nat) : Option Nat :=
  match p.tags.find tag with
  | some (.sync k' true addr _ none _ false) => if k' = k then some addr else none
  | _ => none

/-- The withdrawal of the request of a tag has been sent. -/
def Port.drawn (p : Port) (tag : Nat) : Port :=
  { p with tags := p.tags.upd tag fun u => match u with
      | .sync k acq addr va tryP next _ => .sync k acq addr va tryP next true
      | x => x }

/-- Send the withdrawal of a thread's blocking acquire to the peer that holds it (17 R344): 16 payload bytes of its owner (21
R383). -/
def State.withdrawPeer (s : State) (k : TKey) (tag : Nat) : State :=
  match (List.range 8).findSome? fun p => ((s.port p).acqAt k tag).map fun a => (p, a) with
  | some (p, a) =>
    (s.setPort p (((s.port p).drawn tag).put (txHeader a s.mgmt.image.dev tag 9 0 0) [])).charge (s.recOf k.launch).owner
      fun u => { u with link := u.link + 16 }
  | none => s

/-- A trap that arises while others wait for the thread's instruction to be settled (06 R423): a deferred trap goes before
STARVED, which arises again if the thread blocks again, and behind an earlier deferred trap. -/
def dueAfter (ds : List Due) (d : Due) : List Due :=
  if d.defer then ds.filter (·.defer) ++ [d] else if ds.isEmpty then [d] else ds

/-- Take a trap at a settled thread. One that stands inside a chain takes it as a trap raised at a chain instruction: a forced
switch of its run (04 R94; LOG 62). STARVED is precise: the thread stands at its instruction until its earlier loads and logged
accesses are complete (06 R149). -/
def State.takeTrap (s : State) (k : TKey) (d : Due) : State :=
  match s.threads.find k with
  | none => s
  | some t =>
    if !d.defer && s.draining k then s.setThread k { t.stall t.wait.counts with due := dueAfter t.due d }
    else (s.switchChain (s.chainMates k t)).onThread k fun e u => u.takeDue e d

/-- Raise a trap for a thread that may wait in an instruction: the instruction is settled first (06 R423; 10 R251). A deferred trap
at a thread in a pending `bar` withdraws its arrival as STARVED does (LOG 77); a thread of a parked crew issues nothing, and takes
it once it has left its barrier (10 R250). -/
def State.strike (s : State) (k : TKey) (d : Due) : State :=
  match s.threads.find k with
  | none => s
  | some t =>
    match t.wait.kind with
    | .peerSync tag =>
      let s1 := s.setThread k { t with due := dueAfter t.due d }
      if t.due.isEmpty then s1.withdrawPeer k tag else s1
    | .acq r =>
      ({ s with acqs := s.acqs.filter fun a => (match a.who with | .thread k' r' _ => !(k' == k && r' == r) | _ => true) } : State).takeTrap
        k d
    | .deq r => ({ s with deqs := s.deqs.filter fun x => x.id != r } : State).takeTrap k d
    | .bar b ph =>
      let x := s.barrier b
      if x.phase == ph then ({ s with barriers := s.barriers.set b (x.withdraw k) } : State).takeTrap k d
      else (s.setThread k t.leaveBar).takeTrap k d
    | .wave _ _ => (s.setThread k t.leaveBar).takeTrap k d
    | .parked => s.setThread k { t with due := dueAfter t.due d }
    | _ => s.takeTrap k d

/-- A deferred trap at a thread (06 R147, R424). -/
def State.deferTrap (s : State) (k : TKey) (pc : Word64) (tr : Trap) : State :=
  s.strike k { cause := tr.cause, sub := tr.sub, value := tr.value, tpc := pc, ipc := pc, defer := true, chain := false }

/-- POISON in data that returned after issue (06 R424; 21 R393): a UE mark kills, a DATA mark is deferred. -/
def State.deferPoison (s : State) (k : TKey) (pc : Word64) (mark : BitVec 2) (a : Nat) (leaf : Option UsedLeaf) : State :=
  if mark = 1 then
    s.onThread k fun e t => t.consumeUe e a leaf { tpc := pc, ipc := pc, defer := true, chain := false, resume := t.pc }
  else s.deferTrap k pc (Trap.poison a)

/-! ### Loads in flight -/

/-- A value narrower than 32 bits fills D (09 R215). -/
def extend (ty : MemTy) (v : Nat) : Nat :=
  match ty with
  | .s8 => wrap (sext v 8) 32
  | .s16 => wrap (sext v 16) 32
  | _ => v

/-- A condition on the value read by `pchk` (10 R252). -/
def waitCond (cond : BitVec 3) (wide : Bool) (v b : Nat) : Bool :=
  if wide then condWait cond (BitVec.ofNat 64 v) (BitVec.ofNat 64 b)
  else condWait cond (BitVec.ofNat 32 v) (BitVec.ofNat 32 b)

/-- The whole value of a load whose pieces have all returned. -/
def PendLoad.value (l : PendLoad) : Nat := ofBytes (l.pieces.flatMap fun p => p.got.getD [])

/-- The mark a load meets, a UE mark first. -/
def PendLoad.mark (l : PendLoad) : Option (BitVec 2 × Nat) :=
  (l.pieces.map fun p => (p.mark, alignDown p.va 32)).foldr (fun x r => worseMark x.1 x.2 r) none

/-- Write a load's result to its thread. -/
def PendLoad.deliver (l : PendLoad) (t : Thread) : Thread :=
  let t1 := match l.dst with
    | some p => t.setPhys p l.ty.regs (extend l.ty l.value)
    | none => t
  match l.pred with
  | some (p, c, b) => t1.setPredD p false (waitCond c (l.ty == .b64) l.value b)
  | none => t1

/-- A load all of whose pieces have returned completes: D is written, or POISON arises (06 R424). -/
def State.finishLoad (s : State) (l : PendLoad) : State :=
  if l.pieces.all fun p => p.got.isSome then
    let s1 := { s with loads := s.loads.filter fun x => x.id != l.id }
    match l.mark with
    | some (m, a) => s1.deferPoison l.key l.pc m a (leafAt l.leaves a)
    | none => s1.onThread l.key fun _ t => l.deliver t
  else { s with loads := s.loads.map fun x => if x.id = l.id then l else x }

/-- Put the bytes of one piece of a load. -/
def PendLoad.fill (l : PendLoad) (k : Nat) (bs : List Byte) (mark : BitVec 2) : PendLoad :=
  { l with pieces := l.pieces.zipIdx.map fun p =>
      if p.2 = k then { p.1 with got := some bs, mark := mark, tag := none, taken := [] } else p.1 }

/-- A load of a thread that is older than load `id`, and touches the span, has not returned. -/
def State.olderLoad (s : State) (k : TKey) (id : Nat) (l : Loc) (n : Nat) : Bool :=
  s.loads.any fun x => x.key == k && decide (x.id < id)
    && x.pieces.any fun p => p.got.isNone && p.loc.meets p.n l n

/-- A load of the thread that touches the span has not returned. -/
def State.loadOpen (s : State) (k : TKey) (l : Loc) (n : Nat) : Bool := s.olderLoad k s.serial l n

/-- The queue of a cluster holds an atomic or a patch that touches the span and entered before number `id`: a read of that
number waits for it (R108). -/
def Cluster.holdsBefore (c : Cluster) (id : Nat) (l : Loc) (n : Nat) : Bool :=
  c.sq.any fun x => decide (x.id < id) && x.meets l n && (match x.op with | .write .. => false | _ => true)

/-- The queue holds any atomic or patch that touches the span. -/
def Cluster.holdsUnread (c : Cluster) (l : Loc) (n : Nat) : Bool :=
  c.sq.any fun x => x.meets l n && (match x.op with | .write .. => false | _ => true)

/-- A load whose bytes an atomic or a patch in its cluster's queue touches stalls (R108). -/
def Cluster.unread (c : Cluster) (ps : List Piece0) : Bool := ps.any fun p => c.holdsUnread p.1 p.2.2

/-- A load with this hint fills L1 (R109; 09 R215). -/
def fillsL1 (h : LdHint) : Bool := h == .none || h == .st

/-- The sector of a home location, that a fill reads. -/
def Loc.sector : Loc → Loc
  | .home a => .home (alignDown a 64)
  | l => l

/-- The same for a load with a hint, whose fill stalls it too (R108). -/
def Cluster.unreadFor (c : Cluster) (h : LdHint) (ps : List Piece0) : Bool :=
  c.unread ps || (fillsL1 h && ps.any fun p => !p.1.outside && c.holdsUnread p.1.sector 64)

/-- The writes of some queue entries that touch a span, in queue order (R108). -/
def takings (xs : List SqEntry) (l : Loc) (n : Nat) : List (Loc × List Byte × BitVec 2) :=
  xs.filterMap fun x =>
    match x.op with
    | .write ys m => if x.loc.meets x.n l n then some (x.loc, ys, m) else none
    | _ => none

/-- The entry is a write of the thread that it issued after number `id`. -/
def SqEntry.laterOwn (x : SqEntry) (k : TKey) (id : Nat) : Bool := x.counted && x.key == k && decide (id < x.id)

/-- The queued writes that a load of a number takes: those up to the first that its own thread issued after it, or that holds no
bytes and entered after it (R107; 02 R48). -/
def Cluster.taking (c : Cluster) (k : TKey) (id : Nat) (l : Loc) (n : Nat) : List (Loc × List Byte × BitVec 2) :=
  takings (c.sq.takeWhile fun x => !(x.meets l n && (x.laterOwn k id
    || (decide (id < x.id) && (match x.op with | .write .. => false | _ => true))))) l n

/-- Writes over bytes read elsewhere, and their mark. -/
def takeOver (ws : List (Loc × List Byte × BitVec 2)) (l : Loc) (bs : List Byte) (mark : BitVec 2) : List Byte × BitVec 2 :=
  ws.foldl (fun acc w => (overlay l acc.1 w.1 w.2.1, markAfter acc.2 w.2.1.length w.2.2)) (bs, mark)

/-- Take the queued bytes of a cluster over bytes read elsewhere, in queue order (R108). -/
def Cluster.forward (c : Cluster) (l : Loc) (bs : List Byte) (mark : BitVec 2) : List Byte × BitVec 2 :=
  takeOver (takings c.sq l bs.length) l bs mark

/-- The same for a load of a number. -/
def Cluster.forwardTo (c : Cluster) (k : TKey) (id : Nat) (l : Loc) (bs : List Byte) (mark : BitVec 2) : List Byte × BitVec 2 :=
  takeOver (c.taking k id l bs.length) l bs mark

/-- The bytes of a sector with the cluster's queued bytes merged, for a fill (R108). -/
def State.fillSector (s : State) (c : Cluster) (sector : Nat) : L1Sector :=
  let half := fun k =>
    let a := sector * 64 + 32 * k
    c.forward (.home a) (s.mem.bytes a 32) (s.markAt a)
  { sector := sector, bytes := (half 0).1 ++ (half 1).1, marks := (half 1).2 ++ (half 0).2 }

/-- Put a sector into an L1 of 4,096 sectors, the newest first (01 R10; R109); `low` puts it at the lowest replacement
priority, the next to go (09 R215). -/
def Cluster.l1Fill (c : Cluster) (low : Bool) (x : L1Sector) : Cluster :=
  let rest := (c.l1.filter fun y => y.sector != x.sector).take 4095
  { c with l1 := if low then rest ++ [x] else x :: rest }

/-- Whether a load with this hint may be served by an L1 sector (09 R215; R109). That one with `.ro` may hit a sector, and fills
none, is the model's choice: R112 does not say (LOG 81). -/
def usesL1 (h : LdHint) (l : Loc) : Bool :=
  match h, l with
  | .none, .home _ => true
  | .st, .home _ => true
  | .ro, .home _ => true
  | _, _ => false

/-- The die of a thread's cluster for its replicas (R112). -/
def State.replica (s : State) (die launch sector : Nat) : Option Replica :=
  s.replicas.find? fun r => r.die == die && r.launch == launch && r.sector == sector

/-- The thread has read a sector at its home past its cluster's L1 (R107). -/
def State.sawHome (s : State) (k : TKey) (sec : Nat) : State :=
  s.onThread k fun _ t => { t with seen := if t.seen.contains sec then t.seen else sec :: t.seen }

/-- The thread's L1 holds what it has read of a sector, or a later value. -/
def State.sawFill (s : State) (k : TKey) (sec : Nat) : State :=
  s.onThread k fun _ t => { t with seen := t.seen.erase sec }

/-- The thread may not take a sector from its cluster's L1: it has read it past the L1, which may hold an older value (R107). -/
def State.pastL1 (s : State) (k : TKey) (sec : Nat) : Bool :=
  match s.threads.find k with
  | some t => t.seen.contains sec
  | none => false

/-- A write of the thread after load `id` touches the span: the L1 copy is ahead of the load (02 R48). -/
def Cluster.ahead (c : Cluster) (k : TKey) (id : Nat) (l : Loc) (n : Nat) : Bool :=
  c.sq.any fun x => x.laterOwn k id && x.meets l n

/-- What a load's piece returns now, and the state after it; none while it must wait. An L1 copy older than a value the thread
has read counts as evicted (R107, R109). One that is read at its home gives what the home holds, so that the older value that the row
of 12 R267 on `ld.fresh` of a receipt allows does not arise (LOG 95). -/
def State.loadPiece (s : State) (l : PendLoad) (p : Piece) : Option (List Byte × BitVec 2 × State) :=
  let e := s.env l.key
  let c := s.cluster e.cl
  if s.olderLoad l.key l.id p.loc p.n || c.holdsBefore l.id p.loc p.n then none
  else
    match p.loc with
    | .spad b off =>
      match s.blocks.find b with
      | some x =>
        let r := c.forwardTo l.key l.id p.loc (x.scratch.bytes off p.n) (x.poison.get (off / 32))
        some (r.1, r.2, s)
      | none => none
    | .host h =>
      let r := c.forwardTo l.key l.id p.loc (s.hostMem.bytes h p.n) 0
      some (r.1, r.2, s)
    | .peer _ => none
    | .home a =>
      let sec := a / 64
      let (ch, s0) := s.choose
      let hit := if usesL1 l.hint p.loc && ch != 1 && !s.pastL1 l.key sec && !c.ahead l.key l.id p.loc p.n then
          c.l1.find? fun x => x.sector == sec
        else none
      match hit with
      | some x =>
        let r := c.forwardTo l.key l.id p.loc ((x.bytes.drop (a % 64)).take p.n) (x.marks.extractLsb' (if a % 64 < 32 then 0 else 2) 2)
        some (r.1, r.2, s0)
      | none =>
        let fills := fillsL1 l.hint
        if s.homeWaits a || (fills && c.holdsBefore l.id (.home (sec * 64)) 64) then none
        else
          let rep := if l.hint == .ro then s.replica e.die l.key.launch sec else none
          match rep with
          | some x =>
            let r := c.forwardTo l.key l.id p.loc ((x.bytes.drop (a % 64)).take p.n) 0
            some (r.1, r.2, s0.sawHome l.key sec)
          | none =>
            match s0.readHome e.part e.sub e.rcd.owner a l.prio with
            | none => none
            | some s1 =>
              let r := c.forwardTo l.key l.id p.loc (s.mem.bytes a p.n) (s.markAt a)
              let s2 := if fills && !c.holdsUnread (.home (sec * 64)) 64 then
                  (s1.onCluster e.cl fun c => c.l1Fill (l.hint == .st) (s.fillSector c sec)).sawFill l.key sec
                else s1.sawHome l.key sec
              let s3 := if l.hint == .ro && ch == 2 && s.markAt (sec * 64) == 0 && s.markAt (sec * 64 + 32) == 0 then
                  { s2 with replicas := { die := e.die, launch := l.key.launch, sector := sec,
                                          bytes := s.mem.bytes (sec * 64) 64 } :: s2.replicas }
                else s2
              some (r.1, r.2, s3)

/-- Ask the peer for a piece of a load, once; its answer is a SCRIM_READ_RESPONSE. The queued writes it meets are taken now
(R108). -/
def State.askPiece (s : State) (l : PendLoad) (k : Nat) (p : Piece) : State :=
  match p.loc, p.tag with
  | .peer pa, none =>
    let c := s.cluster (s.env l.key).cl
    if s.olderLoad l.key l.id p.loc p.n || c.holdsBefore l.id p.loc p.n then s
    else
      let q := s.peerOf pa
      let pt := s.port q.1
      match s.request q.1 (s.recOf l.key.launch).owner (.load l.id k) q.2 0 0 p.n [] with
      | some s1 =>
        let l1 := { l with pieces := l.pieces.zipIdx.map fun y =>
          if y.2 = k then { y.1 with tag := pt.freeTag, taken := c.taking l.key l.id p.loc p.n } else y.1 }
        { s1 with loads := s1.loads.map fun x => if x.id = l.id then l1 else x }
      | none => s
  | _, _ => s

/-- LOAD_DATA_RETURN (06 R424; 05 R106, R108): one piece of a load returns, performed now; a piece in a peer's
memory is asked for. The event waits while the piece must wait. -/
def execLoadDataReturn (id piece : Nat) (s : State) : Out :=
  .next (match s.loads.find? fun l => l.id == id && !l.atomic with
    | none => s
    | some l =>
      match l.pieces[piece]? with
      | none => s
      | some p =>
        if p.got.isSome then s
        else
          match p.loc with
          | .peer _ => s.askPiece l piece p
          | _ =>
            match s.loadPiece l p with
            | some (bs, m, s1) => (s1.finishLoad (l.fill piece bs m)).reap
            | none => s)

/-! ### Applying an entry (01 R15; 05 R111, R114, R126; 09 R220) -/

/-- The new value of an atomic (R220). -/
def atomNew (op : AtomOp) (wide : Bool) (old b cmp : Nat) : Nat :=
  let n := if wide then 64 else 32
  let o := BitVec.ofNat n old
  let x := BitVec.ofNat n b
  match op with
  | .add => (o + x).toNat
  | .mins => (minsOp o x).toNat
  | .minz => (minzOp o x).toNat
  | .maxs => (maxsOp o x).toNat
  | .maxz => (maxzOp o x).toNat
  | .and => (o &&& x).toNat
  | .or => (o ||| x).toNat
  | .xor => (o ^^^ x).toNat
  | .exch => b
  | .fadd => faddBits (Fpm.of 0) (if wide then Fmt.f64 else Fmt.f32) old b
  | .cas => if old = cmp then b else old

/-- Bytes of an atomic. -/
def atomBytes (wide : Bool) : Nat := if wide then 8 else 4

/-- The AOP code that travels over Scrim (17 R338). -/
def aopCode (op : AtomOp) : Nat :=
  match op with
  | .add => 0 | .mins => 1 | .minz => 2 | .maxs => 3 | .maxz => 4 | .and => 5 | .or => 6 | .xor => 7
  | .exch => 8 | .fadd => 9 | .cas => 10

/-- Bytes at a home, host or scratchpad location, and their mark. -/
def State.readLoc (s : State) (l : Loc) (n : Nat) : List Byte × BitVec 2 :=
  match l with
  | .home a => (s.mem.bytes a n, s.markAt a)
  | .host a => (s.hostMem.bytes a n, 0)
  | .spad b off =>
    match s.blocks.find b with
    | some x => (x.scratch.bytes off n, x.poison.get (off / 32))
    | none => ([], 0)
  | .peer _ => ([], 0)

/-- An atomic at its location, as one item: the old bytes with their mark, and the state. A marked granule is left
as it is (06 R424, R147). -/
def State.atomAt (s : State) (l : Loc) (op : AtomOp) (wide : Bool) (b cmp prio : Nat) :
    List Byte × BitVec 2 × State :=
  let r := s.readLoc l (atomBytes wide)
  if r.2 = 0 then
    (r.1, 0, s.writeAt l (toBytes (atomBytes wide) (atomNew op wide (ofBytes r.1) b cmp)) 0 prio)
  else (r.1, r.2, s)

/-- A sync object read as a number (05 R113). -/
def State.obj (s : State) (a : Nat) : Nat := s.mem.le a 64
def objX (o : Nat) : Bool := bit o 63
def objHolder (o : Nat) : Nat := fld o 64 64
def objCount (o : Nat) : Nat := fld o 0 32
def objGen (o : Nat) : Nat := fld o 128 64
/-- Its reserved fields are 0. -/
def objClean (o : Nat) : Bool := fld o 192 320 == 0 && fld o 32 31 == 0

/-- A write to a sync object that leaves a reserved field non-zero answers every request that waits there with
ACCESS, precise, at its acquire (05 R114, R126); a peer's request is answered with status 2. -/
def State.testWaiters (s : State) (a n : Nat) : State :=
  (s.acqs.filter fun r => meets r.obj 64 a n && !objClean (s.obj r.obj)).foldl (fun st r =>
    let st1 := { st with acqs := st.acqs.filter fun x => x != r }
    match r.who with
    | .thread k _ _ => st1.onThread k fun e t =>
        ({ t with wait := Wait.idle }).raiseHere e (Trap.access r.va)
    | .peer port tag _ _ => st1.respond port r.obj tag 8 2 []) s

/-- The entry waits at its place: an unready stack, a reload, a port without a tag; or an older load of its own thread that it
would overtake (02 R48; R107). -/
def State.entryWaits (s : State) (x : SqEntry) : Bool :=
  (x.counted && s.olderLoad x.key (match x.op with | .atomic _ _ _ _ load => load | _ => x.id) x.loc x.n) ||
    (match x.loc with
     | .home a => s.homeWaits a
     | .peer _ => x.tag.isSome
     | _ => false)

/-- Deliver the old value of an atomic to its thread. -/
def State.atomDone (s : State) (load : Nat) (bs : List Byte) (mark : BitVec 2) : State :=
  match s.loads.find? fun l => l.id == load with
  | some l => s.finishLoad (l.fill 0 bs mark)
  | none => s

/-- Send an entry to the peer that holds its window (17 R344), a packet through its own port (16 R329). -/
def State.sendEntry (s : State) (cl : Nat) (x : SqEntry) (pa : Nat) : State :=
  let q := (x.port.getD (s.peerOf pa).1, (s.peerOf pa).2)
  let owner := (s.recOf x.key.launch).owner
  let r := match x.op with
    | .write bs m => s.request q.1 owner (.store cl x.id) q.2 1 (if m = 0 then 0 else 1) bs.length bs
    | .atomic op wide b cmp _ =>
      let data := toBytes (atomBytes wide) b ++ (if op = AtomOp.cas then toBytes (atomBytes wide) cmp else [])
      s.request q.1 owner (.atomic cl x.id) q.2 2 (aopCode op) data.length data
    | .patch _ => none
  match r with
  | some s1 =>
    let s2 := s1.onCluster cl fun c => { c with sq := c.sq.map fun (y : SqEntry) =>
      if y.id = x.id then { y with tag := (s.port q.1).freeTag } else y }
    match x.copy with
    | some id => s2.copyUses cl id q.1
    | none => s2
  | none => s

/-- The read that forms an atomic's result at its home, over the read lanes (01 R12; 21 R376): none while the budget does not
admit it. Every other entry reads nothing. -/
def State.formRead (s : State) (x : SqEntry) : Option State :=
  match x.op, x.loc with
  | .atomic .., .home a => s.readHome x.bill.part x.bill.sub x.bill.owner a x.prio
  | _, _ => some s

/-- HOME_ITEM_APPLY (01 R15): an entry of a cluster's store queue, none ahead of which must go first, is applied at
its point of coherence and acknowledged; one for a peer is sent. A patch is a MERGE. -/
def execHomeItemApply (cl id : Nat) (s : State) : Out :=
  .next (match (s.cluster cl).sq.find? fun x => x.id == id with
    | none => s
    | some x =>
      if s.entryWaits x || !mayLeave x (s.cluster cl).sq then s
      else
        match s.formRead x with
        | none => s
        | some s0 =>
          match x.loc, x.op with
          | .peer pa, _ => s0.sendEntry cl x pa
          | _, .patch _ => s
          | l, .write bs m =>
            let s1 := (s0.writeAt l bs m x.prio).acknowledge cl x
            (match l with
             | .home a => s1.testWaiters a x.n
             | _ => s1).reap
          | l, .atomic op wide b cmp load =>
            let r := s0.atomAt l op wide b cmp x.prio
            let s1 := (r.2.2.acknowledge cl x).atomDone load r.1 r.2.1
            (match l with
             | .home a => s1.testWaiters a x.n
             | _ => s1).reap)

end Sys2Proof.Machine
end

