-- ==== Sys2Proof/Machine/Memory.lean ====
section
/-!
DEFINITION. Loads, stores and atomics by address and in scratchpads, the operand log and its replay, prefetches, residency,
L1 invalidation and the tensor identifier table (09_core_memory_access.md R214 to R230; 06_translation_and_traps.md
R141 to R148).
-/

namespace Sys2Proof.Machine

/-! ### One data access of one thread -/

/-- A data access: `ty` gives its size and how D is filled; `data` is the store's or the atomic's operand. -/
structure MemReq where
  kind : AccKind
  ty : MemTy
  addr : Int
  data : Nat
  cmp : Nat
  dst : Option Nat
  strm : BitVec 2
  prio : Nat
  deriving DecidableEq, Repr

/-- The access writes memory. -/
def AccKind.writes : AccKind → Bool
  | .load _ => false
  | _ => true

def AccKind.isAtomic : AccKind → Bool
  | .atomic .. => true
  | _ => false

/-- What an instruction does for one thread. -/
inductive MemDo where
  | fault (tr : Trap)
  | done (t : Thread)
  | access (r : MemReq)
  deriving DecidableEq, Repr

/-- An atomic that is not aligned (R220). -/
def MemReq.misaligned (r : MemReq) : Bool := r.kind.isAtomic && r.addr % (r.ty.bytes : Int) != 0

/-- An access of `n` bytes of a logged thread does not issue (06 R143): it overlaps a logged access, or it writes in the
stream and a line of a logged store. -/
def State.logHolds (s : State) (k : TKey) (a n : Nat) (writes : Bool) (strm : BitVec 2) : Bool :=
  s.log.any fun l => l.accs.any fun x =>
    x.key == k && (meets x.va l.ty.bytes a n
      || (writes && l.kind.writes && l.strm == strm
          && decide (x.va / 512 ≤ (a + n - 1) / 512) && decide (a / 512 ≤ (x.va + l.ty.bytes - 1) / 512)))

/-- A later access of a logged thread does not issue (06 R143). The last row of 11 R265, whose writer runs on past a logged
store, names no stream or line; R143 holds there too (LOG 64). -/
def State.logBlocks (s : State) (k : TKey) (r : MemReq) : Bool := s.logHolds k r.addr.toNat r.ty.bytes r.kind.writes r.strm

/-- A logged access of the thread touches the span (06 R143). -/
def State.logMeets (s : State) (k : TKey) (a n : Nat) : Bool :=
  s.log.any fun l => l.accs.any fun x => x.key == k && meets x.va l.ty.bytes a n

/-- An own load in flight touches some pieces. -/
def State.waitsForLoad (s : State) (k : TKey) (ps : List Piece0) : Bool :=
  ps.any fun p => s.loadOpen k p.1 p.2.2

/-- The check of an access (06 R141): an atomic that is not aligned raises ACCESS before any other check (LOG 94), and one in a host
range raises ACCESS (R220). -/
def State.checkReq (s : State) (e : Env) (r : MemReq) : Acc × State :=
  let odd := Trap.access r.addr.toNat
  if r.misaligned then (.fault odd, s)
  else
    match s.check e.who r.addr r.ty.bytes r.kind.writes false with
    | (.ok ps, s1) =>
      if r.kind.isAtomic && ps.any (fun p => match p.1 with | .host _ => true | _ => false) then (.fault odd, s1)
      else (.ok ps, s1)
    | x => x

/-- Whether a write may enter the queue now: yes, the budget refuses it at a stack, or the queue is full. -/
inductive Admit where
  | yes
  | budget (stack : Nat)
  | full
  deriving DecidableEq, Repr

/-- Admission under the write budget and the store queue (R226, R227). -/
def State.admission (s : State) (e : Env) (ps : List Piece0) : Admit :=
  match s.refusedStack true e.part e.sub (chargesOf (sectorsOf (ps.map (·.1)) (ps.map (·.2.2)))) with
  | some st => .budget st
  | none => if (s.cluster e.cl).sqRoom ps.length then .yes else .full

/-- The store-queue entries of a store, one for each piece. -/
def State.queueStore (s : State) (e : Env) (pc : Word64) (ps : List Piece0) (bytes : List Byte) (strm : BitVec 2)
    (prio : Nat) : State :=
  (ps.foldl (fun (acc : State × List Byte) p =>
    let x : SqEntry :=
      { id := 0, key := e.key, who := some (s.serial, pc), bill := e.bill, counted := true, copy := none, strm := some strm, prio := prio, loc := p.1, va := p.2.1,
        n := p.2.2, op := .write (acc.2.take p.2.2) 0, port := none, tag := none }
    (acc.1.enqueue e.cl x, acc.2.drop p.2.2)) (s, bytes)).1

/-- Charge a write and put it into the queue: a store's pieces, or an atomic with its load. -/
def State.queueWrite (s : State) (e : Env) (r : MemReq) (pc : Word64) (ps : List Piece0) : State :=
  let s1 := s.makeCharge true e.part e.sub e.rcd.owner (chargesOf (sectorsOf (ps.map (·.1)) (ps.map (·.2.2))))
  match r.kind with
  | .atomic op wide =>
    match ps with
    | [] => s1
    | p :: _ =>
      let s2 : State := { s1.bump with loads := s1.loads ++
        [{ id := s1.serial, key := e.key, pc := pc, dst := r.dst, pred := none, ty := r.ty, hint := .fresh, watch := false,
           prio := r.prio, atomic := true, leaves := s.leavesFor e.who ps,
           pieces := [{ loc := p.1, va := p.2.1, n := p.2.2, got := none, mark := 0, tag := none, taken := [] }] }] }
      s2.enqueue e.cl
        { id := 0, key := e.key, who := none, bill := e.bill, counted := true, copy := none, strm := some r.strm, prio := r.prio, loc := p.1,
          va := p.2.1, n := p.2.2, op := .atomic op wide r.data r.cmp s1.serial, port := none, tag := none }
  | _ => s1.queueStore e pc ps (toBytes r.ty.bytes r.data) r.strm r.prio

/-- A load with nothing returned. -/
def newLoad (id : Nat) (k : TKey) (pc : Word64) (ty : MemTy) (hint : LdHint) (prio : Nat) (dst : Option Nat)
    (ps : List Piece0) (ls : List UsedLeaf) : PendLoad :=
  { id := id, key := k, pc := pc, dst := dst, pred := none, ty := ty, hint := hint, watch := false, prio := prio, atomic := false,
    leaves := ls,
    pieces := ps.map fun p => { loc := p.1, va := p.2.1, n := p.2.2, got := none, mark := 0, tag := none, taken := [] } }

/-- Put a load in flight (06 R424). -/
def State.startLoad (s : State) (k : TKey) (pc : Word64) (ty : MemTy) (hint : LdHint) (prio : Nat) (dst : Option Nat)
    (ps : List Piece0) : State :=
  { s.bump with loads := s.loads ++ [newLoad s.serial k pc ty hint prio dst ps (s.leavesFor (s.env k).who ps)] }

/-- Put the read of a `pchk` in flight (10 R254; 06 R424). -/
def State.startWatch (s : State) (k : TKey) (pc : Word64) (ty : MemTy) (pred : Option (PredD × BitVec 3 × Nat))
    (ps : List Piece0) : State :=
  { s.bump with loads := s.loads ++ [{ newLoad s.serial k pc ty .fresh 3 none ps (s.leavesFor (s.env k).who ps) with
    pred := pred, watch := true }] }

/-! ### The operand log (06 R142, R144, R148) -/

/-- Send the requests of an access's missing pages: their tokens. `mine` are other requests of the same log entry or stalled crew
(R145). -/
def State.requestPages (s : State) (src : Nat) (w : Who) (wr : Bool) (mine : List Nat) : List (Nat × Bool) → List Nat × State
  | [] => ([], s)
  | (va, illf) :: rest =>
    let r := s.requestPage src w mine va wr false illf
    let q := State.requestPages r.2 src w wr (r.1 :: mine) rest
    (r.1 :: q.1, q.2)

/-- Log one thread's access in the entry of its crew and issue (R142). -/
def State.logAccess (s : State) (e : Env) (iss : Nat) (r : MemReq) (pc : Word64) (pages : List (Nat × Bool)) : State :=
  let mine := (s.log.filter fun l => l.issue == iss && l.crew == e.ckey).flatMap fun l => l.accs.flatMap (·.tokens)
  let q := s.requestPages (srcQuarter e.cl (e.crew % 4)) e.who r.kind.writes mine pages
  let x : LogAcc := { key := e.key, va := r.addr.toNat, data := toBytes 16 r.data, cmp := r.cmp, dst := r.dst,
                      tokens := q.1, failed := none }
  let s1 := q.2
  if s1.log.any fun l => l.issue == iss && l.crew == e.ckey then
    { s1 with log := s1.log.map fun l =>
        if l.issue == iss && l.crew == e.ckey then { l with accs := l.accs ++ [x] } else l }
  else
    { s1.bump with log := s1.log ++
        [{ id := s1.serial, issue := iss, cl := e.cl, quarter := e.crew % 4, crew := e.ckey, pc := pc, kind := r.kind,
           ty := r.ty, strm := r.strm, prio := r.prio, accs := [x] }] }

/-- The block of a logged crew is resident: the entries of a saved gang have left their quarter's log. -/
def State.logResident (s : State) (l : LogEntry) : Bool :=
  s.blockResident { launch := l.crew.launch, block := l.crew.block }

/-- A quarter's log holds more than its 32 entries (R142). -/
def State.logOver (s : State) (cl q : Nat) : Bool :=
  decide (32 < (s.log.filter fun l => l.cl == cl && l.quarter == q && s.logResident l).length)

/-! ### Issuing an access -/

/-- A thread that the write budget does not admit (R227): it stalls at its store, or traps. -/
def Thread.overBudget (e : Env) (t : Thread) (i : Instr) (stack : Nat) : Thread :=
  if e.rcd.bmode then t.raise e i (Trap.writeBudget stack)
  else { t.stall true with wait := { kind := .store, counts := true } }

/-- A write of a checked thread (R216, R220, R227). -/
def issueWrite (s : State) (i : Instr) (e : Env) (t : Thread) (r : MemReq) (ps : List Piece0) : State :=
  match s.admission e ps with
  | .yes => (s.queueWrite e r t.pc ps).setThread e.key (t.advance i)
  | .budget st => s.setThread e.key (t.overBudget e i st)
  | .full => s.setThread e.key (t.stall true)

/-- A checked access (R216, R220). A load stalls on an atomic or a patch of its cluster's queue that
touches its bytes or the sector it fills (05 R108). -/
def issueChecked (s : State) (i : Instr) (e : Env) (t : Thread) (r : MemReq) (ps : List Piece0) : State :=
  match r.kind with
  | .load h =>
    if (s.cluster e.cl).unreadFor h ps then s.setThread e.key (t.stall true)
    else (s.startLoad e.key t.pc r.ty h r.prio r.dst ps).setThread e.key (t.advance i)
  | _ => issueWrite s i e t r ps

/-- One access of a guard-true thread (R216, R220; 06 R141 to R143). -/
def issueAccess (s : State) (i : Instr) (iss : Nat) (e : Env) (t : Thread) (r : MemReq) : State :=
  if s.logBlocks e.key r then s.setThread e.key (t.stall false)
  else
    match s.checkReq e r with
    | (.fault tr, s1) => s1.setThread e.key (t.raise e i tr)
    | (.wait, s1) => s1.setThread e.key (t.stall false)
    | (.absent pages, s1) => (s1.logAccess e iss r t.pc pages).setThread e.key (t.advance i)
    | (.ok ps, s1) => issueChecked s1 i e t r ps

/-- What a plan does for one thread. -/
def doPlan (i : Instr) (iss : Nat) (s : State) (e : Env) (t : Thread) (d : MemDo) : State :=
  match d with
  | .fault tr => s.setThread e.key (t.raise e i tr)
  | .done t1 => s.setThread e.key (t1.advance i)
  | .access r => issueAccess s i iss e t r

/-- Stall some threads. -/
def State.stallAll (s : State) (ks : List TKey) (counts : Bool) : State :=
  ks.foldl (fun st k => st.onThread k fun _ t => t.stall counts) s

/-- What an issue for a crew comes to: where it would need an entry of its quarter's full log, the crew does not issue for any of
its threads, and stalls (06 R148). -/
def State.unlessFull (s : State) (c : CKey) (ks : List TKey) (issued : State) : State :=
  match ks with
  | [] => issued
  | k :: _ =>
    if decide (s.log.length < issued.log.length) && issued.logOver (s.env k).cl (c.crew % 4) then s.stallAll ks true else issued

/-- The threads of the run that belong to a crew. -/
def State.crewRun (s : State) (c : CKey) : List TKey := s.run.filter fun k => (s.env k).ckey == c

/-- Issue a memory instruction, crew by crew (02 R46): a crew that needs an entry of a full log does not issue for any
thread (06 R148). -/
def State.issueMem (s : State) (i : Instr) (plan : State → Env → Thread → MemDo) : State :=
  let iss := s.serial
  (s.runCrews.foldl (fun st c =>
    let ks := s.crewRun c
    st.unlessFull c ks (ks.foldl (State.issueOne i fun st e t => doPlan i iss st e t (plan st e t)) st)) s.bump).reap

/-! ### Pages without a log entry (06 R144; 09 R233) -/

/-- Wait for a page without a log entry: the thread's own address in it, or none for a thread that stalls with its crew. -/
def Thread.pageWait (t : Thread) (tok : Nat) (va : Option Nat) (counts : Bool) : Thread :=
  { t with wait := { kind := .page tok va, counts := counts }, chain := none, kept := none }

/-- The address of a thread in the first of some missing pages. -/
def firstPage (pages : List (Nat × Bool)) : Option Nat := pages.head?.map (·.1)

/-- Send the request of the first missing page and let some threads wait for it (R224, R233); the next one is met when they
execute again. -/
def State.pageStall (s : State) (e : Env) (ks : List TKey) (wr counts : Bool) (pages : List (Nat × Bool)) : State :=
  let r := s.requestPages (srcQuarter e.cl (e.crew % 4)) e.who wr (s.crewTokens e.ckey) (pages.take 1)
  ks.foldl (fun st k => st.onThread k fun _ t => t.pageWait (r.1.headD 0) (firstPage pages) counts) r.2

/-- A crew some of whose threads miss pages stalls whole (R233): each of those sends its requests and waits for its own page,
the others wait with the first. -/
def State.holdCrew (s : State) (ks : List TKey) (counts : Bool) (ms : List (TKey × Bool × List (Nat × Bool))) : State :=
  let one := fun (st : State) (m : TKey × Bool × List (Nat × Bool)) => st.pageStall (st.env m.1) [m.1] m.2.1 counts m.2.2
  let s1 := ms.foldl one s
  let tok := match ms.head? with
    | some m => (match s1.threads.find m.1 with | some t => (match t.wait.kind with | .page x _ => x | _ => 0) | none => 0)
    | none => 0
  (ks.filter fun k => !(ms.any fun m => m.1 == k)).foldl (fun st k =>
    st.onThread k fun _ t => t.pageWait tok none counts) s1

/-- The missing pages of a thread that would execute, with WR of its request. -/
def State.missingOf (s : State) (i : Instr) (missing : State → Env → Thread → Option (Bool × List (Nat × Bool))) (k : TKey) :
    Option (TKey × Bool × List (Nat × Bool)) :=
  match s.threads.find k with
  | none => none
  | some t =>
    if (precheck (s.env k) t i).isNone && t.guard (guardOf i) then (missing s (s.env k) t).map fun m => (k, m) else none

/-- A rearrangement of a list that a number picks; 0 leaves it as it is. -/
def permute {α : Type} (c : Nat) : List α → List α
  | [] => []
  | x :: xs =>
    let r := permute (c / (xs.length + 1)) xs
    r.take (c % (xs.length + 1)) ++ x :: r.drop (c % (xs.length + 1))

/-- Issue for each thread of the run whose crew misses no page, in the order that `c` picks; a crew that misses one stalls
(R233). -/
def State.issuePaged (s : State) (i : Instr) (counts : Bool) (c : Nat)
    (missing : State → Env → Thread → Option (Bool × List (Nat × Bool))) (act : State → Env → Thread → State) : State :=
  let r := s.runCrews.foldl (fun (r : List TKey × State) cr =>
    let ks := s.crewRun cr
    let ms := ks.filterMap (r.2.missingOf i missing)
    if ms.isEmpty then (r.1 ++ ks, r.2) else (r.1, r.2.holdCrew ks counts ms)) ([], s)
  ((permute c r.1).foldl (State.issueOne i act) r.2).reap

/-- The missing pages of a checked access. -/
def Acc.missing (wr : Bool) : Acc → Option (Bool × List (Nat × Bool))
  | .absent pages => some (wr, pages)
  | _ => none

/-! ### `ld`, `st`, `st.try`, `atom`, `cas` -/

/-- Data of an access type (R215; `.b64` literals zero-extended). -/
def dataOf (ty : MemTy) (e : Env) (t : Thread) (o : Operand) : Nat := srcNat e t { o := o, w := ty.src }

/-- The width of an atomic as an access type. -/
def atomTy (wide : Bool) : MemTy := if wide then .b64 else .b32

def stPrio (h : StHint) : Nat := match h with | .st => 0 | _ => 3
/-- The replacement priority of the line of a load by address (R215, R229). -/
def ldPrio (h : LdHint) : Nat := match h with | .st => 0 | _ => 3

/-- The plan of `ld` (R216). -/
def planLd (f : FLd) (e : Env) (t : Thread) : MemReq :=
  { kind := .load f.hint, ty := f.ty, addr := memAddr e t f.a f.imm, data := 0, cmp := 0,
    dst := t.dstOf e f.w f.d, strm := 0, prio := ldPrio f.hint }
def execLd (f : FLd) (s : State) : Out :=
  .next (s.issueMem (.ld f) fun _ e t => .access (planLd f e t))

/-- The plan of `st` (R216). -/
def planSt (f : FSt) (e : Env) (t : Thread) : MemReq :=
  { kind := .store, ty := f.ty, addr := memAddr e t f.a f.imm, data := dataOf f.ty e t f.b, cmp := 0, dst := none,
    strm := f.strm, prio := stPrio f.hint }
def execSt (f : FSt) (s : State) : Out :=
  .next (s.issueMem (.st f) fun _ e t => .access (planSt f e t))

/-- The plan of `st.try` (R217). -/
def planStTry (f : FStTry) (e : Env) (t : Thread) : MemReq :=
  { kind := .store, ty := f.ty, addr := memAddr e t f.a f.imm, data := dataOf f.ty e t f.b, cmp := 0, dst := none,
    strm := f.strm, prio := stPrio f.hint }

/-- `st.try` of one thread (R217): it never stalls on the budget or the queue and raises no WRITE_BUDGET. Tables that cannot be
read now count as a page that is not present, without a request (LOG 63); R143 alone holds it back. -/
def stTryOne (f : FStTry) (s : State) (e : Env) (t : Thread) : State :=
  let i := Instr.stTry f
  let r := planStTry f e t
  let fin := fun (ok : Bool) => (t.setPredD f.p f.w ok).advance i
  if s.logBlocks e.key r then s.setThread e.key (t.stall false)
  else
    match s.checkReq e r with
    | (.fault tr, s1) => s1.setThread e.key (t.raise e i tr)
    | (.wait, s1) => s1.setThread e.key (fin false)
    | (.absent pages, s1) =>
      (s1.requestPages (srcQuarter e.cl (e.crew % 4)) e.who true [] pages).2.setThread e.key (fin false)
    | (.ok ps, s1) =>
      if s1.admission e ps = .yes then (s1.queueWrite e r t.pc ps).setThread e.key (fin true)
      else s1.setThread e.key (fin false)
def execStTry (f : FStTry) (s : State) : Out := .next (s.issueEach (.stTry f) (stTryOne f))

/-- The plan of `atom` (R220). -/
def planAtom (f : FAtom) (e : Env) (t : Thread) : MemReq :=
  { kind := .atomic f.op f.wide, ty := atomTy f.wide, addr := memAddr e t f.a f.imm,
    data := dataOf (atomTy f.wide) e t f.b, cmp := 0, dst := t.dstOf e f.w f.d, strm := f.strm, prio := 3 }
def execAtom (f : FAtom) (s : State) : Out :=
  .next (s.issueMem (.atom f) fun _ e t => .access (planAtom f e t))

/-- The comparand D of a compare-and-swap (R220). -/
def comparand (e : Env) (t : Thread) (wide : Bool) (d : BitVec 7) : Nat :=
  if wide then (dst64 e t d).toNat else (dst32 e t d).toNat

/-- The plan of `cas` (R220). -/
def planCas (f : FCas) (e : Env) (t : Thread) : MemReq :=
  { kind := .atomic .cas f.wide, ty := atomTy f.wide, addr := memAddr e t f.a f.imm,
    data := dataOf (atomTy f.wide) e t f.b, cmp := comparand e t f.wide f.d, dst := t.dstOf e f.w f.d,
    strm := f.strm, prio := 3 }
def execCas (f : FCas) (s : State) : Out :=
  .next (s.issueMem (.cas f) fun _ e t => .access (planCas f e t))

/-! ### Scratchpads (R218, R219; 05 R121) -/

/-- Where a scratchpad access goes: the block, the offset, and whether it is the thread's own. -/
structure Spad where
  block : BKey
  off : Nat
  own : Bool
  deriving DecidableEq, Repr

/-- The scratchpad access of R218, or ADDRESS. -/
def spadAt (rcd : Rec) (b : BKey) (addr n : Nat) : Except Trap Spad :=
  let win := bit addr 21
  let memb := fld addr 19 2
  let off := fld addr 0 19
  let own := rcd.gangIx b.block
  if fld addr 22 10 ≠ 0 ∨ (!win ∧ memb ≠ 0) ∨ (win ∧ rcd.gangSize ≤ memb) ∨ rcd.scratchBytes < off + n then
    .error (Trap.address addr)
  else
    .ok { block := { b with block := if win then b.block - own + memb else b.block }, off := off,
          own := !win || memb == own }

/-- The pieces of a scratchpad access at a scratchpad address. -/
def spadPieces (p : Spad) (addr n : Nat) : List Piece0 :=
  cutPieces (fun a => .spad p.block (p.off + (a - addr))) 33 addr n

/-- The bytes of an own scratchpad access and the first marked granule, a UE mark first. -/
def Block.read (b : Block) (off n : Nat) : List Byte × Option (BitVec 2 × Nat) :=
  let gs := upFrom (off / 32) ((off + n - 1) / 32 - off / 32 + 1)
  (b.scratch.bytes off n, gs.foldr (fun g r => worseMark (b.poison.get g) (g * 32) r) none)

/-- Write bytes to a scratchpad, granule by granule. -/
def State.spadWrite (s : State) (b : BKey) (off : Nat) (bs : List Byte) : State :=
  ((spadPieces { block := b, off := off, own := true } off bs.length).foldl (fun (acc : State × List Byte) p =>
    (acc.1.writeAt p.1 (acc.2.take p.2.2) 0 3, acc.2.drop p.2.2)) (s, bs)).1

/-- `lds` of one thread (R219). -/
def ldsOne (f : FLds) (s : State) (e : Env) (t : Thread) : State :=
  let i := Instr.lds f
  let addr := (spadAddr e t f.a f.imm).toNat
  match spadAt e.rcd e.bkey addr f.ty.bytes with
  | .error tr => s.setThread e.key (t.raise e i tr)
  | .ok p =>
    if p.own then
      match s.blocks.find e.bkey with
      | none => s
      | some b =>
        let r := b.read p.off f.ty.bytes
        match r.2 with
        | some (m, g) => s.setThread e.key (t.poisoned e i m (addr - p.off + g) none)
        | none => s.setThread e.key ((if f.w then t
            else t.setRegs e f.d.toNat f.ty.regs (extend f.ty (ofBytes r.1))).advance i)
    else if (s.cluster e.cl).unread (spadPieces p addr f.ty.bytes) then s.setThread e.key (t.stall true)
    else
      (s.startLoad e.key t.pc f.ty .fresh 3 (t.dstOf e f.w f.d) (spadPieces p addr f.ty.bytes)).setThread
        e.key (t.advance i)
def execLds (f : FLds) (s : State) : Out := .next (s.issueEach (.lds f) (ldsOne f))

/-- `sts` of one thread (R219). -/
def stsOne (f : FSts) (s : State) (e : Env) (t : Thread) : State :=
  let i := Instr.sts f
  let addr := (spadAddr e t f.a f.imm).toNat
  match spadAt e.rcd e.bkey addr f.ty.bytes with
  | .error tr => s.setThread e.key (t.raise e i tr)
  | .ok p =>
    let bytes := toBytes f.ty.bytes (dataOf f.ty e t f.b)
    let ps := spadPieces p addr f.ty.bytes
    if p.own then (s.spadWrite p.block p.off bytes).setThread e.key (t.advance i)
    else if (s.cluster e.cl).sqRoom ps.length then
      (s.queueStore e t.pc ps bytes f.strm 3).setThread e.key (t.advance i)
    else s.setThread e.key (t.stall true)
def execSts (f : FSts) (s : State) : Out := .next (s.issueEach (.sts f) (stsOne f))

/-- `atoms` of one thread (R220). -/
def atomsOne (f : FAtom) (s : State) (e : Env) (t : Thread) : State :=
  let i := Instr.atoms f
  let n := atomBytes f.wide
  let addr := (spadAddr e t f.a f.imm).toNat
  if addr % n ≠ 0 then s.setThread e.key (t.raise e i (Trap.access addr))
  else
    match spadAt e.rcd e.bkey addr n with
    | .error tr => s.setThread e.key (t.raise e i tr)
    | .ok p =>
      let b := dataOf (atomTy f.wide) e t f.b
      let cmp := comparand e t f.wide f.d
      let ps := spadPieces p addr n
      if p.own then
        let r := s.atomAt (.spad p.block p.off) f.op f.wide b cmp 3
        if r.2.1 = 0 then
          r.2.2.setThread e.key ((if f.w then t
            else t.setRegs e f.d.toNat (if f.wide then 2 else 1) (ofBytes r.1)).advance i)
        else s.setThread e.key (t.poisoned e i r.2.1 (alignDown addr 32) none)
      else if (s.cluster e.cl).sqRoom 1 then
        (s.queueWrite e { kind := .atomic f.op f.wide, ty := atomTy f.wide, addr := addr, data := b, cmp := cmp,
                          dst := t.dstOf e f.w f.d, strm := f.strm, prio := 3 } t.pc ps).setThread e.key (t.advance i)
      else s.setThread e.key (t.stall true)
def execAtoms (f : FAtom) (s : State) : Out := .next (s.issueEach (.atoms f) (atomsOne f))

/-! ### Replay (06 R146, R147) -/

/-- The thread's part of an entry, as an access. -/
def LogEntry.req (l : LogEntry) (x : LogAcc) : MemReq :=
  { kind := l.kind, ty := l.ty, addr := x.va, data := ofBytes x.data, cmp := x.cmp, dst := x.dst, strm := l.strm, prio := l.prio }

/-- Replay one thread's part: what of it stays logged, and the state (R146, R147). `mine` are the requests that the entry has made
anew. -/
def replayOne (l : LogEntry) (mine : List Nat) (s : State) (x : LogAcc) : Option LogAcc × State :=
  let e := s.env x.key
  match x.failed with
  | some va => (none, s.deferTrap x.key l.pc (Trap.page va))
  | none =>
    let r := l.req x
    match s.checkReq e r with
    | (.fault tr, s1) => (none, s1.deferTrap x.key l.pc tr)
    | (.wait, s1) => (some x, s1)
    | (.absent pages, s1) =>
      let q := s1.requestPages (srcQuarter l.cl l.quarter) e.who l.kind.writes mine pages
      (some { x with tokens := q.1 }, q.2)
    | (.ok ps, s1) =>
      match l.kind with
      | .load h => (none, s1.startLoad x.key l.pc l.ty h l.prio x.dst ps)
      | _ =>
        if s1.admission e ps != .yes then (some x, s1)
        else (none, s1.queueWrite e r l.pc ps)

/-- Replay the parts of an entry in turn. The entry is out of the log meanwhile, so that a trap finds it settled. -/
def replayAll (l : LogEntry) (mine : List Nat) : State → List LogAcc → List LogAcc × State
  | s, [] => ([], s)
  | s, x :: rest =>
    let r := replayOne l mine s x
    let q := replayAll l (mine ++ r.1.toList.flatMap (·.tokens)) r.2 rest
    (r.1.toList ++ q.1, q.2)

/-- An entry may replay: every request is complete, and no earlier entry of one of its threads is logged (R146). -/
def mayReplay (l : LogEntry) : List LogEntry → Bool
  | [] => false
  | y :: rest =>
    if y.id = l.id then l.accs.all fun x => x.tokens.isEmpty
    else !(y.accs.any fun a => l.accs.any fun b => a.key == b.key) && mayReplay l rest

/-- OPERAND_LOG_REPLAY (R146): an entry whose requests are complete replays, in its place in the log. -/
def execOperandLogReplay (id : Nat) (s : State) : Out :=
  .next (match s.log.find? fun l => l.id == id with
    | none => s
    | some l =>
      if !s.logResident l || !mayReplay l s.log then s
      else
        let pre := s.log.takeWhile fun y => y.id != id
        let post := (s.log.dropWhile fun y => y.id != id).drop 1
        let r := replayAll l [] { s with log := pre ++ post } l.accs
        let log1 := if r.1.isEmpty then r.2.log
          else r.2.log.take pre.length ++ { l with accs := r.1 } :: r.2.log.drop pre.length
        ({ r.2 with log := log1 } : State).reap)

/-! ### Prefetch, residency, invalidation (R228 to R230) -/

/-- `prf` of one thread (R228): a request that would fault, wait or leave device memory is dropped. -/
def prfOne (f : FPrf) (s : State) (e : Env) (t : Thread) : State :=
  let fin := fun (s : State) => s.setThread e.key (t.advance (.prf f))
  match s.check e.who (memAddr e t f.a f.imm) 1 false false with
  | (.ok [(.home a, _, _)], s1) =>
    let c := s1.cluster e.cl
    let sec := a / 64
    if s1.homeWaits a || c.holdsUnread (.home (sec * 64)) 64 then fin s1
    else
      match s1.readHome e.part e.sub e.rcd.owner a 3 with
      | none => fin s1
      | some s2 =>
        match f.level with
        | .l1 => if c.l1.any fun x => x.sector == sec then fin s2
            else fin (s2.onCluster e.cl fun c => c.l1Fill false (s2.fillSector c sec))
        | .ro => if (s2.replica e.die e.key.launch sec).isSome || s2.markAt (sec * 64) != 0
              || s2.markAt (sec * 64 + 32) != 0 then fin s2
            else fin { s2 with replicas := { die := e.die, launch := e.key.launch, sector := sec,
                                             bytes := s2.mem.bytes (sec * 64) 64 } :: s2.replicas }
        | .l2 => fin s2
  | (_, s1) => fin s1
def execPrf (f : FPrf) (s : State) : Out := .next (s.issueEach (.prf f) (prfOne f))

/-- Entry `id` of a context's tensor table. -/
def State.tensor (s : State) (part ctx id : Nat) : TEntry := (s.ctxOf part ctx).tensors.get id
def State.setTensor (s : State) (part ctx id : Nat) (e : TEntry) : State :=
  let c := s.ctxOf part ctx
  { s with ctxs := s.ctxs.set (part, ctx) { c with tensors := c.tensors.set id e } }

/-- Blocks of a coded tensor along axis k (13 R271). -/
def TEntry.grid (e : TEntry) (k : Nat) : Nat := ceilDiv (e.ext k) 4

/-- Bytes of a coded block (13 R270). -/
def codedBytes (f64 : Bool) (dim rate : Nat) : Nat :=
  let rho := match rate with | 0 => 4 | 1 => 8 | 2 => 12 | 3 => 16 | 4 => 24 | _ => 32
  4 ^ dim * (if f64 then 2 * rho else rho) / 8

/-- The bytes a tensor's elements span, `[lo, hi)` (R229). -/
def TEntry.span (e : TEntry) : Int × Int :=
  let base : Int := e.base.toNat
  if e.fmt = 1 then
    (base, base + ((codedBytes (e.etype == 0xB) e.rank e.rate * ((List.range e.rank).map e.grid).foldl (· * ·) 1 : Nat) : Int))
  else
    let lo := ((List.range e.rank).map fun k => min 0 (((e.ext k : Int) - 1) * e.stride k)).foldl (· + ·) 0
    let hi := ((List.range e.rank).map fun k => max 0 (((e.ext k : Int) - 1) * e.stride k)).foldl (· + ·) 0
    if e.etype = 0xE then (base + lo.fdiv 2, base + hi.fdiv 2 + 1)
    else (base + lo * (e.esize : Int), base + (hi + 1) * (e.esize : Int))

/-- The home spans of a tensor, page by page; pages not present have none. -/
def State.tensorHome (s : State) (w : Who) (e : TEntry) : List (Nat × Nat) :=
  let lo := e.span.1.toNat
  let hi := e.span.2.toNat
  (upFrom (lo / 65536) (ceilDiv hi 65536 - lo / 65536)).filterMap fun pg =>
    let a := max lo (pg * 65536)
    let b := min hi (pg * 65536 + 65536)
    match (s.check w a 1 false false).1 with
    | .ok [(.home h, _, _)] => some (h, b - a)
    | _ => none

/-- The line lies in one of the spans. -/
def lineIn (spans : List (Nat × Nat)) (line : Nat) : Bool := spans.any fun p => meets (line * 512) 512 p.1 p.2

/-- Do something once per crew with participants for the tensor B names, or raise TENSOR_ID with SUB 1 (R229). -/
def State.issueRes (s : State) (i : Instr) (b : Operand)
    (act : State → Env → Nat → TEntry → State) : State :=
  s.issueCrews srcNat i fun st _ ks =>
    match ks with
    | [] => st
    | k :: _ =>
      match st.threads.find k with
      | none => st
      | some t =>
        let e := st.env k
        let id := (src32 e t b).toNat % 1024
        let x := st.tensor e.part e.ctx id
        if x.v then (act st e id x).advanceAll i ks else st.raiseAll i ks (Trap.tensorId 1 id)

/-- `res.prio` (R229). -/
def execResPrio (f : FResPrio) (s : State) : Out :=
  .next (s.issueRes (.resPrio f) f.b fun st e id x =>
    st.setTensor e.part e.ctx id (BitVec.ofNat 512 (setFld x.toNat 413 3 f.prio.toNat)))

/-- `res.demote` (R229): the tensor's home lines take the lowest priority. -/
def execResDemote (f : FB) (s : State) : Out :=
  .next (s.issueRes (.resDemote f) f.b fun st e _ x =>
    let spans := st.tensorHome e.who x
    { st with l2 := st.l2.map fun p => if lineIn spans p.1 then (p.1, 1) else p })

/-- A line leaves its home slice. -/
def State.dropLine (s : State) (line : Nat) : State :=
  { s with l2 := s.l2.drop line, l2dirty := s.l2dirty.drop line, l2gran := dropGranules line s.l2gran
           evicting := s.evicting.filter fun x => x.1 != line }

/-- Evict one line: the write-back of a dirty one is charged for its 512 bytes (LOG 65); while the budget does not admit it
the line is on its way out. -/
def evictLine (b : Bill) (s : State) (line : Nat) : State :=
  if s.l2dirty.get line = 1 ∧ inDevice (line * 512) then
    let cs := [(stackOf (line * 512), 512)]
    if (s.refusedStack true b.part b.sub cs).isSome then
      { s with evicting := s.evicting.filter (fun x => x.1 != line) ++ [(line, b)] }
    else (s.makeCharge true b.part b.sub b.owner cs).dropLine line
  else s.dropLine line

/-- The evictions on their way go on (R229): those whose write-backs the budget admits now. -/
def State.evictMore (s : State) : State := s.evicting.foldl (fun st x => evictLine x.2 st x.1) s

/-- `res.evict` (R229). -/
def execResEvict (f : FB) (s : State) : Out :=
  .next (s.issueRes (.resEvict f) f.b fun st e _ x =>
    let spans := st.tensorHome e.who x
    ((st.l2.map (·.1)).filter fun line => lineIn spans line && inDevice (line * 512)).foldl (evictLine e.bill) st)

/-- `cinv.line` of one thread (R230): only ADDRESS is checked. -/
def cinvLineOne (f : FMem) (s : State) (e : Env) (t : Thread) : State :=
  let i := Instr.cinvLine f
  let addr := memAddr e t f.a f.imm
  if !accessCanonical addr 1 then s.setThread e.key (t.raise e i (Trap.address addr))
  else
    let a := addr.toNat
    if decide (dadoVa ≤ a) && decide (a < dadoVa + dadoSpan) then
      (s.onCluster e.cl fun c => c.l1Drop (.home (dadoHome e.part + (a - dadoVa))) 1).setThread e.key (t.advance i)
    else
      match s.translate e.who a with
      | (.leaf l, s1) =>
        (s1.onCluster e.cl fun c => c.l1Drop ((s1.locOf (l.pa + (a - l.base))).getD (.peer 0)) 1).setThread e.key (t.advance i)
      | (.absent _, s1) => s1.setThread e.key (t.advance i)
      | (.wait, s1) => s1.setThread e.key (t.stall false)
def execCinvLine (f : FMem) (s : State) : Out := .next (s.issueEach (.cinvLine f) (cinvLineOne f))

/-- `cinv.all` (R230). -/
def execCinvAll (f : FG) (s : State) : Out :=
  .next (s.issueEach (.cinvAll f) fun st e t => (st.onCluster e.cl Cluster.dropL1).setThread e.key (t.advance (.cinvAll f)))

/-! ### The tensor identifier table (R221 to R224) -/

/-- Read the bytes of an access at their homes after forwarding (05 R108), for a thread that needs them now: own older
loads of them have returned, and the read budget admits the read. -/
def State.readFresh (s : State) (e : Env) (ps : List Piece0) : Gather × State :=
  let c := s.cluster e.cl
  let early := fun (p : Piece0) => match p.1 with
    | .home a => s.homeWaits a
    | .peer pa => c.sq.any (fun x => x.meets p.1 p.2.2) && !(s.peerReads.any fun r => r.client == .thread e.key && r.pa == pa)
    | _ => false
  if c.unread ps || ps.any early || s.waitsForLoad e.key ps then (.wait, s)
  else
    let r := s.readPieces e.part e.sub e.rcd.owner 3 ps
    if !r.1 then (.wait, r.2)
    else
    let s1 := ps.foldl (State.askPeer (.thread e.key) e.rcd.owner) r.2
    (gatherAll (ps.map fun p =>
      (match s1.readPiece (.thread e.key) p with
       | .bytes bs m => let r := c.forward p.1 bs m; .bytes r.1 r.2
       | g => g, p.2.1)), s1)

/-- The threads have read some pieces at their homes past their L1 (05 R107). -/
def State.sawPieces (s : State) (ks : List TKey) (ps : List Piece0) : State :=
  ks.foldl (fun st k => ps.foldl (fun st p => match p.1 with | .home a => st.sawHome k (a / 64) | _ => st) st) s

/-- A misaligned `tdesc` some page of which is present: ACCESS comes before the page that is not (06 R141 step 4). -/
def tdescOdd (a : Nat) (pages : List (Nat × Bool)) : Bool := a % 64 != 0 && decide (pages.length < (pageStarts a 64).length)

/-- Issue per crew, where a crew whose participants miss a page stalls whole, each participant at its own fault (R224, R233). -/
def State.issueCrewsPaged (rd : Reader) (s : State) (i : Instr)
    (missing : State → Env → Thread → List TKey → Option (Bool × List (Nat × Bool))) (act : State → CKey → List TKey → State) : State :=
  let r := s.runCrews.foldl (fun (r : List TKey × State) c =>
    let ps := s.participants i c
    let m := match ps with
      | [] => none
      | k :: _ => (match r.2.threads.find k with
        | some t => if s.uniform rd i ps then missing r.2 (r.2.env k) t ps else none
        | none => none)
    match m with
    | some m => (r.1, r.2.holdCrew (s.crewRun c) false (ps.map fun k => (k, m)))
    | none => (r.1 ++ s.crewRun c, r.2)) ([], s)
  { ({ r.2 with run := r.1 } : State).issueCrews rd i act with run := s.run }

/-- The pages that a `tdesc.load` or a `tdesc.store` misses, for participants that the log does not hold back. -/
def tdescMissing (a : Operand) (imm : BitVec 20) (strm : BitVec 2) (wr : Bool) (s : State) (e : Env) (t : Thread) (ks : List TKey) :
    Option (Bool × List (Nat × Bool)) :=
  let addr := memAddr e t a imm
  if ks.any fun k => s.logHolds k addr.toNat 64 wr strm then none
  else
    match (if wr then s.check e.who addr 64 true false else s.checkRead (.thread e.key) e.who addr 64 false).1 with
    | .absent pages => if tdescOdd addr.toNat pages then none else some (wr, pages)
    | _ => none

/-- `tdesc.load` for one crew (R224). -/
def tdescLoadCrew (f : FTdescLd) (s : State) (ks : List TKey) : State :=
  let i := Instr.tdescLoad f
  match ks with
  | [] => s
  | k :: _ =>
    match s.threads.find k with
    | none => s
    | some t =>
      let e := s.env k
      let addr := memAddr e t f.a f.imm
      let id := (src32 e t f.b).toNat % 1024
      if ks.any fun x => s.logMeets x addr.toNat 64 then s.stallAll ks false
      else
      match s.checkRead (.thread k) e.who addr 64 false with
      | (.fault tr, s1) => s1.raiseAll i ks tr
      | (.wait, s1) => s1.stallAll ks false
      | (.absent pages, s1) =>
        if tdescOdd addr.toNat pages then s1.raiseAll i ks (Trap.access addr.toNat) else s1.pageStall e ks false false pages
      | (.ok ps, s1) =>
        if addr % 64 ≠ 0 then s1.raiseAll i ks (Trap.access addr.toNat)
        else if ks.any fun x => s1.waitsForLoad x ps then s1.stallAll ks false
        else
          match s1.readFresh e ps with
          | (.wait, s2) => s2.stallAll ks ((s1.cluster e.cl).unread ps)
          | (.refused va, s2) => (s2.forget (.thread k)).raiseAll i ks (Trap.access va)
          | (.ready _ (some (_, va)), s2) => (s2.forget (.thread k)).raiseAll i ks (Trap.poison va)
          | (.ready bs none, s2) =>
            let s3 := (s2.forget (.thread k)).sawPieces ks ps
            let x : TEntry := BitVec.ofNat 512 (ofBytes bs)
            if !x.v || x.wellFormed then (s3.setTensor e.part e.ctx id x).advanceAll i ks
            else s3.raiseAll i ks (Trap.tensorId 4 id)
def execTdescLoad (f : FTdescLd) (s : State) : Out :=
  .next (s.issueCrewsPaged srcNat (.tdescLoad f) (tdescMissing f.a f.imm 0 false) fun st _ ks => tdescLoadCrew f st ks)

/-- `tdesc.store` for one crew (R224): two 32-byte stores. -/
def tdescStoreCrew (f : FTdescSt) (s : State) (ks : List TKey) : State :=
  let i := Instr.tdescStore f
  match ks with
  | [] => s
  | k :: _ =>
    match s.threads.find k with
    | none => s
    | some t =>
      let e := s.env k
      let addr := memAddr e t f.a f.imm
      let id := (src32 e t f.b).toNat % 1024
      if ks.any fun x => s.logHolds x addr.toNat 64 true f.strm then s.stallAll ks false
      else
      match s.check e.who addr 64 true false with
      | (.fault tr, s1) => s1.raiseAll i ks tr
      | (.wait, s1) => s1.stallAll ks false
      | (.absent pages, s1) =>
        if tdescOdd addr.toNat pages then s1.raiseAll i ks (Trap.access addr.toNat) else s1.pageStall e ks true false pages
      | (.ok ps, s1) =>
        if addr % 64 ≠ 0 then s1.raiseAll i ks (Trap.access addr.toNat)
        else
          match s1.admission e ps with
          | .budget st => ks.foldl (fun st' x => st'.onThread x fun e t => t.overBudget e i st) s1
          | .full => s1.stallAll ks true
          | .yes =>
            let s2 := s1.makeCharge true e.part e.sub e.rcd.owner (chargesOf (sectorsOf (ps.map (·.1)) (ps.map (·.2.2))))
            (s2.queueStore e t.pc ps (toBytes 64 (s2.tensor e.part e.ctx id).toNat) f.strm 3).advanceAll i ks
def execTdescStore (f : FTdescSt) (s : State) : Out :=
  .next (s.issueCrewsPaged srcNat (.tdescStore f) (tdescMissing f.a f.imm f.strm true) fun st _ ks => tdescStoreCrew f st ks)

/-- `tdesc.clear` (R224). -/
def execTdescClear (f : FB) (s : State) : Out :=
  .next (s.issueCrews srcNat (.tdescClear f) fun st _ ks =>
    match ks with
    | [] => st
    | k :: _ =>
      match st.threads.find k with
      | none => st
      | some t =>
        let e := st.env k
        let id := (src32 e t f.b).toNat % 1024
        let x := st.tensor e.part e.ctx id
        (st.setTensor e.part e.ctx id (BitVec.ofNat 512 (setFld x.toNat 511 1 0))).advanceAll (.tdescClear f) ks)

end Sys2Proof.Machine
end

