-- ==== Sys2Proof/Machine/Coded.lean ====
section
/-!
DEFINITION. The fixed-rate format (13_coded_arrays.md R270 to R281): parameters, the transform, bit allocation, encoding
and decoding a block, padding positions, and where an element lies.
-/

namespace Sys2Proof.Machine

/-- A source format: f64, else f32 (R272). -/
def codedFmt (f64 : Bool) : Fmt := if f64 then Fmt.f64 else Fmt.f32
/-- Header width H. -/
def headBits (f64 : Bool) : Nat := if f64 then 11 else 8
/-- Precision P. -/
def codedPrec (f64 : Bool) : Nat := if f64 then 53 else 24
def codedBias (f64 : Bool) : Int := if f64 then 1023 else 127
def leastExp (f64 : Bool) : Int := if f64 then -1021 else -125
def greatestExp (f64 : Bool) : Int := if f64 then 1023 else 127
/-- The header of a special block. -/
def specialHead (f64 : Bool) : Nat := 2 ^ headBits f64 - 1

/-- Bits per value (R270). -/
def codedRate (f64 : Bool) (rate : Nat) : Nat :=
  let r := match rate with | 0 => 4 | 1 => 8 | 2 => 12 | 3 => 16 | 4 => 24 | _ => 32
  if f64 then 2 * r else r

/-! ### The transform (R275) -/

/-- One line of four integers. -/
def fwdLine (a b c d : Int) : List Int :=
  let l0 := (a + b) / 2
  let l1 := (c + d) / 2
  [(l0 + l1) / 2, l0 - l1, a - b, c - d]

/-- One level inverted. -/
def invPair (l h : Int) : Int × Int :=
  let x := l + (h + 1) / 2
  (x, x - h)

/-- A full inverse of one line. -/
def invLine (L H h0 h1 : Int) : List Int :=
  let p := invPair L H
  let q := invPair p.1 h0
  let r := invPair p.2 h1
  [q.1, q.2, r.1, r.2]

/-- A line function applied to every line along axis `a`. -/
def alongAxis (f : Int → Int → Int → Int → List Int) (a : Nat) (v : List Int) : List Int :=
  (List.range v.length).map fun p =>
    let s := 4 ^ a
    let c := p / s % 4
    let b := p - c * s
    (f (v.getD b 0) (v.getD (b + s) 0) (v.getD (b + 2 * s) 0) (v.getD (b + 3 * s) 0)).getD c 0

/-- Axis 0, then 1, then 2. -/
def fwdAll (dim : Nat) (v : List Int) : List Int := (List.range dim).foldl (fun v a => alongAxis fwdLine a v) v
/-- Axis d − 1 first and axis 0 last. -/
def invAll (dim : Nat) (v : List Int) : List Int :=
  (List.range dim).reverse.foldl (fun v a => alongAxis invLine a v) v

/-! ### Allocation (R276 to R278) -/

/-- The level of a coordinate. -/
def coefLevel (c : Nat) : Nat := if c = 0 then 0 else if c = 1 then 1 else 2

/-- The class of the coefficient at an index. -/
def coefClass (dim p : Nat) : Nat := ((List.range dim).map fun a => coefLevel (p / 4 ^ a % 4)).foldl (· + ·) 0
/-- The width of the coefficient at an index. -/
def coefWidth (f64 : Bool) (dim p : Nat) : Nat :=
  codedPrec f64 + 1 + ((List.range dim).filter fun a => p / 4 ^ a % 4 != 0).length

/-- The class offsets. -/
def classOffset (f64 : Bool) (dim k : Nat) : Int :=
  let row : List Int :=
    match f64, dim with
    | false, 1 => [0, -2, -3]
    | false, 2 => [2, 1, 0, -1, -2]
    | false, _ => [3, 2, 1, 0, -1, -2, -3]
    | true, 1 => [-2, -3, -3]
    | true, 2 => [1, 0, 0, -1, -2]
    | true, _ => [3, 2, 1, 0, -1, -2, -3]
  row.getD k 0

/-- Bits kept of the coefficient at an index. -/
def coefKept (f64 : Bool) (dim rate p : Nat) : Nat :=
  min ((codedRate f64 rate : Int) + classOffset f64 dim (coefClass dim p)).toNat (coefWidth f64 dim p)

/-! ### Encoding (R274, R279) -/

/-- The bits of a block as one number: the header, then the fields. -/
def packBlock (f64 : Bool) (dim rate head : Nat) (coefs : List Int) : Nat :=
  (coefs.zipIdx.foldl (fun (acc : Nat × Nat) p =>
    let w := coefKept f64 dim rate p.2
    let s := coefWidth f64 dim p.2 - w
    (acc.1 + wrap (p.1 / ((2 ^ s : Nat) : Int)) w * 2 ^ acc.2, acc.2 + w)) (head, headBits f64)).1

/-- ⌊log2 |x|⌋ of a finite value that is not zero. -/
def FVal.exp2 : FVal → Option Int
  | .fin _ m e => if m = 0 then none else some ((bitLen m : Int) + e - 1)
  | _ => none

/-- The greatest exponent of some values. -/
def topExp (vs : List FVal) : Option Int :=
  (vs.filterMap FVal.exp2).foldl (fun r x => match r with | none => some x | some y => some (max x y)) none

/-- A value quantised on the block's exponent. -/
def quantise (f64 : Bool) (e : Int) (v : FVal) : Int :=
  let top : Int := ((2 ^ codedPrec f64 - 1 : Nat) : Int)
  match v with
  | .fin neg m x =>
    let k : Int := ((roundAt .rn neg m x (e - codedPrec f64) false : Nat) : Int)
    clampInt (if neg then -k else k) (-top) top
  | _ => 0

/-- Encode the values of every position: with a stored header, or with a fresh exponent. A block all of whose values are 0 is
written as an all-zero block (13 R274), but a forced re-encode of one that was decoded from an exponent and coefficients that are 0
keeps its bits (R285; LOG 73). -/
def encodeBlock (f64 : Bool) (dim rate : Nat) (vals : List Word64) (stored : Option Nat) : List Byte :=
  let n := codedBytes f64 dim rate
  let vs := vals.map fun v => fval (codedFmt f64) (v.toNat % 2 ^ (codedFmt f64).width)
  if vs.any fun v => (match v with | .fin .. => false | _ => true) then toBytes n (specialHead f64)
  else
    match topExp vs with
    | none => toBytes n (stored.getD 0)
    | some top =>
      let e : Int := match stored with
        | some h => (h : Int) - codedBias f64
        | none => min (max (top + 1) (leastExp f64)) (greatestExp f64)
      let q := vs.map (quantise f64 e)
      toBytes n (packBlock f64 dim rate (e + codedBias f64).toNat (fwdAll dim q))

/-! ### Decoding (R280) -/

/-- A decoded block: its header, values, CLAMP, SPECIAL and ZERO. -/
structure Decoded where
  head : Nat
  vals : List Word64
  clamp : Bool
  special : Bool
  zero : Bool
  deriving DecidableEq, Repr

/-- The reconstructed coefficients. -/
def unpackCoefs (f64 : Bool) (dim rate bits : Nat) : List Int :=
  ((List.range (4 ^ dim)).foldl (fun (acc : List Int × Nat) p =>
    let w := coefKept f64 dim rate p
    let s := coefWidth f64 dim p - w
    let t := sext (fld bits acc.2 w) w
    let c : Int := if s = 0 then t else t * ((2 ^ s : Nat) : Int) + ((2 ^ (s - 1) : Nat) : Int)
    (acc.1 ++ [c], acc.2 + w)) ([], headBits f64)).1

/-- Decode the bytes of a block; none for the reserved header 1 (R273). -/
def decodeBlock (f64 : Bool) (dim rate : Nat) (bytes : List Byte) : Option Decoded :=
  let bits := ofBytes bytes
  let h := fld bits 0 (headBits f64)
  let all := fun (v : Nat) => rep (4 ^ dim) (BitVec.ofNat 64 v)
  if h = 0 then some { head := 0, vals := all 0, clamp := false, special := false, zero := true }
  else if h = specialHead f64 then
    some { head := h, vals := all (codedFmt f64).nanBits, clamp := false, special := true, zero := false }
  else if h = 1 then none
  else
    let top : Int := ((2 ^ codedPrec f64 - 1 : Nat) : Int)
    let e : Int := (h : Int) - codedBias f64 - codedPrec f64
    let v := invAll dim (unpackCoefs f64 dim rate bits)
    some { head := h, clamp := v.any fun x => decide (top < x) || decide (x < -top), special := false, zero := false
           vals := v.map fun x =>
             let y := clampInt x (-top) top
             BitVec.ofNat 64 (roundBits (codedFmt f64) .rn false (decide (y < 0)) y.natAbs e false) }

/-! ### Padding (R281) and addressing (R271) -/

/-- Block coordinates of a block index. -/
def blockCoords (ext : List Nat) (index : Nat) : List Nat :=
  let g := fun k => ceilDiv (ext.getD k 1) 4
  [index % max 1 (g 0), index / max 1 (g 0) % max 1 (g 1), index / (max 1 (g 0) * max 1 (g 1))]

/-- The position that holds the value of a position: a padding position takes the nearest element's. -/
def padFrom (ext : List Nat) (dim index p : Nat) : Nat :=
  let bs := blockCoords ext index
  ((List.range dim).map fun k =>
    min (p / 4 ^ k % 4) (ext.getD k 1 - 1 - 4 * bs.getD k 0) * 4 ^ k).foldl (· + ·) 0

/-- The values with the padding positions set from the elements. -/
def padVals (ext : List Nat) (dim index : Nat) (vals : List Word64) : List Word64 :=
  (List.range vals.length).map fun p => vals.getD (padFrom ext dim index p) 0

/-- The block index of an element. -/
def TEntry.blockIndex (x : TEntry) (is : List Nat) : Nat :=
  let b := fun k => is.getD k 0 / 4
  b 0 + x.grid 0 * (b 1 + x.grid 1 * b 2)

/-- The position of an element in its block. -/
def TEntry.position (x : TEntry) (is : List Nat) : Nat :=
  ((List.range x.rank).map fun k => is.getD k 0 % 4 * 4 ^ k).foldl (· + ·) 0

/-- Bytes of the tensor's blocks. -/
def TEntry.blockBytes (x : TEntry) : Nat := codedBytes (x.etype == 0xB) x.rank x.rate

/-- The block address of an element, exact. -/
def TEntry.blockAddr (x : TEntry) (is : List Nat) : Nat := x.base.toNat + x.blockIndex is * x.blockBytes

end Sys2Proof.Machine
end

