-- ==== Sys2Proof/Machine/Trowel.lean ====
section
/-!
DEFINITION. The Trowel (14_trowel_engine.md R287 to R303): the block store, fetches, patches and merges, `ldt` and `stt`
(09 R225; 14 R294), `bdec`, `bflush` and `bstat`.
-/

namespace Sys2Proof.Machine

/-! ### The block store (R287, R289) -/

/-- The tag names the same block. -/
def BsBlock.same (a b : BsBlock) : Bool := a.part == b.part && a.ctx == b.ctx && a.tid == b.tid && a.va == b.va

/-- Bytes of the decoded block. -/
def BsBlock.size (b : BsBlock) : Nat := 4 ^ b.dim * (if b.f64 then 8 else 4)
/-- Bytes of the coded block. -/
def BsBlock.coded (b : BsBlock) : Nat := codedBytes b.f64 b.dim b.rate

/-- The resident block of a tag. -/
def Cluster.block (c : Cluster) (tag : BsBlock) : Option BsBlock := c.store.find? fun b => b.same tag
/-- Without the block of a tag. -/
def Cluster.dropBlock (c : Cluster) (tag : BsBlock) : Cluster := { c with store := c.store.filter fun b => !b.same tag }
/-- With a block in the place of the one of its tag. -/
def Cluster.putBlock (c : Cluster) (b : BsBlock) : Cluster := { c.dropBlock b with store := b :: (c.dropBlock b).store }

/-- There is room for `n` more blocks of some bytes in all: 2,048 tags and 256 KiB. -/
def Cluster.storeRoom (c : Cluster) (n need : Nat) : Bool :=
  decide (c.store.length + n ≤ 2048) && decide ((c.store.map BsBlock.size).foldl (· + ·) 0 + need ≤ 262144)

/-- A dirty block that was saved comes back: alone, or its written values into the resident block of its tag, whose own written
values are later (R303). -/
def Cluster.mergeBlock (c : Cluster) (b : BsBlock) : Cluster :=
  match c.block b with
  | none => { c with store := b :: c.store }
  | some r => c.putBlock { r with
      vals := r.vals.zipIdx.map fun p => if b.dirty.getLsbD p.2 && !r.dirty.getLsbD p.2 then b.vals.getD p.2 0 else p.1
      dirty := r.dirty ||| b.dirty }

/-- The block to evict: least recently used, those of low priority first. -/
def Cluster.victim (c : Cluster) : Option BsBlock :=
  (sortBy (fun (a b : BsBlock) => (a.low && !b.low) || (a.low == b.low && decide (a.lru < b.lru))) c.store).head?

/-! ### Patches (R290, R291) -/

/-- Why a patch cannot enter the store queue now. -/
inductive Unsent where
  | fault (tr : Trap)
  | absent (pages : List (Nat × Bool))
  | budget (stack : Nat)
  | full
  | wait
  deriving DecidableEq, Repr

/-- The patch of a block, at its pieces. -/
def BsBlock.patch (b : BsBlock) (forced : Bool) (ps : List (Loc × Nat)) : Patch :=
  { part := b.part, ctx := b.ctx, tid := b.tid, index := b.index, va := b.va, pieces := ps, f64 := b.f64,
    dim := b.dim, rate := b.rate, ext := b.ext, mask := b.dirty, vals := b.vals,
    forced := if forced then some (b.hdr, b.clamp) else none }

/-- A piece lies outside this device's memory. -/
def anyOutside (ps : List Piece0) : Bool := ps.any fun p => p.1.outside

/-- The patch of a block enters a cluster's store queue: the whole patch is one charge (R290, R291). -/
def State.enterPatch (s : State) (cl : Nat) (b : BsBlock) (forced : Bool) : Except Unsent State :=
  match s.check (engineWho b.part b.sub b.ctx cl) (b.va : Int) b.coded true false with
  | (.fault tr, _) => .error (.fault tr)
  | (.absent pages, _) => .error (.absent pages)
  | (.wait, _) => .error .wait
  | (.ok ps, s1) =>
    if anyOutside ps then .error (.fault (Trap.access b.va))
    else
      let cs := chargesOf (sectorsOf (ps.map (·.1)) (ps.map (·.2.2)))
      let x : SqEntry :=
        { id := 0, key := { launch := 0, wid := 0 }, who := none, bill := { part := b.part, sub := b.sub, owner := b.owner, ctx := b.ctx },
          counted := false, copy := none, strm := none, prio := b.res,
          loc := (ps.map (·.1)).headD (.home 0), va := b.va, n := b.coded, port := none, tag := none,
          op := .patch (b.patch forced (ps.map fun p => (p.1, p.2.2))) }
      match s1.refusedStack true b.part b.sub cs with
      | some st => .error (.budget st)
      | none =>
        if (s1.cluster cl).sqRoom x.slots then .ok ((s1.makeCharge true b.part b.sub b.owner cs).enqueue cl x)
        else .error .full

/-- Send the patch of a resident block, which leaves the store. -/
def State.sendPatch (s : State) (cl : Nat) (b : BsBlock) (forced : Bool) : Except Unsent State :=
  (s.enterPatch cl b forced).map fun s1 => s1.onCluster cl fun c => c.dropBlock b

/-- Send the patches of some blocks in turn, until one cannot be sent. -/
def State.sendAll (cl : Nat) : List BsBlock → State → Option Unsent × State
  | [], s => (none, s)
  | b :: rest, s =>
    match s.sendPatch cl b false with
    | .error u => (some u, s)
    | .ok s1 => State.sendAll cl rest s1

/-- Send the patches of those of some blocks that can be sent: why the others cannot, and the state. -/
def State.sendEach (cl : Nat) : List BsBlock → State → List Unsent × State
  | [], s => ([], s)
  | b :: rest, s =>
    match s.sendPatch cl b false with
    | .error u => let r := State.sendEach cl rest s; (u :: r.1, r.2)
    | .ok s1 => State.sendEach cl rest s1

/-- The dirty blocks of a cluster that meet a test. -/
def Cluster.dirtyBlocks (c : Cluster) (p : BsBlock → Bool) : List BsBlock := c.store.filter fun b => b.dirty != 0 && p b
/-- Drop the clean blocks that meet a test. -/
def Cluster.dropClean (c : Cluster) (p : BsBlock → Bool) : Cluster :=
  { c with store := c.store.filter fun b => b.dirty != 0 || !p b }

/-- The patch names a block of a tag. -/
def Patch.ofTag (p : Patch) (tag : BsBlock) : Bool :=
  p.part == tag.part && p.ctx == tag.ctx && p.tid == tag.tid && p.va == tag.va

/-- The entries of a store queue, numbered from `since` on, that are patches meeting a test. -/
def Cluster.patchIds (c : Cluster) (since : Nat) (p : Patch → Bool) : List Nat :=
  (c.sq.filter fun x => decide (since ≤ x.id) && (match x.op with | .patch q => p q | _ => false)).map (·.id)

/-- There is room for a block, in the place of the resident one of its tag if there is one. -/
def Cluster.roomFor (c : Cluster) (b : BsBlock) : Bool :=
  match c.block b with
  | some r => c.storeRoom 0 (b.size - r.size)
  | none => c.storeRoom 1 b.size

/-- Make room for a block, evicting at most `fuel` blocks: whether there is room, whether the write budget holds a victim's
patch back, and the state (R289). A victim whose patch fails its own check, or whose page is not present, stays dirty, and what
needs the room waits (LOG 67). -/
def State.makeRoom (cl : Nat) (b : BsBlock) : Nat → State → Bool × Bool × State
  | 0, s => (false, false, s)
  | fuel + 1, s =>
    let c := s.cluster cl
    if c.roomFor b then (true, false, s)
    else
      match c.victim with
      | none => (false, false, s)
      | some v =>
        if v.dirty = 0 then State.makeRoom cl b fuel (s.setCluster cl (c.dropBlock v))
        else
          match s.sendPatch cl v false with
          | .ok s1 => State.makeRoom cl b fuel s1
          | .error u => (false, (match u with | .budget _ => true | _ => false), s)

/-! ### Fetches (R288) -/

/-- A thread that waits for a fetch, as it stands to it now; one that no longer counts as stalled has left the blocked state
(02 R42). -/
def Thread.atFetch (t : Thread) (id : Nat) (st : BlockWait) (counts : Bool) : Thread :=
  match t.wait.kind with
  | .block x _ =>
    if x = id then
      { t with wait := { kind := .block id st, counts := counts }, blockCtr := if t.wait.counts && !counts then 0 else t.blockCtr }
    else t
  | _ => t

/-- Whether the threads that wait for a fetch count as stalled on the write lane: while its victim's patch is held back by the
write budget (R289). -/
def State.countWaiters (s : State) (cl : Nat) (x : BsFetch) (counts : Bool) : State :=
  x.waiters.foldl (fun st w => st.onThread w.key fun _ t => t.atFetch x.id .out counts)
    (s.onCluster cl fun c => { c with fetches := c.fetches.map fun y => if y.id = x.id then { y with held := counts } else y })

/-- The threads that wait for a fetch may use what it brought; where it is to be decoded again, those that only waited for it
look again (R294, R303). -/
def State.wakeWaiters (s : State) (x : BsFetch) : State :=
  x.waiters.foldl (fun st w => st.onThread w.key fun _ t =>
    t.atFetch x.id (if w.joins || !x.stale then .here else .retry) false) s

/-- A failed fetch at a thread that waits for it (R288): POISON or CODEC at its instruction; a consumer of a UE mark is
killed (21 R393), once its earlier accesses are complete. A thread that only waited for it looks again (R296). -/
def Thread.fetchFailed (e : Env) (t : Thread) (id : Nat) (w : BsWaiter) (ls : List UsedLeaf) (mark : BitVec 2) (tr : Trap) : Thread :=
  if t.wait.kind != .block id .out then t
  else if !w.joins then t.atFetch id .retry false
  else if w.consumer && mark == 1 then
    (if e.drain then t.atFetch id .retry false
     else t.consumeUe e tr.value.toNat (leafAt ls tr.value.toNat)
       { tpc := t.pc, ipc := t.pc, defer := false, chain := false, resume := 0 })
  else t.raiseHere e tr

/-- A fetch leaves. -/
def State.dropFetch (s : State) (cl id : Nat) : State :=
  s.onCluster cl fun c => { c with fetches := c.fetches.filter fun x => x.id != id }

/-- A fetch fails: no block becomes resident, and the threads that wait for it meet the fault. -/
def State.failFetch (s : State) (cl : Nat) (x : BsFetch) (mark : BitVec 2) (tr : Trap) : State :=
  (x.waiters.foldl (fun st w => st.onThread w.key fun e t => t.fetchFailed e x.id w x.leaves mark tr) (s.dropFetch cl x.id)).reap

/-- The values of a fetched block with the dirty values of the resident one over them. -/
def overlayDirty (fetched : List Word64) (old : BsBlock) : List Word64 :=
  fetched.zipIdx.map fun p => if old.dirty.getLsbD p.2 then old.vals.getD p.2 0 else p.1

/-- The tag through which a fetch is decoded: a resident dirty block keeps the shape, format, RATE and extents it was decoded with,
which its patch carries (R303; 01 R17). -/
def Cluster.fetchTag (c : Cluster) (tag : BsBlock) : BsBlock :=
  match c.block tag with
  | some r =>
    if r.dirty != 0 then
      { tag with index := r.index, f64 := r.f64, dim := r.dim, rate := r.rate, ext := r.ext, res := r.res }
    else tag
  | none => tag

/-- A fetched block becomes resident (R288, R294, R303). -/
def State.arrive (s : State) (cl : Nat) (x : BsFetch) (d : Decoded) : State :=
  let c := s.cluster cl
  let b : BsBlock :=
    { c.fetchTag x.tag with hdr := d.head, vals := d.vals, clamp := d.clamp, special := d.special, zero := d.zero,
                            dirty := 0, refresh := x.stale, lru := s.serial }
  let b1 : BsBlock := match c.block x.tag with
    | some old => { b with vals := overlayDirty d.vals old, dirty := old.dirty, low := old.low }
    | none => b
  (((s.setCluster cl (c.putBlock b1)).dropFetch cl x.id).wakeWaiters x).bump

/-- The pieces of a fetch: those its checks found at its issue, which stand (06 R138); else, where they were not made or the block
is decoded through another tag, what they find now. -/
def State.fetchPieces (s : State) (cl : Nat) (x : BsFetch) (b : BsBlock) : Acc × State :=
  match x.pieces with
  | some ps => if b.coded = x.tag.coded then (.ok ps, s) else s.check (engineWho b.part b.sub b.ctx cl) (b.va : Int) b.coded false false
  | none => s.check (engineWho b.part b.sub b.ctx cl) (b.va : Int) b.coded false false

/-- BLOCK_FETCH (R288): the block's bytes are read at their homes as one item and decoded; the fetch waits for queued
patches of the block, for room, and for its stack. -/
def execBlockFetch (cl id : Nat) (s : State) : Out :=
  .next (match (s.cluster cl).fetches.find? fun x => x.id == id with
    | none => s
    | some x =>
      let b := (s.cluster cl).fetchTag x.tag
      match s.fetchPieces cl x b with
      | (.wait, s1) => s1
      | (.fault _, s1) => s1.dropFetch cl id
      | (.absent _, s1) => s1.dropFetch cl id
      | (.ok ps, s1) =>
        let c := s1.cluster cl
        if anyOutside ps then s1.dropFetch cl id
        else if ps.any (fun p => c.sq.any fun y => (match y.op with | .patch _ => y.meets p.1 p.2.2 | _ => false))
            || ps.any (fun p => (match p.1 with | .home a => s1.homeWaits a | _ => false)) then s1
        else
          let r := s1.makeRoom cl b 64
          let s3 := r.2.2.countWaiters cl x r.2.1
          if !r.1 then s3
          else
            let q := s3.readPieces b.part b.sub b.owner b.res ps
            let s2 := q.2
            if !q.1 then s2
            else
              match gatherAll (ps.map fun p => (s2.readPiece (.fetch cl id) p, p.2.1)) with
              | .ready _ (some (m, va)) =>
                s2.failFetch cl (if x.pieces.isSome then x
                  else { x with leaves := s2.leavesFor (engineWho b.part b.sub b.ctx cl) ps }) m (Trap.poison va)
              | .ready bytes none =>
                match decodeBlock b.f64 b.dim b.rate bytes with
                | some d => s2.arrive cl x d
                | none => s2.failFetch cl x 0 (Trap.codec 1 b.va)
              | _ => s2)

/-! ### Merges (R292, R293) -/

/-- Record a merge failure, the first of its context on its cluster. -/
def State.mergeFailed (s : State) (cl : Nat) (p : Patch) (sub : Nat) : State :=
  let c := s.cluster cl
  match c.mergeErr.find (p.part, p.ctx) with
  | some _ => s
  | none => s.setCluster cl { c with mergeErr := c.mergeErr.set (p.part, p.ctx) { sub := sub, tid := p.tid, va := p.va } }

/-- The bytes a merge writes. -/
def Patch.merged (p : Patch) (d : Decoded) : List Byte :=
  match p.forced with
  | some (h, clamp) => encodeBlock p.f64 p.dim p.rate p.vals (if clamp then none else some h)
  | none =>
    let v := d.vals.zipIdx.map fun x => if p.mask.getLsbD x.2 then p.vals.getD x.2 0 else x.1
    encodeBlock p.f64 p.dim p.rate (padVals p.ext p.dim p.index v) none

/-- Write bytes over pieces at their places. -/
def State.writePieces (s : State) (ps : List (Loc × Nat)) (bytes : List Byte) (prio : Nat) : State :=
  (ps.foldl (fun (acc : State × List Byte) p =>
    let s1 := acc.1.writeAt p.1 (acc.2.take p.2) 0 prio
    ((match p.1 with | .home a => s1.testWaiters a p.2 | _ => s1), acc.2.drop p.2)) (s, bytes)).1

/-- MERGE (R292): a patch at the head of its order is applied by the merge unit as one item. -/
def execMerge (cl id : Nat) (s : State) : Out :=
  .next (match (s.cluster cl).sq.find? fun x => x.id == id with
    | none => s
    | some x =>
      match x.op with
      | .patch p =>
        if !mayLeave x (s.cluster cl).sq
            || p.pieces.any (fun q => (match q.1 with | .home a => s.homeWaits a | _ => false)) then s
        else
          let r := s.readPieces x.bill.part x.bill.sub x.bill.owner x.prio (p.pieces.map fun q => (q.1, 0, q.2))
          if !r.1 then r.2
          else
          let s := r.2
          let old := p.pieces.map fun q => s.readLoc q.1 q.2
          let done := s.acknowledge cl x
          if old.any fun r => r.2 != 0 then done.mergeFailed cl p 3
          else
            match decodeBlock p.f64 p.dim p.rate (old.flatMap (·.1)) with
            | none => done.mergeFailed cl p 2
            | some d => (done.writePieces p.pieces (p.merged d) x.prio).reap
      | _ => s)

/-! ### Naming an element (09 R225; 14 R294, R295) -/

/-- The NC coordinates that A holds. -/
def coords (e : Env) (t : Thread) (a : Operand) (nc : BitVec 2) : List Nat :=
  let v := srcNat e t { o := a, w := ncSrc nc }
  (List.range (nc.toNat + 1)).map fun k => fld v (32 * k) 32

/-- TENSOR_ID with SUB 1 or 3: the entry is not valid, or the access does not fit it. -/
def tensorFault (x : TEntry) (id nc : Nat) (fits : Bool) : Option Trap :=
  if !x.v then some (Trap.tensorId 1 id)
  else if nc ≠ x.rank ∨ !fits then some (Trap.tensorId 3 id)
  else none

/-- Some coordinate is out of range. -/
def TEntry.outside (x : TEntry) (is : List Nat) : Bool :=
  (List.range x.rank).any fun k => decide (x.ext k ≤ is.getD k 0)

/-- The entry is a coded tensor of an accepted feature (22 R407; LOG 17). -/
def codedOk (e : Env) (x : TEntry) : Bool := x.fmt == 1 && e.has 2

/-- An access of a type fits an entry (R225; R294). -/
def accessFits (e : Env) (x : TEntry) (ty : MemTy) (ro : Bool) : Bool :=
  if x.fmt = 1 then e.has 2 && !ro && (if x.etype == 0xB then ty == .b64 else ty == .b32)
  else x.etype != 0xE && ty.bytes == x.esize

/-- The address of an element of a plain tensor, exact (R225). -/
def TEntry.elemAddr (x : TEntry) (is : List Nat) : Int :=
  (x.base.toNat : Int)
    + ((List.range x.rank).map fun k => (is.getD k 0 : Int) * x.stride k).foldl (· + ·) 0 * (x.esize : Int)

/-- The tag of the block that holds an element. -/
def blockTag (e : Env) (x : TEntry) (id : Nat) (is : List Nat) : BsBlock :=
  { part := e.part, sub := e.sub, owner := e.rcd.owner, ctx := e.ctx, tid := id, index := x.blockIndex is,
    va := x.blockAddr is, f64 := x.etype == 0xB, dim := x.rank, rate := x.rate, ext := x.exts, res := x.res, hdr := 0, vals := [],
    dirty := 0, clamp := false, special := false, zero := false, refresh := false, low := false, lru := 0 }

/-! ### Using a block (R294) -/

/-- What an instruction wants of a block: to have it decoded anew, to be a consumer of its marks, and the position it accesses;
none for one that needs the block as a whole. -/
structure BlockUse where
  fresh : Bool
  consumer : Bool
  pos : Option Nat
  deriving DecidableEq, Repr

/-- The fetch that the thread waited for has arrived for it. -/
def Thread.blockHere (t : Thread) : Bool := match t.wait.kind with | .block _ .here => true | _ => false

/-- An access to a position waits for a fetch on its way although the block can be used: for one that a `bdec` asked for (R296),
and behind an earlier access to that position, which waits for it (R294). -/
def BsFetch.holds (x : BsFetch) (pos : Option Nat) : Bool :=
  match pos with
  | some p => x.ahead || x.waiters.any fun w => w.pos == some p
  | none => false

/-- The resident block of a tag that need not be decoded again. -/
def Cluster.standing (c : Cluster) (tag : BsBlock) (fresh : Bool) : Option BsBlock :=
  match c.block tag with
  | some b => if !b.refresh && !fresh then some b else none
  | none => none

/-- The resident block that a thread may use as it stands: the thread waited for the fetch that brought it; or it is not to be
decoded again, and no fetch holds the thread (R294, R296, R298). -/
def Cluster.usable (c : Cluster) (t : Thread) (tag : BsBlock) (u : BlockUse) : Option BsBlock :=
  if t.blockHere then c.block tag
  else
    match c.standing tag u.fresh with
    | some b => if c.fetches.any fun x => x.tag.same tag && x.holds u.pos then none else some b
    | none => none

/-- Wait for the fetch of a block, which starts with the pieces of its checks unless one is on its way. An instruction that could
use the resident block, or that issues after an acquire has made the fetch stale, only waits for it. -/
def State.joinFetch (s : State) (e : Env) (t : Thread) (tag : BsBlock) (u : BlockUse) (ps : List Piece0) : State :=
  let c := s.cluster e.cl
  let wait := fun (id : Nat) (counts : Bool) => { t.stall false with wait := { kind := .block id .out, counts := counts } }
  let w := fun (joins : Bool) => ({ key := e.key, consumer := u.consumer, joins := joins, pos := u.pos } : BsWaiter)
  match c.fetches.find? fun x => x.tag.same tag with
  | some y =>
    let join := fun (x : BsFetch) =>
      if x.id = y.id && !(x.waiters.any fun w => w.key == e.key) then
        { x with waiters := x.waiters ++ [w ((c.standing tag u.fresh).isNone && !x.stale)] }
      else x
    (s.setCluster e.cl { c with fetches := c.fetches.map join }).setThread e.key (wait y.id y.held)
  | none =>
    ((s.setCluster e.cl { c with fetches := c.fetches ++
        [{ id := s.serial, tag := tag, pieces := some ps, leaves := s.leavesFor e.who ps, waiters := [w true], stale := false, ahead := false,
           held := false }] }).bump).setThread e.key (wait s.serial false)

/-- Start the fetch of a block for a thread, or meet the faults of its checks (R288). -/
def State.wantBlock (s : State) (i : Instr) (e : Env) (t : Thread) (tag : BsBlock) (u : BlockUse) : State :=
  if (s.cluster e.cl).fetches.any fun x => x.tag.same tag then s.joinFetch e t tag u []
  else
    match s.check e.who (tag.va : Int) tag.coded false false with
    | (.fault tr, s1) => s1.setThread e.key (t.raise e i tr)
    | (.absent pages, s1) => s1.pageStall e [e.key] false false pages
    | (.wait, s1) => s1.setThread e.key (t.stall false)
    | (.ok ps, s1) =>
      if anyOutside ps then s1.setThread e.key (t.raise e i (Trap.access tag.va))
      else s1.joinFetch e t tag u ps

/-- Use a block, fetching it first when needed. -/
def State.withBlock (s : State) (i : Instr) (e : Env) (t : Thread) (tag : BsBlock) (u : BlockUse)
    (use : State → BsBlock → State) : State :=
  match (s.cluster e.cl).usable t tag u with
  | some b => use s b
  | none => s.wantBlock i e t tag u

/-- The pages that the fetch of a block misses, where one is to be started. -/
def State.blockMissing (s : State) (e : Env) (t : Thread) (tag : BsBlock) (u : BlockUse) : Option (Bool × List (Nat × Bool)) :=
  let c := s.cluster e.cl
  if (c.usable t tag u).isSome || c.fetches.any (fun x => x.tag.same tag) then none
  else (s.check e.who (tag.va : Int) tag.coded false false).1.missing false

/-- A logged access of the thread touches the coded block, so that what needs its fetch does not issue (06 R143). -/
def State.blockHeld (s : State) (e : Env) (tag : BsBlock) : Bool := s.logMeets e.key tag.va tag.coded

/-- What `ldt` wants of a block. -/
def ldtUse (f : FLdt) (x : TEntry) (is : List Nat) : BlockUse :=
  { fresh := f.hint == .fresh, consumer := true, pos := some (x.position is) }
/-- What `stt` wants of a block. -/
def sttUse (x : TEntry) (is : List Nat) : BlockUse := { fresh := false, consumer := false, pos := some (x.position is) }
/-- What an instruction that needs a block as a whole wants of it. -/
def wholeUse : BlockUse := { fresh := false, consumer := false, pos := none }

/-- The block after an `ldt` or an `stt` touched it. Only they, and its arrival, count as uses of it where the least recently
used block is evicted: R289 does not say what else does (LOG 78). -/
def BsBlock.touched (b : BsBlock) (now : Nat) (low : Bool) : BsBlock := { b with lru := now, low := low }

/-- The value of a block at a position. A resident block keeps the shape it was decoded with, and an entry changed since may name
a position that it has not: what a load gives there is open (R303; LOG 79). -/
def BsBlock.valueAt (b : BsBlock) (s : State) (p : Nat) : Nat :=
  match b.vals[p]? with
  | some v => v.toNat
  | none => ofBytes ((List.range 8).map fun k => Config.freeByte (s.free + k))

/-- `ldt` of one thread on a coded tensor (R294). -/
def ldtCoded (f : FLdt) (s : State) (e : Env) (t : Thread) (x : TEntry) (id : Nat) (is : List Nat) : State :=
  let i := Instr.ldt f
  let tag := blockTag e x id is
  s.withBlock i e t tag (ldtUse f x is) fun st b =>
    let p := x.position is
    let st1 := { st with free := if p < b.vals.length then st.free else st.free + 8 }
    ((st1.onCluster e.cl fun c => c.putBlock (b.touched st.serial (f.hint == .st))).bump).setThread e.key
      ((if f.w then t else t.setRegs e f.d.toNat f.ty.regs (b.valueAt st p)).advance i)

/-- The write permission of a block's page, for `stt` (R294). -/
def State.blockWritable (s : State) (e : Env) (va : Nat) : Acc × State :=
  if dadoVa ≤ va ∧ va < dadoVa + dadoSpan then (.ok [], s)
  else
    match s.translate e.who va with
    | (.leaf l, s1) => ((if l.wr then .ok [] else .fault (Trap.access va)), s1)
    | (.absent illf, s1) => (.absent [(va, illf)], s1)
    | (.wait, s1) => (.wait, s1)

/-- `stt` of one thread on a coded tensor (R294): the bits of D at the position, dirty. Where the block must be fetched,
OWNERSHIP comes before the page's write permission (R288). A position that the resident block has not is left (LOG 79). -/
def sttCoded (f : FStt) (s : State) (e : Env) (t : Thread) (x : TEntry) (id : Nat) (is : List Nat) : State :=
  let i := Instr.stt f
  let tag := blockTag e x id is
  if !accessCanonical (tag.va : Int) tag.coded then s.setThread e.key (t.raise e i (Trap.address tag.va))
  else if ((s.cluster e.cl).usable t tag (sttUse x is)).isNone && s.hostOwned e.part e.ctx tag.va tag.coded then
    s.setThread e.key (t.raise e i (Trap.ownership tag.va))
  else
    match s.blockWritable e tag.va with
    | (.fault tr, s1) => s1.setThread e.key (t.raise e i tr)
    | (.absent pages, s1) => s1.pageStall e [e.key] true false pages
    | (.wait, s1) => s1.setThread e.key (t.stall false)
    | (.ok _, s1) =>
      s1.withBlock i e t tag (sttUse x is) fun st b =>
        let p := x.position is
        let v : Word64 := BitVec.ofNat 64 (t.regsAt e f.d.toNat f.ty.regs)
        let b1 : BsBlock :=
          { b.touched st.serial (f.hint == .st) with
              vals := b.vals.set p v, dirty := if p < b.vals.length then b.dirty ||| ((1 : Word64) <<< p) else b.dirty }
        ((st.onCluster e.cl fun c => c.putBlock b1).bump).setThread e.key (t.advance i)

/-! ### `ldt` and `stt` (R225) -/

/-- What an access to a tensor element does for one thread. -/
inductive ElemDo where
  | fault (tr : Trap)
  | done (t : Thread)
  | plain (r : MemReq)
  | coded (x : TEntry) (id : Nat) (is : List Nat)
  deriving DecidableEq, Repr

/-- The entry that an instruction of a thread names: what it read when it issued, while it waits (01 R17). An `ldt` or `stt` of a plain
tensor that stalls on the write budget, the store queue or a queued atomic or patch has not issued: it reads the entry as it is when
it executes again, one of the two that 09 R224 allows (LOG 27). -/
def State.entryFor (s : State) (e : Env) (t : Thread) (id : Nat) : TEntry :=
  match t.wait.kind, t.kept with
  | .none, _ => s.tensor e.part e.ctx id
  | _, some x => x
  | _, none => s.tensor e.part e.ctx id

/-- A thread that waits keeps the entry it read (01 R17). -/
def State.keepEntry (s : State) (k : TKey) (x : TEntry) : State :=
  s.onThread k fun _ t => if t.wait.kind = .none then t else { t with kept := some x }

/-- The plan of `ldt`. -/
def planLdt (f : FLdt) (s : State) (e : Env) (t : Thread) : ElemDo :=
  let id := (src32 e t f.b).toNat % 1024
  let x := s.entryFor e t id
  let is := coords e t f.a f.nc
  match tensorFault x id (f.nc.toNat + 1) (accessFits e x f.ty (f.hint == .ro)) with
  | some tr => .fault tr
  | none =>
    if x.outside is then
      if f.clip then .done (if f.w then t else t.setRegs e f.d.toNat f.ty.regs 0) else .fault (Trap.tensorId 2 id)
    else if x.fmt = 1 then .coded x id is
    else .plain { kind := .load f.hint, ty := f.ty, addr := x.elemAddr is, data := 0, cmp := 0, dst := t.dstOf e f.w f.d,
                  strm := 0, prio := if f.hint == .st then 0 else x.res }

/-- The plan of `stt`. -/
def planStt (f : FStt) (s : State) (e : Env) (t : Thread) : ElemDo :=
  let id := (src32 e t f.b).toNat % 1024
  let x := s.entryFor e t id
  let is := coords e t f.a f.nc
  match tensorFault x id (f.nc.toNat + 1) (accessFits e x f.ty false) with
  | some tr => .fault tr
  | none =>
    if x.outside is then (if f.clip then .done t else .fault (Trap.tensorId 2 id))
    else if x.fmt = 1 then .coded x id is
    else .plain { kind := .store, ty := f.ty, addr := x.elemAddr is, data := t.regsAt e f.d.toNat f.ty.regs, cmp := 0,
                  dst := none, strm := f.strm, prio := if f.hint == .st then 0 else x.res }

/-- Issue once for each crew of the run (02 R46): a crew that must hold does not issue for any thread; else as `issueCrews`. -/
def State.issueCrewsHeld (rd : Reader) (s : State) (i : Instr)
    (hold : State → List TKey → List TKey → Option State) (act : State → CKey → List TKey → State) : State :=
  (s.runCrews.foldl (fun st c =>
    let all := s.crewRun c
    let ps := s.participants i c
    match (if st.uniform rd i ps then hold st all ps else none) with
    | some st1 => st1
    | none =>
      let st1 := (all.filter fun k => !ps.contains k).foldl (State.issueOne i fun st _ _ => st) st
      if ps.isEmpty then st1
      else if st1.uniform rd i ps then st.unlessFull c all (act st1 c ps)
      else st1.raiseAll i ps (Trap.uniform (st1.rankMask ps))) s).reap

/-- Hold a crew some of whose participants miss pages without a log entry (R288). Its participants keep the entry of the tensor
that `b` names as they read it (01 R17). -/
def State.holdMissing (b : Operand) (missing : State → Env → Thread → Option (Bool × List (Nat × Bool))) (s : State)
    (all ps : List TKey) : Option State :=
  let ms := ps.filterMap fun k =>
    match s.threads.find k with
    | some t => (missing s (s.env k) t).map fun m => (k, m)
    | none => none
  let keep := fun (st : State) (k : TKey) =>
    match s.threads.find k with
    | some t => let e := s.env k; st.keepEntry k (s.entryFor e t ((src32 e t b).toNat % 1024))
    | none => st
  if ms.isEmpty then none else some (ps.foldl keep (s.holdCrew all false ms))

/-- The pages that an access to a coded element misses: of its fetch, or for `stt` of its own page. -/
def elemMissing (wr : Bool) (use : TEntry → List Nat → BlockUse) (plan : State → Env → Thread → ElemDo) (s : State) (e : Env) (t : Thread) :
    Option (Bool × List (Nat × Bool)) :=
  match plan s e t with
  | .coded x id is =>
    let tag := blockTag e x id is
    if s.blockHeld e tag || !accessCanonical (tag.va : Int) tag.coded
        || (wr && ((s.cluster e.cl).usable t tag (use x is)).isNone && s.hostOwned e.part e.ctx tag.va tag.coded) then none
    else
      match (if wr then (s.blockWritable e tag.va).1.missing true else none) with
      | some m => some m
      | none => s.blockMissing e t tag (use x is)
  | _ => none

/-- Issue an access to tensor elements: each participant in turn. A crew that needs an entry of a full log (06 R148), or misses
the page of a coded block (R288), does not issue; nor does an access whose block a logged access of its thread touches (06
R143). -/
def State.issueElem (s : State) (i : Instr) (b : Operand) (plan : State → Env → Thread → ElemDo)
    (missing : State → Env → Thread → Option (Bool × List (Nat × Bool)))
    (coded : State → Env → Thread → TEntry → Nat → List Nat → State) : State :=
  let iss := s.serial
  s.bump.issueCrewsHeld srcNat i (fun st all ps => st.holdMissing b missing all ps) fun st _ ks => ks.foldl (fun st k =>
    match st.threads.find k with
    | none => st
    | some t =>
      let e := st.env k
      match plan st e t with
      | .fault tr => st.setThread k (t.raise e i tr)
      | .done t1 => st.setThread k (t1.advance i)
      | .plain r => issueAccess st i iss e t r
      | .coded x id is =>
        if st.blockHeld e (blockTag e x id is) then st.setThread k (t.stall false)
        else (coded st e t x id is).keepEntry k x) st

def execLdt (f : FLdt) (s : State) : Out :=
  .next (s.issueElem (.ldt f) f.b (planLdt f) (elemMissing false (ldtUse f) (planLdt f)) (ldtCoded f))
def execStt (f : FStt) (s : State) : Out :=
  .next (s.issueElem (.stt f) f.b (planStt f) (elemMissing true sttUse (planStt f)) (sttCoded f))

/-! ### `bdec` (R296) -/

/-- Resolve an element of a coded tensor: its entry, id and coordinates, or TENSOR_ID with SUB 1 to 3. -/
def State.codedElem (s : State) (e : Env) (t : Thread) (a b : Operand) (nc : BitVec 2) :
    Except Trap (TEntry × Nat × List Nat) :=
  let id := (src32 e t b).toNat % 1024
  let x := s.entryFor e t id
  let is := coords e t a nc
  match tensorFault x id (nc.toNat + 1) (codedOk e x) with
  | some tr => .error tr
  | none => if x.outside is then .error (Trap.tensorId 2 id) else .ok (x, id, is)

/-- Do something for each participant of each crew in turn, with uniform operands checked; a crew that misses a page of a
block to be fetched stalls (R288). -/
def State.issueOnes (s : State) (i : Instr) (b : Operand) (missing : State → Env → Thread → Option (Bool × List (Nat × Bool)))
    (one : State → Env → Thread → State) : State :=
  s.issueCrewsHeld srcNat i (fun st all ps => st.holdMissing b missing all ps) fun st _ ks => ks.foldl (fun st k =>
    match st.threads.find k with
    | none => st
    | some t => one st (st.env k) t) st

/-- The pages that the fetch of a named block misses. -/
def namedMissing (a b : Operand) (nc : BitVec 2) (s : State) (e : Env) (t : Thread) : Option (Bool × List (Nat × Bool)) :=
  match s.codedElem e t a b nc with
  | .ok (x, id, is) =>
    let tag := blockTag e x id is
    if s.blockHeld e tag then none else s.blockMissing e t tag wholeUse
  | .error _ => none

/-- Nothing is fetched. -/
def noMissing (_ : State) (_ : Env) (_ : Thread) : Option (Bool × List (Nat × Bool)) := none

/-- `bdec` of one thread: it starts a fetch unless the block is resident or on its way, and drops one that would
fault. Later accesses to the block wait for the fetch. -/
def bdecOne (f : FBdec) (s : State) (e : Env) (t : Thread) : State :=
  let i := Instr.bdec f
  match s.codedElem e t f.a f.b f.nc with
  | .error tr => s.setThread e.key (t.raise e i tr)
  | .ok (x, id, is) =>
    let tag := blockTag e x id is
    let c := s.cluster e.cl
    let s0 := s.setThread e.key (t.advance i)
    if (c.block tag).isSome && !f.fresh then s0
    else if c.fetches.any (fun y => y.tag.same tag) then
      s0.setCluster e.cl { c with fetches := c.fetches.map fun y => if y.tag.same tag then { y with ahead := true } else y }
    else
      let start := fun (st : State) (ps : Option (List Piece0)) => (st.onCluster e.cl fun c => { c with fetches := c.fetches ++
          [{ id := st.serial, tag := tag, pieces := ps, leaves := st.leavesFor e.who (ps.getD []), waiters := [], stale := false, ahead := true, held := false }] }).bump
      match s0.check e.who (tag.va : Int) tag.coded false false with
      | (.ok ps, s1) => if anyOutside ps then s1 else start s1 (some ps)
      | (.wait, s1) => start s1 none
      | (_, s1) => s1
def execBdec (f : FBdec) (s : State) : Out := .next (s.issueOnes (.bdec f) f.b noMissing (bdecOne f))

/-! ### `bflush` (R297) -/

/-- Let some threads wait in a `bflush`. -/
def State.flushWait (s : State) (ks : List TKey) (more : Bool) (snap : List Nat) (counts : Bool) : State :=
  ks.foldl (fun st k => st.onThread k fun _ t =>
    { t with wait := { kind := .flush more snap, counts := counts }, chain := none }) s

/-- A patch could not be sent for some threads (R291): they trap, wait for a page, or stall. That a patch which fails its own
check traps at the instruction, and that one whose page is not present sends a request with WR = 1, is the model's choice
(LOG 68). -/
def State.unsent (s : State) (i : Instr) (e : Env) (ks : List TKey) (u : Unsent) (snap : List Nat) : State :=
  match u with
  | .fault tr => s.raiseAll i ks tr
  | .absent pages => s.pageStall e ks true false pages
  | .budget st => if e.rcd.bmode then s.raiseAll i ks (Trap.writeBudget st) else s.flushWait ks true snap true
  | .full => s.flushWait ks true snap true
  | .wait => s.flushWait ks true snap false

/-- Raise the merge error of a context that covers what an instruction names, and clear it (R293); otherwise go on. While an earlier
access of such a thread is outstanding they wait, their `bflush` over. Of several threads of one issue that would report one
record the first clears it, and the others go on (LOG 80). -/
def State.reportMerge (s : State) (i : Instr) (e : Env) (ks : List TKey) (covers : MergeErr → Bool) : State :=
  let c := s.cluster e.cl
  match c.mergeErr.find (e.part, e.ctx) with
  | none => s.advanceAll i ks
  | some m =>
    if !covers m then s.advanceAll i ks
    else if ks.any fun k => s.draining k then s.flushWait ks false [] false
    else
      (s.setCluster e.cl { c with mergeErr := c.mergeErr.erase (e.part, e.ctx) }).raiseAll i ks (Trap.codec m.sub m.va)

/-- Wait until the patches of a snapshot are acknowledged, then report a merge error or go on. -/
def State.endFlush (s : State) (i : Instr) (e : Env) (ks : List TKey) (snap : List Nat) (covers : MergeErr → Bool) : State :=
  let left := snap.filter fun id => (s.cluster e.cl).sq.any fun x => x.id == id
  if left.isEmpty then s.reportMerge i e ks covers else s.flushWait ks false left true

/-- `bflush.blk` or `bflush.force` of one thread; `iss` is the number its issue started at. -/
def bflushAt (i : Instr) (iss : Nat) (force : Bool) (a b : Operand) (nc : BitVec 2) (s : State) (e : Env) (t : Thread) :
    State :=
  match s.codedElem e t a b nc with
  | .error tr => s.setThread e.key (t.raise e i tr)
  | .ok (x, id, is) =>
    let ks := [e.key]
    let covers := fun (m : MergeErr) => m.tid == id
    match t.wait.kind with
    | .flush false snap => s.endFlush i e ks snap covers
    | _ =>
      let tag := blockTag e x id is
      let c := s.cluster e.cl
      let sent := c.patchIds iss fun p => p.ofTag tag
      let send := fun (st : State) (blk : BsBlock) (forced : Bool) =>
        match st.sendPatch e.cl blk forced with
        | .ok s1 => s1.endFlush i e ks ((s1.cluster e.cl).patchIds st.serial fun p => p.ofTag tag) covers
        | .error u => st.unsent i e ks u []
      if !sent.isEmpty then s.endFlush i e ks sent covers
      else if force && s.blockHeld e tag then s.setThread e.key (t.stall false)
      else
        match c.block tag with
        | some blk =>
          if blk.dirty != 0 then send s blk false
          else if force then s.withBlock i e t tag wholeUse fun st b1 => send st b1 true
          else (s.setCluster e.cl (c.dropBlock tag)).endFlush i e ks [] covers
        | none =>
          if force then s.wantBlock i e t tag wholeUse else s.endFlush i e ks [] covers

/-- The same; a thread that waits keeps the entry it read (01 R17). -/
def bflushOne (i : Instr) (iss : Nat) (force : Bool) (a b : Operand) (nc : BitVec 2) (s : State) (e : Env) (t : Thread) :
    State :=
  (bflushAt i iss force a b nc s e t).keepEntry e.key (s.entryFor e t ((src32 e t b).toNat % 1024))

def execBflushBlk (f : FBlk) (s : State) : Out :=
  .next (s.issueOnes (.bflushBlk f) f.b noMissing (bflushOne (.bflushBlk f) s.serial false f.a f.b f.nc))
/-- The pages that a `bflush.force` misses: of the fetch of a block that is not resident. -/
def forceMissing (f : FBlk) (s : State) (e : Env) (t : Thread) : Option (Bool × List (Nat × Bool)) :=
  match s.codedElem e t f.a f.b f.nc, t.wait.kind with
  | .ok _, .flush .. => none
  | .ok (x, id, is), _ =>
    let tag := blockTag e x id is
    if s.blockHeld e tag || ((s.cluster e.cl).block tag).any (fun b => b.dirty != 0) then none
    else s.blockMissing e t tag wholeUse
  | .error _, _ => none

def execBflushForce (f : FBlk) (s : State) : Out :=
  .next (s.issueOnes (.bflushForce f) f.b (forceMissing f) (bflushOne (.bflushForce f) s.serial true f.a f.b f.nc))

/-- `bflush.tensor` or `bflush.all` for one crew: every dirty block that meets the test is sent, every clean one
dropped. `names` tells the patches of such blocks, for a `bflush` that goes on after a missing page. -/
def bflushMany (i : Instr) (p : BsBlock → Bool) (names : Patch → Bool) (covers : MergeErr → Bool) (s : State) (e : Env) (t : Thread)
    (ks : List TKey) : State :=
  match t.wait.kind with
  | .flush false snap => s.endFlush i e ks snap covers
  | k =>
    let c := s.cluster e.cl
    let before := match k with
      | .flush _ snap => snap
      | .page _ _ => c.patchIds 0 names
      | _ => []
    let r := (s.setCluster e.cl (c.dropClean p)).sendAll e.cl (c.dirtyBlocks p)
    let snap := before ++ (r.2.cluster e.cl).patchIds s.serial fun _ => true
    match r.1 with
    | some u => r.2.unsent i e ks u snap
    | none => r.2.endFlush i e ks snap covers

/-- Do something once for each crew with participants. -/
def State.issueOnce (s : State) (i : Instr) (act : State → Env → Thread → List TKey → State) : State :=
  s.issueCrews srcNat i fun st _ ks =>
    match ks with
    | [] => st
    | k :: _ =>
      match st.threads.find k with
      | none => st
      | some t => act st (st.env k) t ks

def execBflushTensor (f : FB) (s : State) : Out :=
  .next (s.issueOnce (.bflushTensor f) fun st e t ks =>
    let id := (src32 e t f.b).toNat % 1024
    let x := st.entryFor e t id
    match tensorFault x id x.rank (codedOk e x) with
    | some tr => st.raiseAll (.bflushTensor f) ks tr
    | none =>
      let st1 := bflushMany (.bflushTensor f) (fun b => BsBlock.ofCtx e.part e.ctx b && b.tid == id)
        (fun p => p.part == e.part && p.ctx == e.ctx && p.tid == id) (fun m => m.tid == id) st e t ks
      ks.foldl (fun st k => st.keepEntry k x) st1)
def execBflushAll (f : FG) (s : State) : Out :=
  .next (s.issueOnce (.bflushAll f) fun st e t ks =>
    bflushMany (.bflushAll f) (BsBlock.ofCtx e.part e.ctx) (fun p => p.part == e.part && p.ctx == e.ctx) (fun _ => true) st e t
      ks)

/-! ### `bstat` (R298) -/

/-- The status of a block. -/
def blockStatus (index : Nat) (merr : Bool) (b : Option BsBlock) : Word128 :=
  let low : Nat := match b with
    | none => 0
    | some b => b.dirty.toNat + b.hdr * 2 ^ 64 + 2 ^ 80 + b2n (b.dirty != 0) * 2 ^ 81 + b2n b.clamp * 2 ^ 82
        + b2n b.special * 2 ^ 83 + b2n b.zero * 2 ^ 84 + b2n b.refresh * 2 ^ 85
  BitVec.ofNat 128 (low + b2n merr * 2 ^ 86 + index % 2 ^ 32 * 2 ^ 96)

/-- The context's merge-error record names a tensor. -/
def State.merr (s : State) (e : Env) (id : Nat) : Bool :=
  match (s.cluster e.cl).mergeErr.find (e.part, e.ctx) with
  | some m => m.tid == id
  | none => false

/-- `bstat` of one thread. -/
def bstatOne (i : Instr) (f : FBstat) (dec : Bool) (s : State) (e : Env) (t : Thread) : State :=
  match s.codedElem e t f.a f.b f.nc with
  | .error tr => s.setThread e.key (t.raise e i tr)
  | .ok (x, id, is) =>
    let tag := blockTag e x id is
    let fin := fun (st : State) (b : Option BsBlock) =>
      st.setThread e.key ((t.put128 e f.w f.d (blockStatus tag.index (st.merr e id) b)).advance i)
    if dec then
      (if s.blockHeld e tag then s.setThread e.key (t.stall false)
       else (s.withBlock i e t tag wholeUse fun st b => fin st (some b)).keepEntry e.key x)
    else fin s ((s.cluster e.cl).block tag)

def execBstat (f : FBstat) (s : State) : Out := .next (s.issueOnes (.bstat f) f.b noMissing (bstatOne (.bstat f) f false))
def execBstatDec (f : FBstat) (s : State) : Out := .next (s.issueOnes (.bstatDec f) f.b (namedMissing f.a f.b f.nc) (bstatOne (.bstatDec f) f true))

end Sys2Proof.Machine
end

