-- ==== Sys2Proof/Machine/Sync.lean ====
section
/-!
DEFINITION. Waiting on memory (10_core_crews_and_waiting.md R252 to R255), sync objects (05_memory_model.md R113 to R118;
09 R233, R234) and bindings (05 R117; 09 R235).
-/

namespace Sys2Proof.Machine

/-! ### `wait`, `pchk` and `swait` -/

/-- ACCESS of a memory wait (R253): not aligned, in a host range, or in the dado region. -/
def watchRefused (addr n : Nat) (ps : List Piece0) : Bool :=
  addr % n != 0 || (decide (dadoVa ≤ addr) && decide (addr < dadoVa + dadoSpan))
    || ps.any fun p => (match p.1 with | .host _ => true | _ => false)

/-- The pages a read at an address misses, for a thread that the log does not hold back (06 R143). -/
def State.readMissing (s : State) (e : Env) (addr : Int) (n : Nat) (wr : Bool) : Option (Bool × List (Nat × Bool)) :=
  if s.logMeets e.key addr.toNat n then none else (s.check e.who addr n wr false).1.missing wr

/-- The bytes of a `wait` or a `pchk`. -/
def watchBytes (wide : Bool) : Nat := if wide then 8 else 4

/-- `wait` of one thread (R253): one read; while the condition fails the thread waits and reads again. A thread held back by
the log does not count (06 R143). -/
def waitOne (f : FWait) (s : State) (e : Env) (t : Thread) : State :=
  let i := Instr.wait f
  let n := watchBytes f.wide
  let addr := memAddr e t f.a f.imm
  if e.rcd.blockClass = 0 then s.setThread e.key (t.raise e i (Trap.illegalWait 1))
  else if s.logMeets e.key addr.toNat n then s.setThread e.key (t.stall false)
  else
    match s.checkRead (.thread e.key) e.who addr n false with
    | (.fault tr, s1) => s1.setThread e.key (t.raise e i tr)
    | (.absent pages, s1) => s1.pageStall e [e.key] false true pages
    | (.wait, s1) => s1.setThread e.key (t.stall true)
    | (.ok ps, s1) =>
      if watchRefused addr.toNat n ps then s1.setThread e.key (t.raise e i (Trap.access addr.toNat))
      else
        match s1.readFresh e ps with
        | (.wait, s2) => s2.setThread e.key (t.stall true)
        | (.refused va, s2) => (s2.forget (.thread e.key)).setThread e.key (t.raise e i (Trap.access va))
        | (.ready _ (some (m, va)), s2) => (s2.forget (.thread e.key)).setThread e.key (t.poisoned e i m va (s2.leafFor e.who va))
        | (.ready bs none, s2) =>
          let v := ofBytes bs
          let t1 := if waitCond f.cond f.wide v (dataOf (atomTy f.wide) e t f.b) then
              (if f.w then t else t.setRegs e f.d.toNat (if f.wide then 2 else 1) v).advance i
            else t.stall true
          ((s2.forget (.thread e.key)).setThread e.key t1).sawPieces [e.key] ps

/-- The pages a `wait` misses. -/
def waitMissing (f : FWait) (s : State) (e : Env) (t : Thread) : Option (Bool × List (Nat × Bool)) :=
  if e.rcd.blockClass = 0 then none else s.readMissing e (memAddr e t f.a f.imm) (watchBytes f.wide) false

/-- `wait` (R253). A page that is not present stalls the crew. -/
def execWait (f : FWait) (s : State) : Out := .next (s.issuePaged (.wait f) true 0 (waitMissing f) (waitOne f))

/-- `pchk` of one thread (R254): the read is a load in flight that writes its predicate (06 R424), and reads as a `wait`. -/
def pchkOne (f : FPchk) (s : State) (e : Env) (t : Thread) : State :=
  let i := Instr.pchk f
  let n := watchBytes f.wide
  let addr := memAddr e t f.a f.imm
  if s.logMeets e.key addr.toNat n then s.setThread e.key (t.stall false)
  else
    match s.check e.who addr n false false with
    | (.fault tr, s1) => s1.setThread e.key (t.raise e i tr)
    | (.wait, s1) => s1.setThread e.key (t.stall false)
    | (.absent pages, s1) =>
      (s1.requestPages (srcQuarter e.cl (e.crew % 4)) e.who false [] pages).2.setThread e.key
        ((t.setPredD f.p f.w false).advance i)
    | (.ok ps, s1) =>
      if watchRefused addr.toNat n ps then s1.setThread e.key (t.raise e i (Trap.access addr.toNat))
      else if (s1.cluster e.cl).unread ps then s1.setThread e.key (t.stall true)
      else
        let pred := if f.w then none else some (f.p, f.cond, dataOf (atomTy f.wide) e t f.b)
        (s1.startWatch e.key t.pc (atomTy f.wide) pred ps).setThread e.key (t.advance i)

/-- `pchk` (R254). -/
def execPchk (f : FPchk) (s : State) : Out := .next (s.issueEach (.pchk f) (pchkOne f))

/-- `swait` of one thread (R255). -/
def swaitOne (f : FSwait) (s : State) (e : Env) (t : Thread) : State :=
  let i := Instr.swait f
  let addr := (spadAddr e t f.a f.imm).toNat
  if e.rcd.blockClass = 0 then s.setThread e.key (t.raise e i (Trap.illegalWait 1))
  else
    match spadAt e.rcd e.bkey addr 16 with
    | .error tr => s.setThread e.key (t.raise e i tr)
    | .ok p =>
      if !p.own then s.setThread e.key (t.raise e i (Trap.address addr))
      else if addr % 16 ≠ 0 then s.setThread e.key (t.raise e i (Trap.access addr))
      else
        let s1 := s.onBlock e.bkey fun b => b.know p.off
        match s1.blocks.find e.bkey with
        | none => s
        | some b =>
          let g : Word32 := BitVec.ofNat 32 (awGen (b.scratch.le p.off 16))
          if (g - src32 e t f.b).toNat < 2 ^ 31 then s1.setThread e.key ((t.put32 e f.w f.d g).advance i)
          else s1.setThread e.key (t.stall true)

/-- `swait` (R255). -/
def execSwait (f : FSwait) (s : State) : Out := .next (s.issueEach (.swait f) (swaitOne f))

/-! ### What is bound to an object (05 R117; 14 R299) -/

/-- Where a virtual address of a context lies, by its tables. -/
def State.whereIs (s : State) (part ctx va : Nat) : Option Loc :=
  if dadoVa ≤ va ∧ va < dadoVa + dadoSpan then some (.home (dadoHome part + (va - dadoVa)))
  else
    match s.walk part ctx va with
    | .leaf l => s.locOf (l.pa + (va - l.base))
    | _ => none

/-- The object of a binding-table entry. -/
def State.bindLoc (s : State) (part ctx : Nat) (bind : Option Nat) : Option Loc :=
  match bind with
  | none => none
  | some i =>
    match (s.ctxOf part ctx).binds.find i with
    | some x => s.whereIs part ctx x.obj.toNat
    | none => none

/-- A tensor of a context is bound to an object: by the BIND of its entry as it stands, when BV = 1 (14 R299). -/
def State.boundTensor (s : State) (part ctx tid : Nat) (obj : Loc) : Bool :=
  let x := s.tensor part ctx tid
  x.v && s.bindLoc part ctx (if x.bv then some x.bindIx else none) == some obj
/-- The block's tensor is bound to an object. -/
def State.boundBlock (s : State) (obj : Loc) (b : BsBlock) : Bool := s.boundTensor b.part b.ctx b.tid obj
/-- The patch's tensor is bound to an object. -/
def State.boundPatch (s : State) (obj : Loc) (p : Patch) : Bool := s.boundTensor p.part p.ctx p.tid obj
/-- The tensor a merge error names is bound to an object. -/
def State.boundErr (s : State) (e : Env) (obj : Loc) (m : MergeErr) : Bool := s.boundTensor e.part e.ctx m.tid obj

/-- An acquire granted to a thread of a cluster (R115): its L1 is emptied, clean bound blocks go, dirty ones take
REFRESH. -/
def State.acquired (s : State) (cl : Nat) (obj : Loc) : State :=
  s.onCluster cl fun c => c.dropL1.refresh (s.boundBlock obj)

/-! ### Objects (05 R113, R114) -/

/-- Write an object as one item. -/
def State.setObj (s : State) (a o : Nat) : State :=
  let bs := toBytes 64 o
  (s.homeWrite a (bs.take 32) 0 3).homeWrite (a + 32) (bs.drop 32) 0 3

/-- An object's state grants an acquire. -/
def objGrants (o : Nat) (excl : Bool) : Bool :=
  !objX o && (if excl then objCount o == 0 else decide (objCount o < 0xFFFFFFFF))

/-- The object after a grant. -/
def objGranted (o : Nat) (excl : Bool) (wid : Word64) : Nat :=
  if excl then setFld (setFld o 63 1 1) 64 64 wid.toNat else setFld o 0 32 (objCount o + 1)

/-- The object after a release by a thread; none when the release is illegal. -/
def objReleased (o : Nat) (wid : Word64) : Option Nat :=
  let gen := fun x => setFld x 128 64 (objGen o + 1)
  if objX o then
    if objHolder o = wid.toNat then some (gen (setFld (setFld o 63 1 0) 64 64 0)) else none
  else if 0 < objCount o then some (gen (setFld o 0 32 (objCount o - 1)))
  else none

/-- The mark of an object: a UE mark first. -/
def State.objMark (s : State) (a : Nat) : BitVec 2 :=
  if s.markAt a = 1 ∨ s.markAt (a + 32) = 1 then 1 else if s.markAt a = 0 then s.markAt (a + 32) else s.markAt a

/-- The WID of a requester. -/
def AcqFrom.wid : AcqFrom → Word64
  | .thread k _ _ => k.wid
  | .peer _ _ _ w => w

/-- A request is granted: the object changes, and the requester learns of it. -/
def State.grantTo (s : State) (r : AcqReq) : State :=
  let s1 := (s.setObj r.obj (objGranted (s.obj r.obj) r.excl r.who.wid))
  match r.who with
  | .thread k _ next =>
    (s1.acquired (s1.env k).cl (.home r.obj)).onThread k fun _ t =>
      { t with pc := next, chain := none, wait := Wait.idle, blockCtr := 0 }
  | .peer port tag _ _ => s1.respond port r.obj tag 8 0 []

/-- Grant the requests that wait at an object, oldest first, until one is not grantable (R114). While the object is marked it
grants none and answers none: the spec tests a waiting request again for ACCESS alone, and the model lets it wait (LOG 93). -/
def State.grantFrom (a : Nat) : List AcqReq → State → State
  | [], s => s
  | r :: rest, s =>
    if r.obj ≠ a then State.grantFrom a rest s
    else if objGrants (s.obj a) r.excl && objClean (s.obj a) && s.objMark a == 0 then
      State.grantFrom a rest (({ s with acqs := s.acqs.filter fun x => x != r } : State).grantTo r)
    else s

/-- ACQUIRE_GRANT (R114). -/
def execAcquireGrant (obj : Nat) (s : State) : Out :=
  .next (if s.homeWaits obj then s else s.grantFrom obj s.acqs)

/-! ### `acq` (09 R233) -/

/-- What the checks of a sync instruction find: an object here, an object in a peer's memory, or the thread's state
after a fault or a wait. -/
inductive SyncAt where
  | here (a : Nat) (s : State)
  | peer (pa : Nat) (s : State)
  | stop (s : State)
  deriving DecidableEq, Repr

/-- The checks of steps 2 to 6 of R233; `counts` says whether a wait counts under R42, as that of a blocking acquire does. A stall
behind entries of its cluster's store queue always counts, one behind a logged access never (06 R143); one behind the thread's own
load of the object counts where `own` says so, as the wait of a `rel` does (05 R116). -/
def State.syncAt (s : State) (i : Instr) (e : Env) (t : Thread) (addr : Int) (counts own : Bool) : SyncAt :=
  if s.logMeets e.key addr.toNat 64 then .stop (s.setThread e.key (t.stall false))
  else
    match s.check e.who addr 64 true false with
    | (.fault tr, s1) => .stop (s1.setThread e.key (t.raise e i tr))
    | (.absent pages, s1) => .stop (s1.pageStall e [e.key] true counts pages)
    | (.wait, s1) => .stop (s1.setThread e.key (t.stall counts))
    | (.ok ps, s1) =>
      if addr % 64 ≠ 0 then .stop (s1.setThread e.key (t.raise e i (Trap.access addr.toNat)))
      else if ps.any (fun p => (s1.cluster e.cl).sq.any fun x => x.meets p.1 p.2.2) then .stop (s1.setThread e.key (t.stall true))
      else if s1.waitsForLoad e.key ps then .stop (s1.setThread e.key (t.stall own))
      else
        match ps with
        | (.home a, _, _) :: _ =>
          if s1.homeWaits a then .stop (s1.setThread e.key (t.stall counts))
          else if !objClean (s1.obj a) then .stop (s1.setThread e.key (t.raise e i (Trap.access addr.toNat)))
          else if s1.objMark a ≠ 0 then
            .stop (s1.setThread e.key (t.raise e i (Trap.poison (if s1.markAt a = 0 then addr.toNat + 32 else addr.toNat))))
          else .here a s1
        | (.peer pa, _, _) :: _ => .peer pa s1
        | _ => .stop (s1.setThread e.key (t.raise e i (Trap.access addr.toNat)))

/-- The page a sync instruction misses; `wait` says whether it is a blocking wait, whose ILLEGAL_WAIT comes first (R233). -/
def syncMissing (wait : Bool) (a : Operand) (imm : BitVec 20) (s : State) (e : Env) (t : Thread) :
    Option (Bool × List (Nat × Bool)) :=
  if wait && e.rcd.blockClass == 0 then none else s.readMissing e (memAddr e t a imm) 64 true

/-- Issue an acquire for each thread of the run: which of two requests that leave together comes first at its home is open
(05 R126, 12 R267; LOG 4), so the order of the threads is a choice. -/
def State.issueAcq (s : State) (i : Instr) (wait : Bool) (a : Operand) (imm : BitVec 20) (act : State → Env → Thread → State) :
    State :=
  let r := s.choose
  r.2.issuePaged i wait r.1 (syncMissing wait a imm) act

/-- Ask a peer for an acquire or a release (17 R344): the thread waits for the answer, and counts as stalled while the port is down
(R342). -/
def State.askSync (s : State) (e : Env) (t : Thread) (pa va kind sub : Nat) (acq : Bool)
    (tryP : Option (PredD × Bool)) (next : Word64) : State :=
  let q := s.peerOf pa
  let tag := ((s.port q.1).freeTag).getD 0
  match s.request q.1 e.rcd.owner (.sync e.key acq q.2 va tryP next false) q.2 kind sub 8 (toBytes 8 e.wid.toNat) with
  | some s1 => s1.setThread e.key { t with wait := { kind := .peerSync tag, counts := acq && tryP.isNone }, chain := none }
  | none => s.setThread e.key (t.stall (acq && tryP.isNone))

/-- A blocking acquire of one thread (R233): it is granted at once, or waits at the home. -/
def acqOne (i : Instr) (f : FMem) (excl : Bool) (s : State) (e : Env) (t : Thread) : State :=
  let addr := memAddr e t f.a f.imm
  if e.rcd.blockClass = 0 then s.setThread e.key (t.raise e i (Trap.illegalWait 1))
  else
    match s.syncAt i e t addr true true with
    | .stop s1 => s1
    | .peer pa s1 => s1.askSync e t pa addr.toNat 3 (if excl then 1 else 0) true none (t.nextPc i)
    | .here a s1 =>
      let r : AcqReq := { obj := a, va := addr.toNat, excl := excl, who := .thread e.key s1.serial (t.nextPc i) }
      let s2 := s1.bump
      if objGrants (s2.obj a) excl && !(s2.acqs.any fun x => x.obj == a) then s2.grantTo r
      else ({ s2 with acqs := s2.acqs ++ [r] } : State).setThread e.key
        { t with wait := { kind := .acq s1.serial, counts := true }, chain := none }

/-- `acq.x` (R233). -/
def execAcqX (f : FMem) (s : State) : Out := .next (s.issueAcq (.acqX f) true f.a f.imm (acqOne (.acqX f) f true))
/-- `acq.s` (R233). -/
def execAcqS (f : FMem) (s : State) : Out := .next (s.issueAcq (.acqS f) true f.a f.imm (acqOne (.acqS f) f false))

/-- A `.try` acquire of one thread (R114, R233). -/
def acqTryOne (i : Instr) (f : FAcqTry) (excl : Bool) (s : State) (e : Env) (t : Thread) : State :=
  let addr := memAddr e t f.a f.imm
  match s.syncAt i e t addr false false with
  | .stop s1 => s1
  | .peer pa s1 => s1.askSync e t pa addr.toNat 3 (if excl then 3 else 2) true (some (f.p, f.w)) (t.nextPc i)
  | .here a s1 =>
    if objGrants (s1.obj a) excl && !(s1.acqs.any fun x => x.obj == a) then
      ((s1.setObj a (objGranted (s1.obj a) excl e.wid)).acquired e.cl (.home a)).setThread e.key
        ((t.setPredD f.p f.w true).advance i)
    else s1.setThread e.key ((t.setPredD f.p f.w false).advance i)

/-- `acq.x.try` (R233). -/
def execAcqXTry (f : FAcqTry) (s : State) : Out := .next (s.issueAcq (.acqXTry f) false f.a f.imm (acqTryOne (.acqXTry f) f true))
/-- `acq.s.try` (R233). -/
def execAcqSTry (f : FAcqTry) (s : State) : Out := .next (s.issueAcq (.acqSTry f) false f.a f.imm (acqTryOne (.acqSTry f) f false))

/-! ### `rel` (05 R116; 09 R234) -/

/-- Another thread of the crew stalls at a store that the write budget holds back (05 R126). -/
def State.crewStores (s : State) (e : Env) : Bool :=
  s.threads.any fun p => p.2.wait.kind == .store && p.1.launch == e.key.launch && p.1 != e.key && (s.env p.1).ckey == e.ckey

/-- The waits of R116 are over but for the patches: the thread's loads have their values, its crew's counter is 0 and the
log holds no store of the crew; nor does a store of the crew wait for the write budget (05 R126). -/
def State.relReady (s : State) (e : Env) : Bool :=
  !s.draining e.key && (s.crews.get e.ckey Crew.start).unacked == 0
    && !(s.log.any fun l => l.crew == e.ckey && l.kind.writes) && !s.crewStores e

/-- A patch that a `rel` cannot send (R234; 14 R291): while the `rel` waits for it, the thread counts as stalled (05 R116). What follows when its own check fails or its page is not present is the
model's choice (LOG 68). -/
def State.relUnsent (s : State) (i : Instr) (e : Env) (t : Thread) (u : Unsent) : State :=
  match u with
  | .fault tr => s.setThread e.key (t.raise e i tr)
  | .absent pages => s.pageStall e [e.key] true true pages
  | .budget st => s.setThread e.key (if e.rcd.bmode then t.raise e i (Trap.writeBudget st) else t.stall true)
  | .full => s.setThread e.key (t.stall true)
  | .wait => s.setThread e.key (t.stall true)

/-- The merge error that a `rel` of an object reports (14 R293). -/
def State.relError (s : State) (e : Env) (obj : Loc) : Option MergeErr :=
  match (s.cluster e.cl).mergeErr.find (e.part, e.ctx) with
  | some m => if s.boundErr e obj m then some m else none
  | none => none

/-- The dirty blocks whose patches a `rel` has still to send: those of the tensors bound to its object when it issues; one that is
dirty again after its patch is not sent twice (14 R303). -/
def State.relBlocks (s : State) (e : Env) (t : Thread) (obj : Loc) : List BsBlock :=
  (s.cluster e.cl).dirtyBlocks fun b =>
    match t.wait.kind, t.todo with
    | .none, _ => s.boundBlock obj b
    | _, some l => BsBlock.ofCtx e.part e.ctx b && l.contains (b.tid, b.va)
    | _, none => s.boundBlock obj b

/-- A `rel` that waits keeps the blocks it has still to send. -/
def State.keepTodo (s : State) (k : TKey) (l : List (Nat × Nat)) : State :=
  s.onThread k fun _ t => if t.wait.kind = .none then t else { t with todo := some l }

/-- The part of a `rel` before the release is sent: patches of bound blocks, the waits of R116, a merge error. The
release may go when the answer is `none`; otherwise the state after the wait or the trap. -/
def State.relBefore (s : State) (i : Instr) (e : Env) (t : Thread) (obj : Loc) : Option State × State :=
  let bs := s.relBlocks e t obj
  let r := s.sendAll e.cl bs
  match r.1 with
  | some u =>
    let left := bs.filter fun b => ((r.2.cluster e.cl).block b).isSome
    (some ((r.2.relUnsent i e t u).keepTodo e.key (left.map fun b => (b.tid, b.va))), r.2)
  | none =>
    let s1 := r.2
    let c := s1.cluster e.cl
    if !s1.relReady e || !(c.patchIds 0 (s1.boundPatch obj)).isEmpty then
      (some ((s1.setThread e.key (t.stall true)).keepTodo e.key []), s1)
    else
      match s1.relError e obj with
      | some m =>
        (some ((s1.setCluster e.cl { c with mergeErr := c.mergeErr.erase (e.part, e.ctx) }).setThread e.key
          (t.raise e i (Trap.codec m.sub m.va))), s1)
      | none => (none, s1)

/-- `rel` of one thread (R234). -/
def relOne (f : FMem) (s : State) (e : Env) (t : Thread) : State :=
  let i := Instr.rel f
  let addr := memAddr e t f.a f.imm
  match s.syncAt i e t addr false true with
  | .stop s1 => s1
  | .peer pa s1 =>
    match s1.relBefore i e t (.peer pa) with
    | (some s2, _) => s2
    | (none, s2) => s2.askSync e t pa addr.toNat 4 0 false none (t.nextPc i)
  | .here a s1 =>
    match s1.relBefore i e t (.home a) with
    | (some s2, _) => s2
    | (none, s2) =>
      match objReleased (s2.obj a) e.wid with
      | some o => (s2.setObj a o).setThread e.key (t.advance i)
      | none => s2.setThread e.key (t.raise e i (Trap.access addr.toNat))

/-- `rel` (R234). -/
def execRel (f : FMem) (s : State) : Out := .next (s.issuePaged (.rel f) false 0 (syncMissing false f.a f.imm) (relOne f))

/-! ### `bind` (R235) -/

/-- The subcode of a refused binding. Where several hold at once the lowest is reported: the spec gives no order (LOG 69). -/
def State.bindFault (s : State) (e : Env) (ix base size obj : Nat) : Option Nat :=
  if base % 64 ≠ 0 ∨ size % 64 ≠ 0 ∨ size = 0 ∨ !accessCanonical (base : Int) size then some 1
  else if (s.ctxOf e.part e.ctx).binds.any fun b => b.1 != ix && meets base size b.2.base b.2.size then some 2
  else if meets base size obj 64 || obj % 64 != 0 then some 3
  else
    match s.whereIs e.part e.ctx obj with
    | some (.host _) => some 4
    | _ => none

/-- Change the binding table of a context. -/
def State.setBinds (s : State) (part ctx : Nat) (f : Tbl Nat Binding → Tbl Nat Binding) : State :=
  let c := s.ctxOf part ctx
  { s with ctxs := s.ctxs.set (part, ctx) { c with binds := f c.binds } }

/-- `bind` (R235). -/
def execBind (f : FBind) (s : State) : Out :=
  .next (s.issueOnce (.bind f) fun st e t ks =>
    let q := (src128 e t f.a).toNat
    let base := fld q 0 64
    let size := fld q 64 64
    let obj := src64 e t f.b
    match st.bindFault e f.e.toNat base size obj.toNat with
    | some sub => st.raiseAll (.bind f) ks (Trap.access base sub)
    | none =>
      (st.setBinds e.part e.ctx fun b => b.set f.e.toNat { base := base, size := size, obj := obj }).advanceAll (.bind f) ks)

/-- `bind.clr` (R235). -/
def execBindClr (f : FBindClr) (s : State) : Out :=
  .next (s.issueOnce (.bindClr f) fun st e _ ks =>
    (st.setBinds e.part e.ctx fun b => b.erase f.e.toNat).advanceAll (.bindClr f) ks)

end Sys2Proof.Machine
end

