-- ==== Sys2Proof/Machine/Hawk.lean ====
section
/-!
DEFINITION. The Hawk (16_hawk_access_engine.md R310 to R335): making copies and programs, batches, delivery queues, and
the Hawk's own moves: a read or a delivery of a copy, a multicast's acceptance, a copy's completion.
-/

namespace Sys2Proof.Machine

/-! ### Batches (R320 to R322) -/

/-- A batch of a thread. -/
def Thread.batch (t : Thread) (n : Nat) : Batch := t.batches.get n { copies := [], status := 0, reported := false }

/-- The number of the thread's open batch. -/
def Thread.openBatch (t : Thread) : Nat := (t.batchNo + 1) % 65536

/-- A copy joins the open batch. -/
def Thread.join (t : Thread) (id : Nat) : Thread :=
  let b := t.batch t.openBatch
  { t with batches := t.batches.set t.openBatch { b with copies := b.copies ++ [id] } }

/-- A status with another of its batch: the flags together, the first FCAUSE (R322). -/
def joinStatus (a b : Word64) : Word64 :=
  let fc := if a.extractLsb' 8 8 = 0 then b.extractLsb' 8 8 else a.extractLsb' 8 8
  let x := (a ||| b).toNat
  BitVec.ofNat 64 (setFld x 8 8 fc.toNat)

/-- A copy completes in a batch. -/
def Batch.complete (b : Batch) (id : Nat) (st : Word64) : Batch :=
  { b with copies := b.copies.erase id, status := joinStatus b.status st }

/-- A copy's cause goes to a batch at once, so that the batch keeps the first (R322). -/
def Batch.fault (b : Batch) (cause : Nat) : Batch := { b with status := joinStatus b.status (BitVec.ofNat 64 (cause * 256)) }

/-- The copy stops at a fault (R313). -/
def Copy.stop (c : Copy) : Copy := { c.flag 1 with stopped := true, tokens := [] }

/-- `hseal` of one thread (R320). -/
def hsealOne (f : FD) (s : State) (e : Env) (t : Thread) : State :=
  let old := (t.batchNo + 1 + 32768) % 65536
  if !(t.batch old).copies.isEmpty then s.setThread e.key (t.stall true)
  else
    let c := t.openBatch
    let t1 := { t with batchNo := c, batches := (t.batches.set c (t.batch c)).erase ((c + 1) % 65536) }
    s.setThread e.key ((t1.put32 e f.w f.d (BitVec.ofNat 32 c)).advance (.hseal f))

/-- `hseal` (R320). -/
def execHseal (f : FD) (s : State) : Out := .next (s.issueEach (.hseal f) (hsealOne f))

/-- The sealed batches that a wait on batch n covers (R321). -/
def Thread.covered (t : Thread) (n : Nat) : List (Nat × Batch) :=
  t.batches.filter fun p =>
    decide ((n + 65536 - p.1) % 65536 < 32768) && decide ((t.batchNo + 65536 - p.1) % 65536 < 32768)

/-- The value an `hwait` or `htest` returns: DONE and the OR of the statuses not yet reported (R321). -/
def reportOf (bs : List (Nat × Batch)) : Word64 :=
  (bs.filter fun p => !p.2.reported).foldl (fun (v : Word64) p => v ||| p.2.status) 1

/-- `hwait` or `htest` of one thread (R321). -/
def hwaitOne (i : Instr) (f : FDA) (waits : Bool) (s : State) (e : Env) (t : Thread) : State :=
  let n := (src32 e t f.a).toNat % 65536
  if 32768 ≤ (t.batchNo + 65536 - n) % 65536 then s.setThread e.key (t.raise e i (Trap.hawk 2 n))
  else
    let bs := t.covered n
    if bs.any fun p => !p.2.copies.isEmpty then
      s.setThread e.key (if waits then t.stall true else (t.put64 e f.w f.d 0).advance i)
    else
      let told := t.batches.mapAll fun m b => if bs.any (fun p => p.1 == m) then { b with reported := true } else b
      let t1 := { t with batches := told }
      s.setThread e.key ((t1.put64 e f.w f.d (reportOf bs)).advance i)

/-- `hwait` (R321). -/
def execHwait (f : FDA) (s : State) : Out := .next (s.issueEach (.hwait f) (hwaitOne (.hwait f) f true))
/-- `htest` (R321). -/
def execHtest (f : FDA) (s : State) : Out := .next (s.issueEach (.htest f) (hwaitOne (.htest f) f false))

/-! ### Making a copy (R310 to R313) -/

/-- Bytes a copy delivers. -/
def Copy.total (c : Copy) : Nat := c.len / etSize c.et * outSize c.et c.ops.toNat

/-- R311 without the conditions on the source address and LC. -/
def illFormedCopy (scratch len : Nat) (dk : CopyDst) (et : CopyEt) (ops : Nat) (awe : Bool) (aw : Nat) : Bool :=
  let n := len / etSize et * outSize et ops
  len % etSize et != 0 || (dk == .dq && n % 256 != 0) || (dk == .fifo && n % 1024 != 0)
    || (awe && (dk != .spad || decide (scratch < aw + 16)))

/-- R311's conditions on the layout conversion and the source address. -/
def illFormedSrc (src : Int) (len lc : Nat) (dz : Bool) : Bool :=
  (lc != 0 && (dz || !decide (src % 1024 = 0) || len % 1024 != 0)) || (dz && !decide (src % 16 = 0))

/-- The source base and the layout conversion of a copy, or the fault of steps 2 to 4 of R313. The bits that a register
descriptor does not use are not read: R311 speaks of bits that must be 0, and names none (LOG 74). -/
def State.copySource (s : State) (e : Env) (sk : CopySrc) (src : Nat) (len lc : Nat) (ldef dz : Bool) :
    Except Trap (Int × Nat) :=
  match sk with
  | .ten =>
    let id := src % 1024
    let x := s.tensor e.part e.ctx id
    if !ldef && lc != 0 && (dz || len % 1024 != 0) then .error (Trap.hawk 3 len)
    else if !x.v then .error (Trap.tensorId 1 id)
    else
      let base : Int := (x.base.toNat : Int) + sext (fld src 32 32) 32
      let l := if ldef then x.lconv.toNat else lc
      if illFormedSrc base len l dz then .error (Trap.hawk 3 len) else .ok (base, l)
  | .mem => if illFormedSrc (src : Int) len lc dz then .error (Trap.hawk 3 len) else .ok ((src : Int), lc)
  | .ssp =>
    let a : Nat := src % 4294967296
    if illFormedSrc (a : Int) len lc dz then .error (Trap.hawk 3 len) else .ok ((a : Int), lc)

/-- A new copy. -/
def newCopy (e : Env) (id : Nat) (kind : CopyKind) (members : List (TKey × Nat)) (sk : CopySrc) (src : Int) (dk : CopyDst)
    (dst len : Nat) (dz : Bool) (lc : Nat) (et : CopyEt) (ops : Word64) (aw : Option Nat) : Copy :=
  { id := id, kind := kind, launch := e.key.launch, block := e.bkey, members := members, sk := sk, src := src, dk := dk,
    dst := dst, len := len, dz := dz, lc := lc, et := et, ops := ops, aw := aw, pos := 0, zsrc := 0, raw := [], out := [],
    put := 0, dead := none, status := 0, stopped := false, tokens := [] }

/-- The cluster's Hawk holds 64 copies and programs (R315). -/
def State.hawkFull (s : State) (cl : Nat) : Bool := decide (64 ≤ (s.cluster cl).hawk.copies.length)

/-- Give a copy to the Hawk. -/
def State.addCopy (s : State) (cl : Nat) (c : Copy) : State :=
  s.bump.onCluster cl fun x => { x with hawk := { x.hawk with copies := x.hawk.copies ++ [c] } }

/-- A one-shot copy of one thread goes to the Hawk, or the thread stalls; a copy of no bytes completes at once. -/
def State.oneShot (s : State) (i : Instr) (e : Env) (t : Thread) (mk : Nat → List (TKey × Nat) → Copy) : State :=
  if s.hawkFull e.cl then s.setThread e.key (t.stall false)
  else
    let c := mk s.serial [(e.key, t.openBatch)]
    if c.len = 0 then s.setThread e.key (t.advance i)
    else (s.addCopy e.cl c).setThread e.key ((t.join c.id).advance i)

/-- The low and the high pair of a quad. -/
def quadLo (e : Env) (t : Thread) (a : Operand) : Nat := fld (src128 e t a).toNat 0 64
def quadHi (e : Env) (t : Thread) (a : Operand) : Nat := fld (src128 e t a).toNat 64 64

/-- `hcpy` of one thread (R313, R315). -/
def hcpyOne (f : FHcpy) (s : State) (e : Env) (t : Thread) : State :=
  let i := Instr.hcpy f
  let len := (dst32 e t f.d).toNat
  let ops := src64 e t f.b
  let aw := f.awoff.toNat * 16
  if chainBad f.et ops.toNat then s.setThread e.key (t.raise e i (Trap.hawk 1 ops.toNat))
  else if illFormedCopy e.rcd.scratchBytes len f.dk f.et ops.toNat f.awe aw then
    s.setThread e.key (t.raise e i (Trap.hawk 3 len))
  else
    match s.copySource e f.sk (quadLo e t f.a) len f.lc.toNat f.ldef f.dz with
    | .error tr => s.setThread e.key (t.raise e i tr)
    | .ok (src, lc) =>
      s.oneShot i e t fun id ms =>
        newCopy e id .one ms f.sk src f.dk (quadHi e t f.a) len f.dz lc f.et ops (if f.awe then some aw else none)

/-- `hcpy` (R315). -/
def execHcpy (f : FHcpy) (s : State) : Out := .next (s.issueEach (.hcpy f) (hcpyOne f))

/-- The V = 1 entries of a target list. -/
def targets (bs : List Byte) : List (Nat × BitVec 16) :=
  ((List.range 16).map fun j => (j, BitVec.ofNat 16 (ofBytes ((bs.drop (2 * j)).take 2)))).filter fun p => p.2.getLsbD 15

/-- `hmc` of one thread (R324). Of the target list it reads the bytes alone (LOG 87). -/
def hmcOne (f : FHmc) (s : State) (e : Env) (t : Thread) : State :=
  let i := Instr.hmc f
  let len := (dst32 e t f.d).toNat
  let hi := quadHi e t f.a
  let aw := f.awoff.toNat * 16
  let list := (src32 e t f.b).toNat
  let bad := s.setThread e.key (t.raise e i (Trap.hawk 3 len))
  if fld hi 19 13 ≠ 0 ∨ fld hi 32 32 ≠ 0 ∨ !f.awe ∨ list % 32 ≠ 0
      ∨ illFormedCopy e.rcd.scratchBytes len .spad .raw 0 true aw then bad
  else
    match spadAt e.rcd e.bkey list 32, s.copySource e .mem (quadLo e t f.a) len f.lc.toNat false false with
    | .error _, _ => bad
    | _, .error tr => s.setThread e.key (t.raise e i tr)
    | .ok p, .ok (src, lc) =>
      if !p.own then bad
      else
        let bs := match s.blocks.find e.bkey with | some b => b.scratch.bytes p.off 32 | none => []
        s.oneShot i e t fun id ms =>
          newCopy e id (.multi (targets bs) []) ms .mem src .spad (fld hi 0 32) len false lc .raw 0 (some aw)

/-- `hmc` (R324). -/
def execHmc (f : FHmc) (s : State) : Out := .next (s.issueEach (.hmc f) (hmcOne f))

/-- `xcpy` of one thread (R329). -/
def xcpyOne (f : FXcpy) (s : State) (e : Env) (t : Thread) : State :=
  let i := Instr.xcpy f
  let len := (dst32 e t f.d).toNat
  s.oneShot i e t fun id ms =>
    newCopy e id (.packets f.psel f.port.toNat (256 * 2 ^ f.pkt.val)) ms .mem (quadLo e t f.a : Int) .mem
      (quadHi e t f.a) len false 0 .raw 0 none

/-- `xcpy` (R329). -/
def execXcpy (f : FXcpy) (s : State) : Out := .next (s.issueEach (.xcpy f) (xcpyOne f))

/-! ### Programs (R316 to R318) -/

namespace Desc

/-- Fields of a descriptor (R317). -/
def src (d : BitVec 512) : Nat := (d.extractLsb' 0 64).toNat
def dst (d : BitVec 512) : Nat := (d.extractLsb' 64 64).toNat
def cnt (d : BitVec 512) (j : Nat) : Nat := (d.extractLsb' (128 + 64 * j) 32).toNat
def str (d : BitVec 512) (j : Nat) : Int := (d.extractLsb' (160 + 64 * j) 32).toInt
def aw (d : BitVec 512) : Nat := (d.extractLsb' 390 15).toNat * 16
def awe (d : BitVec 512) : Bool := d.getLsbD 405
def sk (d : BitVec 512) : Option CopySrc :=
  match (d.extractLsb' 406 2).toNat with | 0 => some .mem | 1 => some .ten | 2 => some .ssp | _ => none
def dk (d : BitVec 512) : Option CopyDst :=
  match (d.extractLsb' 408 3).toNat with | 0 => some .mem | 1 => some .spad | 2 => some .dq | 3 => some .fifo | _ => none
def et (d : BitVec 512) : Option CopyEt :=
  match (d.extractLsb' 411 3).toNat with
  | 0 => some .raw | 1 => some .f32 | 2 => some .bf16 | 3 => some .f16 | 4 => some .s32 | _ => none
def dz (d : BitVec 512) : Bool := d.getLsbD 414
def ldef (d : BitVec 512) : Bool := d.getLsbD 415
def lc (d : BitVec 512) : Nat := (d.extractLsb' 416 2).toNat
def unit (d : BitVec 512) : Nat := 4 * ((d.extractLsb' 418 8).toNat + 1)
def ops (d : BitVec 512) : Word64 := d.extractLsb' 448 64
def len (d : BitVec 512) : Nat := unit d * cnt d 0 * cnt d 1 * cnt d 2 * cnt d 3

/-- A count is 0, a value reserved or a must-be-zero bit set (SUB 5). -/
def bad (d : BitVec 512) : Bool :=
  (List.range 4).any (fun j => cnt d j == 0) || (sk d).isNone || (dk d).isNone || (et d).isNone
    || (ldef d && sk d != some .ten) || d.extractLsb' 384 6 != 0 || d.extractLsb' 426 22 != 0

/-- The byte offset from the source base of byte `pos` of the program, and the bytes left in its unit. -/
def place (d : BitVec 512) (pos : Nat) : Int × Nat :=
  let u := pos / unit d
  let i0 := u % cnt d 0
  let i1 := u / cnt d 0 % cnt d 1
  let i2 := u / (cnt d 0 * cnt d 1) % cnt d 2
  let i3 := u / (cnt d 0 * cnt d 1 * cnt d 2)
  ((i0 : Int) * str d 0 + (i1 : Int) * str d 1 + (i2 : Int) * str d 2 + (i3 : Int) * str d 3 + ((pos % unit d : Nat) : Int),
   unit d - pos % unit d)

end Desc

/-- The copy delivers to queue q of a block. -/
def Copy.feeds (c : Copy) (b : BKey) (q : Nat) : Bool := c.block == b && c.dk == .dq && c.dst % 8 == q

/-- Release the queues that are empty and fed by nothing (R316). -/
def Hawk.tidy (h : Hawk) : Hawk :=
  { h with dqs := h.dqs.filter fun p => !p.2.isEmpty || h.copies.any fun c => c.feeds p.1.1 p.1.2 }

/-- The checks of R318 on the descriptor that an `hrun` reads when it issues, its bytes alone (LOG 87): what the program is, or the
fault. While inline decompression is absent, an `hrun` that asks for it is an instruction of that feature (22 R407; LOG 83). -/
def State.hrunRead (s : State) (i : Instr) (e : Env) (addr : Nat) : Except Trap Program :=
  match spadAt e.rcd e.bkey addr 64, s.blocks.find e.bkey with
  | .ok p, some b =>
    if !p.own || addr % 64 != 0 then .error (Trap.address addr)
    else
      let d : BitVec 512 := BitVec.ofNat 512 (b.scratch.le p.off 64)
      let len := Desc.len d
      match Desc.bad d, Desc.sk d, Desc.dk d, Desc.et d with
      | false, some sk, some dk, some et =>
        if Desc.dz d && !e.has 3 then .error (Trap.encoding i.word0)
        else if chainBad et (Desc.ops d).toNat then .error (Trap.hawk 1 (Desc.ops d).toNat)
        else if illFormedCopy e.rcd.scratchBytes len dk et (Desc.ops d).toNat (Desc.awe d) (Desc.aw d) then .error (Trap.hawk 3 len)
        else (s.copySource e sk (Desc.src d) len (Desc.lc d) (Desc.ldef d) (Desc.dz d)).map fun x =>
          { desc := d, src := x.1, lc := x.2 }
      | _, _, _, _ => .error (Trap.hawk 5 addr)
  | _, _ => .error (Trap.address addr)

/-- What an `hrun` goes by: what it read when it issued, or reads now (R318; 01 R17). -/
def State.hrunProgram (s : State) (i : Instr) (e : Env) (t : Thread) (addr : Nat) : Except Trap Program :=
  match t.prog with
  | some x => .ok x
  | none => s.hrunRead i e addr

/-- The program of an `hrun` waits: its slot is busy, or no physical slot, place in the Hawk or physical queue is free (R316,
R318). -/
def State.progWaits (s : State) (e : Env) (k : Nat) (d : BitVec 512) : Bool :=
  let h := (s.cluster e.cl).hawk
  (h.slots.find (e.bkey, k)).isSome || decide (8 ≤ h.slots.length) || s.hawkFull e.cl
    || (Desc.dk d == some .dq && (h.dqs.find (e.bkey, Desc.dst d % 8)).isNone && decide (8 ≤ h.dqs.length))

/-- The copy of a program, for the participants of its crew. -/
def State.progCopy (s : State) (e : Env) (k : Nat) (x : Program) (ks : List TKey) : Copy :=
  let d := x.desc
  let ms := ks.map fun k => (k, match s.threads.find k with | some u => u.openBatch | none => 0)
  newCopy e s.serial (.prog k d) ms ((Desc.sk d).getD .mem) x.src ((Desc.dk d).getD .mem) (Desc.dst d) (Desc.len d) (Desc.dz d) x.lc
    ((Desc.et d).getD .raw) (Desc.ops d) (if Desc.awe d then some (Desc.aw d) else none)

/-- `hrun` for one crew (R318): the program starts, or its crew waits with what it read at issue. -/
def hrunCrew (f : FHrun) (s : State) (e : Env) (t : Thread) (ks : List TKey) : State :=
  let i := Instr.hrun f
  match s.hrunProgram i e t (src32 e t f.a).toNat with
  | .error tr => s.raiseAll i ks tr
  | .ok x =>
    if s.progWaits e f.k.toNat x.desc then
      ks.foldl (fun st k => st.onThread k fun _ u => { u.stall false with prog := some x }) s
    else
      let c := s.progCopy e f.k.toNat x ks
      let s1 := (s.addCopy e.cl c).onCluster e.cl fun y =>
        { y with hawk := { y.hawk with slots := y.hawk.slots.set (e.bkey, f.k.toNat) c.id } }
      ks.foldl (fun st k => st.onThread k fun _ u => (u.join c.id).advance i) s1

/-- `hrun` (R318). -/
def execHrun (f : FHrun) (s : State) : Out := .next (s.issueOnce (.hrun f) (hrunCrew f))

/-! ### Delivery queues (R319) -/

/-- Another crew of the block is ahead among the waiters of queue q. -/
def State.qpopAhead (s : State) (b : BKey) (q order : Nat) : Bool :=
  s.threads.any fun p =>
    match p.2.wait.kind with
    | .qpop q' o => q' == q && decide (o < order) && (s.env p.1).bkey == b
    | _ => false

/-- The place of a thread among the waiters: a new one is last. -/
def Thread.qpopOrder (t : Thread) (now : Nat) : Nat := match t.wait.kind with | .qpop _ o => o | _ => now

/-- Take the head entry of a queue for a crew: its bytes to the participants, or POISON (R319; 21 R393). -/
def State.takeEntry (s : State) (i : Instr) (e : Env) (ks : List TKey) (q : Nat) (x : Entry) (rest : List Entry)
    (w : Bool) (d : BitVec 7) (pr : Option (BitVec 3)) : State :=
  let s1 := s.onCluster e.cl fun c =>
    { c with hawk := ({ c.hawk with dqs := c.hawk.dqs.set (e.bkey, q) rest } : Hawk).tidy }
  if x.mark = 0 then
    ks.foldl (fun st k => st.onThread k fun e t =>
      let t1 := t.put64 e w d (BitVec.ofNat 64 (ofBytes ((x.bytes.drop (8 * e.crank)).take 8)))
      (match pr with | some p => t1.setPred p.toNat true | none => t1).advance i) s1
  else
    ks.foldl (fun st k => st.onThread k fun e t => t.poisoned e i x.mark x.paddr.toNat
      (s1.leafFor (engineWho e.part e.sub e.ctx e.cl) x.paddr.toNat)) s1

/-- `qpop` for one crew. -/
def qpopCrew (f : FQpop) (s : State) (e : Env) (t : Thread) (ks : List TKey) : State :=
  let i := Instr.qpop f
  let q := f.q.toNat
  let h := (s.cluster e.cl).hawk
  let order := t.qpopOrder s.serial
  let wait := ks.foldl (fun (st : State) k => st.onThread k fun _ u =>
    { u with wait := { kind := .qpop q order, counts := false }, chain := none }) s.bump
  match h.dqs.get (e.bkey, q) [] with
  | [] =>
    if h.copies.any fun c => c.feeds e.bkey q then wait
    else s.raiseAll i ks (Trap.hawk 4 q)
  | x :: rest =>
    if s.qpopAhead e.bkey q order || (x.mark != 0 && ks.any fun k => s.draining k) then wait
    else s.takeEntry i e ks q x rest f.w f.d none

/-- `qpop` (R319). -/
def execQpop (f : FQpop) (s : State) : Out := .next (s.issueOnce (.qpop f) (qpopCrew f))

/-- `qpop.try` for one crew. -/
def qpopTryCrew (f : FQpopTry) (s : State) (e : Env) (_ : Thread) (ks : List TKey) : State :=
  let i := Instr.qpopTry f
  let q := f.q.toNat
  match (s.cluster e.cl).hawk.dqs.get (e.bkey, q) [] with
  | x :: rest =>
    if x.mark != 0 && ks.any (fun k => s.draining k) then s.stallAll ks false
    else s.takeEntry i e ks q x rest f.w f.d (some f.pr)
  | [] => ks.foldl (fun st k => st.onThread k fun _ u => (u.setPred f.pr.toNat false).advance i) s

/-- `qpop.try` (R319). -/
def execQpopTry (f : FQpopTry) (s : State) : Out := .next (s.issueOnce (.qpopTry f) (qpopTryCrew f))

/-! ### Reading for a copy (R312, R313, R317, R327, R328) -/

def State.setCopy (s : State) (cl : Nat) (c : Copy) : State :=
  s.onCluster cl fun x => { x with hawk := { x.hawk with copies := x.hawk.copies.map fun y => if y.id = c.id then c else y } }

/-- A copy stops: it keeps FAULT, and its members' batches the cause of the first fault (R313, R322). -/
def State.stopCopy (s : State) (cl : Nat) (c : Copy) (cause : Nat) : State :=
  if c.stopped then s
  else c.members.foldl (fun st m => st.onThread m.1 fun _ t =>
    { t with batches := t.batches.upd m.2 fun b => b.fault cause }) (s.setCopy cl c.stop)

/-- The context of a launch on a cluster, for its engines. -/
def State.launchWho (s : State) (launch cl : Nat) : Who :=
  match s.launches.find launch with
  | some l => engineWho l.part l.sub l.record.ctx cl
  | none => engineWho 0 0 0 cl

/-- What a read for an engine finds. -/
inductive HGot where
  | bytes (bs : List HByte)
  | stop (cause : Nat)
  | page (pages : List (Nat × Bool))
  | wait
  deriving DecidableEq, Repr

/-- The marked bytes of gathered pieces. -/
def hBytes : List (Got × Piece0) → HGot
  | [] => .bytes []
  | (g, p) :: rest =>
    match g, hBytes rest with
    | .refused, _ => .stop 0x08
    | .wait, _ => .wait
    | .bytes bs m, .bytes r =>
      .bytes (bs.map (fun b => ({ b := b, mark := m, pa := BitVec.ofNat 64 (if m = 0 then 0 else alignDown p.2.1 32) } : HByte)) ++ r)
    | .bytes .., x => x

/-- Read pieces for an engine: after entries of its cluster's store queue numbered below `before` that they overlap, and
as the read budget admits (R312; 21 R376). -/
def State.readFor (s : State) (cl before : Nat) (c : Client) (w : Who) (owner : Nat) (ps : List Piece0) : HGot × State :=
  if ps.any (fun p => ((s.cluster cl).sq.any fun y => decide (y.id < before) && y.meets p.1 p.2.2)
      || (match p.1 with | .home a => s.homeWaits a | _ => false)) then (.wait, s)
  else
    let r := s.readPieces w.part w.sub owner 3 ps
    if !r.1 then (.wait, r.2)
    else
      let s1 := ps.foldl (State.askPeer c owner) r.2
      (hBytes (ps.map fun p => (s1.readPiece c p, p)), s1)

/-- Read `n` source bytes of a copy at an address, at most 1,024. -/
def State.copyRead (s : State) (cl : Nat) (c : Copy) (addr : Int) (n : Nat) : HGot × State :=
  let owner := (s.recOf c.launch).owner
  let w := s.launchWho c.launch cl
  if c.sk = .ssp then
    let a := wrap addr 32
    match spadAt (s.recOf c.launch) c.block a n with
    | .error _ => (.stop 0x06, s)
    | .ok p => s.readFor cl c.id (.copy cl c.id) w owner (spadPieces p a n)
  else
    match s.checkRead (.copy cl c.id) w addr n false with
    | (.fault tr, s1) => (.stop tr.cause.toNat, s1)
    | (.absent pages, s1) => (.page pages, s1)
    | (.wait, s1) => (.wait, s1)
    | (.ok ps, s1) => s1.readFor cl c.id (.copy cl c.id) w owner ps

/-- Read a run of any length, 1,024 bytes at a time. -/
def State.copyReadLong (cl : Nat) (c : Copy) : Nat → Int → Nat → State → HGot × State
  | 0, _, _, s => (.bytes [], s)
  | fuel + 1, addr, n, s =>
    if n = 0 then (.bytes [], s)
    else
      let k := min n 1024
      match s.copyRead cl c addr k with
      | (.bytes bs, s1) =>
        match State.copyReadLong cl c fuel (addr + k) (n - k) s1 with
        | (.bytes r, s2) => (.bytes (bs ++ r), s2)
        | x => x
      | x => x

/-- Where byte `pos` of a copy's source lies, and how many bytes follow it there. -/
def Copy.place (c : Copy) : Int × Nat :=
  match c.kind with
  | .prog _ d => if c.dz then (c.src + c.pos, c.len - c.pos) else (c.src + (Desc.place d c.pos).1, (Desc.place d c.pos).2)
  | _ => (c.src + c.pos, c.len - c.pos)

/-- A unit that a Lath base die can convert lies in device memory (R328). -/
def convertible (s : State) (w : Who) (ub : Int) : Bool :=
  match (s.check w ub 1024 false false).1 with
  | .ok ps => ps.all fun p => match p.1 with | .home a => inDevice a | _ => false
  | _ => true

/-- Read the next source bytes of a copy that takes no packed blocks. -/
def State.readPlain (s : State) (cl : Nat) (c : Copy) : HGot × State :=
  let at_ := c.place
  let left := min at_.2 (c.len - c.pos)
  if c.lc = 0 then s.copyRead cl c at_.1 (min left (32 - (at_.1 % 32).toNat))
  else
    let o := (at_.1 % 1024).toNat
    let ub := at_.1 - o
    if c.sk == .ssp || !convertible s (s.launchWho c.launch cl) ub then (.stop 0x08, s)
    else
      match s.copyRead cl c ub 1024 with
      | (.bytes unit, s1) =>
        (.bytes ((List.range (min left (1024 - o))).map fun k =>
          unit.getD (layoutFrom c.lc (o + k)) { b := 0, mark := 0, pa := 0 }), s1)
      | x => x

/-- The address of a copy's packed run at the block it is at. -/
def Copy.blockAddr (c : Copy) : Int := c.src + c.zsrc

/-- Zeros with a mark. -/
def markedZeros (n : Nat) (mark : BitVec 2) (pa : Word64) : List HByte := rep n { b := 0, mark := mark, pa := pa }

/-- The copy stops reading: zeros with a mark follow (R327). -/
def Copy.die (c : Copy) (mark : BitVec 2) (pa : Word64) : Copy := { c with dead := some (mark, pa), raw := [] }

/-- Take one packed block (R327): what is known of its header and body. -/
def Copy.takeBlock (c : Copy) (h : PackHead) (body : List HByte) : Copy :=
  let hdr : Word64 := BitVec.ofInt 64 c.blockAddr
  let m := marksOf (body.take (2 * h.dcnt + h.codLen))
  let left := c.len - c.pos
  let go := fun (c : Copy) (bs : List HByte) =>
    { c with raw := c.raw ++ bs.take left, pos := c.pos + min left h.rawLen, zsrc := c.zsrc + 16 + h.body }
  if m.1 != 0 then go c (markedZeros h.rawLen m.1 m.2)
  else
    match packWords h (body.map (·.b)) with
    | none => (c.flag 3).die 2 hdr
    | some ws =>
      let bytes := ws.flatMap fun w => toBytes 2 w
      if fletcher ws = h.check then go c (bytes.map fun b => { b := b, mark := 0, pa := 0 })
      else go (c.flag 2) (bytes.map fun b => { b := b, mark := 2, pa := hdr })

/-- Read for a copy of packed blocks: one block. -/
def State.readPacked (s : State) (cl : Nat) (c : Copy) : (Copy ⊕ HGot) × State :=
  match s.copyRead cl c c.blockAddr 16 with
  | (.bytes hb, s1) =>
    let m := marksOf hb
    let h := packHead (hb.map (·.b))
    if m.1 != 0 then (.inl (c.die m.1 m.2), s1)
    else if !h.ok then (.inl ((c.flag 3).die 2 (BitVec.ofInt 64 c.blockAddr)), s1)
    else
      match State.copyReadLong cl c (h.body / 1024 + 1) (c.blockAddr + 16) h.body s1 with
      | (.bytes body, s2) => (.inl (c.takeBlock h body), s2)
      | (x, s2) => (.inr x, s2)
  | (x, s1) => (.inr x, s1)

/-- Put the bytes read through the chain. -/
def Copy.convert (c : Copy) : Copy :=
  let r := applyChain c.et c.ops.toNat c.raw
  { c with out := c.out ++ r.1, raw := r.2 }

/-- Sources of fault requests: a cluster's Hawk, its matrix engines. -/
def srcHawk (cl : Nat) : Nat := 4000 + cl
def srcMatrix (cl : Nat) : Nat := 5000 + cl

/-- A read did not give bytes: the copy stops, waits for a page, or waits. -/
def State.readFailed (s : State) (cl : Nat) (c : Copy) (wr : Bool) (g : HGot) : State :=
  match g with
  | .stop cause => s.stopCopy cl c cause
  | .page pages =>
    let r := s.requestPages (srcHawk cl) (s.launchWho c.launch cl) wr [] pages
    r.2.setCopy cl { c with tokens := r.1 }
  | _ => s

/-- The Hawk reads for a copy (R312): the next granule, converted unit or packed block. The zeros of a copy that has stopped
reading go to the output as they are, past its chain, and symbols of the block with the FORMAT error are none of it (R327; LOG 88). -/
def State.hawkRead (s : State) (cl : Nat) (c : Copy) : State :=
  match c.dead with
  | some (m, pa) =>
    s.setCopy cl { c with out := c.out ++ markedZeros (min 1024 (c.total - c.put - c.out.length)) m pa }
  | none =>
    if c.len ≤ c.pos then s
    else if c.dz then
      match s.readPacked cl c with
      | (.inl c1, s1) => (s1.forget (.copy cl c.id)).setCopy cl c1.convert
      | (.inr g, s1) => s1.readFailed cl c false g
    else
      match s.readPlain cl c with
      | (.bytes bs, s1) =>
        (s1.forget (.copy cl c.id)).setCopy cl ({ c with raw := c.raw ++ bs, pos := c.pos + bs.length } : Copy).convert
      | (g, s1) => s1.readFailed cl c false g

/-! ### Delivering (R312, R317, R323, R325, R329) -/

/-- Set the status flags for bytes delivered with a mark (R322): none of a multicast that no receiver accepted. -/
def Copy.delivered (c : Copy) (n : Nat) (mark : BitVec 2) : Copy :=
  let c1 := { c with put := c.put + n, out := c.out.drop n }
  if mark = 0 then c1 else if mark = 1 then (c1.flag 4).flag 7 else c1.flag 4

/-- Deliver to memory: one granule piece through the store queue. The spec gives no size of a Hawk write: the model writes at most 32
bytes at once, each piece charged on its own (LOG 97). -/
def State.putMem (s : State) (cl : Nat) (c : Copy) : State :=
  let a := c.dst + c.put
  let n := min c.out.length (32 - a % 32)
  let w := s.launchWho c.launch cl
  let owner := (s.recOf c.launch).owner
  match s.check w (a : Int) n true false with
  | (.fault tr, s1) => s1.stopCopy cl c tr.cause.toNat
  | (.absent pages, s1) => s1.readFailed cl c true (.page pages)
  | (.wait, s1) => s1
  | (.ok ps, s1) =>
    let cs := chargesOf (sectorsOf (ps.map (·.1)) (ps.map (·.2.2)))
    if (s1.refusedStack true w.part w.sub cs).isSome || !(s1.cluster cl).sqRoom 1 then s1
    else
      let m := marksOf (c.out.take n)
      let s2 := s1.makeCharge true w.part w.sub owner cs
      let x : SqEntry :=
        { id := 0, key := { launch := c.launch, wid := 0 }, who := none, bill := { part := w.part, sub := w.sub, owner := owner, ctx := w.ctx },
          counted := false, copy := some c.id, strm := none, prio := 3,
          loc := (ps.map (·.1)).headD (.home 0), va := a, n := n, port := none, tag := none,
          op := .write ((c.out.take n).map (·.b)) m.1 }
      (s2.enqueue cl x).setCopy cl (c.delivered n m.1)

/-- Deliver to a scratchpad: the bytes, then their count (R323). They go straight to it: R312 sends a copy's writes through the
store queue under 05 R110 and 01 R16, which name writes to memory alone (LOG 86). -/
def State.putSpad (s : State) (cl : Nat) (c : Copy) : State :=
  let a := (c.dst + c.put) % 2 ^ 32
  let n := min c.out.length (32 - a % 32)
  match spadAt (s.recOf c.launch) c.block a n with
  | .error _ => s.stopCopy cl c 0x06
  | .ok p =>
    let m := marksOf (c.out.take n)
    let s1 := s.onBlock p.block fun b =>
      let b1 := b.write p.off ((c.out.take n).map (·.b)) m.1
      match c.aw with | some w => b1.count w n | none => b1
    s1.setCopy cl (c.delivered n m.1)

/-- An entry made of the next bytes of a copy. -/
def Copy.entry (c : Copy) (n : Nat) : Entry :=
  let m := marksOf (c.out.take n)
  { bytes := (c.out.take n).map (·.b), mark := m.1, paddr := m.2 }

/-- Deliver an entry to a delivery queue: it waits for a physical queue and for room (R316, R317). -/
def State.putDq (s : State) (cl : Nat) (c : Copy) : State :=
  let h := (s.cluster cl).hawk
  let k := (c.block, c.dst % 8)
  let q := h.dqs.get k []
  if c.out.length < 256 || ((h.dqs.find k).isNone && decide (8 ≤ h.dqs.length)) || decide (16 ≤ q.length) then s
  else
    let x := c.entry 256
    (s.onCluster cl fun y => { y with hawk := { y.hawk with dqs := y.hawk.dqs.set k (q ++ [x]) } }).setCopy cl
      (c.delivered 256 x.mark)

/-- The matrix state of a cluster for a block: the block becomes the holder when there is none; none while another
holds (19 R351). -/
def State.holdMatrix (s : State) (cl : Nat) (b : BKey) : Option State :=
  let m := (s.cluster cl).matrix
  match m.holder with
  | some h => if h = b then some s else none
  | none =>
    let w := s.launchWho b.launch cl
    some (s.onCluster cl fun c => { c with matrix := { Matrix.free with holder := some b, part := w.part, ctx := w.ctx } })

/-- Deliver an entry to an operand FIFO (19 R351). -/
def State.putFifo (s : State) (cl : Nat) (c : Copy) : State :=
  if c.out.length < 1024 then s
  else
    match s.holdMatrix cl c.block with
    | none => s.stopCopy cl c 0x11
    | some s1 =>
      let m := (s1.cluster cl).matrix
      let k := c.dst % 4
      let q := m.fifos.get k []
      if 16 ≤ q.length then s1
      else
        let x := c.entry 1024
        (s1.onCluster cl fun y => { y with matrix := { y.matrix with fifos := y.matrix.fifos.set k (q ++ [x]) } }).setCopy cl
          (c.delivered 1024 x.mark)

/-- Deliver a multicast's bytes to every accepted receiver (R325). -/
def State.putMulti (s : State) (cl : Nat) (c : Copy) (acc : List BKey) : State :=
  let off := c.dst + c.put
  let n := min c.out.length (32 - off % 32)
  if (s.recOf c.launch).scratchBytes < off + n then s.stopCopy cl c 0x06
  else
    let m := marksOf (c.out.take n)
    (acc.foldl (fun (st : State) b => st.onBlock b fun x =>
      (x.write off ((c.out.take n).map (·.b)) m.1).count (c.aw.getD 0) n) s).setCopy cl
        (c.delivered n (if acc.isEmpty then 0 else m.1))

/-- The port of a packet, if it reaches the window's peer (R329). -/
def State.packetPort (s : State) (psel : Bool) (port pa : Nat) : Option Nat :=
  match s.rangeOf pa with
  | none => none
  | some r =>
    let p := if psel then port else rgPort r
    if s.portConnected p && ((s.mgmt.image.ports.getD p 0).extractLsb' 8 8).toNat == rgDev r then some p else none

/-- Bytes of a packet that lie together in a peer's address map. A packet whose destination bytes do not lie together is cut there
into smaller packets, by the model's choice (LOG 98). -/
def packetSpan (ps : List Piece0) : Option (Nat × Nat) :=
  match ps with
  | (.peer pa, _, n) :: rest =>
    some (pa, rest.foldl (fun (acc : Nat × Bool) p =>
      match p.1 with
      | .peer b => if acc.2 && b == pa + acc.1 then (acc.1 + p.2.2, true) else (acc.1, false)
      | _ => (acc.1, false)) (n, true) |>.1)
  | _ => none

/-- Bytes of a packet that travel together: those in the peer window that holds its first byte (17 R344). -/
def State.windowSpan (s : State) (pa n : Nat) : Nat :=
  match s.rangeOf pa with
  | some r => min n (rgBase r + rgSize r - pa)
  | none => n

/-- Translate a packet's destination: at most 1,024 bytes a check, so its parts are checked in turn. -/
def State.packetCheck (w : Who) : Nat → Int → Nat → State → Acc × State
  | 0, _, _, s => (.ok [], s)
  | fuel + 1, a, n, s =>
    if n = 0 then (.ok [], s)
    else
      let k := min n 1024
      match s.check w a k true false with
      | (.ok ps, s1) =>
        match State.packetCheck w fuel (a + k) (n - k) s1 with
        | (.ok r, s2) => (.ok (ps ++ r), s2)
        | x => x
      | x => x

/-- The next packet of an `xcpy` enters the cluster's store queue (R329; 01 R16), and leaves through its port in its place there
(17 R344). -/
def State.putPacket (s : State) (cl : Nat) (c : Copy) (psel : Bool) (port size : Nat) : State :=
  let want := min size (c.total - c.put)
  if c.out.length < want then s
  else
    let w := s.launchWho c.launch cl
    match State.packetCheck w 4 ((c.dst + c.put : Nat) : Int) want s with
    | (.fault tr, s1) => s1.stopCopy cl c tr.cause.toNat
    | (.absent pages, s1) => s1.readFailed cl c true (.page pages)
    | (.wait, s1) => s1
    | (.ok ps, s1) =>
      match packetSpan ps with
      | none => s1.stopCopy cl c 0x08
      | some (pa, k) =>
        match s1.packetPort psel port pa with
        | none => s1.stopCopy cl c 0x08
        | some p =>
          let n := s1.windowSpan pa k
          let m := marksOf (c.out.take n)
          let x : SqEntry :=
            { id := 0, key := { launch := c.launch, wid := 0 }, who := none,
              bill := { part := w.part, sub := w.sub, owner := (s1.recOf c.launch).owner, ctx := w.ctx }, counted := false, copy := some c.id,
              strm := none, prio := 3, loc := .peer pa, va := c.dst + c.put, n := n,
              op := .write ((c.out.take n).map (·.b)) m.1, port := some p, tag := none }
          if (s1.cluster cl).sqRoom x.slots then (s1.enqueue cl x).setCopy cl (c.delivered n m.1) else s1

/-- A delivery of a copy that has bytes to deliver. -/
def State.hawkPut (s : State) (cl : Nat) (c : Copy) : State :=
  match c.kind with
  | .multi [] acc => s.putMulti cl c acc
  | .multi _ _ => s
  | .packets psel port size => s.putPacket cl c psel port size
  | _ =>
    match c.dk with
    | .mem => s.putMem cl c
    | .spad => s.putSpad cl c
    | .dq => s.putDq cl c
    | .fifo => s.putFifo cl c

/-- Bytes that make a delivery of the copy. -/
def Copy.ready (c : Copy) : Bool :=
  match c.kind, c.dk with
  | .packets _ _ size, _ => decide (min size (c.total - c.put) ≤ c.out.length) && decide (c.put < c.total)
  | _, .dq => decide (256 ≤ c.out.length)
  | _, .fifo => decide (1024 ≤ c.out.length)
  | _, _ => !c.out.isEmpty

/-- The write budget holds the next bytes of the copy back (R312). -/
def State.budgetHolds (s : State) (cl : Nat) (c : Copy) : Bool :=
  let a := c.dst + c.put
  let w := s.launchWho c.launch cl
  (match c.kind with | .one => true | .prog _ _ => true | _ => false) && c.ready && c.dk == .mem
    && (match (s.check w (a : Int) (min c.out.length (32 - a % 32)) true false).1 with
        | .ok ps => (s.refusedStack true w.part w.sub (chargesOf (sectorsOf (ps.map (·.1)) (ps.map (·.2.2))))).isSome
        | _ => false)

/-- The copy may move: its block is resident, it has not stopped, and no page it waits for is missing. -/
def State.copyMoves (s : State) (c : Copy) : Bool :=
  !c.stopped && s.blockResident c.block
    && !(s.faults.any fun f => c.tokens.contains f.token)

/-- HAWK_DELIVERY: one delivery of a copy, or one read for it. -/
def execHawkDelivery (cl copy : Nat) (s : State) : Out :=
  .next (match (s.cluster cl).hawk.copies.find? fun c => c.id == copy with
    | none => s
    | some c0 =>
      if !s.copyMoves c0 then s
      else
        let c := { c0 with tokens := [] }
        if c.ready then s.hawkPut cl c else s.hawkRead cl c)

/-! ### Multicast acceptance (R325) -/

/-- The resident blocks of a launch on a cluster, in placement order. -/
def State.launchBlocks (s : State) (launch cl : Nat) : List BKey :=
  (sortBy (fun (a b : BKey × Block) => decide (a.2.place < b.2.place))
    (s.blocks.filter fun p => p.1.launch == launch && p.2.cluster == cl && p.2.resident)).map (·.1)

/-- Bytes of some copies accepted for an arrival word and not yet arrived: once for each entry that accepted. -/
def acceptedOf (b : BKey) (aw : Nat) (cs : List Copy) : Nat :=
  (cs.map fun c => match c.kind with
    | .multi _ acc => if c.aw == some aw then acc.count b * (c.len - c.put) else 0
    | _ => 0).foldl (· + ·) 0

/-- Bytes accepted for an arrival word and not yet arrived, from every Hawk and from the copies of saved gangs. -/
def State.acceptedBytes (s : State) (b : BKey) (aw : Nat) : Nat :=
  acceptedOf b aw (s.clusters.flatMap fun p => p.2.hawk.copies) + acceptedOf b aw (s.saved.flatMap fun p => p.2.copies)

/-- The receiver an entry names, when it accepts. Its block counts as being saved (R333) from the moment its gang is asked to save
(LOG 96). -/
def State.receiver (s : State) (cl : Nat) (c : Copy) (x : BitVec 16) : Option BKey :=
  let tgt := (x.extractLsb' 0 6).toNat
  if x.extractLsb' 12 3 ≠ 0 ∨ x.extractLsb' 6 2 ≠ 0 ∨ 48 ≤ tgt then none
  else
    match (s.launchBlocks c.launch (cl / 48 * 48 + tgt))[(x.extractLsb' 8 4).toNat]? with
    | none => none
    | some b =>
      let running := match s.gangs.find { launch := b.launch, gang := (s.recOf b.launch).gangOf b.block } with
        | some g => g.status == .running
        | none => false
      match s.blocks.find b with
      | none => none
      | some y =>
        let w := y.scratch.le (c.aw.getD 0) 16
        if running && awArmed w
            && decide (c.len + s.acceptedBytes b (c.aw.getD 0) ≤ awTarget w - awCount w) then some b
        else none

/-- MULTICAST_ACCEPT: the receiver of an entry decides as one item. -/
def execMulticastAccept (cl copy entry : Nat) (s : State) : Out :=
  .next (match (s.cluster cl).hawk.copies.find? fun c => c.id == copy with
    | none => s
    | some c =>
      match c.kind with
      | .multi entries acc =>
        match entries.find? fun p => p.1 == entry with
        | none => s
        | some p =>
          let rest := entries.filter fun q => q.1 != entry
          match s.receiver cl c p.2 with
          | some b =>
            (s.onBlock b fun x => x.know (c.aw.getD 0)).setCopy cl { c with kind := .multi rest (acc ++ [b]) }
          | none => s.setCopy cl { (c.flag (48 + entry)).flag 5 with kind := .multi rest acc }
      | _ => s)

/-! ### Completion (R331) -/

/-- The copy is complete. -/
def State.copyDone (s : State) (cl : Nat) (c : Copy) : Bool :=
  (c.stopped || decide (c.total ≤ c.put)) && !((s.cluster cl).sq.any fun x => x.copy == some c.id)
    && (match c.kind with | .multi rest _ => c.stopped || rest.isEmpty | _ => true)

/-- COPY_COMPLETE: the copy leaves the Hawk, frees its slot, and reports to its members' batches. -/
def execCopyComplete (cl copy : Nat) (s : State) : Out :=
  .next (match (s.cluster cl).hawk.copies.find? fun c => c.id == copy with
    | none => s
    | some c =>
      if !s.copyDone cl c then s
      else
        let s1 := (s.forget (.copy cl copy)).onCluster cl fun x =>
          { x with hawk := ({ x.hawk with copies := x.hawk.copies.filter fun y => y.id != copy
                                          slots := x.hawk.slots.keep fun _ v => v != copy } : Hawk).tidy }
        c.members.foldl (fun (st : State) m => st.onThread m.1 fun _ t =>
          { t with batches := t.batches.upd m.2 fun b => b.complete copy c.status }) s1)

end Sys2Proof.Machine
end

