-- ==== Sys2Proof/Machine/Issue.lean ====
section
/-!
DEFINITION. What a quarter issues in a slot (02_execution_model.md R38, R39, R45; 04 R93, R94; 06 R143, R153), what a fetch
that finds no instruction does, a waiting thread's instruction again, and the passing of time.
-/

namespace Sys2Proof.Machine

/-! ### Eligibility (02 R38) -/

/-- The physical registers a pending load or logged access will write (06 R142, R424). -/
def State.pendingRegs (s : State) (k : TKey) : List Nat :=
  (s.loads.filter fun l => l.key == k).flatMap (fun l =>
    match l.dst with | some p => upFrom p l.ty.regs | none => [])
  ++ s.log.flatMap fun l => (l.accs.filter fun a => a.key == k).flatMap fun a =>
    match a.dst with | some p => upFrom p l.ty.regs | none => []

/-- The predicates a pending `pchk` will write. -/
def State.pendingPreds (s : State) (k : TKey) : List Nat :=
  (s.loads.filter fun l => l.key == k).flatMap fun l =>
    match l.pred with | some (p, _, _) => p.writes | none => []

/-- Operands of the instruction that are not ready: registers it reads or writes (06 R143; 04 R94). -/
def State.notReady (s : State) (k : TKey) (t : Thread) (i : Instr) : List Nat :=
  match i.shape with
  | none => []
  | some sh =>
    let e := s.env k
    ((sh.regsR ++ sh.regsW).map (t.phys e)).filter (s.pendingRegs k).contains

/-- A predicate the instruction reads or writes is not ready. -/
def State.predsPending (s : State) (k : TKey) (i : Instr) : Bool :=
  match i.shape with
  | none => false
  | some sh => (sh.predsR ++ sh.predsWr).any (s.pendingPreds k).contains

/-- A load in flight waits for an atomic or a patch of its cluster's queue, of its bytes or of the sector it fills: a stall on the
store queue (R108; 02 R42). -/
def State.loadHeld (s : State) (l : PendLoad) : Bool :=
  let c := s.cluster (s.env l.key).cl
  !l.atomic && l.pieces.any fun p => p.got.isNone && p.tag.isNone && (c.holdsBefore l.id p.loc p.n
    || (fillsL1 l.hint && !p.loc.outside && c.holdsBefore l.id p.loc.sector 64))

/-- Bytes in a peer's memory that are reached over a port that is down (17 R342). -/
def State.atDown (s : State) (l : Loc) (port : Option Nat) : Bool :=
  match l with
  | .peer pa => (s.port (port.getD (s.peerOf pa).1)).state == 0
  | _ => false

/-- A tag of a port that is down stands for what meets a test. -/
def State.tagDown (s : State) (p : TagUse → Bool) : Bool :=
  (List.range 8).any fun n => (s.port n).state == 0 && (s.port n).tags.any fun x => p x.2

/-- A load or atomic has a piece outstanding over a port that is down. -/
def State.loadDown (s : State) (l : PendLoad) : Bool := l.pieces.any fun p => p.got.isNone && s.atDown p.loc none

/-- The thread waits for a port that is down (17 R342): for an answer to its sync, for acknowledgements, for bytes of a read, or
for a register or predicate of a load. -/
def State.onDownPort (s : State) (k : TKey) (t : Thread) : Bool :=
  let queued := fun (snap : List Nat) => (s.cluster (s.env k).cl).sq.any fun x => snap.contains x.id && s.atDown x.loc x.port
  let reads := s.tagDown fun u => match u with | .read c _ => c == .thread k | _ => false
  match t.wait.kind with
  | .peerSync tag => (List.range 8).any fun n => (s.port n).state == 0 &&
      (match (s.port n).tags.find tag with | some (.sync k' ..) => k' == k | _ => false)
  | .fence snap => queued snap
  | .flush _ snap => queued snap
  | .again => reads || s.loads.any fun l => l.key == k && s.loadDown l
  | .fetch _ => reads
  | .none =>
    let s1 : State := { s with loads := s.loads.filter fun l => l.key == k && s.loadDown l, log := [] }
    (match s.peek k t with
     | some i => !s1.loads.isEmpty && (!(s1.notReady k t i).isEmpty || s1.predsPending k i)
     | none => false)
  | _ => false

/-- The thread is blocked (02 R42): where it waits, by a load of its own that stalls on the store queue (R108), or by a port that is
down (17 R342). -/
def State.blocked (s : State) (k : TKey) (t : Thread) : Bool :=
  t.wait.counts || s.onDownPort k t || s.loads.any fun l => l.key == k && s.loadHeld l

/-- A thread that is no longer blocked has left its wait: its counter returns to 0 (02 R42). That of a saved thread stands. -/
def State.restCounters (s : State) : State :=
  { s with threads := s.threads.mapAll fun k t =>
      if t.blockCtr != 0 && s.isResident k && !s.blocked k t then { t with blockCtr := 0 } else t }

/-- The instructions a droop freeze holds (21 R385). -/
def heldByFreeze (i : Instr) : Bool :=
  match i with
  | .red f => f.op == .fadd || f.op == .fmin || f.op == .fmax
  | .mtask _ => true
  | .maccReg _ => true
  | .maccSpad _ => true
  | _ =>
    match i.shape with
    | some sh => decide (0x1E ≤ sh.op.toNat) && decide (sh.op.toNat ≤ 0x64)
    | none => false

/-- The gang of a thread. -/
def State.gangOf (s : State) (k : TKey) : Option Gang := s.gangs.find (s.env k).gkey

/-- A crew is reconverged: it is parked at a barrier (10 R250), or its threads stand at one PC, at a chain boundary, none in a
handler (02 R53) or with a trap still to take (02 R58). -/
def State.reconverged (s : State) (c : CKey) : Bool :=
  let ts := s.threads.filter fun p => p.1.launch == c.launch && (s.env p.1).ckey == c
  s.crewParked c ||
    (match ts with
     | [] => true
     | (_, t0) :: _ => ts.all fun p =>
       p.2.pc == t0.pc && !p.2.inHandler && p.2.due.isEmpty && !p.2.inside (s.peek p.1 p.2))

/-- The gang of a crew has been asked to save. -/
def State.asked (s : State) (c : CKey) : Bool :=
  match s.gangs.find { launch := c.launch, gang := (s.recOf c.launch).gangOf c.block } with
  | some g => (match g.status with | .requested .. => true | _ => false)
  | none => false

/-- A crew that becomes reconverged after the request issues nothing more until its restore, whatever moves its threads
afterwards (02 R53). -/
def State.latch (s : State) : State :=
  if s.gangs.any fun p => (match p.2.status with | .requested .. => true | _ => false) then
    { s with crews := s.crews.mapAll fun c x => if s.asked c && s.reconverged c then { x with stopped := true } else x }
  else s

/-- An island of the thread's lane sleeps and the instruction would wake it (21 R384). -/
def State.asleep (s : State) (k : TKey) (i : Instr) : Bool :=
  let e := s.env k
  heldByFreeze i && (match (s.cluster e.cl).islands.find (e.crew % 4, e.crank / 8) with
    | some x => x.skim
    | none => false)

/-- The instruction uses a block store (14 R294 to R298). -/
def usesBlocks (i : Instr) : Bool :=
  match i with
  | .ldt _ | .stt _ | .bdec _ | .bflushBlk _ | .bflushForce _ | .bflushTensor _ | .bflushAll _ | .bstat _ | .bstatDec _ => true
  | _ => false

/-- The fetch that an instruction waits for is over: it has arrived, or has gone. -/
def State.fetchOver (s : State) (cl id : Nat) (st : BlockWait) : Bool :=
  st != .out || !((s.cluster cl).fetches.any fun x => x.id == id)

/-- Accesses to a block take effect in issue order (14 R294): those of an issue numbered `n` come after the accesses of earlier
issues whose fetch is over on the cluster. -/
def State.blockTurn (s : State) (cl n : Nat) : Bool :=
  !(s.threads.any fun p =>
    match p.2.wait.kind with
    | .block id st => s.fetchOver cl id st && decide (p.2.issue < n) && (s.env p.1).cl == cl && s.mayRun p.1
    | _ => false)

/-- The instruction at a thread's PC may execute, as an issue numbered `n`: its operands are ready, its island is awake, and no
droop freeze holds it (02 R38; 21 R384, R385). Where it cannot be read, nothing holds it back. -/
def State.issuable (s : State) (k : TKey) (t : Thread) (n : Nat) : Bool :=
  match s.peek k t with
  | some i =>
    let cl := (s.env k).cl
    (s.notReady k t i).isEmpty && !s.predsPending k i && !s.asleep k i
      && !(heldByFreeze i && (s.cluster cl).freeze.isSome) && (!usesBlocks i || s.blockTurn cl n)
  | none => true

/-- An operand that a chain waits for is not ready (04 R94). -/
def State.awaited (s : State) (a : Await) : Bool :=
  if a.pred then (s.pendingPreds a.key).contains a.n else (s.pendingRegs a.key).contains a.n

/-- The crew of a thread stalls: a fetch of one of its threads waits for a fault request (06 R144). -/
def State.crewFetching (s : State) (k : TKey) : Bool :=
  let c := (s.env k).ckey
  s.threads.any fun p => (match p.2.wait.kind with
    | .fetch (some x) => s.faults.any fun f => f.token == x.1
    | _ => false) && (s.env p.1).ckey == c

/-- The thread is eligible (02 R38). -/
def State.eligible (s : State) (k : TKey) (t : Thread) : Bool :=
  t.wait.kind == .none && t.due.isEmpty && s.mayRun k && !(t.await.any s.awaited) && s.issuable k t s.serial && !s.crewFetching k

/-- The thread stands in the thread table of a quarter; one that is saved stands in none (02 R37, R54). -/
def State.inQuarter (s : State) (cl q : Nat) (k : TKey) : Bool :=
  let e := s.env k
  e.cl == cl && e.crew % 4 == q && s.isResident k

/-- The threads of a quarter. -/
def State.quarterOf (s : State) (cl q : Nat) : List (TKey × Thread) := s.threads.filter fun p => s.inQuarter cl q p.1

/-- Ascending block placement, then crew, then crew rank (02 R45). -/
def State.issueLt (s : State) (a b : TKey) : Bool :=
  let place := fun (k : TKey) => match s.blocks.find (s.env k).bkey with | some x => x.place | none => 0
  let ea := s.env a
  let eb := s.env b
  decide (place a < place b)
    || (place a == place b && (decide (ea.crew < eb.crew) || (ea.crew == eb.crew && decide (ea.crank < eb.crank))))

/-- The run among some eligible threads: those of one launch at the lowest PC, at most 32 (02 R45). Which launch
forms the run is open (LOG 4): the one of the first thread at that PC, or the oracle's. -/
def State.lowestRun (s : State) (c : Nat) (ts : List (TKey × Thread)) : List TKey :=
  match ts with
  | [] => []
  | p :: rest =>
    let lo := rest.foldl (fun m x => min m x.2.pc.toNat) p.2.pc.toNat
    let at_ := ts.filter fun x => x.2.pc.toNat == lo
    let ls := dedup (at_.map fun x => x.1.launch)
    let l := ls.getD (c % max 1 ls.length) 0
    (sortBy s.issueLt ((at_.filter fun x => x.1.launch == l).map (·.1))).take 32

def Cluster.quarter (c : Cluster) (q : Nat) : Quarter := c.quarters.get q { promoted := [] }

/-- The run of the chain in progress in a quarter, of its ordinary threads or of its handlers (04 R93): threads of one issue that
stand inside a chain and whose gang is neither frozen nor saved. The rules do not say what becomes of a chain whose gang is frozen
by a shed or whose crew is parked: the model keeps the chain and its latches, and meanwhile the quarter issues other runs
(LOG 85). -/
def State.chainRun (s : State) (cl q : Nat) (handler : Bool) : List TKey :=
  let ts := (s.quarterOf cl q).filter fun p => p.2.inHandler == handler && s.mayRun p.1 && p.2.inside (s.peek p.1 p.2)
  match ts with
  | [] => []
  | p :: _ => sortBy s.issueLt ((ts.filter fun x => x.2.issue == p.2.issue && x.2.pc == p.2.pc).map (·.1))

/-- Every thread of a chain's run is at hand: none waits for a fetch. -/
def State.atHand (s : State) (ks : List TKey) : Bool :=
  ks.all fun k => match s.threads.find k with | some t => t.wait.kind == .none | none => false

/-- The run of a slot (02 R39, R45; 04 R93; 06 R153): a handler's; the chain in progress; a promoted run; the lowest PC. While a
chain waits for a fetch its quarter issues no other run but a handler's (LOG 19). -/
def State.slotRun (s : State) (c cl q : Nat) : List TKey :=
  let el := (s.quarterOf cl q).filter fun p => s.eligible p.1 p.2
  let hs := el.filter fun p => p.2.inHandler
  let hc := s.chainRun cl q true
  let ch := s.chainRun cl q false
  if !hc.isEmpty && s.atHand hc then hc
  else if !hs.isEmpty then s.lowestRun c hs
  else if !hc.isEmpty then []
  else if !ch.isEmpty then (if s.atHand ch then ch else [])
  else
    let ps := (((s.cluster cl).quarter q).promoted.map fun r => el.filter fun p => r.keys.contains p.1).find? fun r => !r.isEmpty
    match ps with
    | some r => s.lowestRun c r
    | none => s.lowestRun c el

/-! ### Promotion (02 R39) -/

/-- Threads of W blocks carry no age (R38, R39). -/
def Env.ages (e : Env) : Bool := e.rcd.blockClass != 0

/-- Promote a thread whose age has reached 64, with every thread of its launch at its PC in its quarter; a chain in progress
comes to its end first (04 R93). -/
def State.promote (s : State) (k : TKey) : State :=
  match s.threads.find k with
  | none => s
  | some t =>
    let e := s.env k
    let q := e.crew % 4
    let c := s.cluster e.cl
    let qu := c.quarter q
    if t.age < 64 || !e.ages || !s.isResident k || qu.promoted.any (fun r => r.keys.contains k)
        || !(s.chainRun e.cl q false).isEmpty then s
    else
      let r := ((s.quarterOf e.cl q).filter fun p => p.1.launch == k.launch && p.2.pc == t.pc).map (·.1)
      s.bump.setCluster e.cl
        { c with quarters := c.quarters.set q { qu with promoted := qu.promoted ++ [{ no := s.serial, keys := r }] } }

/-- PROMOTION (R39). -/
def execPromotion (launch : Nat) (wid : Word64) (s : State) : Out :=
  .next (s.promote { launch := launch, wid := wid })

/-- A promotion that is due in a quarter. -/
def State.promotionDue (s : State) (cl q : Nat) : Option TKey :=
  if !(s.chainRun cl q false).isEmpty then none
  else
    ((s.quarterOf cl q).find? fun p =>
      decide (64 ≤ p.2.age) && (s.env p.1).ages
        && !(((s.cluster cl).quarter q).promoted.any fun r => r.keys.contains p.1)).map (·.1)

/-! ### A slot -/

/-- What a move comes to: an instruction to execute, or a state. -/
inductive Decision where
  | run (i : Instr) (s : State)
  | done (s : State)

/-- Ages, yields and the promoted runs after a slot that issues `ks` (02 R38; 07 R169). A handler's slot changes no age (06
R153). -/
def State.afterSlot (s : State) (cl q : Nat) (ks : List TKey) : State :=
  let handler := ks.any fun k => match s.threads.find k with | some t => t.inHandler | none => false
  let ts := s.threads.mapAll fun k t =>
    let e := s.env k
    if !s.inQuarter cl q k then t
    else if ks.contains k then (if handler then t else { t with age := 0 })
    else
      match t.wait.kind with
      | .yield n => if ks.isEmpty then { t with wait := { kind := .yield (n + 1), counts := false } }
          else { t with wait := Wait.idle }
      | _ => if e.ages && !handler && s.eligible k t then { t with age := t.age + 1 } else t
  let c := s.cluster cl
  let qu := c.quarter q
  let qu1 : Quarter :=
    { promoted := if handler then qu.promoted
        else without ks.contains qu.promoted }
  { s with threads := ts, clusters := s.clusters.set cl { c with quarters := c.quarters.set q qu1 } }

/-- Islands whose lanes issue a held instruction are not idle (21 R384). -/
def State.busyIslands (s : State) (cl : Nat) (ks : List TKey) (i : Instr) : State :=
  if heldByFreeze i then
    s.onCluster cl fun c => { c with islands := ks.foldl (fun m k =>
      let e := s.env k
      m.upd (e.crew % 4, e.crank / 8) fun x => { x with idleNs := 0 }) c.islands }
  else s

/-- The primary opcode of an opcode word is a short instruction's (04 R88). -/
def shortWord (w : Word32) : Bool :=
  let op := fld w.toNat 0 7
  decide (0x1E ≤ op) && decide (op ≤ 0x64) && !(op == 0x58 || op == 0x59 || op == 0x5A)

/-- An opcode word of a short instruction names a latch as a source (04 R79; the opcodes without A or B, 07 R173, 08
R188). -/
def latchWord (w : Word32) : Bool :=
  let op := fld w.toNat 0 7
  let latch := fun (x : Nat) => decide (0x70 ≤ x) && decide (x ≤ 0x77)
  shortWord w && ((latch (fld w.toNat 14 7) && op != 0x1E && op != 0x41)
    || (latch (fld w.toNat 7 7) && !([0x1E, 0x34, 0x38, 0x41, 0x56, 0x57, 0x5D, 0x5E, 0x64] : List Nat).contains op))

/-- The instruction at a thread's PC goes on with the chain in progress, by its opcode word (04 R90). Where not even that word is
at hand, a chain in progress counts as going on, unless no instruction could follow it (04 R92; LOG 19). -/
def Thread.insideAt (t : Thread) (op : Option Word32) : Bool :=
  match t.chain, op with
  | some _, some w => latchWord w
  | some c, none => !c.headSelf
  | none, _ => false

/-- Where a trap that the fetch of an instruction meets stands (04 R76, R94, R95; LOG 14). -/
def Thread.wordAt (t : Thread) (op : Option Word32) : TrapAt :=
  { tpc := if t.insideAt op then (match t.chain with | some c => c.head | none => t.pc) else t.pc, ipc := t.pc, defer := false,
    chain := match op with | some w => shortWord w && (!latchWord w || t.chain.isSome) | none => t.insideAt op, resume := 0 }

/-- Raise a trap at an instruction that could not be fetched or decoded. While earlier loads are outstanding the thread stands, at
its chain's head inside a chain, and takes the trap after them (06 R149). -/
def Thread.raiseWord (e : Env) (t : Thread) (op : Option Word32) (tr : Trap) : Thread :=
  if e.drain then (if t.insideAt op then t.rewind else t).holdTrap tr (t.wordAt op)
  else t.enterTrap e tr (t.wordAt op)

/-- The same for a marked word (21 R393): a UE mark kills the gang, a DATA mark raises POISON. -/
def Thread.markedWord (e : Env) (t : Thread) (op : Option Word32) (m : BitVec 2) (a : Nat) (leaf : Option UsedLeaf) :
    Thread :=
  if m = 1 then
    (if e.drain then (if t.insideAt op then t.rewind else t).stall false else t.consumeUe e a leaf (t.wordAt op))
  else t.raiseWord e op (Trap.poison a)

/-- Wait for a fetch: the chain in progress stays in progress (04 R94 names no such switch). -/
def Thread.fetchWait (t : Thread) (p : Option (Nat × Nat)) : Thread := { t with wait := { kind := .fetch p, counts := false } }

/-- Something happens at the instruction of each thread of a run; inside a chain it is a forced switch, and the generator's
counter goes back (04 R94). -/
def State.strikeRun (s : State) (ks : List TKey) (op : Option Word32) (f : Env → Thread → Thread) : State :=
  let inside := ks.any fun k => match s.threads.find k with | some t => t.insideAt op | none => false
  let s1 := if inside then { ({ s with run := ks } : State).rewindRng with run := s.run } else s
  ks.foldl (fun st k => st.onThread k f) s1

/-- A fetch that finds no instruction: each thread of the run traps, waits for the page, or is killed (04 R76; 06
R144; 21 R393). -/
def State.fetchFails (s : State) (ks : List TKey) (f : AtPc) : State :=
  match f with
  | .instr _ => s
  | .illegal w => s.strikeRun ks (some w) fun e t => t.raiseWord e (some w) (Trap.encoding w)
  | .stop op x =>
    match x with
    | .word _ => s
    | .trap tr => s.strikeRun ks op fun e t => t.raiseWord e op tr
    | .marked m a => s.strikeRun ks op fun e t => t.markedWord e op m a (s.leafFor e.who a)
    | .page va illf =>
      match ks with
      | [] => s
      | k :: _ =>
        let e := s.env k
        let r := s.requestPage (srcQuarter e.cl (e.crew % 4)) e.who (s.crewTokens e.ckey) va false true illf
        ks.foldl (fun st k => st.onThread k fun _ t => t.fetchWait (some (r.1, va))) r.2
    | .wait => ks.foldl (fun st k => st.onThread k fun _ t => t.fetchWait none) s

/-- Execute at the PC of a run: fetch once, for its first thread; the threads are of one launch at one PC. `n` is the number of
the issue. -/
def State.issueRun (s : State) (cl n : Nat) (ks : List TKey) : Decision :=
  match ks with
  | [] => .done s
  | k :: _ =>
    match s.threads.find k with
    | none => .done s
    | some t =>
      let mark := fun (s : State) => (ks.foldl (fun st k => st.onThread k fun _ u => { u with issue := n, await := [] }) s).bump
      match s.fetchInstr (s.env k) t.pc with
      | (.instr i, s1) => .run i { mark ((s1.forget (.thread k)).busyIslands cl ks i) with run := ks }
      | (f, s1) => .done (((mark s1).fetchFails ks f).reap)

/-- What the threads of a run lack at their instruction: the registers and predicates that are not ready. -/
def State.lacks (s : State) (ks : List TKey) : List Await :=
  ks.flatMap fun k =>
    match s.threads.find k with
    | none => []
    | some t =>
      match s.peek k t with
      | none => []
      | some i =>
        let ps := match i.shape with | some sh => (sh.predsR ++ sh.predsWr).filter (s.pendingPreds k).contains | none => []
        (s.notReady k t i).map (fun n => { key := k, pred := false, n := n }) ++ ps.map fun n => { key := k, pred := true, n := n }

/-- A forced switch: the threads return to their chain's head and wait for what any of them lacks (04 R94). -/
def State.forcedSwitch (s : State) (ks : List TKey) (as : List Await) : State :=
  ks.foldl (fun st k => st.onThread k fun _ t => { t with await := as }) (s.switchChain ks)

/-- One slot of a quarter (02 R38, R45). A chain whose operands are not ready is a forced switch (04 R94); one that the droop
freeze or a sleeping island holds lets the slot pass. -/
def State.slot (s : State) (cl q : Nat) : Decision :=
  match s.promotionDue cl q with
  | some k => .done (s.promote k)
  | none =>
    let (c, s0) := s.choose
    let ks := s0.slotRun c cl q
    let as := s0.lacks ks
    if !as.isEmpty then .done ((s0.afterSlot cl q []).forcedSwitch ks as)
    else
      let held := ks.any fun k => match s0.threads.find k with | some t => !s0.eligible k t | none => false
      let run := if held then [] else ks
      (s0.afterSlot cl q run).issueRun cl s0.serial run

/-! ### A waiting thread executes its instruction again -/

/-- A thread of a page that will not come may raise PAGE: no thread of its issue that is to raise it too drains (06 R149). -/
def State.pageReady (s : State) (t : Thread) : Bool :=
  !(s.threads.any fun p => p.2.issue == t.issue
    && (match p.2.wait.kind with | .pageFail _ => s.draining p.1 | _ => false))

/-- The chain in progress in a thread's quarter lets the thread execute its instruction again: there is none, or the thread is a
handler's and the chain is not at hand or not a handler's (04 R93). -/
def State.chainLets (s : State) (k : TKey) (t : Thread) : Bool :=
  let e := s.env k
  let hc := s.chainRun e.cl (e.crew % 4) true
  if t.inHandler then hc.isEmpty || !s.atHand hc else hc.isEmpty && (s.chainRun e.cl (e.crew % 4) false).isEmpty

/-- A waiting thread may issue its instruction again: nothing that holds a fresh issue of it holds it (02 R38; 04 R93; 06 R144). -/
def State.reissuable (s : State) (k : TKey) (t : Thread) : Bool :=
  s.issuable k t t.issue && s.chainLets k t && !s.crewFetching k

/-- The thread's wait may be attempted again. -/
def State.resumable (s : State) (k : TKey) (t : Thread) : Bool :=
  s.mayRun k && t.due.isEmpty &&
    (match t.wait.kind with
     | .again => s.reissuable k t
     | .store => s.reissuable k t
     | .fence _ => s.reissuable k t
     | .flush _ _ => s.reissuable k t
     | .qpop _ _ => s.reissuable k t
     | .block id st => s.fetchOver (s.env k).cl id st && s.reissuable k t
     | .page tok _ => !(s.faults.any fun f => f.token == tok) && s.reissuable k t
     | .fetch none => true
     | .fetch (some p) => !(s.faults.any fun f => f.token == p.1)
     | .pageFail _ => s.pageReady t
     | .bar b ph => (s.barrier b).phase != ph
     | _ => false)

/-- The threads of a thread's issue that stand with it at one PC, may go on, and wait in a way that meets a test. -/
def State.mates (s : State) (t : Thread) (p : WaitKind → Bool) : List TKey :=
  sortBy s.issueLt ((s.threads.filter fun x => x.2.issue == t.issue && x.2.pc == t.pc && s.resumable x.1 x.2
    && p x.2.wait.kind).map (·.1))

/-- The opcode word at a thread's PC, when it can be fetched. -/
def State.opAt (s : State) (k : TKey) (t : Thread) : Option Word32 :=
  match (s.fetchInstr (s.env k) t.pc).1 with
  | .instr i => some i.word0
  | .illegal w => some w
  | .stop op _ => op

/-- Execute again at a waiting thread: with the threads of its issue that wait at its PC and can go on (02 R46; LOG 22). A
thread whose fetch may go on issues in a slot of its quarter. -/
def State.again (s : State) (k : TKey) : Decision :=
  match s.threads.find k with
  | none => .done s
  | some t =>
    if !s.resumable k t then .done s
    else
      match t.wait.kind with
      | .fetch _ => .done (s.setThread k { t with wait := Wait.idle })
      | .pageFail _ =>
        let ks := s.mates t fun w => match w with | .pageFail _ => true | _ => false
        .done (s.strikeRun ks (s.opAt k t) fun e u =>
          match u.wait.kind with
          | .pageFail va => u.raiseWord e (s.opAt k t) (Trap.page va)
          | _ => u).reap
      | _ => s.issueRun (s.env k).cl t.issue (s.mates t fun w => match w with | .pageFail _ | .fetch _ => false | _ => true)

/-! ### Time (01 R19; 06 R159) -/

/-- A droop freeze holds the thread's next instruction (21 R385). -/
def State.iced (s : State) (k : TKey) (t : Thread) : Bool :=
  (s.cluster (s.env k).cl).freeze.isSome && (s.peek k t).any heldByFreeze

/-- The thread's blocking counter runs: its gang is not saved or frozen (02 R42; 21 R390), its crew not parked (10 R250), and no
droop freeze holds it (21 R385). -/
def State.counting (s : State) (k : TKey) (t : Thread) : Bool :=
  !s.crewParked (s.env k).ckey && !s.iced k t &&
  match s.gangOf k with
  | some g => !g.frozen && (match g.status with | .saved _ => false | _ => true)
  | none => true

/-- Owners with a gang on a cluster (21 R383). -/
def State.ownersOn (s : State) (cl : Nat) : List Nat :=
  dedup ((s.blocks.filter fun p => p.2.cluster == cl && p.2.resident).map fun p => (s.recOf p.1.launch).owner)

/-- The cluster's clock runs: its bay has reported ready and the rails are on (06 R159; 21 R391; 22 R408). -/
def State.clocked (s : State) (cl : Nat) : Bool := s.readyBit (18 + cl / 4) && !s.thermal.railsOff

/-- Up to `m` cycles pass on a cluster whose clock runs. The owners' work on it takes energy, of which the spec says no more than that
it is estimated: a free value (21 R383; LOG 9). The clock stands at the end of a droop freeze until the freeze has ended (21
R385). -/
def State.passCycles (s : State) (cl m : Nat) : State :=
  if !s.clocked cl then s
  else
  let c := s.cluster cl
  let n := match c.freeze with | some left => min m left | none => m
  let s1 := { s with
    threads := s.threads.mapAll fun k t =>
      if (s.env k).cl == cl && s.blocked k t && s.counting k t then { t with blockCtr := t.blockCtr + n } else t
    clusters := s.clusters.set cl { c with cyc := c.cyc + n, freeze := c.freeze.map (· - n) } }
  let s2 := (s.ownersOn cl).foldl (fun st o =>
    (st.charge o fun u => { u with ccyc := u.ccyc + BitVec.ofNat 64 n }).energy o) s1
  match c.matrix.holder with
  | some b =>
    if c.matrix.tasks.any (·.running) then
      let o := (s.recOf b.launch).owner
      (s2.charge o fun u => { u with mbusy := u.mbusy + BitVec.ofNat 64 n }).energy o
    else s2
  | none => s2

/-- Nanoseconds until a die's next write-budget window (09 R226): its clock stands at the boundary until the window
has changed. -/
def State.toWindow (s : State) (die : Nat) : Nat := (s.windows.get die 0 + 1) * 10000 - s.ns die

/-- The 16 islands of a cluster (21 R384). -/
def islandKeys : List (Nat × Nat) := (List.range 4).flatMap fun q => (List.range 4).map fun i => (q, i)

/-- Every island of a cluster has issued nothing held for `k` ns more. -/
def Cluster.idle (c : Cluster) (k : Nat) : Cluster :=
  { c with islands := islandKeys.foldl (fun m i =>
      let x := m.get i { skim := false, idleNs := 0 }
      m.set i { x with idleNs := x.idleNs + k }) c.islands }

/-- Up to `n` ns pass on a die scheduler's clock. -/
def State.passNs (s : State) (die n : Nat) : State :=
  let k := min n (s.toWindow die)
  { s with
    dieNs := s.dieNs.set die (s.ns die + k)
    clusters := s.clusters.mapAll fun cl c =>
      if cl / 48 == die then c.idle k else c
    gov := if die = 0 then { s.gov with sinceNs := s.gov.sinceNs + k } else s.gov }

/-! ### Placing one instruction (notes/assumptions/7.md) -/

/-- The launch record of a placed instruction: one thread with a trap reserve, CODE 0x1000, TVEC 0x2000, every level
of class C, every register, no scratchpad. -/
def placedRecord : Rec :=
  BitVec.ofNat 2048 (0x1000 + 0x2000 * 2 ^ 64 + 1 * 2 ^ 292 + 1 * 2 ^ 295 + 0xAAA * 2 ^ 298 + 3 * 2 ^ 320 + 2 ^ 322)

/-- Bytes of some words. -/
def wordBytes (ws : List Word32) : List Byte := ws.flatMap fun w => toBytes 4 w.toNat

/-- Page tables that map the first GiB of context 0 onto itself, at 1 MiB: the root table, then one table for each of
the walk levels 0, 1 and 2. -/
def placedTables (m : Cells 8) : Cells 8 :=
  (((m.setBytes 0x100000 (toBytes 8 (0x102000 + 8))).setBytes 0x102000 (toBytes 8 (0x103000 + 1))).setBytes 0x103000
    (toBytes 8 (0x104000 + 1))).setBytes 0x104000 (toBytes 8 0xF)

/-- A loaded program of one instruction, about to issue: launch 0 with one thread on cluster 0, its code at 0x1000,
the stack ready and every feature accepted. -/
def State.placeWords (s : State) (ws : List Word32) : State :=
  let b : BKey := { launch := 0, block := 0 }
  let sub0 : SubCfg := { s.sub 0 0 with live := (s.live 0 0).put 0x068 8 0x100000 }
  let part0 : Partition := { s.part 0 with subs := (s.part 0).subs.set 0 sub0 }
  let launch0 : Launch :=
    { record := placedRecord, detail := 0, atCpl := true, part := 0, sub := 0, queue := 0, status := .running, pending := [], retired := 0,
      relaunches := 0, token := none }
  let gang0 : Gang :=
    { status := .running, kills := 0, frozen := false, shedAt := none, quantumAt := 0, die := 0 }
  let s1 : State :=
    { s with mem := (placedTables s.mem).setBytes 0x1000 (wordBytes ws)
             launches := s.launches.set 0 launch0
             gangs := s.gangs.set { launch := 0, gang := 0 } gang0
             parts := s.parts.set 0 part0
             mgmt := { s.mgmt with ready := s.mgmt.ready ||| 4, accept := s.mgmt.accept ||| 0x3F }
             tlb := []
             roots := []
             agenda := .issue 0 0 :: s.agenda }
  (s1.startBlock 0 placedRecord 0 0 0 0).onBlock b fun x => { x with resident := true }

end Sys2Proof.Machine
end

