-- ==== Sys2Proof/Machine/Matrix.lean ====
section
/-!
DEFINITION. The matrix engines (19_matrix_engine.md R351 to R365): tasks, their steps with the checksum test, scale reads,
`mtask`, `mwait` and `macc`.
-/

namespace Sys2Proof.Machine

/-! ### Formats (R352, R353) -/

/-- The K elements of a step and the slot kind of a pair of element types. -/
def pairOf (a b : Nat) : Option (Nat × SlotKind) :=
  let fp8 := fun (x : Nat) => x == 0xC || x == 0xD
  if a = 0xB ∧ b = 0xB then some (4, .fp64)
  else if a = 0x9 ∧ b = 0x9 then some (16, .fp32)
  else if (fp8 a || a == 0xF) && fp8 b then some (32, .fp32)
  else if a = 0x0 ∧ b = 0x0 then some (32, .s32)
  else if a = 0xE ∧ b = 0xE then some (64, .s32)
  else none

/-- The conditions of R352 on the entry of an operand. -/
def operandFits (x y : TEntry) : Bool :=
  (x.fmt == 0 || x.fmt == 2)
    && (!((x.etype == 0 && y.etype == 0) || (x.etype == 0xE && y.etype == 0xE)) || x.fmt == 0)

/-- `n` bytes of an entry at an offset, as a number. -/
def entryAt (x : List Byte) (off n : Nat) : Nat := ofBytes ((x.drop off).take n)

/-- Element k of row or column r of an entry (R353); `t` is the step's place in a CB16 entry. -/
def element (ty : Nat) (x : List Byte) (t r k : Nat) : FVal :=
  match ty with
  | 0x0 => ofInt (sext (entryAt x (32 * r + k) 1) 8)
  | 0xC => fval Fmt.e4m3 (entryAt x (32 * r + k) 1)
  | 0xD => fval Fmt.e5m2 (entryAt x (32 * r + k) 1)
  | 0x9 => fval Fmt.bf16 (entryAt x (32 * r + 2 * k) 2)
  | 0xB => fval Fmt.f64 (entryAt x (32 * r + 8 * k) 8)
  | 0xE => ofInt (sext (fld (entryAt x (32 * r + k / 2) 1) (4 * (k % 2)) 4) 4)
  | _ => cb16Val ((cb16 (entryAt x (32 * r + 2 * (4 * t + k / 8)) 2)).getD (k % 8) 0)

/-- The 32 rows or columns of a step's operand, scaled (R353, R354). -/
def operandRows (ty n : Nat) (x scale : List Byte) (t : Nat) : List (List FVal) :=
  (List.range 32).map fun r =>
    (List.range n).map fun k =>
      let v := element ty x t r k
      match scale[r]? with
      | some sc => v.mul (e8m0Val sc.toNat)
      | none => v

/-! ### Slots (R351, R358) -/

/-- A slot of the matrix state; a newly taken one holds FP32 +0. -/
def Matrix.slot (m : Matrix) (n : Nat) : AccSlot := m.slots.get n { kind := .fp32, odd := false, tile := [] }

/-- An element of a slot as a value. -/
def slotVal (k : SlotKind) (v : Word64) : FVal :=
  match k with
  | .fp32 => fval Fmt.f32 (v.toNat % 2 ^ 32)
  | .s32 => ofInt (sext v.toNat 32)
  | .fp64 => fval Fmt.f64 v.toNat

/-- Clear the slot of a `.mul` task: it takes the task's kind, pairs are formed and dissolved (R358). -/
def Matrix.clearSlot (m : Matrix) (n : Nat) (k : SlotKind) : Matrix :=
  let zero : AccSlot := { kind := k, odd := false, tile := [] }
  let plain : AccSlot := { kind := .fp32, odd := false, tile := [] }
  match k with
  | .fp64 => { m with slots := (m.slots.set n zero).set (n + 1) { zero with odd := true } }
  | _ =>
    let other := if n % 2 = 0 then n + 1 else n - 1
    let pair := (m.slot n).kind == .fp64
    { m with slots := (if pair then m.slots.set other plain else m.slots).set n zero }

/-! ### A K-step (R358, R359) -/

/-- `Acc`. -/
def accBits (k : SlotKind) (v : FVal) : Nat :=
  match k with
  | .fp32 => v.round Fmt.f32 .rn false
  | .fp64 => v.round Fmt.f64 .rn false
  | .s32 => wrap (toIntRound .rz v) 32

/-- The exact sum of some values, +0 for none. -/
def sumVals (vs : List FVal) : FVal := vs.foldl (FVal.add .rn) (.fin false 0 0)

/-- The dot product of two lists. -/
def dotVals (a b : List FVal) : FVal := sumVals ((a.zip b).map fun p => p.1.mul p.2)

/-- The slot's elements after a step, element (i, j) at 32 i + j. -/
def stepTile (k : SlotKind) (c : Cells 64) (a b : List (List FVal)) : List Nat :=
  (List.range 1024).map fun x =>
    accBits k ((slotVal k (c.get x)).add .rn (dotVals (a.getD (x / 32) []) (b.getD (x % 32) [])))

/-- The corruption a fault of the engine makes. -/
def corrupt (k : SlotKind) (upset : List (Nat × Word64)) (c : List Nat) : List Nat :=
  let mask := if k = .fp64 then 2 ^ 64 else 2 ^ 32
  c.zipIdx.map fun p => upset.foldl (fun v u => if u.1 = p.2 then v ^^^ (u.2.toNat % mask) else v) p.1

def FVal.finite : FVal → Bool
  | .fin .. => true
  | _ => false

/-- |x|. -/
def FVal.abs : FVal → FVal
  | .fin _ m e => .fin false m e
  | .inf _ => .inf false
  | .nan => .nan

/-- One row or column mismatches: its elements before and after, and the prediction of its change (R359). -/
def lineBad (k : SlotKind) (tol : BitVec 2) (old new : List FVal) (pred : FVal) : Bool :=
  let delta := (sumVals new).add .rn (sumVals old).neg
  match k with
  | .s32 => wrap (toIntRound .rz delta) 32 != wrap (toIntRound .rz pred) 32
  | _ =>
    if !(old.all FVal.finite && new.all FVal.finite && pred.finite) then false
    else
      let wide := k == .fp64
      let tau : Int := if tol = 0 then (if wide then -49 else -20) else (if wide then -37 else -8)
      let lam : Int := if wide then -1069 else -144
      let lim := ((sumVals (new.map FVal.abs)).scale tau).add .rn (.fin false 1 lam)
      (delta.add .rn pred.neg).abs.cmp lim == some .gt

/-- The exact change of some row or column does not meet its prediction (R359). -/
def stepBad (k : SlotKind) (tol : BitVec 2) (c : Cells 64) (new : List Nat) (a b : List (List FVal)) (n : Nat) : Bool :=
  let old := (List.range 1024).map fun x => slotVal k (c.get x)
  let nv := new.map fun v => slotVal k (BitVec.ofNat 64 v)
  let column := fun (l : List (List FVal)) (i : Nat) => sumVals (l.map fun r => r.getD i .nan)
  let rb := (List.range n).map (column b)
  let ca := (List.range n).map (column a)
  let row := fun (l : List FVal) (i : Nat) => (l.drop (32 * i)).take 32
  let col := fun (l : List FVal) (j : Nat) => (List.range 32).map fun i => l.getD (32 * i + j) .nan
  (List.range 32).any fun i =>
    lineBad k tol (row old i) (row nv i) (dotVals (a.getD i []) rb)
      || lineBad k tol (col old i) (col nv i) (dotVals ca (b.getD i []))

/-! ### The scheduler (R357, R360) -/

/-- Number `a` is lower than `b` in the window of R321. -/
def lowerNo (a b : Nat) : Bool := decide (0 < (b + 65536 - a) % 65536) && decide ((b + 65536 - a) % 65536 < 32768)

/-- The kind of a task's slot. -/
def Task.pair (t : Task) : Nat × SlotKind := (pairOf t.aTy t.bTy).getD (1, .fp32)

/-- The slot of a task belongs to a pair: its own kind is FP64, or the slot stands in an FP64 pair now (R358). -/
def Matrix.pairs (m : Matrix) (t : Task) : Bool := t.pair.2 == .fp64 || (m.slot t.slot).kind == .fp64

/-- Two tasks name the same slot, or slots of one pair (R357 rule 2). -/
def Matrix.shares (m : Matrix) (t u : Task) : Bool :=
  t.slot == u.slot || (t.slot / 2 == u.slot / 2 && (m.pairs t || m.pairs u))

/-- Task number `n` is complete: it is no task of the scheduler, or outside the window. -/
def Matrix.complete (m : Matrix) (n : Nat) : Bool :=
  decide (32768 ≤ (m.ctr + 65536 - n) % 65536) || !(m.tasks.any fun t => t.no == n)

/-- Operand FIFO `f`: 2 · engine for A, one more for B. -/
def Matrix.fifo (m : Matrix) (f : Nat) : List Entry := m.fifos.get f []
def Task.fifoA (t : Task) : Nat := 2 * t.aeng
def Task.fifoB (t : Task) : Nat := 2 * t.beng + 1

/-- A task may start (R357). -/
def Matrix.startable (m : Matrix) (t : Task) : Bool :=
  !t.running && t.deps.all m.complete
    && m.tasks.all (fun u => !lowerNo u.no t.no || (!m.shares u t && u.aeng != t.aeng && u.beng != t.beng))
    && !(m.tasks.any fun u => u.running && u.slot / 8 == t.slot / 8)
    && !(m.fifo t.fifoA).isEmpty && !(m.fifo t.fifoB).isEmpty

/-- The startable task of an engine with the lowest number. -/
def Matrix.next (m : Matrix) (eng : Nat) : Option Task :=
  (sortBy (fun (a b : Task) => lowerNo a.no b.no) (m.tasks.filter fun t => t.slot / 8 == eng && m.startable t)).head?

/-- Replace a task by its number. -/
def Matrix.setTask (m : Matrix) (t : Task) : Matrix :=
  { m with tasks := m.tasks.map fun u => if u.no = t.no then t else u }

/-- The failure bits of a status: CHKFAIL, DEPFAIL, POISON, KIND, SCALEF. -/
def statusFailed (st : Word32) : Bool := st &&& 0x7C != 0

/-- A dependence failed. -/
def Matrix.depFailed (m : Matrix) (t : Task) : Bool :=
  t.deps.any fun d => m.complete d && (match m.done.find d with | some r => statusFailed r.1 | none => false)

/-- A task starts: DEPFAIL, KIND, or the slot of a `.mul` task is cleared (R358, R360). -/
def Matrix.start (m : Matrix) (t : Task) : Matrix :=
  let t1 := { t with running := true }
  if m.depFailed t then m.setTask { t1 with fail := some 3 }
  else if t.op = 2 then m.setTask t1
  else if t.op = 0 then (m.clearSlot t.slot t.pair.2).setTask t1
  else if (m.slot t.slot).kind = t.pair.2 then m.setTask t1
  else m.setTask { t1 with fail := some 5 }

def State.onMatrix (s : State) (cl : Nat) (f : Matrix → Matrix) : State :=
  s.onCluster cl fun c => { c with matrix := f c.matrix }

/-- TASK_START (R357). -/
def execTaskStart (cl eng : Nat) (s : State) : Out :=
  .next (match (s.cluster cl).matrix.next eng with
    | some t => s.onMatrix cl fun m => m.start t
    | none => s)

/-- The running task of an engine. -/
def Matrix.onEngine (m : Matrix) (eng : Nat) : Option Task := m.tasks.find? fun t => t.running && t.slot / 8 == eng

/-- The status of a complete task (R361). -/
def Task.status (t : Task) : Word32 :=
  BitVec.ofNat 32 (1 + b2n t.rerun * 2 + (match t.fail with | some b => 2 ^ b | none => 0) + b2n t.ue * 128
    + t.fcause % 256 * 256)

/-- The A entry of the task's next step is taken from its FIFO: a CB16 entry serves four steps (R353). -/
def Task.freshA (t : Task) : Bool := t.aTy != 0xF || t.step % 4 == 0

/-- The task's next step is over: its entries leave their FIFOs; after the last one it is complete. -/
def Matrix.stepDone (m : Matrix) (t : Task) (a : Entry) : Matrix :=
  let f1 := if t.freshA then m.fifos.set t.fifoA (m.fifo t.fifoA).tail else m.fifos
  let f2 := f1.set t.fifoB (m.fifo t.fifoB).tail
  let t1 := { t with step := t.step + 1, curA := if t.aTy = 0xF then some a else none, scales := none }
  let m1 := { m with fifos := f2 }
  if t.k ≤ t1.step then
    { m1 with tasks := m1.tasks.filter fun u => u.no != t.no, done := m1.done.set t.no (t1.status, t.paddr) }
  else m1.setTask t1

/-- A mark on an entry of the step: a UE mark before a DATA mark, A before B. -/
def stepPoison (a b : Entry) : Option (BitVec 2 × Word64) :=
  if a.mark = 1 ∨ (a.mark ≠ 0 ∧ b.mark ≠ 1) then some (a.mark, a.paddr)
  else if b.mark ≠ 0 then some (b.mark, b.paddr)
  else none

/-- A task fails with POISON (R360). -/
def Task.poison (t : Task) (mark : BitVec 2) (pa : Word64) : Task :=
  { t with fail := some 4, ue := mark == 1, paddr := pa, tokens := [] }

/-- The scales of the step are at hand (R354). -/
def Task.scaled (t : Task) : Bool := !(t.aScaled || t.bScaled) || t.scales.isSome

/-- The corruption that strikes the rerun of a step: the upsets whose index is above the tile. -/
def rerunUpset (upset : List (Nat × Word64)) : List (Nat × Word64) :=
  (upset.filter fun u => decide (1024 ≤ u.1)).map fun u => (u.1 - 1024, u.2)

/-- The step's result goes into the slot. -/
def Matrix.accept (m : Matrix) (t : Task) (a : Entry) (new : List Nat) : Matrix :=
  let tile := new.zipIdx.foldl (fun (x : Cells 64) p => x.set p.2 (BitVec.ofNat 64 p.1)) []
  ({ m with slots := m.slots.set t.slot { m.slot t.slot with tile := tile } } : Matrix).stepDone t a

/-- Compute and check one step (R358, R359): at the task's first mismatch the slot stays as it was and the step is
computed again at once, from the same entries and scales (R365, R367); at the second the task fails. -/
def Matrix.compute (m : Matrix) (t : Task) (a b : Entry) (upset : List (Nat × Word64)) : Matrix :=
  let n := t.pair.1
  let k := t.pair.2
  let sc := t.scales.getD ([], [])
  let ra := operandRows t.aTy n a.bytes sc.1 (t.step % 4)
  let rb := operandRows t.bTy n b.bytes sc.2 0
  let c := (m.slot t.slot).tile
  let sum := stepTile k c ra rb
  let bad := fun (new : List Nat) => t.tol != 3 && stepBad k t.tol c new ra rb n
  let new := corrupt k upset sum
  if !bad new then m.accept t a new
  else if t.rerun then m.stepDone { t with fail := some 2 } a
  else
    let t1 := { t with rerun := true }
    let new1 := corrupt k (rerunUpset upset) sum
    if bad new1 then m.stepDone { t1 with fail := some 2 } a else m.accept t1 a new1

/-- One step of a running task with its entries. -/
def Matrix.step (m : Matrix) (t : Task) (a b : Entry) (upset : List (Nat × Word64)) : Matrix :=
  if t.fail.isSome || t.op = 2 then m.stepDone t a
  else
    match stepPoison a b with
    | some (mark, pa) => m.stepDone (t.poison mark pa) a
    | none => if t.scaled then m.compute t a b upset else m

/-- TASK_STEP: an engine carries out one K-step of its task, or takes the entries of a failed or `.skip` task. It starts
none during a droop freeze (R365). -/
def execTaskStep (cl eng : Nat) (upset : List (Nat × Word64)) (s : State) : Out :=
  .next (
    let c := s.cluster cl
    match c.matrix.onEngine eng with
    | none => s
    | some t =>
      if c.freeze.isSome then s
      else
        match (if t.freshA then (c.matrix.fifo t.fifoA).head? else t.curA), (c.matrix.fifo t.fifoB).head? with
        | some a, some b => s.onMatrix cl fun m => m.step t a b upset
        | _, _ => s)

/-! ### Scales (R354) -/

/-- The pieces of the scale bytes of an operand for a step. -/
def State.scalePieces (s : State) (c : Client) (w : Who) (on : Bool) (sbase : Word64) (off step : Nat) : Acc × State :=
  if on then s.checkRead c w ((sbase.toNat + off + 32 * step : Nat) : Int) 32 false else (.ok [], s)

/-- The scale read of a task fails. -/
def State.scaleFails (s : State) (cl : Nat) (t : Task) (cause : Nat) : State :=
  s.onMatrix cl fun m => m.setTask { t with fail := some 6, fcause := cause, tokens := [] }

/-- A check of a scale read did not pass: a failure, a fault request, or a wait. -/
def State.scaleStop (s : State) (cl : Nat) (t : Task) (w : Who) (x : Acc) : State :=
  match x with
  | .fault tr => s.scaleFails cl t tr.cause.toNat
  | .absent pages =>
    let r := s.requestPages (srcMatrix cl) w false [] pages
    r.2.onMatrix cl fun m => m.setTask { t with tokens := r.1 }
  | _ => s

/-- SCALE_READ: the scale bytes of the next step of an engine's task are read at their homes. -/
def execScaleRead (cl eng : Nat) (s : State) : Out :=
  .next (
    let c := s.cluster cl
    match c.matrix.onEngine eng, c.matrix.holder with
    | some t0, some b =>
      let waits := s.faults.any fun f => t0.tokens.contains f.token
      if waits || t0.fail.isSome || t0.op = 2 || t0.scaled then s
      else
        let t := { t0 with tokens := [] }
        let w := s.launchWho b.launch cl
        let owner := (s.recOf b.launch).owner
        match s.scalePieces (.task cl t.no) w t.aScaled t.aSbase t.asoff t.step with
        | (.ok pa, s1) =>
          match s1.scalePieces (.task cl t.no) w t.bScaled t.bSbase t.bsoff t.step with
          | (.ok pb, s2) =>
            match s2.readFor cl t.since (.task cl t.no) w owner (pa ++ pb) with
            | (.bytes hb, s3) =>
              let mk := marksOf hb
              let n := if t.aScaled then 32 else 0
              let bs := hb.map (·.b)
              (s3.forget (.task cl t.no)).onMatrix cl fun m => m.setTask
                (if mk.1 = 0 then { t with scales := some (bs.take n, bs.drop n) } else t.poison mk.1 mk.2)
            | (.stop cause, s3) => (s3.forget (.task cl t.no)).scaleFails cl t cause
            | (_, s3) => s3.onMatrix cl fun m => m.setTask t
          | (x, s2) => s2.scaleStop cl t w x
        | (x, s1) => s1.scaleStop cl t w x
    | _, _ => s)

/-! ### `mtask` (R355, R356) -/

/-- Another block holds the matrix state (R351). -/
def Matrix.heldByOther (m : Matrix) (b : BKey) : Bool := match m.holder with | some h => h != b | none => false

/-- The task counter as a block sees it. -/
def Matrix.counter (m : Matrix) : Nat := match m.holder with | some _ => m.ctr | none => 0

/-- A dependence is not earlier than task t. -/
def depBad (t d : Nat) : Bool :=
  let x := (t + 65536 - d) % 65536
  x == 0 || decide (32768 ≤ x)

/-- The record breaks R355 or R352. -/
def recordBad (r : Nat) (x y : TEntry) : Bool :=
  let pair := pairOf x.etype y.etype
  fld r 0 2 == 3 || fld r 2 2 == 2 || fld r 30 2 != 0 || fld r 82 46 != 0 || fld r 32 16 == 0 || pair.isNone
    || ((match pair with | some p => p.2 == .fp64 | none => false) && fld r 26 4 % 2 == 1)

/-- The dependences of a record. -/
def recordDeps (r : Nat) : List Nat :=
  (if bit r 80 then [fld r 48 16] else []) ++ (if bit r 81 then [fld r 64 16] else [])

/-- The task of a record. -/
def newTask (r no since so : Nat) (x y : TEntry) : Task :=
  { no := no, since := since, op := BitVec.ofNat 2 (fld r 0 2), tol := BitVec.ofNat 2 (fld r 2 2), aTy := x.etype,
    aScaled := x.fmt == 2, aSbase := x.sbase, bTy := y.etype, bScaled := y.fmt == 2, bSbase := y.sbase,
    slot := fld r 26 4, aeng := fld r 24 1, beng := fld r 25 1, k := fld r 32 16, deps := recordDeps r,
    asoff := fld so 0 32, bsoff := fld so 32 32, running := false, step := 0, curA := none, scales := none, rerun := false,
    fail := none, fcause := 0, ue := false, paddr := 0, tokens := [] }

/-- `mtask` for one crew (R356). -/
def mtaskCrew (f : FDAB) (s : State) (e : Env) (t : Thread) (ks : List TKey) : State :=
  let i := Instr.mtask f
  let r := (src128 e t f.a).toNat
  let a := fld r 4 10
  let b := fld r 14 10
  let x := s.tensor e.part e.ctx a
  let y := s.tensor e.part e.ctx b
  let m := (s.cluster e.cl).matrix
  let no := (m.counter + 1) % 65536
  if !x.v then s.raiseAll i ks (Trap.tensorId 1 a)
  else if !y.v then s.raiseAll i ks (Trap.tensorId 1 b)
  else if !operandFits x y then s.raiseAll i ks (Trap.tensorId 3 a)
  else if !operandFits y x then s.raiseAll i ks (Trap.tensorId 3 b)
  else if recordBad r x y then s.raiseAll i ks (Trap.matrix 3 (fld r 0 64))
  else
    match (recordDeps r).find? (depBad no) with
    | some d => s.raiseAll i ks (Trap.matrix 4 d)
    | none =>
      if m.heldByOther e.bkey then s.raiseAll i ks (Trap.matrix 5 e.cl)
      else if 16 ≤ m.tasks.length then s.stallAll ks false
      else
        let s1 := (s.holdMatrix e.cl e.bkey).getD s
        let s2 := s1.onMatrix e.cl fun m =>
          { m with ctr := no, tasks := m.tasks ++ [newTask r no s.serial (src64 e t f.b).toNat x y]
                   done := m.done.erase ((no + 32768) % 65536) }
        ks.foldl (fun st k => st.onThread k fun e u => (u.put32 e f.w f.d (BitVec.ofNat 32 no)).advance i) s2

/-- `mtask` (R356). -/
def execMtask (f : FDAB) (s : State) : Out := .next (s.issueOnce (.mtask f) (mtaskCrew f))

/-! ### `mwait` (R361) -/

/-- The MATRIX subcode of a failed status: CHKFAIL, DEPFAIL, KIND, SCALEF. -/
def failSub (st : Word32) : Option Nat :=
  if st.getLsbD 2 then some 1 else if st.getLsbD 3 then some 2 else if st.getLsbD 5 then some 6
  else if st.getLsbD 6 then some 10 else none

/-- `mwait` or `mwait.st` of one thread. -/
def mwaitOne (i : Instr) (f : FDA) (quiet : Bool) (s : State) (e : Env) (t : Thread) : State :=
  let n := (src32 e t f.a).toNat % 65536
  let m := (s.cluster e.cl).matrix
  if m.heldByOther e.bkey then s.setThread e.key (t.raise e i (Trap.matrix 5 e.cl))
  else if (if m.holder.isSome then 32768 ≤ (m.ctr + 65536 - n) % 65536 else n ≠ 0) then
    s.setThread e.key (t.raise e i (Trap.matrix 9 n))
  else if m.holder.isSome && m.tasks.any (fun u => decide ((n + 65536 - u.no) % 65536 < 32768)) then
    s.setThread e.key (t.stall true)
  else
    let r := if m.holder.isSome then m.done.get n (1, 0) else (1, 0)
    let out := (t.put32 e f.w f.d r.1).advance i
    s.setThread e.key
      (if quiet then out
       else if r.1.getLsbD 4 then t.poisoned e i (if r.1.getLsbD 7 then 1 else 2) r.2.toNat
           (s.leafFor (engineWho e.part e.sub e.ctx e.cl) r.2.toNat)
       else
         match failSub r.1 with
         | some sub => t.raise e i (Trap.matrix sub n)
         | none => out)

/-- `mwait` (R361). -/
def execMwait (f : FDA) (s : State) : Out := .next (s.issueEach (.mwait f) (mwaitOne (.mwait f) f false))
/-- `mwait.st` (R361). -/
def execMwaitSt (f : FDA) (s : State) : Out := .next (s.issueEach (.mwaitSt f) (mwaitOne (.mwaitSt f) f true))

/-! ### `macc` (R362) -/

/-- Bytes of an output. -/
def accWidth (c : AccCvt) : Nat :=
  match c with
  | .bf16 => 2 | .f16 => 2 | .e4m3 => 1 | .e5m2 => 1 | .s8 => 1 | .f64 => 8 | _ => 4

/-- An element converted for output. -/
def accOut (p : Fpm) (c : AccCvt) (kind : SlotKind) (k : Int) (v : Word64) : Nat :=
  let x := (slotVal kind v).scale k
  match c with
  | .acc32 => if kind = .s32 then wrap (toIntSat p.rm (minS 32) (maxS 32) x) 32 else fout p Fmt.f32 x
  | .f32 => fout p Fmt.f32 x
  | .bf16 => fout p Fmt.bf16 x
  | .f16 => fout p Fmt.f16 x
  | .e4m3 => fout p Fmt.e4m3 x
  | .e5m2 => fout p Fmt.e5m2 x
  | .s8 => wrap (toIntSat p.rm (-128) 127 x) 8
  | .f64 => fout p Fmt.f64 x

/-- The fault of a `macc` on the state of its slot. A task that waits to start does not turn a `macc.clr` away, which reads and
clears first (R367; LOG 82). -/
def Matrix.accFault (m : Matrix) (b : BKey) (cl slot : Nat) (c : AccCvt) (clr : Bool) : Option Trap :=
  let x := m.slot slot
  if m.heldByOther b then some (Trap.matrix 5 cl)
  else if m.holder.isSome && (x.odd || (x.kind == .fp64 && c == .acc32)) then some (Trap.matrix 6 slot)
  else if m.holder.isSome && m.tasks.any (fun t => t.slot == slot && (t.running || !clr)) then some (Trap.matrix 7 slot)
  else none

/-- Clear elements of a slot. -/
def Matrix.clearElems (m : Matrix) (slot : Nat) (xs : List Nat) : Matrix :=
  { m with slots := m.slots.set slot { m.slot slot with tile := xs.foldl (fun (t : Cells 64) x => t.drop x) (m.slot slot).tile } }

/-- `macc.reg` of one thread. -/
def maccRegOne (f : FMaccReg) (s : State) (e : Env) (t : Thread) : State :=
  let i := Instr.maccReg f
  let slot := f.slot.toNat
  match (s.cluster e.cl).matrix.accFault e.bkey e.cl slot f.cvt f.clr with
  | some tr => s.setThread e.key (t.raise e i tr)
  | none =>
    let s1 := (s.holdMatrix e.cl e.bkey).getD s
    let x := (s1.cluster e.cl).matrix.slot slot
    let at_ := 32 * ((src32 e t f.a).toNat % 32) + e.crank
    let v := accOut t.mode f.cvt x.kind (imm20 f.k) (x.tile.get at_)
    let s2 := if f.clr then s1.onMatrix e.cl fun m => m.clearElems slot [at_] else s1
    s2.setThread e.key
      ((if f.cvt = .f64 then t.put64 e f.w f.d (BitVec.ofNat 64 v) else t.put32 e f.w f.d (BitVec.ofNat 32 v)).advance i)

/-- `macc.reg` (R362). -/
def execMaccReg (f : FMaccReg) (s : State) : Out := .next (s.issueEach (.maccReg f) (maccRegOne f))

/-- `macc.spad` for one crew: `%fpm` is that of its first participant (LOG 18). -/
def maccSpadCrew (f : FMaccSpad) (s : State) (e : Env) (t : Thread) (ks : List TKey) : State :=
  let i := Instr.maccSpad f
  let slot := f.slot.toNat
  let d := (src32 e t f.a).toNat
  let row0 := fld d 0 5
  let n := fld d 5 6
  let addr := (src32 e t f.b).toNat
  let w := accWidth f.cvt
  match (s.cluster e.cl).matrix.accFault e.bkey e.cl slot f.cvt f.clr with
  | some tr => s.raiseAll i ks tr
  | none =>
    if fld d 11 21 ≠ 0 ∨ n = 0 ∨ 32 < row0 + n then s.raiseAll i ks (Trap.matrix 8 d)
    else
      match spadAt e.rcd e.bkey addr (32 * w * n) with
      | .error tr => s.raiseAll i ks tr
      | .ok p =>
        if !p.own then s.raiseAll i ks (Trap.address addr)
        else if addr % w ≠ 0 then s.raiseAll i ks (Trap.access addr)
        else
          let s1 := (s.holdMatrix e.cl e.bkey).getD s
          let x := (s1.cluster e.cl).matrix.slot slot
          let row := fun (r : Nat) => (List.range 32).flatMap fun j =>
            toBytes w (accOut t.mode f.cvt x.kind (imm20 f.k) (x.tile.get (32 * (row0 + r) + j)))
          let s2 := (List.range n).foldl (fun (st : State) r => st.spadWrite e.bkey (p.off + 32 * w * r) (row r)) s1
          let s3 := if f.clr then s2.onMatrix e.cl fun m => m.clearElems slot (upFrom (32 * row0) (32 * n)) else s2
          s3.advanceAll i ks

/-- `macc.spad` (R362). -/
def execMaccSpad (f : FMaccSpad) (s : State) : Out := .next (s.issueOnce (.maccSpad f) (maccSpadCrew f))

end Sys2Proof.Machine
end

