-- ==== Sys2Proof/Machine/Scrim.lean ====
section
/-!
DEFINITION. The receiving side of the Scrim ports (17_scrim_links.md R336 to R346): flits, acknowledgement and replay, lane
failure, and what a transaction does at this device (R338, R344; 22 R404), with the hotness counters of 06 R139.
-/

namespace Sys2Proof.Machine

/-! ### Acknowledgement and replay (R339, R340) -/

/-- An ACK of `a` covers sequence number `q`. -/
def ackCovers (a q : BitVec 12) : Bool := decide ((a - q).toNat < 512)

/-- Drop the kept flits an ACK covers. -/
def Port.acked (p : Port) (a : BitVec 12) : Port := { p with kept := p.kept.filter fun f => !ackCovers a (flitSeq f) }

/-- A kept flit as it is sent now: with the ACK that the port returns in the next flit it sends (R339). -/
def Port.refreshed (p : Port) (f : BitVec 2048) : BitVec 2048 :=
  flitOf (flitLow (flitSeq f) (p.expect - 1) p.gotAny false (flitFill f) 0) (flitPayload f)

/-- Send every kept flit again, in order. -/
def Port.replay (p : Port) : Port := { p with sent := p.sent ++ p.kept.map p.refreshed }

/-- A 16-bit counter that saturates. -/
def satAdd (v : BitVec 16) : BitVec 16 := if v = 0xFFFF then v else v + 1

/-- A flit that carries no data: idle 1, link control 2. -/
def Port.control (p : Port) (kind : Nat) (nak : Bool) : BitVec 2048 :=
  flitOf (flitLow 0 (p.expect - 1) p.gotAny nak 0 kind) []

/-- Ask for a replay, once for each gap (R340): by the model's choice none again until a data flit has been accepted, also where a
flit of the gap fails in the replay (LOG 99). -/
def Port.askReplay (p : Port) : Port :=
  if p.nakked then p
  else { p with nakked := true, sent := p.sent ++ [p.control 1 true], replays := satAdd p.replays }

/-- The acknowledgement fields of a good flit: what it covers leaves, a NAK has the rest sent again, and new flits follow. -/
def Port.takeAck (p : Port) (f : BitVec 2048) : Port :=
  let p1 := if flitAv f then p.acked (flitAck f) else p
  (if flitNak f then { p1.replay with replays := satAdd p1.replays } else p1).pump 512

/-! ### Transactions in the payloads (R338) -/

/-- Data bytes that follow a header: a read carries none, and its LEN is what it asks for. -/
def txData (h : Word128) : Nat := if txKind h = 0 then 0 else txLen h

/-- The header keeps the layout. -/
def txOk (h : Word128) : Bool :=
  let sub := txSub h
  let len := txLen h
  h.extractLsb' 32 4 == 0 && h.extractLsb' 0 16 == 0 && decide (len ≤ 4096)
    && (match txKind h with
        | 0 => sub == 0
        | 1 => decide (sub ≤ 1)
        | 2 => decide (sub < 10) && (len == 4 || len == 8) || (sub == 10 && (len == 8 || len == 16))
        | 3 => decide (sub < 4) && len == 8
        | 4 => sub == 0 && len == 8
        | 5 => decide (sub ≤ 2)
        | 6 => decide (sub ≤ 2) && len == 0
        | 7 => decide (sub ≤ 2)
        | 8 => decide (sub ≤ 4) && len == 0
        | 9 => sub == 0 && len == 0
        | _ => false)

/-- Take the whole transactions from the received bytes. One that breaks the layout takes as many bytes with it as its LEN says, also
where LEN is above 4,096: the model's choice (LOG 99). -/
def Port.unpack : Nat → Port → Port
  | 0, p => p
  | n + 1, p =>
    let h : Word128 := BitVec.ofNat 128 (ofBytes (p.rx.take 16))
    let size := 16 + txData h
    if p.rx.length < 16 ∨ p.rx.length < size then p
    else
      let p1 := { p with rx := p.rx.drop size }
      Port.unpack n
        (if txOk h then { p1 with inbox := p1.inbox ++ [{ hdr := h, data := (p.rx.drop 16).take (size - 16) }] }
         else { p1 with replays := satAdd p1.replays })

/-- A data flit (R340). -/
def Port.takeData (p : Port) (f : BitVec 2048) : Port :=
  let d := (flitSeq f - p.expect).toNat
  if d = 0 then
    ({ p with expect := p.expect + 1, gotAny := true, nakked := false, rx := p.rx ++ flitPayload f } : Port).unpack 15
  else if d < 2048 then p.askReplay
  else p

/-! ### Shedding and retraining (R341, R342) -/

/-- Steps 3 and 4 of R341 with the ACK of the other side. -/
def Port.resume (p : Port) (a : BitVec 12) : Port :=
  let p1 := { p with paused := false, nakked := false }.acked a
  (({ p1 with sent := p1.sent ++ [p1.control 2 false] } : Port).replay).pump 512

/-- The copies with a packet, a write or a read on a port that is degraded (R345; 16 R322). -/
def State.markDegraded (s : State) (port : Nat) : State :=
  (s.port port).tags.foldl (fun (st : State) u =>
    match u.2 with
    | .read (.copy cl id) _ => st.copyUses cl id port
    | .store cl id =>
      match ((st.cluster cl).sq.find? fun x => x.id == id).bind (·.copy) with
      | some n => st.copyUses cl n port
      | none => st
    | _ => st) s

/-- All 16 lanes of a port are tested afresh, and `pass` are those that pass (R342). SHEDS counts on: a port comes up once, at its
first ready (LOG 76). -/
def State.retrainPort (s : State) (port : Nat) (pass : BitVec 16) : State :=
  let p := s.port port
  let low := pass &&& 0x00FF == 0x00FF
  let high := pass &&& 0xFF00 == 0xFF00
  let st : BitVec 2 := if low && high then 1 else if low then 2 else if high then 3 else 0
  (s.setPort port { p with failmask := ~~~pass, paused := true, state := st, retrain := none }).markDegraded port

/-- A shed is over: a retraining asked for meanwhile takes effect (R346). -/
def State.shedOver (s : State) (port : Nat) : State :=
  match (s.port port).retrain with
  | some pass => s.retrainPort port pass
  | none => s

/-- FLIT_RECEIVE (R337, R340): a flit reaches a port that is up. At a paused port a link-control flit with AV = 0, whose ACK is not
valid, does nothing, by the model's choice (R341; LOG 99). -/
def execFlitReceive (port : Nat) (flit : BitVec 2048) (s : State) : Out :=
  .next (
    let p := s.port port
    if !s.portConnected port || p.state == 0 then s
    else if p.paused then
      if flitGood flit && flitKind flit == 2 && flitAv flit then (s.setPort port (p.resume (flitAck flit))).shedOver port
      else s
    else if !flitGood flit then s.setPort port p.askReplay
    else
      match flitKind flit with
      | 0 => s.setPort port ((p.takeAck flit).takeData flit)
      | 1 => s.setPort port (p.takeAck flit)
      | 2 => s.setPort port (p.takeAck flit)
      | _ => s)

/-- IDLE_FLIT (R339). -/
def execIdleFlit (port : Nat) (s : State) : Out :=
  .next (
    let p := s.port port
    if s.portConnected port && p.up then s.setPort port { p with sent := p.sent ++ [p.control 1 false] } else s)

/-- The lanes a port uses. -/
def Port.lanes (p : Port) : BitVec 16 :=
  if p.state = 1 then 0xFFFF else if p.state = 2 then 0x00FF else if p.state = 3 then 0xFF00 else 0

/-- LANE_FAILURE (R341, R345): FAILMASK takes the lanes of a port that has come up; where the port uses one of them, it goes over
to the half that holds no failed lane, or goes down. A failure during a shed is no further shed (18 R350). -/
def execLaneFailure (port : Nat) (lanes : BitVec 16) (s : State) : Out :=
  .next (
    let p := s.port port
    let mask := p.failmask ||| lanes
    if !s.portConnected port || !s.readyBit (10 + port) then s
    else if lanes &&& p.lanes == 0 then s.setPort port { p with failmask := mask }
    else
      let low := mask &&& 0x00FF != 0
      let high := mask &&& 0xFF00 != 0
      let p1 := { p with failmask := mask, sheds := if p.paused then p.sheds else satAdd p.sheds, paused := true,
                         state := if low && high then 0 else if low then 3 else 2 }
      let s1 := (s.setPort port p1).markDegraded port
      if p1.state = 0 then s1.shedOver port else s1)

/-- SHED_RESUME (R341): both ends have trained, and the other side's ACK has arrived. -/
def execShedResume (port : Nat) (ack : BitVec 12) (s : State) : Out :=
  .next (
    let p := s.port port
    if s.portConnected port && p.state != 0 && p.paused then (s.setPort port (p.resume ack)).shedOver port else s)

/-- RETRAIN (R342): all 16 lanes are tested afresh; `pass` are those that pass. A request during a shed waits for its
end (R346). -/
def execRetrain (port : Nat) (pass : BitVec 16) (s : State) : Out :=
  .next (
    let p := s.port port
    if !s.portConnected port || !s.readyBit (10 + port) then s
    else if p.state != 0 && p.paused then s.setPort port { p with retrain := some pass }
    else s.retrainPort port pass)

/-! ### Requests of peers (R338, R344; 22 R404) -/

/-- The transaction at the head of a port's received ones, if it is of a kind. -/
def State.inboxHead (s : State) (port kind : Nat) : Option ScrimTx :=
  match (s.port port).inbox with
  | x :: _ => if txKind x.hdr = kind then some x else none
  | [] => none

/-- The head transaction leaves. -/
def State.popInbox (s : State) (port : Nat) : State :=
  s.setPort port { s.port port with inbox := (s.port port).inbox.tail }

/-- An inbound admission that holds the access's address allows a peer's access (22 R404). -/
def State.peerMay (s : State) (dev a n : Nat) (wr : Bool) : Bool :=
  decide (a + n ≤ deviceTop)
    && s.mgmt.image.ranges.any fun r => rgKind r == 2 && rgDev r == dev && (if wr then rgAw r else rgAr r)
        && rgHolds r a

/-- Some byte of a span waits at its home. -/
def State.spanWaits (s : State) (a n : Nat) : Bool := (cutPieces .home (n + 1) a n).any fun p => s.homeWaits p.2.1

/-- A mark among the granules of a span: a UE mark first. -/
def State.spanMark (s : State) (a n : Nat) : BitVec 2 :=
  let ms := (cutPieces .home (n + 1) a n).map fun p => s.markAt p.2.1
  if ms.contains 1 then 1 else if ms.contains 2 then 2 else 0

/-- Bytes written at their homes from outside, with a mark; waiting requests of sync objects are tested again. -/
def State.writeSpan (s : State) (a : Nat) (bs : List Byte) (mark : BitVec 2) : State :=
  ((cutPieces .home (bs.length + 1) a bs.length).foldl (fun (acc : State × List Byte) p =>
    ((acc.1.homeWrite p.2.1 (acc.2.take p.2.2) mark 3).testWaiters p.2.1 p.2.2, acc.2.drop p.2.2)) (s, bs)).1

/-! ### Hotness counters (06 R139) -/

/-- The requester slots that count an accessor: the host (none) or a peer. -/
def State.hotSlots (s : State) (who : Option Nat) : List Nat :=
  (List.range 8).filter fun k =>
    let w := s.mgmt.image.hot.getD k 0
    w.getLsbD 15 && (match who with
      | none => w.getLsbD 8
      | some d => !w.getLsbD 8 && (w.extractLsb' 0 8).toNat == d)

/-- The threshold of a stack; 0 acts as 1. -/
def State.hotLimit (s : State) (stack : Nat) : Nat := max 1 (s.mgmt.image.hotTh.getD stack 0)

def State.stack (s : State) (k : Nat) : Stack := s.hbm.get k Stack.reset

/-- The 64 KiB blocks of a span. -/
def blocksOf (a n : Nat) : List Nat := upFrom (a / 65536) ((a + n - 1) / 65536 - a / 65536 + 1)

/-- A counter of the span stands at its threshold: its notification comes first. -/
def State.hotWaits (s : State) (who : Option Nat) (a n : Nat) : Bool :=
  (blocksOf a n).any fun b => (s.hotSlots who).any fun k =>
    let st := stackOf (b * 65536)
    decide (s.hotLimit st ≤ (s.stack st).hot.get (b, k) 0)

/-- Count a remote access. -/
def State.hotCount (s : State) (who : Option Nat) (a n : Nat) : State :=
  (blocksOf a n).foldl (fun (s1 : State) b => (s1.hotSlots who).foldl (fun (s2 : State) k =>
    let st := stackOf (b * 65536)
    let x := s2.stack st
    { s2 with hbm := s2.hbm.set st { x with hot := x.hot.set (b, k) (min 65535 (x.hot.get (b, k) 0 + 1)) } }) s1) s

/-- A peer's access must wait. -/
def State.peerWaits (s : State) (h : Word128) (n : Nat) : Bool :=
  s.spanWaits (txAddr h) n || s.hotWaits (some (txDev h)) (txAddr h) n

/-- SCRIM_READ. -/
def execScrimRead (port : Nat) (s : State) : Out :=
  .next (match s.inboxHead port 0 with
    | none => s
    | some x =>
      let a := txAddr x.hdr
      let n := txLen x.hdr
      let s1 := s.popInbox port
      if !s.peerMay (txDev x.hdr) a n false then s1.respond port a (txTag x.hdr) 5 2 []
      else if s.peerWaits x.hdr n then s
      else (s1.hotCount (some (txDev x.hdr)) a n).respond port a (txTag x.hdr) 5 (if s.spanMark a n = 0 then 0 else 1)
        (s.mem.bytes a n))

/-- SCRIM_WRITE: poisoned data travels with status 1, and the granules take a DATA mark. -/
def execScrimWrite (port : Nat) (s : State) : Out :=
  .next (match s.inboxHead port 1 with
    | none => s
    | some x =>
      let a := txAddr x.hdr
      let n := x.data.length
      let s1 := s.popInbox port
      if !s.peerMay (txDev x.hdr) a n true then s1.respond port a (txTag x.hdr) 6 2 []
      else if s.peerWaits x.hdr n then s
      else (((s1.hotCount (some (txDev x.hdr)) a n).writeSpan a x.data (if txSub x.hdr = 0 then 0 else 2)).respond port a
        (txTag x.hdr) 6 0 []).reap)

/-- The operation an AOP code names (09 R220). -/
def aopOf (c : Nat) : AtomOp :=
  match c with
  | 0 => .add | 1 => .mins | 2 => .minz | 3 => .maxs | 4 => .maxz | 5 => .and | 6 => .or | 7 => .xor
  | 8 => .exch | 9 => .fadd | _ => .cas

/-- SCRIM_ATOMIC: a compare-and-swap carries B and then the comparand. -/
def execScrimAtomic (port : Nat) (s : State) : Out :=
  .next (match s.inboxHead port 2 with
    | none => s
    | some x =>
      let a := txAddr x.hdr
      let op := aopOf (txSub x.hdr)
      let n := if op = .cas then x.data.length / 2 else x.data.length
      let s1 := s.popInbox port
      if !s.peerMay (txDev x.hdr) a n true || a % n != 0 then s1.respond port a (txTag x.hdr) 7 2 []
      else if s.peerWaits x.hdr n then s
      else
        let r := (s1.hotCount (some (txDev x.hdr)) a n).atomAt (.home a) op (n == 8) (ofBytes (x.data.take n))
          (ofBytes (x.data.drop n)) 3
        ((r.2.2.testWaiters a n).respond port a (txTag x.hdr) 7 (if r.2.1 = 0 then 0 else 1) r.1).reap)

/-- The status with which a sync request of a peer is refused: not admitted, an illegal object, a marked one. -/
def State.syncRefused (s : State) (h : Word128) : Option Nat :=
  let a := txAddr h
  if !s.peerMay (txDev h) a 64 false || a % 64 != 0 then some 2
  else if !objClean (s.obj a) then some 2
  else if s.objMark a ≠ 0 then some 1
  else none

/-- SCRIM_ACQUIRE (05 R114): granted at once, denied to a try, or waiting at the home. -/
def execScrimAcquire (port : Nat) (s : State) : Out :=
  .next (match s.inboxHead port 3 with
    | none => s
    | some x =>
      let a := txAddr x.hdr
      let tag := txTag x.hdr
      let s1 := s.popInbox port
      if s.peerMay (txDev x.hdr) a 64 false && s.peerWaits x.hdr 64 then s
      else
        match s.syncRefused x.hdr with
        | some st => s1.respond port a tag 8 st []
        | none =>
          let excl := bit (txSub x.hdr) 0
          let wid := BitVec.ofNat 64 (ofBytes x.data)
          let r : AcqReq := { obj := a, va := a, excl := excl, who := .peer port tag (txDev x.hdr) wid }
          let s2 := s1.hotCount (some (txDev x.hdr)) a 64
          if objGrants (s2.obj a) excl && !(s2.acqs.any fun y => y.obj == a) then s2.grantTo r
          else if bit (txSub x.hdr) 1 then s2.respond port a tag 8 3 []
          else { s2 with acqs := s2.acqs ++ [r] })

/-- SCRIM_RELEASE (05 R114). -/
def execScrimRelease (port : Nat) (s : State) : Out :=
  .next (match s.inboxHead port 4 with
    | none => s
    | some x =>
      let a := txAddr x.hdr
      let tag := txTag x.hdr
      let s1 := s.popInbox port
      if s.peerMay (txDev x.hdr) a 64 false && s.peerWaits x.hdr 64 then s
      else
        match s.syncRefused x.hdr with
        | some st => s1.respond port a tag 8 st []
        | none =>
          let s2 := s1.hotCount (some (txDev x.hdr)) a 64
          match objReleased (s2.obj a) (BitVec.ofNat 64 (ofBytes x.data)) with
          | some o => (s2.setObj a o).respond port a tag 8 0 []
          | none => s2.respond port a tag 8 2 [])

/-- The request a withdrawal names. -/
def AcqReq.withdrawn (r : AcqReq) (port tag dev a : Nat) : Bool :=
  r.obj == a && (match r.who with | .peer p t d _ => p == port && t == tag && d == dev | .thread .. => false)

/-- SCRIM_WITHDRAWAL (R344). -/
def execScrimWithdrawal (port : Nat) (s : State) : Out :=
  .next (match s.inboxHead port 9 with
    | none => s
    | some x =>
      let a := txAddr x.hdr
      let tag := txTag x.hdr
      let dev := txDev x.hdr
      let s1 := s.popInbox port
      if !s.peerMay dev a 64 false then s1.respond port a tag 8 2 []
      else if s1.acqs.any fun r => r.withdrawn port tag dev a then
        ({ s1 with acqs := s1.acqs.filter fun r => !r.withdrawn port tag dev a } : State).respond port a tag 8 4 []
      else s1)

/-! ### Answers to this device's requests (R338, R344) -/

/-- What a tag stands for. -/
def State.tagUse (s : State) (port tag : Nat) : Option TagUse := (s.port port).tags.find tag

/-- The answer at the head of the inbox is taken: it leaves, and its tag is free again. -/
def State.takeAnswer (s : State) (port : Nat) (x : ScrimTx) : State :=
  let p := s.port port
  s.setPort port { p with inbox := p.inbox.tail, tags := p.tags.erase (txTag x.hdr) }

/-- The mark that a response's status carries (21 R392). -/
def statusMark (st : Nat) : BitVec 2 := if st = 1 then 2 else 0

/-- A peer refused a load or an atomic: ACCESS, deferred, at its instruction. -/
def State.refuseLoad (s : State) (id : Nat) (va : Nat) : State :=
  match s.loads.find? fun l => l.id == id with
  | some l =>
    ({ s with loads := s.loads.filter fun x => x.id != id } : State).deferTrap l.key l.pc (Trap.access va)
  | none => s

/-- The first byte a pending load accesses. -/
def State.loadVa (s : State) (id : Nat) : Nat :=
  match s.loads.find? fun l => l.id == id with
  | some l => (l.pieces.map (·.va)).headD 0
  | none => 0

/-- SCRIM_READ_RESPONSE. -/
def execScrimReadResponse (port : Nat) (s : State) : Out :=
  .next (match s.inboxHead port 5 with
    | none => s
    | some x =>
      let st := txSub x.hdr
      let s1 := s.takeAnswer port x
      match s.tagUse port (txTag x.hdr) with
      | some (.read c pa) =>
        { s1 with peerReads := s1.peerReads.map fun r =>
            if r.client = c ∧ r.pa = pa then { r with answer := some (st, x.data) } else r }
      | some (.load id k) =>
        if st = 2 then (s1.refuseLoad id (s1.loadVa id)).reap
        else
          match s1.loads.find? fun l => l.id == id with
          | some l =>
            match l.pieces[k]? with
            | some p =>
              let r := takeOver p.taken p.loc x.data (statusMark st)
              (s1.finishLoad (l.fill k r.1 r.2)).reap
            | none => s1
          | none => s1
      | _ => s1)

/-- A peer refused a store: ACCESS, deferred, once for the access; a copy stops (R338; 16 R313). -/
def State.refuseStore (s : State) (cl : Nat) (x : SqEntry) : State :=
  match x.copy with
  | some id =>
    match (s.cluster cl).hawk.copies.find? fun c => c.id == id with
    | some c => s.stopCopy cl c 0x08
    | none => s
  | none =>
    match x.who with
    | some (n, pc) =>
      let quiet := fun (y : SqEntry) =>
        if y.key == x.key && (match y.who with | some w => w.1 == n | none => false) then { y with who := none } else y
      (s.onCluster cl fun c => { c with sq := c.sq.map quiet }).deferTrap x.key pc (Trap.access x.va)
    | none => s

/-- A record not written at CPL goes to the lost-completion register, or is counted (03 R65). -/
def State.loseCompletion (s : State) (part : Nat) (cpl : Word64) (c : Word128) : State :=
  let p := s.part part
  let n : BitVec 31 := p.lost.extractLsb' 224 31
  let v : BitVec 256 :=
    if p.lost.getLsbD 255 then
      (1 : BitVec 1) ++ (if n = 0x7FFFFFFF then n else n + 1) ++ p.lost.extractLsb' 0 224
    else (1 : BitVec 1) ++ (0 : BitVec 31) ++ (0 : BitVec 32) ++ cpl ++ c
  { s with parts := s.parts.set part { p with lost := v } }

/-- SCRIM_WRITE_ACK: a store is acknowledged, or a write or packet of a copy, or a completion record (03 R65). -/
def execScrimWriteAck (port : Nat) (s : State) : Out :=
  .next (match s.inboxHead port 6 with
    | none => s
    | some x =>
      let refused := txSub x.hdr == 2
      let s1 := s.takeAnswer port x
      match s.tagUse port (txTag x.hdr) with
      | some (.store cl id) =>
        match (s1.cluster cl).sq.find? fun y => y.id == id with
        | some y =>
          let s2 := s1.acknowledge cl y
          (if refused then s2.refuseStore cl y else s2).reap
        | none => s1
      | some (.cpl part cpl c) => if refused then s1.loseCompletion part cpl c else s1
      | _ => s1)

/-- SCRIM_ATOMIC_RESPONSE. -/
def execScrimAtomicResponse (port : Nat) (s : State) : Out :=
  .next (match s.inboxHead port 7 with
    | none => s
    | some x =>
      let st := txSub x.hdr
      let s1 := s.takeAnswer port x
      match s.tagUse port (txTag x.hdr) with
      | some (.atomic cl id) =>
        match (s1.cluster cl).sq.find? fun y => y.id == id with
        | some y =>
          let s2 := s1.acknowledge cl y
          match y.op with
          | .atomic _ _ _ _ load =>
            (if st = 2 then s2.refuseLoad load y.va else s2.atomDone load x.data (statusMark st)).reap
          | _ => s2
        | none => s1
      | _ => s1)

/-- The traps that waited for the answer (06 R423): STARVED is not raised at a completed instruction. A thread that a completed
barrier has let go leaves it first (10 R251). -/
def State.settleDue (s : State) (k : TKey) (complete : Bool) : State :=
  match s.threads.find k with
  | none => s
  | some t =>
    let ds := if complete then t.due.filter fun d => d.cause != 0x0C else t.due
    let t1 := match t.wait.kind with | .wave _ _ => t.leaveBar | _ => t
    ds.foldl (fun st d => st.takeTrap k d) (s.setThread k { t1 with due := [] })

/-- An answer settles a thread's acquire or release at a peer (R344). -/
def State.settleSync (s : State) (k : TKey) (acq : Bool) (va : Nat) (tryP : Option (PredD × Bool)) (next : Word64)
    (st : Nat) : State :=
  match s.threads.find k with
  | none => s
  | some t =>
    let e := s.env k
    let done := { t with pc := next, chain := none, wait := Wait.idle, blockCtr := 0, kept := none, todo := none }
    let undone := (s.setThread k (t.stall true)).settleDue k false
    if st = 0 then
      let obj := (s.whereIs e.part e.ctx va).getD (.peer 0)
      let s1 := if acq then s.acquired e.cl obj else s
      let t1 := match tryP with | some (p, w) => done.setPredD p w true | none => done
      (s1.setThread k t1).settleDue k true
    else if st = 3 then
      let t1 := match tryP with | some (p, w) => done.setPredD p w false | none => t.stall true
      (s.setThread k t1).settleDue k true
    else if st = 4 || !t.due.isEmpty then undone
    else s.setThread k (t.raiseHere e (if st = 2 then Trap.access va else Trap.poison va))

/-- SCRIM_SYNC_RESPONSE: the answer of an acquire or a release; one that arrives while the gang is saved is kept until
its restore. -/
def execScrimSyncResponse (port : Nat) (s : State) : Out :=
  .next (match s.inboxHead port 8 with
    | none => s
    | some x =>
      let tag := txTag x.hdr
      match s.tagUse port tag with
      | some (.sync k acq _ va tryP next _) =>
        match s.threads.find k with
        | some t =>
          if t.wait.kind != .peerSync tag then s.takeAnswer port x
          else if s.isResident k then ((s.takeAnswer port x).settleSync k acq va tryP next (txSub x.hdr)).reap
          else
            let p := s.port port
            s.setPort port { p with inbox := p.inbox.tail, answers := p.answers.set tag (txSub x.hdr) }
        | none => s.takeAnswer port x
      | _ => s.takeAnswer port x)

end Sys2Proof.Machine
end

