-- ==== Sys2Proof/Machine/Launch.lean ====
section
/-!
DEFINITION. Launch queues, acceptance and refusal, completion records, reservation and the choice of a queue, retirement,
lending and teardown (03_launch_and_scheduling.md R59 to R73; 02 R26, R35 to R37; 21 R374, R382; 22 R401).
-/

namespace Sys2Proof.Machine

/-! ### Launch queues (03 R67; 22 R401) -/

def State.lqueue (s : State) (q : Nat) : LQueue := s.lqueues.get q LQueue.empty
/-- The entry of an owner; an owner number beyond the table is not valid. -/
def State.ownerEntry (s : State) (o : Nat) : Word32 := if o < 1024 then s.mgmt.owners.get o else 0
/-- The owner a launch queue belongs to. -/
def State.lqOwnerEntry (s : State) (q : Nat) : Word32 := s.ownerEntry (lqOwner (s.mgmt.lqueues.get q))
/-- The partition of that owner. Where the queue's entry or the owner's is not valid it is the one the entry's bits name, and its
register takes the queue's refused records (R65; LOG 70). -/
def State.lqPart (s : State) (q : Nat) : Nat := ownerPart (s.lqOwnerEntry q)
def State.lqSub (s : State) (q : Nat) : Nat := ownerSub (s.lqOwnerEntry q)

/-! ### The checks of R62 -/

/-- CPL passes check 1. -/
def Rec.cplOk (r : Rec) : Bool := r.cpl.toNat % 16 == 0 && canonical (r.cpl.toNat : Int)

/-- Check 1. -/
def Rec.addressesOk (r : Rec) : Bool :=
  r.code.toNat % 4 == 0 && canonical (r.code.toNat : Int) && r.tvec.toNat % 4 == 0 && canonical (r.tvec.toNat : Int)
    && (r.tcnt == 0 || (r.timg.toNat % 64 == 0 && canonical (r.timg.toNat : Int))) && r.cplOk

/-- Check 2 (02 R27, R28). -/
def Rec.widthsOk (r : Rec) : Bool :=
  (List.range 6).all (fun k => decide (r.width k ≤ 32)) && decide (r.widthSum 0 6 ≤ 64) && decide (1 ≤ r.kb)
    && decide (r.kb ≤ r.kg) && decide (r.kg ≤ 6) && decide (r.bw ≤ 10) && decide (r.gw ≤ 2)

/-- Check 4 (02 R29). -/
def Rec.extentsOk (r : Rec) : Bool :=
  (List.range 6).all fun k => if r.kg ≤ k then decide (r.extent k ≤ 2 ^ r.width k) else r.extent k == 1

/-- Two valid slots with one non-zero Group bind one queue (R62). -/
def Rec.doubleBind (r : Rec) : Bool :=
  (List.range 16).any fun j => (List.range j).any fun i =>
    qbValid (r.qbind i) && qbValid (r.qbind j) && qbGroup (r.qbind i) != 0
      && qbGroup (r.qbind i) == qbGroup (r.qbind j) && qbQueue (r.qbind i) == qbQueue (r.qbind j)

/-- Check 6: the reserved fields. -/
def Rec.reservedOk (r : Rec) : Bool :=
  [(704, 64), (426, 86), (363, 5), (345, 7), (331, 5), (325, 3), (310, 10)].all (fun p => fld r.toNat p.1 p.2 == 0)
    && (List.range 16).all (fun j => (r.qbind j).extractLsb' 9 3 == 0) && !r.doubleBind

/-- OWNER owns the launch queue. -/
def State.ownsQueue (s : State) (q : Nat) (r : Rec) : Bool :=
  lqV (s.mgmt.lqueues.get q) && lqOwner (s.mgmt.lqueues.get q) == r.owner && ownerV (s.ownerEntry r.owner)

/-- The root entry of CTX has V = 1 and names OWNER's sub-partition. -/
def State.rootFits (s : State) (r : Rec) : Bool :=
  let o := s.ownerEntry r.owner
  let e := s.rootEntry (ownerPart o) r.ctx
  rootV e && rootSub e == ownerSub o

/-- Check 7. -/
def State.ownerOk (s : State) (q : Nat) (r : Rec) : Bool :=
  s.ownsQueue q r
    && (List.range 16).all (fun j => !qbValid (r.qbind j) || queueOwner (s.mgmt.queues.get (qbQueue (r.qbind j))) == r.owner)
    && s.rootFits r

/-- Copies of a block that fit on one empty cluster (R63). -/
def Rec.copies (r : Rec) : Nat :=
  let b := min (2048 / r.blockSize) (262144 / (r.blockSize * r.regs))
  if r.scratchBytes = 0 then b else min b (393216 / r.scratchBytes)

/-- Gangs of one level-k group (02 R31). -/
def Rec.groupGangs (r : Rec) (k : Nat) : Nat := ((upFrom r.kg (k - r.kg)).map r.extent).foldl (· * ·) 1

/-- The levels above the gang of a class that are not single-party (02 R33). -/
def Rec.levelsOf (r : Rec) (cls : Nat) : List Nat :=
  (upFrom (r.kg + 1) (6 - r.kg)).filter fun k => r.cls k == cls && !r.single k

/-- Bays of a partition (R36: those lent out count). -/
def State.bayCount (s : State) (part : Nat) : Nat :=
  ((List.range 48).filter fun b => bit (s.live part 0).bays b).length

/-- Check 9 (R36, R63): a group of class C inside a gang needs room for that gang. -/
def State.groupsFit (s : State) (part : Nat) (r : Rec) : Bool :=
  ((upFrom 1 6).filter fun k => r.cls k == 2 && !r.single k).all fun k => decide (r.groupGangs k ≤ s.bayCount part * (4 * r.copies / r.gangSize))

/-- The STATUS and DETAIL of the first check of 1 to 9 that fails (R62). -/
def State.refusal (s : State) (q : Nat) (r : Rec) : Option (Byte × Nat) :=
  if !r.addressesOk then some (2, 1)
  else if !r.widthsOk then some (2, 2)
  else if (upFrom 1 6).any (fun k => r.cls k == 3) then some (2, 3)
  else if !r.extentsOk then some (2, 4)
  else if 393216 < r.scratchBytes ∨ 1024 < r.tcnt then some (2, 5)
  else if !r.reservedOk then some (2, 6)
  else if !s.ownerOk q r then some (2, 7)
  else if r.copies = 0 then some (3, 8)
  else if !s.groupsFit (ownerPart (s.ownerEntry r.owner)) r then some (3, 9)
  else none

/-! ### Completion (R64, R65; 14 R301) -/

/-- The completion record. -/
def Launch.completion (x : Launch) (status : Byte) : Word128 :=
  BitVec.ofNat 64 x.retired ++ BitVec.ofNat 32 x.detail ++ (0 : BitVec 16) ++ BitVec.ofNat 8 x.relaunches ++ status

/-- The die scheduler's translation for a launch (R65, R425). -/
def Launch.who (x : Launch) (die : Nat) : Who :=
  { part := x.part, sub := x.sub, ctx := x.record.ctx, caches := [.die die] }

/-- The die that serves a launch queue. -/
def State.servingDie (s : State) (q : Nat) : Nat := lqDie (s.mgmt.lqueues.get q)

/-- Send the dirty blocks that meet a test from some clusters: why those that stay cannot be sent, and the state. -/
def State.flushAll (p : BsBlock → Bool) : List Nat → State → List Unsent × State
  | [], s => ([], s)
  | cl :: rest, s =>
    let r := s.sendEach cl ((s.cluster cl).dirtyBlocks p)
    let q := State.flushAll p rest r.2
    (r.1 ++ q.1, q.2)

/-- A cluster's queue still holds a patch of a context. -/
def State.patchesOf (s : State) (part ctx : Nat) (cl : Nat) : Bool :=
  !((s.cluster cl).patchIds 0 fun p => p.part == part && p.ctx == ctx).isEmpty

/-- The launch leaves, its record written or lost. -/
def State.forgetLaunch (s : State) (l : Nat) : State :=
  ({ s with launches := s.launches.erase l } : State).cancelFaults

/-- Write a completion record at CPL, as a 16-byte store of the launch's context (R65). A peer that refuses the write sends the
record to the lost-completion register (17 R338). -/
def State.writeCompletion (s : State) (l : Nat) (x : Launch) (c : Word128) : State :=
  let die := s.servingDie x.queue
  let w := x.who die
  let lost := fun (st : State) => (st.loseCompletion x.part x.record.cpl c).forgetLaunch l
  let bs := toBytes 16 c.toNat
  if !x.atCpl then lost s
  else
    match s.check w (x.record.cpl.toNat : Int) 16 true false with
    | (.fault _, s1) => lost s1
    | (.wait, s1) => s1
    | (.absent pages, s1) =>
      (match pages with
       | (va, illf) :: _ =>
         let r := s1.requestPage (srcDie die) w [] va true false illf
         { r.2 with launches := r.2.launches.set l { x with token := some r.1 } }
       | [] => s1)
    | (.ok ps, s1) =>
      match ps with
      | (.home a, _, _) :: _ =>
        if s1.homeWaits a then s1 else (((s1.homeWrite a bs 0 3).testWaiters a 16).forgetLaunch l).reap
      | (.host a, _, _) :: _ => ({ s1 with hostMem := s1.hostMem.setBytes a bs } : State).forgetLaunch l
      | (.peer pa, _, _) :: _ =>
        let q := s1.peerOf pa
        (match s1.request q.1 x.record.owner (.cpl x.part x.record.cpl c) q.2 1 0 16 bs with
         | some s2 => s2.forgetLaunch l
         | none => s1)
      | _ => s1

/-- Send the blocks of a context that full saves of killed gangs left unsent (14 R301). -/
def State.sendOrphans (part ctx : Nat) : List (Nat × BsBlock) → State → List Unsent × State
  | [], s => ([], s)
  | x :: rest, s =>
    if !BsBlock.ofCtx part ctx x.2 then State.sendOrphans part ctx rest s
    else
      match s.enterPatch x.1 x.2 false with
      | .error u => let r := State.sendOrphans part ctx rest s; (u :: r.1, r.2)
      | .ok s1 => State.sendOrphans part ctx rest { s1 with orphans := s1.orphans.erase x }

/-- The dirty blocks of a context that full saves of gangs not yet restored hold unsent go home with the rest (14 R301). -/
def State.releaseUnsent (s : State) (part ctx : Nat) : State :=
  let mine := BsBlock.ofCtx part ctx
  { s with
    orphans := s.orphans ++ s.saved.flatMap fun p => (p.2.unsent.filter mine).map fun x =>
      ((match s.blocks.find p.1 with | some b => b.cluster | none => 0), x)
    saved := s.saved.mapAll fun _ w => { w with unsent := w.unsent.filter fun x => !mine x } }

/-- Send every dirty block of a context. -/
def State.flushCtx (s0 : State) (part ctx : Nat) : List Unsent × State :=
  let s := s0.releaseUnsent part ctx
  let r := State.sendOrphans part ctx s.orphans s
  let q := State.flushAll (BsBlock.ofCtx part ctx) (r.2.clusters.map (·.1)) r.2
  (r.1 ++ q.1, q.2)

/-- The first page that some unsent patches miss. -/
def missedPage (us : List Unsent) : Option (Nat × Bool) :=
  us.findSome? fun u => match u with | .absent (p :: _) => some p | _ => none

/-- A fault request is outstanding. -/
def State.requested (s : State) (tok : Option Nat) : Bool :=
  match tok with | some t => s.faults.any fun f => f.token == t | none => false

/-- An ending launch without gangs sends every dirty block of its context from every cluster, waits for their
acknowledgement, and writes its completion record (R64, R65; 14 R301). While the rails are off it waits (21 R391). It waits, too,
while a patch cannot be sent (LOG 67). -/
def State.finishLaunch (s : State) (l : Nat) : State :=
  match s.launches.find l with
  | none => s
  | some x =>
    if s.thermal.railsOff || s.requested x.token then s
    else
      match x.status with
      | .running => s
      | .writing st => s.writeCompletion l x (x.completion st)
      | .ending st =>
        if s.gangs.any (fun p => p.1.launch == l) then s
        else
          let r := s.flushCtx x.part x.record.ctx
          let s1 := r.2
          match missedPage r.1 with
          | some (va, illf) =>
            let die := s1.servingDie x.queue
            let r := s1.requestPage (srcDie die) (x.who die) [] va true false illf
            { r.2 with launches := r.2.launches.set l { x with token := some r.1 } }
          | none =>
            if !r.1.isEmpty || s1.clusters.any (fun p => s1.patchesOf x.part x.record.ctx p.1) then s1
            else
              let y : Launch := { x with status := .writing st, token := none }
              ({ s1 with launches := s1.launches.set l y } : State).writeCompletion l y (y.completion st)

/-! ### Acceptance (R62, R425) -/

/-- A refused record is written at CPL (R65). -/
def State.mayWriteCpl (s : State) (q : Nat) (r : Rec) : Bool := r.cplOk && s.ownsQueue q r && s.rootFits r

/-- The launch of a record that came through a queue. -/
def State.launchFor (s : State) (q : Nat) (r : Rec) (status : LaunchStatus) (detail : Nat) : Launch :=
  { record := r, detail := detail, atCpl := status == .running || s.mayWriteCpl q r, part := s.lqPart q, sub := s.lqSub q,
    queue := q, status := status, pending := if status == .running then (List.range r.gangCount).map r.gangNo else [],
    retired := 0, relaunches := 0, token := none }

/-- A record that starts no thread ends with a STATUS and a DETAIL, and is written at once (R62). -/
def State.endRecord (s : State) (q : Nat) (r : Rec) (status : Byte) (detail : Nat) : State :=
  let l := s.serial + 1
  ({ s.bump with launches := s.launches.set l (s.launchFor q r (.writing status) detail) } : State).finishLaunch l

/-! ### The doorbell (22 R401, R412) -/

/-- The host reads with it. -/
def HostWrite.reads : HostWrite → Bool
  | .read .. => true
  | _ => false

/-- The owner of a queue is being torn down: a launch of its partition that a teardown ended has not come to its end (R73; LOG 91). A
queue that is not valid, or whose owner is not, has no owner (21 R377). -/
def State.tornDown (s : State) (q : Nat) : Bool :=
  lqV (s.mgmt.lqueues.get q) && ownerV (s.lqOwnerEntry q)
    && s.launches.any fun p => p.2.part == s.lqPart q && p.2.status == .ending 5

/-- A record enters a queue: not a full one, and ABANDONED where the queue's owner is being torn down. -/
def State.enqueueRecord (s : State) (q : Nat) (r : Rec) : State :=
  let x := s.lqueue q
  if 64 ≤ x.recs.length then s
  else if s.tornDown q then s.endRecord q r 5 0
  else { s with lqueues := s.lqueues.set q { x with recs := x.recs ++ [r] } }

/-- A window write of the host takes effect behind its memory and window writes that wait (05 R124). -/
def State.behindHeld (s : State) (w : HostWrite) (now : State) : State :=
  if s.mgmt.heldWrites.all HostWrite.reads then now
  else { s with mgmt := { s.mgmt with heldWrites := s.mgmt.heldWrites ++ [w] } }

/-- LAUNCH_DOORBELL (R401): the staging area as the host has written it, and its record, which enters. -/
def execLaunchDoorbell (q : Nat) (staged : Rec) (s : State) : Out :=
  .next (if 64 ≤ q then s
    else
      let s1 := { s with lqueues := s.lqueues.set q { s.lqueue q with staging := staged } }
      s1.behindHeld (.doorbell q staged) (s1.enqueueRecord q staged))

/-- The record at the head of a queue is refused and leaves (R62, R67). -/
def State.refuseHead (s : State) (q : Nat) (status : Byte) (detail : Nat) : State :=
  match (s.lqueue q).recs with
  | [] => s
  | r :: _ =>
    let s1 := { s.forget (.image q) with lqueues := s.lqueues.upd q LQueue.leave }
    (s1.endRecord q r status detail).cancelFaults

/-- The record at the head of a queue is accepted: its image is loaded, and its gangs wait to start (R61, R67). -/
def State.acceptHead (s : State) (q : Nat) (r : Rec) (es : List TEntry) : State :=
  let l := s.serial + 1
  let c := s.ctxOf (s.lqPart q) r.ctx
  let tensors := es.zipIdx.foldl (fun (m : Cells 512) p => m.set p.2 p.1) c.tensors
  let s1 := s.startGroups l r
  { s1.bump with launches := s.launches.set l (s.launchFor q r .running 0)
                 ctxs := if es.isEmpty then s.ctxs else s.ctxs.set (s.lqPart q, r.ctx) { c with tensors := tensors }
                 lqueues := s.lqueues.set q { s.lqueue q with head := some l, token := none } }

/-- What the read of an image comes to. -/
inductive ImageGot where
  | ready (es : List TEntry)
  | refused
  | page (tok : Nat)
  | wait

/-- An entry that is not well-formed is loaded with V = 0 (R425; 09 R222). -/
def loadedEntry (x : TEntry) : TEntry :=
  if x.v && !x.wellFormed then (0 : BitVec 1) ++ x.extractLsb' 0 511 else x

/-- Read the entries of an image at some addresses, each checked and read at its home (R425). -/
def State.readImage (q die owner : Nat) (w : Who) : List Nat → State → ImageGot × State
  | [], s => (.ready [], s)
  | a :: rest, s =>
    match s.check w (a : Int) 64 false false with
    | (.fault _, s1) => (.refused, s1)
    | (.wait, s1) => (.wait, s1)
    | (.absent pages, s1) =>
      (match pages with
       | (va, illf) :: _ => let r := s1.requestPage (srcDie die) w [] va false false illf; (.page r.1, r.2)
       | [] => (.wait, s1))
    | (.ok ps, s1) =>
      match s1.gather (.image q) owner ps with
      | (.wait, s2) => (.wait, s2)
      | (.refused _, s2) => (.refused, s2)
      | (.ready _ (some _), s2) => (.refused, s2)
      | (.ready bs none, s2) =>
        match State.readImage q die owner w rest s2 with
        | (.ready es, s3) => (.ready (loadedEntry (BitVec.ofNat 512 (ofBytes bs)) :: es), s3)
        | r => r

/-- LAUNCH_ACCEPT: the record at a queue's head is checked, and refused or accepted. -/
def execLaunchAccept (q : Nat) (s : State) : Out :=
  .next (match (s.lqueue q).head, (s.lqueue q).recs with
    | none, r :: _ =>
      let o := s.ownerEntry r.owner
      if s.requested (s.lqueue q).token || s.homeWaits ((s.live (ownerPart o) 0).ptroots + 8 * r.ctx) then s
      else
        match s.refusal q r with
        | some x => s.refuseHead q x.1 x.2
        | none =>
          let die := s.servingDie q
          let w : Who := { part := ownerPart o, sub := ownerSub o, ctx := r.ctx, caches := [.die die] }
          match State.readImage q die r.owner w ((List.range r.tcnt).map fun k => r.timg.toNat + 64 * k) s with
          | (.ready es, s1) => (s1.forget (.image q)).acceptHead q r es
          | (.refused, s1) => s1.refuseHead q 2 10
          | (.page t, s1) => { s1 with lqueues := s1.lqueues.upd q fun y => { y with token := some t } }
          | (.wait, s1) => s1
    | _, _ => s)

/-! ### Room (02 R35; R63) -/

/-- The level whose groups are resident as a whole: the greatest of class C above the gang (02 R35). -/
def Rec.coLevel (r : Rec) : Option Nat := (r.levelsOf 2).getLast?

/-- A gang's level-k group. -/
def Rec.groupNo (r : Rec) (k gang : Nat) : Nat := gang >>> r.widthSum r.kg k

/-- Two gangs are placed, saved and restored together (02 R35, R52). -/
def Rec.together (r : Rec) (a b : Nat) : Bool :=
  match r.coLevel with
  | some k => r.groupNo k a == r.groupNo k b
  | none => a == b

/-- Blocks reserved on a cluster: those of gangs that are not saved, and of retired gangs whose group stands. `freed`
counts those of gangs requested to be saved as gone. -/
def State.reservedOn (s : State) (freed : Bool) (cl : Nat) : List (BKey × Block) :=
  s.blocks.filter fun p => p.2.cluster == cl &&
    (match s.gangs.find { launch := p.1.launch, gang := (s.recOf p.1.launch).gangOf p.1.block } with
     | some g => (match g.status with
        | .running => true
        | .requested .. => !freed
        | .saved _ => false)
     | none => true)

/-- Copies of a launch's block that fit in what is left of a cluster (01 R10). -/
def State.room (s : State) (freed : Bool) (r : Rec) (cl : Nat) : Nat :=
  let used := fun (f : Rec → Nat) => ((s.reservedOn freed cl).map fun p => f (s.recOf p.1.launch)).foldl (· + ·) 0
  let b := min ((2048 - used Rec.blockSize) / r.blockSize)
    ((262144 - used fun x => x.blockSize * x.regs) / (r.blockSize * r.regs))
  if r.scratchBytes = 0 then b else min b ((393216 - used Rec.scratchBytes) / r.scratchBytes)

/-- A pool of clusters: a sub-partition's own bays, or those it has borrowed (R68). -/
structure Pool where
  part : Nat
  sub : Nat
  lent : Bool
  deriving DecidableEq, Repr

/-- The cluster takes gangs, and belongs to the pool (21 R372, R397; 22 R408). -/
def State.usable (s : State) (p : Pool) (cl : Nat) : Bool :=
  let c := s.cluster cl
  decide (cl < 192) && s.readyBit (18 + cl / 4) && c.inService && !c.draining && !c.recalled
    && (if p.lent then c.lent == some (p.part, p.sub)
        else c.lent.isNone && bit (s.live p.part p.sub).bays (cl / 4) && bit (s.live p.part 0).bays (cl / 4))

/-- Gangs of m blocks, each on m distinct clusters, that fit where the clusters of a bay have room for `rs` blocks. -/
def bayGangs (m : Nat) (rs : List Nat) : Nat :=
  ((List.range (rs.foldl (· + ·) 0 / m + 1)).filter fun t =>
    decide (m * t ≤ (rs.map fun r => min r t).foldl (· + ·) 0)).foldl max 0

/-- Gangs of a launch that fit in a pool. -/
def State.poolGangs (s : State) (freed : Bool) (p : Pool) (r : Rec) : Nat :=
  ((List.range 48).map fun b =>
    bayGangs r.gangSize ((upFrom (4 * b) 4).map fun cl => if s.usable p cl then s.room freed r cl else 0)).foldl (· + ·) 0

/-! ### Heads and the choice among them (02 R37; R68) -/

/-- No gang of a launch's partition and class may be placed: shed, thermal, a checkpoint, a link that went down during one and has
not recovered, a partition that its driver has not enabled again (21 R390, R391; 22 R410, R411). -/
def State.noPlacing (s : State) (x : Launch) : Bool :=
  s.shed x.record.prio || s.thermal.holding || s.thermal.railsOff || s.mgmt.ckStat == 3 || s.mgmt.linkDown
    || (s.part x.part).disabled

/-- The launch at a queue's head, accepted, with gangs still to start (R67). -/
def State.headOf (s : State) (q : Nat) : Option (Nat × Launch) :=
  match (s.lqueue q).head with
  | some l => (s.launches.find l).bind fun x => if x.pending.isEmpty || x.status != .running then none else some (l, x)
  | none => none

/-- A queue's head as R69 and R70 see it: that launch, or the record that has passed checks 1 to 9 and waits for its image
(R67, R425). -/
def State.waitingHead (s : State) (q : Nat) : Option (Nat × Launch) :=
  match (s.lqueue q).head, (s.lqueue q).recs with
  | none, r :: _ => if (s.refusal q r).isNone then some (s.serial + 1, s.launchFor q r .running 0) else none
  | _, _ => s.headOf q

/-- The pending gangs that are placed together with the first (02 R35). -/
def Launch.nextUnit (x : Launch) : List Nat :=
  match x.pending with
  | [] => []
  | g :: _ => x.pending.filter fun h => x.record.together g h

/-- A saved gang of a P group of the next gang is restored first (02 R37). -/
def State.savedFirst (s : State) (l : Nat) (x : Launch) : Bool :=
  match x.pending with
  | [] => false
  | g :: _ => s.gangs.any fun p => p.1.launch == l
      && (match p.2.status with | .saved _ => true | _ => false)
      && (x.record.levelsOf 1).any fun k => x.record.groupNo k g == x.record.groupNo k p.1.gang

/-- The head can be reserved in a pool. -/
def State.reservable (s : State) (freed lent : Bool) (l : Nat) (x : Launch) : Bool :=
  !s.noPlacing x && !s.savedFirst l x
    && decide (x.nextUnit.length ≤ s.poolGangs freed { part := x.part, sub := x.sub, lent := lent } x.record)

/-- The launch queues a die serves whose owners belong to a sub-partition, in ascending order. -/
def State.queuesOf (s : State) (die part sub : Nat) : List Nat :=
  (List.range 64).filter fun q => lqV (s.mgmt.lqueues.get q) && ownerV (s.lqOwnerEntry q) && s.servingDie q == die
    && s.lqPart q == part && s.lqSub q == sub

/-- How a queue stands in a ring of a PRIO (R68 rule 3). -/
def State.queueReady (s : State) (lent : Bool) (prio q : Nat) : Ready :=
  match s.headOf q with
  | some (l, x) =>
    if x.record.prio ≠ prio then .empty else if s.reservable false lent l x then .ready else .passed
  | none =>
    match (s.lqueue q).recs with
    | r :: _ => if r.prio = prio then .passed else .empty
    | [] => .empty

/-- How a sub-partition stands in its ring. -/
def State.subReady (s : State) (die part prio sub : Nat) : Ready :=
  let rs := (s.queuesOf die part sub).map (s.queueReady false prio)
  if rs.contains .ready then .ready else if rs.contains .passed then .passed else .empty

/-- The weight of a launch queue: its owner's (R67). -/
def State.lqWeight (s : State) (q : Nat) : Nat := ownerWeight (s.lqOwnerEntry q)
/-- The weight of a sub-partition; 0 acts as 1 (LOG 21). -/
def State.subWeight (s : State) (part sub : Nat) : Nat := max 1 (s.live part sub).twgt

/-- The queue ring of a sub-partition picks (R68). -/
def State.pickQueue (s : State) (lent : Bool) (die part sub prio : Nat) : Option (Nat × State) :=
  let k := RingKey.queues die part sub prio
  (RR.choose s.lqWeight (s.queueReady lent prio) (s.ring k (s.queuesOf die part sub) s.lqWeight)).map fun r =>
    (r.1, { s with rings := s.rings.set k r.2 })

/-- The sub-partition ring picks, then the queue ring (R68). The former has had the same members since reset, and started with the
weights of that moment (rule 4). -/
def State.pickHead (s : State) (lent : Bool) (die part sub prio : Nat) : Option (Nat × State) :=
  if lent then s.pickQueue true die part sub prio
  else
    let k := RingKey.subs die part prio
    match RR.choose (s.subWeight part) (s.subReady die part prio) (s.ring k (List.range 8) (fun _ => max 1 subBlockReset.twgt)) with
    | some (sb, r) => ({ s with rings := s.rings.set k r } : State).pickQueue false die part sb prio
    | none => none

/-- The live gangs of a launch that stand together with a gang. -/
def State.unitOf (s : State) (l gang : Nat) : List Nat :=
  ((s.gangs.filter fun p => p.1.launch == l).map fun p => p.1.gang).filter fun g => (s.recOf l).together gang g

/-- A saved gang waits for resources with its unit, and could be given them (02 R52; R72). -/
def State.restorable (s : State) (lent : Bool) (g : GKey) (x : Launch) : Bool :=
  let u := s.unitOf g.launch g.gang
  x.status == .running && !s.noPlacing x
    && u.all (fun n => match s.gangs.find { launch := g.launch, gang := n } with
        | some y => (match y.status with | .saved _ => true | _ => false)
        | none => false)
    && decide (u.length ≤ s.poolGangs false { part := x.part, sub := x.sub, lent := lent } x.record)

/-- Another head or saved gang that waits for the same resources has a higher PRIO and can be given them (R68 rule 1; R72). At one
PRIO a saved gang takes no turn in a ring (LOG 89). -/
def State.outranked (s : State) (lent : Bool) (die : Nat) (x : Launch) : Bool :=
  let above := fun (y : Launch) => y.part == x.part && (!lent || y.sub == x.sub) && decide (x.record.prio < y.record.prio)
  ((List.range 64).any fun q =>
    s.servingDie q == die &&
      (match s.headOf q with
       | some (l, y) => above y && s.reservable false lent l y
       | none => false))
  || s.gangs.any fun p =>
      match s.launches.find p.1.launch with
      | some y => s.servingDie y.queue == die && above y && s.restorable lent p.1 y
      | none => false

/-! ### Placing a gang (02 R25, R35, R45; R61) -/

/-- The clusters of a placement are distinct, lie in one bay, belong to the pool and have room. -/
def State.placeable (s : State) (p : Pool) (r : Rec) (cls : List Nat) : Bool :=
  cls.length == r.gangSize && dedup cls == cls && cls.all (fun c => c / 4 == cls.headD 0 / 4)
    && cls.all fun c => s.usable p c && decide (1 ≤ s.room false r c)

/-- The starvation record of a launch's sub-partition (02 R44). -/
def State.starveOf (s : State) (x : Launch) : Word128 := (s.live x.part x.sub).starve

/-- Clusters take a gang of a partition: their L1s hold no line older than the launch's record (05 R124), and the
partition has run there since their last pass (21 R397). -/
def State.takeClusters (s : State) (part : Nat) (cls : List Nat) : State :=
  cls.foldl (fun st cl => st.onCluster cl fun c =>
    { c.dropL1 with scanParts := if c.scanParts.contains part then c.scanParts else c.scanParts ++ [part] }) s

/-- Start a gang on its clusters, blocks in ascending order. -/
def State.startGang (s : State) (l : Nat) (x : Launch) (p : Placement) : State :=
  let die := p.clusters.headD 0 / 48
  let s1 := ((gangBlocks x.record p.gang).zip p.clusters).foldl (fun st b =>
    { st.startBlock l x.record b.1 b.2 st.placeNo (s.starveOf x) with placeNo := st.placeNo + 1 }) (s.takeClusters x.part p.clusters)
  let g : Gang :=
    { status := .running, kills := 0, frozen := false, shedAt := none, quantumAt := s.ns die, die := die }
  { s1 with gangs := s1.gangs.set { launch := l, gang := p.gang } g }

/-- Start gangs in turn, each where it fits after those before it; none when one does not. -/
def State.startGangs (pool : Pool) (l : Nat) (x : Launch) : List Placement → State → Option State
  | [], s => some s
  | p :: rest, s =>
    if s.placeable pool x.record p.clusters then State.startGangs pool l x rest (s.startGang l x p) else none

/-- The pool that holds the first cluster of some placements. -/
def State.poolOf (s : State) (x : Launch) (ps : List Placement) : Pool :=
  { part := x.part, sub := x.sub
    lent := match ps with | p :: _ => (s.cluster (p.clusters.headD 0)).lent.isSome | [] => false }

/-- SCHEDULER_GRANT (R68): the picked head's next unit is reserved whole and started. -/
def execSchedulerGrant (die q : Nat) (places : List Placement) (s : State) : Out :=
  .next (match s.headOf q with
    | none => s
    | some (l, x) =>
      let pool := s.poolOf x places
      if s.servingDie q != die || !s.reservable false pool.lent l x || s.outranked pool.lent die x
          || places.map (·.gang) != x.nextUnit then s
      else
        match s.pickHead pool.lent die x.part x.sub x.record.prio with
        | some (q', s1) =>
          if q' ≠ q then s
          else
            match State.startGangs pool l x places s1 with
            | some s2 =>
              let rest := x.pending.filter fun g => !x.nextUnit.contains g
              let s3 := { s2 with launches := s2.launches.set l { x with pending := rest } }
              if rest.isEmpty then { s3 with lqueues := s3.lqueues.upd q LQueue.leave } else s3
            | none => s
        | none => s)

/-! ### Retirement (02 R26; 07 R166) -/

/-- The entry belongs to a gang: a store of its threads, or a write of a copy of its blocks. A patch belongs to none. -/
def SqEntry.ofGang (rcd : Rec) (g : GKey) (x : SqEntry) : Bool :=
  (match x.op with | .patch _ => false | _ => true) && inGang rcd g x.key

/-- The gang has no work left in a cluster. -/
def Cluster.quiet (rcd : Rec) (g : GKey) (c : Cluster) : Bool :=
  !(c.sq.any (SqEntry.ofGang rcd g)) && !(c.hawk.copies.any fun x => blockInGang rcd g x.block)
    && !(match c.matrix.holder with | some b => blockInGang rcd g b && !c.matrix.tasks.isEmpty | none => false)

/-- The gang's last thread has exited and its work is complete. -/
def State.mayRetire (s : State) (g : GKey) : Bool :=
  let rcd := s.recOf g.launch
  (match s.gangs.find g with | some x => (match x.status with | .saved _ => false | _ => true) | none => false)
    && !(s.threads.any fun p => inGang rcd g p.1) && s.clusters.all fun p => p.2.quiet rcd g

/-- A gang retires: its engines' state goes, and its blocks are kept until its group has retired (02 R35). -/
def State.retireGang (s : State) (g : GKey) : State :=
  let rcd := s.recOf g.launch
  let s1 := { s with
    gangs := s.gangs.erase g
    blocks := s.blocks.mapAll fun b x => if blockInGang rcd g b then { x with resident := false, scratch := [], poison := [] } else x
    crews := s.crews.keep fun k _ => !(k.launch == g.launch && rcd.gangOf k.block == g.gang)
    barriers := s.barriers.keep fun k _ => !(k.launch == g.launch &&
      (match k.scope with
       | .launch => false
       | .gang => k.unit == g.gang
       | _ => rcd.gangOf k.unit == g.gang))
    clusters := s.clusters.mapAll fun _ c => c.dropGang rcd g
    launches := s.launches.upd g.launch fun x => { x with retired := x.retired + 1 } }
  if (s1.unitOf g.launch g.gang).isEmpty then
    { s1 with blocks := s1.blocks.keep fun b _ => !(b.launch == g.launch && rcd.together g.gang (rcd.gangOf b.block)) }
  else s1

/-- A launch whose last gang has retired ends with DONE (02 R26; R64). -/
def State.endIfDone (s : State) (l : Nat) : State :=
  match s.launches.find l with
  | some x =>
    if x.status == .running && x.pending.isEmpty && !(s.gangs.any fun p => p.1.launch == l) then
      { s with launches := s.launches.set l { x with status := .ending 1 }
               barriers := s.barriers.keep fun k _ => k.launch != l
               replicas := s.replicas.filter fun r => r.launch != l }
    else s
  | none => s

/-- GANG_RETIRE: a gang retires; a launch that has ended writes its completion record. -/
def execGangRetire (launch gang : Nat) (s : State) : Out :=
  .next (
    let g : GKey := { launch := launch, gang := gang }
    ((if s.mayRetire g then s.retireGang g else s).endIfDone launch).finishLaunch launch)

/-- LOST_COMPLETION_CLEAR (R65): a write of 1 to VALID clears it, and LOST with it. -/
def execLostCompletionClear (part : Nat) (s : State) : Out :=
  .next (
    let p := s.part part
    { s with parts := s.parts.set part { p with lost := (p.lost.extractLsb' 0 224).setWidth 256 } })

/-! ### Teardown (R73) -/

/-- The records of a queue that no launch was made of end ABANDONED. -/
def State.abandonQueue (s : State) (q : Nat) : State :=
  let x := s.lqueue q
  let rs := if x.head.isSome then x.recs.tail else x.recs
  let s1 := { s.forget (.image q) with lqueues := s.lqueues.set q { x with recs := if x.head.isSome then x.recs.take 1 else [], token := none } }
  rs.foldl (fun st r => st.endRecord q r 5 0) s1

/-- PARTITION_TEARDOWN (R73): each queued record and each running launch of the partition ends with ABANDONED. -/
def execPartitionTeardown (part : Nat) (s : State) : Out :=
  .next (
    let qs := (List.range 64).filter fun q => lqV (s.mgmt.lqueues.get q) && s.lqPart q == part && !(s.lqueue q).recs.isEmpty
    let s1 := (qs.foldl State.abandonQueue s).cancelFaults
    let ls := (s1.launches.filter fun p => p.2.part == part && p.2.status == .running).map (·.1)
    ls.foldl (fun st l => (st.endLaunch l 5).finishLaunch l) s1)

/-! ### Write-budget windows (09 R226; 21 R374, R376) -/

/-- Put the committed budgets of a stack in force. -/
def SubCfg.renew (c : SubCfg) (stack : Nat) : SubCfg :=
  { c with inForce := (c.inForce.put (0x020 + 4 * stack) 4 (c.live.wbud stack)).put (0x040 + 4 * stack) 4 (c.live.rbud stack) }

/-- WRITE_BUDGET_WINDOW (R226): at a boundary of the die's windows its stacks' counters return to 0, committed budgets come
into force, and the evictions that wait for a budget go on (R229). -/
def execWriteBudgetWindow (die : Nat) (s : State) : Out :=
  .next (if s.toWindow die ≠ 0 then s
    else
      let mine := fun (k : Nat × Nat × Nat) => k.1 / 2 == die
      ({ s with
        windows := s.windows.set die (s.windows.get die 0 + 1)
        wctr := s.wctr.keep fun k _ => !mine k
        rctr := s.rctr.keep fun k _ => !mine k
        parts := s.parts.mapAll fun _ p =>
          { p with subs := p.subs.mapAll fun _ c => (c.renew (2 * die)).renew (2 * die + 1) } } : State).evictMore)

/-! ### Lending (R72; 21 R382) -/

/-- A cluster that changes hands is cleared: its clocks, its scan count and its power register stand. -/
def Cluster.cleared (c : Cluster) (lent : Option (Nat × Nat)) : Cluster :=
  { Cluster.reset with cyc := c.cyc, scan := c.scan, power := c.power, mhz := c.mhz, inService := c.inService,
                       draining := c.draining, freeze := c.freeze, islands := c.islands, scanParts := c.scanParts,
                       lent := lent }

/-- The translation cache lies in a cluster. -/
def TlbAt.inCluster (a : TlbAt) (cl : Nat) : Bool :=
  match a with
  | .lane c _ _ => c == cl
  | .quarter c _ => c == cl
  | .cluster c => c == cl
  | .die _ => false

/-- The cluster changes hands once it holds no gang and its stores and dirty blocks have gone home. -/
def State.changeHands (s : State) (lent : Option (Nat × Nat)) (cl : Nat) : State :=
  if !(s.reservedOn false cl).isEmpty then s
  else
    let s1 := (s.sendEach cl ((s.cluster cl).dirtyBlocks fun _ => true)).2
    let c := s1.cluster cl
    if !c.sq.isEmpty || c.store.any (fun b => b.dirty != 0) then s1
    else
      { s1.setCluster cl (c.cleared lent) with tlb := s1.tlb.filter fun x => !x.at_.inCluster cl }

/-- LEND (R382): the clusters of a lender's own bays that hold no gang pass to a borrowing sub-partition. -/
def execLend (lender part sub : Nat) (clusters : List Nat) (s : State) : Out :=
  .next ((clusters.filter fun cl => decide (cl < 192) && bit (s.live lender 0).bays (cl / 4) && (s.cluster cl).lent.isNone).foldl
    (fun st cl => st.changeHands (some (part, sub)) cl) s)

/-! ### Requests to save a gang (02 R52) -/

/-- A gang's pre-emption timeout: that of its blocks (02 R44). -/
def State.preemptNsOf (s : State) (g : GKey) : Nat :=
  let rcd := s.recOf g.launch
  match s.blocks.find? fun p => blockInGang rcd g p.1 with
  | some p => preemptNs p.2.starve
  | none => 20000

/-- Ask a gang, with its C group, for a save; `cap` bounds the timeout, also of a gang that was asked before (R72). -/
def State.requestUnit (s : State) (cap : Option Nat) (g : GKey) : State :=
  (s.unitOf g.launch g.gang).foldl (fun st h =>
    { st with gangs := st.gangs.upd { launch := g.launch, gang := h } fun x =>
        match x.status with
        | .running =>
          let n := st.preemptNsOf { launch := g.launch, gang := h }
          { x with status := .requested (st.ns x.die) (match cap with | some c => min c n | none => n) }
        | .requested t n => (match cap with
          | some c => { x with status := .requested t (min n (st.ns x.die + c - t)) }
          | none => x)
        | .saved _ => x }) s

/-- The gangs with a block on a cluster. -/
def State.gangsOn (s : State) (cl : Nat) : List GKey :=
  dedup ((s.reservedOn false cl).map fun p => ({ launch := p.1.launch, gang := (s.recOf p.1.launch).gangOf p.1.block } : GKey))

/-- Hand back the recalled clusters that hold no gang. -/
def State.handBack (s : State) : State :=
  (s.clusters.filter fun p => p.2.recalled).foldl (fun st p => st.changeHands none p.1) s

/-- RECALL (R72): every gang on the recalled clusters is pre-empted with its C group, within 100 µs; empty clusters go
back. -/
def execRecallLent (lender : Nat) (clusters : List Nat) (s : State) : Out :=
  .next (
    let mine := clusters.filter fun cl => bit (s.live lender 0).bays (cl / 4) && (s.cluster cl).lent.isSome
    let s1 := mine.foldl (fun (st : State) cl => st.onCluster cl fun c => { c with recalled := true }) s
    (mine.foldl (fun (st : State) cl => (st.gangsOn cl).foldl (fun st g => st.requestUnit (some 100000) g) st) s1).handBack)

/-! ### Quanta (R70) -/

/-- Something of the gang's partition waits at its PRIO or above: a head, the gang's own record apart, or a saved
gang. -/
def State.waitsAt (s : State) (l : Nat) (x : Launch) : Bool :=
  (List.range 64).any (fun q =>
      match s.waitingHead q with
      | some (l', y) => l' != l && y.part == x.part && decide (x.record.prio ≤ y.record.prio)
      | none => false)
    || s.gangs.any fun p => (match p.2.status with | .saved _ => true | _ => false)
        && (match s.launches.find p.1.launch with
            | some y => y.part == x.part && decide (x.record.prio ≤ y.record.prio)
            | none => false)

/-- QUANTUM_EXPIRY (R70): the gang is pre-empted when something waits at its PRIO or above; otherwise a new quantum
starts. -/
def execQuantumExpiry (launch gang : Nat) (s : State) : Out :=
  .next (
    let g : GKey := { launch := launch, gang := gang }
    match s.launches.find launch, s.gangs.find g with
    | some x, some y =>
      let q := x.record.quantum
      if y.status != .running || q = 0 || s.ns y.die - y.quantumAt < 1024 * q then s
      else if s.waitsAt launch x then s.requestUnit none g
      else { s with gangs := s.gangs.set g { y with quantumAt := s.ns y.die } }
    | _, _ => s)

end Sys2Proof.Machine
end

