-- ==== Sys2Proof/Machine/Preempt.lean ====
section
/-!
DEFINITION. Starvation, and saving and restoring gangs (02_execution_model.md R42 to R44, R52 to R58; 03 R69; 05 R126; 06
R155, R160; 14 R301; 16 R333; 19 R365).
-/

namespace Sys2Proof.Machine

/-! ### STARVED (02 R42, R43) -/

/-- The blocking limit of a thread's class, from its block's record; 0 disables the timer. -/
def State.limitOf (s : State) (e : Env) : Nat :=
  match s.blocks.find e.bkey with
  | some b => starveLimit b.starve e.rcd.blockClass
  | none => 0

/-- The thread may be struck where it waits: not in a wave, not at a barrier whose phase is complete (10 R251). -/
def State.strikable (s : State) (t : Thread) : Bool :=
  match t.wait.kind with
  | .wave _ _ => false
  | .parked => false
  | .bar b ph => (s.barrier b).phase == ph
  | _ => true

/-- The tag of the request with which a thread waits for a peer's answer. -/
def Thread.atPeer (t : Thread) : Option Nat := match t.wait.kind with | .peerSync tag => some tag | _ => none

/-- The threads that stand at their instruction for a trap take it once their earlier loads and logged accesses are complete
(06 R149). -/
def State.dueNow (s : State) : State :=
  ((s.threads.filter fun p => !p.2.due.isEmpty && p.2.atPeer.isNone && s.mayRun p.1 && !s.draining p.1).foldl
    (fun st p => st.settleDue p.1 false) s).reap

/-- STARVED (R43). -/
def execStarved (launch : Nat) (wid : Word64) (s : State) : Out :=
  .next (
    let k : TKey := { launch := launch, wid := wid }
    match s.threads.find k with
    | none => s
    | some t =>
      let n := s.limitOf (s.env k)
      if !s.blocked k t || n = 0 || t.blockCtr ≤ n || !t.due.isEmpty || !s.strikable t || !s.mayRun k then s
      else (s.strike k { cause := 0x0C, sub := 0, value := BitVec.ofNat 64 n, tpc := t.pc, ipc := t.pc, defer := false,
                         chain := false }).reap)

/-! ### Requests (02 R52; 03 R69) -/

/-- The number of a gang's first cluster. -/
def State.firstCluster (s : State) (g : GKey) : Nat :=
  let rcd := s.recOf g.launch
  ((s.blocks.filter fun p => blockInGang rcd g p.1).foldl (fun (m : Option (Nat × Nat)) p =>
    match m with
    | some (b, c) => if p.1.block < b then some (p.1.block, p.2.cluster) else some (b, c)
    | none => some (p.1.block, p.2.cluster)) none).elim 0 (·.2)

/-- A gang's rank as a victim (R69): PRIO rising, quantum falling, cluster falling. -/
def State.victimLt (s : State) (a b : GKey × Gang) : Bool :=
  let prio := fun (p : GKey × Gang) => (s.recOf p.1.launch).prio
  let used := fun (p : GKey × Gang) => s.ns p.2.die - p.2.quantumAt
  decide (prio a < prio b) || (prio a == prio b &&
    (decide (used b < used a) || (used a == used b && decide (s.firstCluster b.1 < s.firstCluster a.1))))

/-- The victim that a waiting head causes: the first of its partition's running gangs below its PRIO, while the head could
not be reserved once the gangs already asked are saved (R69). Of gangs whose first blocks share a cluster, with equal PRIO and
quantum time, the rule prefers none: the model takes the one that stands first in its table (LOG 84). -/
def State.victimFor (s : State) (l : Nat) (x : Launch) : Option GKey :=
  if s.noPlacing x || s.reservable true false l x || s.reservable true true l x then none
  else
    ((sortBy s.victimLt (s.gangs.filter fun p => p.2.status == .running &&
      (match s.launches.find p.1.launch with
       | some y => y.part == x.part && decide (y.record.prio < x.record.prio)
       | none => false))).head?).map (·.1)

/-- PREEMPTION_REQUEST (R52, R69): a gang that is the victim of a waiting head is asked, with its C group, to reconverge. -/
def execPreemptionRequest (launch gang : Nat) (s : State) : Out :=
  .next (
    let g : GKey := { launch := launch, gang := gang }
    if (List.range 64).any fun q =>
        match s.waitingHead q with
        | some (l, x) => s.victimFor l x == some g
        | none => false then s.requestUnit none g
    else s)

/-! ### What a save waits for -/

/-- A crew, a thread or a block of some gangs of a launch. -/
def ofUnit (rcd : Rec) (l : Nat) (gs : List Nat) (launch block : Nat) : Bool := launch == l && gs.contains (rcd.gangOf block)

/-- A unit of gangs that is saved as one. -/
structure Group where
  l : Nat
  rcd : Rec
  gs : List Nat
  part : Nat
  deriving DecidableEq, Repr

def Group.block (u : Group) (b : BKey) : Bool := ofUnit u.rcd u.l u.gs b.launch b.block
def Group.thread (u : Group) (k : TKey) : Bool := ofUnit u.rcd u.l u.gs k.launch (u.rcd.blockOf k.wid.toNat)

/-- The live gangs that stand together with a gang. -/
def State.group (s : State) (l gang : Nat) : Group :=
  { l := l, rcd := s.recOf l, gs := s.unitOf l gang, part := match s.launches.find l with | some x => x.part | none => 0 }

/-- Every gang of the unit has been asked, or is saved already, and one is still to save (R52). -/
def State.unitAsked (s : State) (u : Group) : Bool :=
  let st := u.gs.filterMap fun g => (s.gangs.find { launch := u.l, gang := g }).map (·.status)
  st.any (fun x => match x with | .requested .. => true | _ => false) && !st.contains .running

/-- The thermal sequence saves in descending PRIO (21 R391). -/
def State.inTurn (s : State) (u : Group) : Bool :=
  !s.thermal.holding || !(s.gangs.any fun p =>
    (match p.2.status with | .saved _ => false | _ => true) && decide (u.rcd.prio < (s.recOf p.1.launch).prio))

/-- Every crew of the unit has become reconverged since the request (R53). -/
def State.allReconverged (s : State) (u : Group) : Bool :=
  s.crews.all fun p => !ofUnit u.rcd u.l u.gs p.1.launch p.1.block || p.2.stopped || s.reconverged p.1

/-- PREEMPT_TMO has run out for the unit, in its dies' clocks (R55). -/
def State.timedOut (s : State) (u : Group) : Bool :=
  u.gs.any fun g =>
    match s.gangs.find { launch := u.l, gang := g } with
    | some x => (match x.status with | .requested t n => decide (t + n ≤ s.ns x.die) | _ => false)
    | none => false

/-- No handler of the unit runs, or each has run for 40 µs since the later of the request and its entry (06 R155). -/
def State.handlersDone (s : State) (u : Group) (timeout : Bool) : Bool :=
  s.threads.all fun p => !u.thread p.1 || !p.2.inHandler ||
    (timeout && (match s.gangOf p.1 with
      | some x => (match x.status with
        | .requested t _ => decide (max t p.2.handlerAt + 40000 ≤ s.ns x.die)
        | _ => false)
      | none => false))

/-- Loads and stores of the unit are complete (R54): loads, its threads' entries, writes into its scratchpads, deliveries it has
accepted (16 R333), those of a sender saved before it among them. -/
def State.drained (s : State) (u : Group) : Bool :=
  !(s.loads.any fun l => u.thread l.key)
    && (s.clusters.all fun p =>
      !(p.2.sq.any fun x => ((match x.op with | .patch _ => false | _ => true) && u.thread x.key)
          || x.spans.any fun y => (match y.1 with | .spad b _ => u.block b | _ => false))
        && p.2.hawk.copies.all fun c =>
          (match c.kind with
           | .multi _ acc => !(acc.any u.block)
           | _ => true)
            && !(u.block c.block && p.2.sq.any fun x => x.copy == some c.id))
    && s.saved.all fun p => u.block p.1 || p.2.copies.all fun c =>
      (match c.kind with
       | .multi _ acc => !(acc.any u.block)
       | _ => true)

/-- A copy waits on a full delivery queue or FIFO, at an entry boundary (16 R333). -/
def Cluster.fullFor (x : Cluster) (c : Copy) : Bool :=
  c.ready && !c.stopped &&
    (match c.dk with
     | .dq => decide (16 ≤ (x.hawk.dqs.get (c.block, c.dst % 8) []).length)
     | .fifo => x.matrix.holder == some c.block && decide (16 ≤ (x.matrix.fifos.get (c.dst % 4) []).length)
     | _ => false)

/-- Every copy of the unit has completed, or waits on a full queue; at a full save also one that the write budget holds back (16
R333). -/
def State.copiesDone (s : State) (u : Group) (full : Bool) : Bool :=
  s.clusters.all fun p => p.2.hawk.copies.all fun c => !u.block c.block || p.2.fullFor c || (full && s.budgetHolds p.1 c)

/-- Send the withdrawals of the unit's acquires at peers, once each (05 R126; 17 R344). -/
def State.withdrawAll (s : State) (u : Group) : State :=
  (s.threads.filter fun p => u.thread p.1).foldl (fun st p =>
    match p.2.atPeer with | some tag => st.withdrawPeer p.1 tag | none => st) s

/-- The clusters of the unit. -/
def State.clustersOf (s : State) (u : Group) : List Nat :=
  dedup ((s.blocks.filter fun p => u.block p.1).map fun p => p.2.cluster)

/-! ### Saving (02 R54 to R56) -/

/-- The thread as it is saved: no chain is in progress (R56), a request that waits at its far end was withdrawn, and an
instruction that waits executes again (R53; 05 R126; 02 R58). A thread that a completed barrier has let go leaves it at the
restore; one that waits for a page keeps its request (06 R160), and a fetch runs again on restore (07 R184). -/
def Thread.saved (t : Thread) : Thread :=
  let t1 := { t with chain := none, kept := none, prog := none, todo := none }
  let again := { t1 with wait := { kind := .again, counts := t.wait.counts } }
  match t.wait.kind with
  | .store => again
  | .block _ _ => again
  | .acq _ => again
  | .deq _ => again
  | .qpop _ _ => again
  | .fence _ => again
  | .flush _ _ => again
  | .fetch _ => { t1 with wait := Wait.idle }
  | .wave _ w => { t1 with wait := { t.wait with kind := .wave 0 w } }
  | .parked => { t1 with wait := { t.wait with kind := .wave 0 true } }
  | _ => t1

/-- A full save is a forced switch of every run that holds a thread of the unit inside a chain: all its threads return to the
head, those of other gangs too (R56; 04 R94). -/
def State.rewindUnit (s : State) (u : Group) : State :=
  s.switchChain (dedup ((s.threads.filter fun p => u.thread p.1).flatMap fun p => s.chainMates p.1 p.2))

/-- What the engines of a cluster hold of a block. -/
def State.workOf (s : State) (unsent : List BsBlock) (part ctx : Nat) (b : BKey) (cl : Nat) : SavedWork :=
  let c := s.cluster cl
  let mine := fun (k : TKey) => k.launch == b.launch && (s.recOf b.launch).blockOf k.wid.toNat == b.block
  { copies := c.hawk.copies.filter fun x => x.block == b
    slots := (c.hawk.slots.filter fun p => p.1.1 == b).map fun p => (p.1.2, p.2)
    dqs := (c.hawk.dqs.filter fun p => p.1.1 == b).map fun p => (p.1.2, p.2)
    matrix := if c.matrix.holder == some b then some c.matrix else none
    mergeErr := c.mergeErr.find (part, ctx)
    unsent := unsent
    promoted := c.quarters.flatMap fun q => (without (fun k => !mine k) q.2.promoted).map fun r => (q.1, r) }

/-- Without the blocks and the merge error of a context (14 R301). -/
def Cluster.dropCtx (c : Cluster) (part ctx : Nat) : Cluster :=
  { c with store := c.store.filter fun b => !BsBlock.ofCtx part ctx b
           fetches := c.fetches.filter fun x => !BsBlock.ofCtx part ctx x.tag
           mergeErr := c.mergeErr.erase (part, ctx) }

/-- Save the unit as it stands: the engines' work, its threads, its blocks' places. -/
def State.saveNow (s : State) (u : Group) (full : Bool) : State :=
  let ctx := u.rcd.ctx
  let bs := (s.blocks.filter fun p => u.block p.1).map fun p => (p.1, p.2.cluster)
  let first := fun (b : BKey × Nat) => (bs.find? fun x => x.2 == b.2) == some b
  let work := bs.map fun p =>
    (p.1, s.workOf (if first p then (s.cluster p.2).dirtyBlocks (BsBlock.ofCtx u.part ctx) else []) u.part ctx p.1 p.2)
  let s1 := s.rewindUnit u
  let keys := fun (k : TKey) => u.thread k
  let s2 : State := { s1 with
    threads := s1.threads.mapAll fun k t => if keys k then t.saved else t
    acqs := s1.acqs.filter fun a => (match a.who with | .thread k _ _ => !keys k | .peer .. => true)
    deqs := s1.deqs.filter fun d => !keys d.key
    saved := work.foldl (fun m p => m.set p.1 p.2) s1.saved
    peerReads := s1.peerReads.filter fun r => (match r.client with
      | .thread k => !keys k
      | .copy cl id => !(bs.any fun b => b.2 == cl && (s.cluster cl).hawk.copies.any fun c => c.id == id && c.block == b.1)
      | .task cl _ => !((s.cluster cl).matrix.holder.any u.block)
      | _ => true)
    blocks := (s1.blocks.keep fun b _ => !(b.launch == u.l && u.rcd.together (u.gs.headD 0) (u.rcd.gangOf b.block))
      || u.block b).mapAll fun b x => if u.block b then { x with resident := false } else x
    gangs := s1.gangs.mapAll fun g x =>
      if g.launch == u.l && u.gs.contains g.gang then
        { x with status := (match x.status with | .saved f => .saved f | _ => .saved full) }
      else x
    clusters := s1.clusters.mapAll fun cl c =>
      let c1 := u.gs.foldl (fun (c : Cluster) g => c.dropGang u.rcd { launch := u.l, gang := g }) c
      if bs.any fun b => b.2 == cl then c1.dropCtx u.part ctx else c1 }
  s2.handBack

/-- Send the patches of the unit's context from its clusters; the unit may be saved once they are acknowledged, or, at a
full save, with the dirty blocks that could not be sent (14 R301, R303): those that the write budget holds back, and, by the
model's choice, those whose own check fails or whose page is not present, for which no request is sent (LOG 67). -/
def State.trySave (s : State) (u : Group) (full : Bool) : State :=
  let cls := s.clustersOf u
  let r := s.flushAll (BsBlock.ofCtx u.part u.rcd.ctx) cls
  let sent := r.1.all fun u => match u with
    | .full => false
    | .wait => false
    | _ => full
  if !sent || cls.any (r.2.patchesOf u.part u.rcd.ctx) then r.2 else r.2.saveNow u full

/-- RECONVERGED_SAVE (R54): once every crew is reconverged and its work is complete or at rest. -/
def execReconvergedSave (launch gang : Nat) (s : State) : Out :=
  .next (
    let u := s.group launch gang
    if !s.unitAsked u || !s.inTurn u || !s.allReconverged u then s
    else
      let s1 := s.withdrawAll u
      if !s1.drained u || !s1.copiesDone u false || s1.threads.any (fun p => u.thread p.1 && p.2.atPeer.isSome) then s1
      else s1.trySave u false)

/-- A full save, with the handlers complete or timed out (R55; 06 R155). -/
def State.fullSave (s : State) (launch gang : Nat) (handlers : Bool) : State :=
  let u := s.group launch gang
  if !s.unitAsked u || !s.inTurn u || !s.timedOut u || !s.handlersDone u handlers then s
  else
    let s1 := s.withdrawAll u
    if s1.drained u && s1.copiesDone u true then s1.trySave u true else s1

/-- FULL_SAVE (R55). -/
def execFullSave (launch gang : Nat) (s : State) : Out := .next (s.fullSave launch gang false)

/-- HANDLER_TIMEOUT (06 R155): handlers that have run out of time are saved with their trap state. -/
def execHandlerTimeout (launch gang : Nat) (s : State) : Out := .next (s.fullSave launch gang true)

/-! ### Restoring (02 R52, R56; 16 R333; 19 R365) -/

/-- The saved work of a block fits a cluster: its queues and slots. -/
def Cluster.takes (c : Cluster) (w : SavedWork) : Bool :=
  decide (c.hawk.copies.length + w.copies.length ≤ 64) && decide (c.hawk.slots.length + w.slots.length ≤ 8)
    && decide (c.hawk.dqs.length + w.dqs.length ≤ 8)
    && (let new := w.unsent.filter fun b => (c.block b).isNone
        c.storeRoom new.length ((new.map BsBlock.size).foldl (· + ·) 0))

def SavedWork.none : SavedWork :=
  { copies := [], slots := [], dqs := [], matrix := Option.none, mergeErr := Option.none, unsent := [], promoted := [] }

/-- Put a restored run among the promoted runs of a quarter; the parts of one run come together again. -/
def joinRun (r : Promoted) (rs : List Promoted) : List Promoted :=
  if rs.any fun x => x.no == r.no then rs.map fun x => if x.no == r.no then { x with keys := x.keys ++ r.keys } else x
  else rs ++ [r]

/-- The promoted runs of a restored unit are served first, in the order in which they were promoted (02 R39, R58). -/
def Quarter.restored (u : Group) (q : Quarter) : Quarter :=
  let mine := fun (r : Promoted) => r.keys.any u.thread
  { promoted := sortBy (fun a b => decide (a.no < b.no)) (q.promoted.filter mine) ++ q.promoted.filter fun r => !mine r }

/-- Put a block's saved work back on a cluster. -/
def Cluster.putBack (c0 : Cluster) (part ctx : Nat) (b : BKey) (w : SavedWork) : Cluster :=
  let c := w.unsent.foldl Cluster.mergeBlock c0
  { c with
    hawk := { copies := c.hawk.copies ++ w.copies
              slots := w.slots.foldl (fun m p => m.set (b, p.1) p.2) c.hawk.slots
              dqs := w.dqs.foldl (fun m p => m.set (b, p.1) p.2) c.hawk.dqs }
    matrix := (match w.matrix with
      | some m => { m with tasks := m.tasks.map fun t => { t with since := 0 } }
      | none => c.matrix)
    mergeErr := (match w.mergeErr, c.mergeErr.find (part, ctx) with
      | some m, none => c.mergeErr.set (part, ctx) m
      | _, _ => c.mergeErr)
    quarters := w.promoted.foldl (fun (m : Tbl Nat Quarter) p =>
      let q := m.get p.1 { promoted := [] }
      m.set p.1 { promoted := joinRun p.2 q.promoted }) c.quarters }

/-- Make a saved block resident on a cluster, in a new place (02 R44, R45). -/
def State.restoreBlock (s : State) (x : Launch) (b : BKey) (cl : Nat) : State :=
  let w := s.saved.get b SavedWork.none
  let s1 := s.onCluster cl fun c => c.putBack x.part x.record.ctx b w
  { s1 with
    saved := s1.saved.erase b
    blocks := s1.blocks.upd b fun y =>
      { y with cluster := cl, place := s.placeNo, resident := true, starve := s.starveOf x }
    log := s1.log.map fun l => if l.crew.launch == b.launch && l.crew.block == b.block then { l with cl := cl } else l
    placeNo := s.placeNo + 1 }

/-- The operand logs of a cluster have room for the saved entries of a block: 32 for each quarter (06 R142). -/
def State.logTakes (s : State) (b : BKey) (cl : Nat) : Bool :=
  (List.range 4).all fun q => decide (((s.log.filter fun l => l.quarter == q &&
    ((l.cl == cl && s.logResident l) || (l.crew.launch == b.launch && l.crew.block == b.block))).length) ≤ 32)

/-- Restore blocks of a launch in turn on their clusters, each where it fits after those before it. -/
def State.restoreBlocks (x : Launch) (l : Nat) : List (Nat × Nat) → State → Option State
  | [], s => some s
  | p :: rest, s =>
    let b : BKey := { launch := l, block := p.1 }
    if (s.cluster p.2).takes (s.saved.get b SavedWork.none) && s.logTakes b p.2 then
      State.restoreBlocks x l rest (s.restoreBlock x b p.2)
    else none

/-- Restore a gang on its clusters. Its crews may issue again; a handler's time runs on the new die's clock from here, as the
limit on it counts from a later request (06 R155; 01 R19). -/
def State.restoreGang (s : State) (l : Nat) (x : Launch) (p : Placement) : Option State :=
  let die := p.clusters.headD 0 / 48
  let g : GKey := { launch := l, gang := p.gang }
  (State.restoreBlocks x l ((gangBlocks x.record p.gang).zip p.clusters) (s.takeClusters x.part p.clusters)).map fun s1 =>
  { s1 with
    threads := s1.threads.mapAll fun k t => if t.inHandler && inGang x.record g k then { t with handlerAt := s.ns die } else t
    crews := s1.crews.mapAll fun c y =>
      if blockInGang x.record g { launch := c.launch, block := c.block } then { y with stopped := false } else y
    gangs := s1.gangs.upd g fun y =>
      { y with status := .running, frozen := false, shedAt := none, quantumAt := s.ns die, die := die } }

/-- A gang that held matrix state when it was saved goes onto clusters none of whose matrix states has a holder (19 R365). -/
def State.matrixFree (s : State) (l : Nat) (x : Launch) (p : Placement) : Bool :=
  !((gangBlocks x.record p.gang).any fun b => (s.saved.get { launch := l, block := b } SavedWork.none).matrix.isSome)
    || p.clusters.all fun c => (s.cluster c).matrix.holder.isNone

/-- Restore gangs in turn, each where it fits after those before it. -/
def State.restoreGangs (pool : Pool) (l : Nat) (x : Launch) : List Placement → State → Option State
  | [], s => some s
  | p :: rest, s =>
    if s.placeable pool x.record p.clusters && s.matrixFree l x p then
      (s.restoreGang l x p).bind (State.restoreGangs pool l x rest)
    else none

/-- The promoted runs of a restored unit go first in their quarters (02 R58). -/
def State.promoteFirst (s : State) (u : Group) : State :=
  { s with clusters := s.clusters.mapAll fun _ c => { c with quarters := c.quarters.mapAll fun _ q => q.restored u } }

/-- The answers that arrived for threads of the unit while they were saved settle them now (05 R126). -/
def State.takeAnswers (s : State) (u : Group) : State :=
  (List.range 8).foldl (fun (st : State) p =>
    ((st.port p).answers).foldl (fun (st : State) a =>
      match st.tagUse p a.1 with
      | some (.sync k acq _ va tryP next _) =>
        if u.thread k then
          let q := st.port p
          (st.setPort p { q with tags := q.tags.erase a.1, answers := q.answers.erase a.1 }).settleSync k acq va tryP next a.2
        else st
      | _ => st) st) s

/-- GANG_RESTORE (R52): a saved gang, with its whole C group, is restored onto a fresh reservation, when nothing of a higher PRIO
waits that could be given the resources (03 R68, R72). -/
def execGangRestore (launch : Nat) (places : List Placement) (s : State) : Out :=
  .next (match s.launches.find launch, places with
    | some x, p :: _ =>
      let u := s.group launch p.gang
      let ready := u.gs.all fun g =>
        match s.gangs.find { launch := launch, gang := g } with
        | some y => (match y.status with | .saved _ => true | _ => false)
        | none => false
      if s.noPlacing x || x.status != .running || !ready || s.outranked (s.poolOf x places).lent (s.servingDie x.queue) x
          || sortBy (fun a b => decide (a < b)) u.gs != places.map (·.gang) then s
      else
        match State.restoreGangs (s.poolOf x places) launch x places s with
        | some s1 => ((s1.promoteFirst u).takeAnswers u).reap
        | none => s
    | _, _ => s)

end Sys2Proof.Machine
end

