-- ==== Sys2Proof/Machine/Manage.lean ====
section
/-!
DEFINITION. The management controller at work (21_partitions_power_reliability.md R373 to R398): configuration commits, the
device-wide tables, the power governor, droop freezes and islands, the thermal sequence, poison repair and scan rotation.
-/

namespace Sys2Proof.Machine

/-! ### Configuration blocks (R373, R374) -/

/-- The MBZ bits of a block are 0. -/
def Block1K.mbzOk (b : Block1K) (sub : Nat) : Bool :=
  b.at' 0x006 2 == 0 && b.at' 0x00C 4 == 0 && b.at' 0x01E 2 == 0 && b.at' 0x061 3 == 0 && b.at' 0x070 912 == 0
    && (sub == 0 || b.ptroots == 0)

/-- The budgets of sub-partitions 1 to 7 stay within the partition's, for each stack. -/
def budgetsOk (f : Nat → Nat → Nat) : Bool :=
  (List.range 8).all fun st => decide (((upFrom 1 7).map fun sb => f sb st).foldl (· + ·) 0 ≤ f 0 st)

/-- A block is accepted at a commit (R374, R375). -/
def State.blockOk (s : State) (part sub : Nat) (b : Block1K) : Bool :=
  let blk := fun (k : Nat) => if k = sub then b else s.live part k
  let share := fun (p : Nat) => if p = part then (blk 0).l2Share else (s.live p 0).l2Share
  b.mbzOk sub
    && (upFrom 1 7).all (fun k => (List.range 48).all fun y => !bit (blk k).bays y || bit (blk 0).bays y)
    && decide (b.dadoBytes ≤ b.l2Share * 2 ^ 20)
    && decide (((List.range 8).map share).foldl (· + ·) 0 ≤ 512)
    && budgetsOk (fun k st => (blk k).wbud st) && budgetsOk (fun k st => (blk k).rbud st)
    && (sub != 0 || (b.ptroots % 8192 == 0 && decide (b.ptroots < deviceTop)))

/-- Change a sub-partition's block. -/
def State.onSub (s : State) (part sub : Nat) (f : SubCfg → SubCfg) : State :=
  let p := s.part part
  { s with parts := s.parts.set part { p with subs := p.subs.set sub (f (s.sub part sub)) } }

/-- The dado region of a partition holds zeros (09 R231). -/
def State.clearDado (s : State) (part : Nat) : State :=
  let lo := dadoHome part
  { s with mem := s.mem.clearRange lo (lo + dadoSpan), poison := s.poison.clearRange (lo / 32) ((lo + dadoSpan) / 32) }

/-- CONFIG_COMMIT (R373): the held block is accepted whole or refused. Sub-partition 0 keeps its STARVE record. -/
def execConfigCommit (part sub : Nat) (s : State) : Out :=
  .next (if 8 ≤ part ∨ 8 ≤ sub then s
    else
      let c := s.sub part sub
      let b := if sub = 0 then c.held.put 0x010 16 c.live.starve.toNat else c.held
      if s.blockOk part sub b then
        let s1 := s.onSub part sub fun c => { c with live := b, cstat := 1 }
        if sub = 0 && b.dadoBytes != c.live.dadoBytes then s1.clearDado part else s1
      else s.onSub part sub fun c => { c with cstat := 2 })

/-- SCOMMIT (R373): the STARVE record of sub-partition 0. It enables a partition again after the rails return (R391). -/
def execScommit (part : Nat) (s : State) : Out :=
  .next (if 8 ≤ part then s
    else
      let p := s.part part
      let c := s.sub part 0
      if p.starveHeld.extractLsb' 112 16 = 0 then
        let c1 := { c with live := c.live.put 0x010 16 p.starveHeld.toNat, held := c.held.put 0x010 16 p.starveHeld.toNat }
        { s with parts := s.parts.set part { p with subs := p.subs.set 0 c1, sstat := 1, disabled := false } }
      else { s with parts := s.parts.set part { p with sstat := 2 } })

/-! ### Device-wide tables (R377) -/

/-- Rings whose members have changed start anew, with the weights of this moment (03 R68 rule 4). -/
def State.settleRings (s : State) : State :=
  let s1 : State := { s with rings := s.rings.keep fun k r =>
      match k with
      | .queues d p sb _ => r.members == s.queuesOf d p sb
      | .group l g => r.members == s.groupOf (s.recOf l) g
      | .subs .. => true }
  let served := dedup (((List.range 64).filter fun q => lqV (s.mgmt.lqueues.get q) && ownerV (s.lqOwnerEntry q)).map fun q =>
    (s.servingDie q, s.lqPart q, s.lqSub q))
  let s2 := served.foldl (fun st d => (List.range 8).foldl (fun st p =>
    st.startRing (.queues d.1 d.2.1 d.2.2 p) (s.queuesOf d.1 d.2.1 d.2.2) s.lqWeight) st) s1
  s.launches.foldl (fun st l => st.startGroups l.1 l.2.record) s2

/-- OWNER_TABLE_WRITE. -/
def execOwnerTableWrite (o : Nat) (v : Word32) (s : State) : Out :=
  .next (if o < 1024 then
      ({ s with mgmt := { s.mgmt with owners := s.mgmt.owners.set o (v &&& 0xC000FF3F) } } : State).settleRings.serveDeqs.reofferAll.reap
    else s)

/-- LAUNCH_QUEUE_TABLE_WRITE. -/
def execLaunchQueueTableWrite (q : Nat) (v : Word32) (s : State) : Out :=
  .next (if q < 64 then
      ({ s with mgmt := { s.mgmt with lqueues := s.mgmt.lqueues.set q (v &&& 0x80000FFF) } } : State).settleRings
    else s)

/-- A waiting `deq` whose queue, or the last enabled member of whose group, is disabled raises QUEUE SUB 3 (10 R259). -/
def State.strikeDeqs (s : State) : State :=
  s.deqs.foldl (fun st r =>
    match st.qsel r.key.launch r.grp r.sel with
    | .bad tr =>
      ({ st with deqs := st.deqs.filter fun d => d.id != r.id } : State).onThread r.key fun e t =>
        ({ t with wait := Wait.idle }).raiseHere e tr
    | _ => st) s

/-- QUEUE_TABLE_WRITE: waiting `deq`s see the change, and held items are offered again. -/
def execQueueTableWrite (q : Nat) (v : Word32) (s : State) : Out :=
  .next (if q < 512 then
      let s1 : State := { s with mgmt := { s.mgmt with queues := s.mgmt.queues.set q (v &&& 0x83FFFFFF) } }
      ((s1.settleRings.strikeDeqs.serveDeqs).reofferAll).reap
    else s)

/-! ### Registers without a behaviour of their own (R378) -/

/-- Put `n` bytes of a register of `w` bits at an offset. -/
def putPart {w : Nat} (r : BitVec w) (off n v : Nat) : BitVec w := BitVec.ofNat w (setFld r.toNat (8 * off) (8 * n) v)

/-- Write a management register: offsets from the start of BAR0 (R378; 22 R403, R407, R410). -/
def State.writeRegister (s : State) (off size : Nat) (v : Word64) : State :=
  let m := s.mgmt
  let x := v.toNat
  let within := fun (base len : Nat) => decide (base ≤ off) && decide (off + size ≤ base + len)
  if size = 0 ∨ 8 < size ∨ 8 % size ≠ 0 ∨ off % size ≠ 0 then s
  else if within 0x0000030 16 && size = 8 then { s with mgmt := { m with acceptReg := putPart m.acceptReg (off - 0x30) 8 x } }
  else if off = 0x0000080 && size = 8 then { s with mgmt := { m with ckBase := v } }
  else if within 0x0100000 0x100000 then
    { s with mgmt := { m with imgBuf := m.imgBuf.setBytes (off - 0x0100000) (toBytes size x) } }
  else if off = 0x0200000 && size = 4 then { s with gov := { s.gov with rhold := x % 256 } }
  else if within 0x0200100 64 && size = 8 then
    { s with gov := { s.gov with curve := s.gov.curve.set ((off - 0x0200100) / 8) (v &&& 0x000FFFFFFFFFFFFF) } }
  else if within 0x0201000 768 && size = 4 then
    s.onCluster ((off - 0x0201000) / 4) fun c => { c with power := v.setWidth 32 &&& 0x07FFFF7F }
  else if within 0x0210000 0x10000 && size = 8 then
    let n := (off - 0x0210000) / 16
    let e := putPart (m.reload.get n) (off % 16) 8 x &&& 0x000000FFFFFFFFFFFFFFFFFFFFFF0001
    { s with mgmt := { m with reload := m.reload.set n e } }
  else if within 0x0300000 0x40000 then
    let page := (off - 0x0300000) / 4096
    let at_ := off % 4096
    if 0x400 ≤ at_ ∨ (page % 8 = 0 ∧ 0x010 ≤ at_ ∧ at_ < 0x020) then s
    else s.onSub (page / 8) (page % 8) fun c => { c with held := c.held.put at_ size x }
  else if within 0x0340000 0x8000 && off % 4096 < 16 && size = 8 then
    let p := s.part ((off - 0x0340000) / 4096)
    { s with parts := s.parts.set ((off - 0x0340000) / 4096) { p with starveHeld := putPart p.starveHeld (off % 4096) 8 x } }
  else s

/-- FAULT_REPORT_CLEAR (R394): VALID is cleared, and OVF with it. -/
def execFaultReportClear (part : Nat) (s : State) : Out :=
  .next (
    let p := s.part part
    { s with parts := s.parts.set part { p with fault := p.fault &&& ~~~(3 : BitVec 256) } })

/-! ### The power governor (R387 to R390) -/

/-- The greatest SHED of the curve points a sample matches. -/
def State.shedTarget (s : State) (v : Word64) : Nat :=
  let freq := (v.extractLsb' 0 32).toNat
  let vbus := (v.extractLsb' 32 16).toNat
  ((List.range 8).map fun j =>
    let c := s.gov.curve.get j
    if vbus ≤ (c.extractLsb' 0 16).toNat ∨ freq ≤ (c.extractLsb' 16 32).toNat then min 8 (c.extractLsb' 48 4).toNat
    else 0).foldl max 0

/-- The level and the count after a sample with target T (R388). -/
def Governor.act (g : Governor) (t : Nat) : Governor :=
  if g.level < t then { g with level := t, count := 0 }
  else if t < g.level then
    if g.count + 1 = max 1 g.rhold then { g with level := g.level - 1, count := 0 } else { g with count := g.count + 1 }
  else { g with count := 0 }

/-- The gangs of a newly shed class have until they must be frozen (R390); their crews that have not left a completed barrier of
block, gang or launch scope park there (10 R250, R261). -/
def State.markShed (s : State) (old : Nat) : State :=
  let new := fun (g : GKey) => decide (old ≤ (s.recOf g.launch).prio) && decide ((s.recOf g.launch).prio < s.gov.level)
  let ks := (s.threads.filter fun p =>
    (match p.2.wait.kind with | .wave _ w => w | _ => false) && new (s.env p.1).gkey && s.isResident p.1).map (·.1)
  ({ s with gangs := s.gangs.mapAll fun g x => if new g then { x with shedAt := some (s.ns x.die) } else x } : State).park ks

/-- The gangs of a restored class thaw, and parked crews leave in waves (R390; 10 R250). -/
def State.restoreClass (s : State) : State :=
  let back := fun (g : GKey) => decide (s.gov.level ≤ (s.recOf g.launch).prio)
  let ks := (s.threads.filter fun p => p.2.wait.kind == .parked && back (s.env p.1).gkey && s.isResident p.1).map (·.1)
  let thaw := fun (g : GKey) (x : Gang) => if back g then { x with frozen := false, shedAt := none } else x
  ({ s with gangs := s.gangs.mapAll thaw } : State).release true ks

/-- TELEMETRY_SAMPLE (R387, R388): a private write of 8 bytes. -/
def execTelemetrySample (len : Nat) (v : Word64) (s : State) : Out :=
  .next (if len ≠ 8 then s
    else
      let old := s.gov.level
      let g := { s.gov with sample := v, lost := false, sinceNs := 0 }.act (s.shedTarget v)
      let s1 := { s with gov := g }
      if old < g.level then s1.markShed old else if g.level < old then s1.restoreClass else s1)

/-- TELEMETRY_LOST (R388): no sample for 1 ms. -/
def execTelemetryLost (s : State) : Out :=
  .next (if 1000000 ≤ s.gov.sinceNs then { s with gov := { s.gov with lost := true } } else s)

/-- DYNAMIC_ADDRESS_ASSIGNMENT (R387). -/
def execDynamicAddressAssignment (addr : BitVec 7) (s : State) : Out :=
  .next { s with gov := { s.gov with i3c := some addr } }

/-- The gang has parked: every thread of it that has not exited (10 R250). -/
def State.hasParked (s : State) (g : GKey) : Bool :=
  s.threads.all fun p => (s.env p.1).gkey != g || p.2.wait.kind == .parked

/-- SHED_FREEZE (R390): a gang that has not parked 200 µs after the sample is frozen. -/
def execShedFreeze (launch gang : Nat) (s : State) : Out :=
  .next (
    let g : GKey := { launch := launch, gang := gang }
    match s.gangs.find g with
    | some x =>
      match x.shedAt with
      | some t =>
        if s.hasParked g || s.ns x.die - t < 200000 || (match x.status with | .saved _ => true | _ => false) then s
        else { s with gangs := s.gangs.set g { x with frozen := true } }
      | none => s
    | none => s)

/-! ### Droop freezes, islands and the clock (R384, R385; 01 R22) -/

/-- HOLD in cycles. -/
def Cluster.hold (c : Cluster) : Nat := max 8 (min 1024 (c.power.extractLsb' 16 11).toNat)

/-- DROOP_TRIP (R385): the freeze starts, or starts again; chains in progress on the cluster rewind (04 R94). -/
def execDroopTrip (cl : Nat) (s : State) : Out :=
  .next (
    let ks := (s.threads.filter fun p => (s.env p.1).cl == cl && s.isResident p.1 && p.2.inside (s.peek p.1 p.2)).map (·.1)
    (s.switchChain ks).onCluster cl fun c => { c with freeze := some c.hold })

/-- DROOP_FREEZE_END (R385): once HOLD cycles have passed since the last trip the freeze ends, and what it held may issue. -/
def execDroopFreezeEnd (cl : Nat) (s : State) : Out :=
  .next (if (s.cluster cl).freeze = some 0 then s.onCluster cl fun c => { c with freeze := none } else s)

/-- Every thread on an island belongs to an owner with SKIM. -/
def State.skimOwners (s : State) (cl quarter island : Nat) : Bool :=
  s.threads.all fun p =>
    let e := s.env p.1
    !(e.cl == cl && e.crew % 4 == quarter && e.crank / 8 == island && s.isResident p.1) || ownerSkim (s.ownerEntry e.rcd.owner)

/-- ISLAND_SKIM (R384). -/
def execIslandSkim (cl quarter island : Nat) (s : State) : Out :=
  .next (
    let c := s.cluster cl
    let x := c.islands.get (quarter, island) { skim := false, idleNs := 0 }
    if decide (4000 ≤ x.idleNs) || (decide (500 ≤ x.idleNs) && s.skimOwners cl quarter island) then
      s.setCluster cl { c with islands := c.islands.set (quarter, island) { x with skim := true } }
    else s)

/-- ISLAND_WAKE (R384). -/
def execIslandWake (cl quarter island : Nat) (s : State) : Out :=
  .next (s.onCluster cl fun c =>
    { c with islands := c.islands.upd (quarter, island) fun _ => { skim := false, idleNs := 0 } })

/-- POWER_ABOVE_RATING (01 R22): the arithmetic clock of a cluster follows its power, between 2.0 GHz and its rating. -/
def execPowerAboveRating (cl mhz : Nat) (s : State) : Out :=
  .next (s.onCluster cl fun c => { c with mhz := max 2000 (min 2200 mhz) })

/-! ### The thermal sequence (R391) -/

/-- Every gang is asked for a save. -/
def State.requestAll (s : State) : State := (s.gangs.map (·.1)).foldl (fun st g => st.requestUnit none g) s

/-- Every gang is saved. -/
def State.allSaved (s : State) : Bool :=
  s.gangs.all fun p => match p.2.status with | .saved _ => true | _ => false

/-- Every stack refreshes itself (R391 step 4). -/
def State.selfRefresh (s : State) : State :=
  { s with hbm := (List.range 8).foldl (fun m k => m.set k { s.stack k with selfRefresh := true }) s.hbm }

/-- The compute rails are removed (R391 step 5): what clusters hold in their cells is gone, and so are the dado regions. -/
def State.removeRails (s : State) : State :=
  let s1 := (List.range 8).foldl State.clearDado s
  { s1 with
    clusters := s1.clusters.mapAll fun _ c => { c.cleared c.lent with recalled := c.recalled }
    tlb := []
    roots := []
    replicas := []
    l2 := []
    l2dirty := []
    l2gran := []
    evicting := []
    thermal := { railsOff := true, holding := true } }

/-- Bytes that are not promised, for every byte of device memory. -/
def State.freeDevice (s : State) : List Byte := (List.range deviceTop).map fun k => Config.freeByte (s.free + k)

/-- An item written to a work-queue window enters, or REFUSED rises (22 R402). -/
def State.writeItem (s : State) (q size : Nat) (item : Word128) : State :=
  if 512 ≤ q then s
  else if size = 16 && s.queueRoom q then s.enterQueue q item
  else { s with queues := s.queues.set q { s.queue q with refused := (s.queue q).refused + 1 } }

/-! ### Host accesses (22 R399, R408, R410, R412; 05 R124) -/

/-- The 64 KiB pages of a range. -/
def OwnRange.pages (r : OwnRange) : List Nat := (List.range (r.size / 65536)).map fun k => r.base + 65536 * k

/-- A byte of device memory lies in a range that the device owns: its value at a host access is not promised (06 R136). -/
def State.deviceOwned (s : State) (a : Nat) : Bool :=
  s.ctxs.any fun c => c.2.ranges.any fun r => !r.host && r.pages.any fun va =>
    match s.walk c.1.1 c.1.2 va with
    | .leaf l => let pa := l.pa + (va - l.base)
                 decide (pa ≤ a) && decide (a < pa + 65536)
    | _ => false

/-- Put free bytes in the place of those whose value is not promised. -/
def State.unpromised (s : State) (a : Nat) (bs : List Byte) : List Byte :=
  bs.zipIdx.map fun p => if s.deviceOwned (a + p.2) then Config.freeByte (s.free + p.2) else p.1

/-- A host access must wait: at its home, or for a hotness notification (06 R139). -/
def State.hostWaits (s : State) (a n : Nat) : Bool := s.spanWaits a n || s.hotWaits none a n

/-- The stacks that an access of the host reaches. -/
def HostWrite.stacks : HostWrite → List Nat
  | .read a n => dedup ((cutPieces .home (n + 1) a n).map fun p => stackOf p.2.1)
  | .mem a bs => dedup ((cutPieces .home (bs.length + 1) a bs.length).map fun p => stackOf p.2.1)
  | _ => []

/-- An access waits, with others waiting before it: at a stack the accesses proceed in the order of arrival, but that reads are
served while a checkpoint or a restore holds writes; a window write comes after every earlier write. -/
def State.hostBehind (s : State) (before : List HostWrite) (w : HostWrite) : Bool :=
  let meets := fun (x : HostWrite) => x.stacks.any w.stacks.contains
  match w with
  | .read a n => s.hostWaits a n || before.any fun x => meets x && (x.reads || s.mgmt.ckStat != 3)
  | .mem a bs => s.mgmt.ckStat == 3 || s.hostWaits a bs.length || before.any meets
  | _ => before.any fun x => !x.reads

/-- An access of the host is served: a read brings the bytes with their marks, a write is applied at the homes. -/
def State.serveHost (s : State) (w : HostWrite) : State :=
  match w with
  | .read a n =>
    let bs := s.unpromised a (s.mem.bytes a n)
    { s.hotCount none a n with
      hostRead := bs.zipIdx.map fun p => (p.1, s.markAt (a + p.2))
      free := s.free + n }
  | .mem a bs =>
    { ((s.hotCount none a bs.length).writeSpan a (s.unpromised a bs) 0).reap with free := s.free + bs.length }
  | .item q size v => s.writeItem q size v
  | .doorbell q staged => s.enqueueRecord q staged

/-- The host accesses that wait, as far as they can be served, in the order of arrival. Of the reads one is served, for its bytes
are in `State.hostRead` until the next. -/
def State.applyHeld (s : State) : State :=
  let r := s.mgmt.heldWrites.foldl (fun (acc : State × List HostWrite × Bool) w =>
      if acc.1.hostBehind acc.2.1 w || (acc.2.2 && w.reads) then (acc.1, acc.2.1 ++ [w], acc.2.2)
      else (acc.1.serveHost w, acc.2.1, acc.2.2 || w.reads))
    ({ s with mgmt := { s.mgmt with heldWrites := [] } }, [], false)
  { r.1 with mgmt := { r.1.mgmt with heldWrites := r.2.1 } }

/-- What the die schedulers, the quarters and the host interface do as soon as it can be done: crews that have become reconverged
stop (02 R53), recalled clusters that have become empty go back (03 R72), traps that waited are taken, and host accesses that waited
are served. -/
def State.settle (s : State) : State :=
  let s1 := s.latch.handBack.dueNow.restCounters
  if s1.mgmt.heldWrites.isEmpty then s1 else s1.applyHeld

/-- A checkpoint or a restore in progress is abandoned (22 R411): no byte that it was writing is promised. -/
def State.abandonCopy (s : State) : State :=
  if s.mgmt.ckStat ≠ 3 then s
  else
    let s1 : State := { s with mgmt := { s.mgmt with ckStat := 2 }, free := s.free + deviceTop }
    (if s.mgmt.ckCmd = 1 then { s1 with hostMem := s1.hostMem.setBytes s.mgmt.ckBase.toNat s.freeDevice }
      else { s1 with mem := s1.mem.setBytes 0 s.freeDevice } : State).applyHeld

/-- THERMAL_CRITICAL (R391): nothing starts and every gang is asked for a save; once all are saved and their data is home,
dirty lines go to DRAM, the stacks refresh themselves and the rails are removed. -/
def execThermalCritical (s : State) : Out :=
  .next (
    if s.thermal.railsOff then s
    else
      let s1 := if s.thermal.holding then s
        else { s.abandonCopy with thermal := { s.thermal with holding := true } }.requestAll
      let r := s1.flushAll (fun _ => true) (s1.clusters.map (·.1))
      if s1.allSaved && r.1.isEmpty && r.2.clusters.all (fun p => p.2.sq.isEmpty) then r.2.selfRefresh.removeRails else r.2)

/-- A line of L2 that did not reach DRAM holds what DRAM held: bytes that are not promised. -/
def State.loseLine (s : State) (line : Nat) : State :=
  let bs := (List.range 512).map fun k => Config.freeByte (s.free + k)
  { s with mem := s.mem.setBytes (line * 512) bs, free := s.free + 512 }

/-- A gang is not saved. -/
def Gang.unsaved (g : Gang) : Bool := match g.status with | .saved _ => false | _ => true

/-- The kill that a thermal abort reports for a gang: the registers of its first thread (R394; CAUSE is LOG 37). -/
def State.thermalKill (s : State) (g : GKey) : Kill :=
  match s.threads.find? fun p => inGang (s.recOf g.launch) g p.1 with
  | some p => { kind := 3, cause := 0, tpc := p.2.tpc, tinfo := p.2.tinfo, leaf := none }
  | none => { kind := 3, cause := 0, tpc := 0, tinfo := 0, leaf := none }

/-- THERMAL_ABORT (R391): the steps still to run are abandoned; each gang that is not saved is killed and reported (R394), and their
launches end KILLED. -/
def execThermalAbort (s : State) : Out :=
  .next (
    if s.thermal.railsOff || !s.thermal.holding then s
    else
      let gs := (s.gangs.filter fun p => p.2.unsaved).map (·.1)
      let s1 := gs.foldl (fun st g =>
        match st.launches.find g.launch with
        | some x => st.reportKill x.part x.record.owner (s.thermalKill g)
        | none => st) s
      let s2 := (dedup (gs.map (·.launch))).foldl (fun st l => st.endLaunch l 4) s1
      ((s2.l2dirty.map (·.1)).foldl State.loseLine s2).removeRails)

/-- RAILS_RETURN (R391): launches that ended meanwhile write their records; saved gangs wait until their driver enables
their partition. -/
def execRailsReturn (s : State) : Out :=
  .next (
    if !s.thermal.railsOff then s
    else
      let s1 : State := { s with
        thermal := { railsOff := false, holding := false }
        parts := s.parts.mapAll fun _ p => { p with disabled := true }
        hbm := s.hbm.mapAll fun _ x => { x with selfRefresh := false } }
      (s1.launches.map (·.1)).foldl State.finishLaunch s1)

/-! ### Poison and its repair (R395, R396) -/

/-- The device's partitions: those whose block has been committed (R372, R373; LOG 46). -/
def State.partitions (s : State) : List Nat := (List.range 8).filter fun p => s.live p 0 != subBlockReset

/-- A management item (06 R145). -/
def mgmtItem (type : Nat) (where_ : Nat) (pass : Word32) : Word128 :=
  BitVec.ofNat 128 (2 ^ 111 + type * 2 ^ 104 + where_ % 2 ^ 40 * 2 ^ 64 + pass.toNat * 2 ^ 32)

/-- An item enters the FAULTQ of some partitions. -/
def State.postFaultqs (s : State) (ps : List Nat) (item : Word128) : State :=
  ps.foldl (fun st p => st.post srcMgmt (st.live p 0).faultq item) s

/-- Every granule of a 64 KiB block is marked UE, and every partition is told. -/
def State.retireBlock (s : State) (b : Nat) : State :=
  ({ s with poison := s.poison.fill (b * 2048) 1 2048, fieldOff := s.fieldOff.clearRange (b * 1024) (b * 1024 + 1024)
            reloading := s.reloading.filter fun r => r.1 != b
            consumed := s.consumed.filter fun x => x.block != b } : State).postFaultqs s.partitions (mgmtItem 1 (b * 65536) 0)

/-- Some granule of the block carries a UE mark. -/
def State.blockUe (s : State) (b : Nat) : Bool :=
  s.poison.any (fun p => p.1 / 2048 == b && p.2 == 1) || s.fieldOff.any fun p => p.1 / 1024 == b

/-- The host address of the block's source, from the valid entry that names it (R396). -/
def State.reloadSource (s : State) (b : Nat) : Option Nat :=
  ((List.range 4096).find? fun n =>
    let e := s.mgmt.reload.get n
    e.getLsbD 0 && (e.extractLsb' 64 40).toNat == b * 65536).map fun n =>
      ((s.mgmt.reload.get n).extractLsb' 16 48).toNat * 65536

/-- A faulting consumer's leaf had RLD = 1 (R395; LOG 46). -/
def State.reloadable (s : State) (b : Nat) : Bool := s.consumed.any fun c => c.block == b && c.rld

/-- The remap table of the block's stack has an entry for it: its own, or one of the 64 that no other block has or is about to take
(R395). -/
def State.remapRoom (s : State) (b : Nat) : Bool :=
  let st := stackOf (b * 65536)
  let x := s.stack st
  let soon := s.reloading.filter fun r => stackOf (r.1 * 65536) == st && (x.remap.find r.1).isNone
  (x.remap.find b).isSome || decide (x.remap.length + soon.length < 64)

/-- The next spare block of a stack: one that no block has been redirected to. -/
def Stack.nextSpare (x : Stack) : Nat := x.remap.foldl (fun n p => max n (p.2 + 1)) 0

/-- UE_FOUND (R395): the block's reload starts, or the block is retired. -/
def execUeFound (block : Nat) (s : State) : Out :=
  .next (
    if !s.blockUe block || deviceTop ≤ block * 65536 || s.reloading.any (fun r => r.1 == block) then s
    else
      match s.reloadSource block with
      | some h =>
        if s.reloadable block && s.remapRoom block then
          { s with reloading := s.reloading ++ [(block, h)] }
        else s.retireBlock block
      | none => s.retireBlock block)

/-- RELOAD_COMPLETE (R395): the copied source is checked and the block redirected to it; whether a check fails is open
(LOG 4). -/
def execReloadComplete (block : Nat) (s : State) : Out :=
  .next (match s.reloading.find? fun r => r.1 == block with
    | none => s
    | some r =>
      let (c, s1) := s.choose
      if c = 1 then s1.retireBlock block
      else
        let st := stackOf (block * 65536)
        let x := s1.stack st
        let lo := block * 65536
        let lo0 := block * 2048
        let src := (s1.hostMem.filter fun p => decide (r.2 ≤ p.1) && decide (p.1 < r.2 + 65536))
        { s1 with
          mem := src.foldl (fun m p => m.set (lo + (p.1 - r.2)) p.2) (s1.mem.clearRange lo (lo + 65536))
          poison := s1.poison.clearRange (block * 2048) (block * 2048 + 2048)
          fieldOff := s1.fieldOff.clearRange (block * 1024) (block * 1024 + 1024)
          l2 := s1.l2.clearRange (block * 128) (block * 128 + 128)
          l2dirty := s1.l2dirty.clearRange (block * 128) (block * 128 + 128)
          l2gran := s1.l2gran.clearRange lo0 (lo0 + 2048)
          evicting := s1.evicting.filter fun x => x.1 / 128 != block
          replicas := s1.replicas.filter fun x => x.sector / 1024 != block
          consumed := s1.consumed.filter fun x => x.block != block
          clusters := s1.clusters.mapAll fun _ c => { c with l1 := c.l1.filter fun x => x.sector / 1024 != block }
          reloading := s1.reloading.filter fun y => y.1 != block
          hbm := s1.hbm.set st { x with remap := x.remap.set block x.nextSpare } })

/-! ### Scan rotation (R397) -/

/-- SCAN_DRAIN: a die drains one cluster at a time. -/
def execScanDrain (cl : Nat) (s : State) : Out :=
  .next (
    if 192 ≤ cl ∨ s.mgmt.image.limits.extractLsb' 32 32 = 0 ∨ !(s.cluster cl).inService
        ∨ s.clusters.any (fun p => p.1 / 48 == cl / 48 && p.2.draining) then s
    else
      let s1 := s.onCluster cl fun c => { c with draining := true }
      (s1.gangsOn cl).foldl (fun st g => st.requestUnit none g) s1)

/-- SCAN_PASS: a drained cluster passes or fails its patterns. A failing one leaves service, and the partitions that ran a
gang there since its last pass are told. -/
def execScanPass (cl : Nat) (pass : Bool) (s : State) : Out :=
  .next (
    if !(s.cluster cl).draining || !(s.reservedOn false cl).isEmpty then s
    else
      let s1 := (s.sendEach cl ((s.cluster cl).dirtyBlocks fun _ => true)).2
      let c := s1.cluster cl
      if !c.sq.isEmpty || c.store.any (fun b => b.dirty != 0) then s1
      else
        let s2 := { s1 with tlb := s1.tlb.filter fun x => !x.at_.inCluster cl }
        let c1 := { c.cleared c.lent with draining := false, recalled := c.recalled }
        if pass then s2.setCluster cl { c1 with scan := c.scan + 1, scanParts := [] }
        else (s2.setCluster cl { c1 with inService := false }).postFaultqs c.scanParts (mgmtItem 2 cl c.scan))

/-! ### The base dies (R380, R381) -/

/-- SUBARRAY_REFRESH (R381): it changes when accesses are served, and nothing else. -/
def execSubarrayRefresh (stack channel bank subarray : Nat) (s : State) : Out :=
  .next (
    let x := s.stack stack
    let y := { x with refreshing := x.refreshing.set (channel, bank) subarray }
    { s with hbm := s.hbm.set stack y })

/-- The row-activation threshold (22 R404). -/
def State.rowLimit (s : State) : Nat := max 1 (s.mgmt.image.limits.extractLsb' 0 16).toNat

/-- A request of a partition activates a row (R380): the base die counts it. -/
def State.activate (s : State) (part stack row : Nat) : State :=
  let x := s.stack stack
  { s with hbm := s.hbm.set stack { x with acts := x.acts.set (part, row) (x.acts.get (part, row) 0 + 1) } }

/-- ROW_THROTTLE (R380): a partition's count of a row has passed the threshold; it changes when requests are served. -/
def execRowThrottle (part stack row : Nat) (s : State) : Out :=
  .next (
    let x := s.stack stack
    if x.acts.get (part, row) 0 ≤ s.rowLimit || x.throttled.contains (part, row) then s
    else { s with hbm := s.hbm.set stack { x with throttled := x.throttled ++ [(part, row)] } })

/-- A new refresh interval of a stack: 32 ms of its die's clock. -/
def State.refresh (s : State) (st : Nat) (x : Stack) : Stack :=
  let n := s.ns (st / 2) / 32000000
  if n = x.interval then x else { x with acts := [], throttled := [], refreshing := [], interval := n }

/-- REFRESH_INTERVAL (R380): every 32 ms the counts start again. -/
def execRefreshInterval (s : State) : Out := .next { s with hbm := s.hbm.mapAll s.refresh }

/-! ### Errors (R392) -/

/-- Bits of a sector in DRAM and of its check field turn over, but for a sector that a home's cache holds. -/
def State.upset (s : State) (k : Nat) (data : BitVec 512) (field : Word32) : State :=
  let bs := toBytes 64 ((BitVec.ofNat 512 (ofBytes (s.mem.bytes (64 * k) 64))) ^^^ data).toNat
  { s with mem := s.mem.setBytes (64 * k) bs, fieldOff := s.fieldOff.set k (s.checkField k ^^^ field ^^^ crc32c bs) }

/-- An uncorrectable error arises: in DRAM it is found by the check field when its sector is read there (22 R409), in a cache its
granules are marked. -/
def State.flaw (s : State) (x : Flaw) : State :=
  match x with
  | .dram k data field => if deviceTop ≤ 64 * k ∨ s.l2gran.get (2 * k) = 1 ∨ s.l2gran.get (2 * k + 1) = 1 then s else s.upset k data field
  | .home g => if s.l2gran.get g = 1 then { s with poison := s.poison.set g 1 } else s
  | .l1 cl k => s.onCluster cl fun c => { c with l1 := c.l1.map fun y => if y.sector = k then { y with marks := 5 } else y }

/-- A correctable error is corrected and counted. -/
def State.correct (s : State) : State := { s with mgmt := { s.mgmt with corrected := s.mgmt.corrected + 1 } }

end Sys2Proof.Machine
end

