-- ==== Sys2Proof/Machine/Signature.lean ====
section
/-!
DEFINITION. The signature of the configuration image (22_host_and_bringup.md R403, R406): SHA-384, and ECDSA over the curve P-384
with it. The constants and the byte orders of both are those of the published standards (notes/assumptions/90.md).
-/

namespace Sys2Proof.Machine

/-! ### SHA-384 -/

/-- Round constants, in runs of 16. -/
def shaK0 : List Word64 :=
  [0x428A2F98D728AE22, 0x7137449123EF65CD, 0xB5C0FBCFEC4D3B2F, 0xE9B5DBA58189DBBC,
   0x3956C25BF348B538, 0x59F111F1B605D019, 0x923F82A4AF194F9B, 0xAB1C5ED5DA6D8118,
   0xD807AA98A3030242, 0x12835B0145706FBE, 0x243185BE4EE4B28C, 0x550C7DC3D5FFB4E2,
   0x72BE5D74F27B896F, 0x80DEB1FE3B1696B1, 0x9BDC06A725C71235, 0xC19BF174CF692694]

def shaK1 : List Word64 :=
  [0xE49B69C19EF14AD2, 0xEFBE4786384F25E3, 0x0FC19DC68B8CD5B5, 0x240CA1CC77AC9C65,
   0x2DE92C6F592B0275, 0x4A7484AA6EA6E483, 0x5CB0A9DCBD41FBD4, 0x76F988DA831153B5,
   0x983E5152EE66DFAB, 0xA831C66D2DB43210, 0xB00327C898FB213F, 0xBF597FC7BEEF0EE4,
   0xC6E00BF33DA88FC2, 0xD5A79147930AA725, 0x06CA6351E003826F, 0x142929670A0E6E70]

def shaK2 : List Word64 :=
  [0x27B70A8546D22FFC, 0x2E1B21385C26C926, 0x4D2C6DFC5AC42AED, 0x53380D139D95B3DF,
   0x650A73548BAF63DE, 0x766A0ABB3C77B2A8, 0x81C2C92E47EDAEE6, 0x92722C851482353B,
   0xA2BFE8A14CF10364, 0xA81A664BBC423001, 0xC24B8B70D0F89791, 0xC76C51A30654BE30,
   0xD192E819D6EF5218, 0xD69906245565A910, 0xF40E35855771202A, 0x106AA07032BBD1B8]

def shaK3 : List Word64 :=
  [0x19A4C116B8D2D0C8, 0x1E376C085141AB53, 0x2748774CDF8EEB99, 0x34B0BCB5E19B48A8,
   0x391C0CB3C5C95A63, 0x4ED8AA4AE3418ACB, 0x5B9CCA4F7763E373, 0x682E6FF3D6B2B8A3,
   0x748F82EE5DEFB2FC, 0x78A5636F43172F60, 0x84C87814A1F0AB72, 0x8CC702081A6439EC,
   0x90BEFFFA23631E28, 0xA4506CEBDE82BDE9, 0xBEF9A3F7B2C67915, 0xC67178F2E372532B]

def shaK4 : List Word64 :=
  [0xCA273ECEEA26619C, 0xD186B8C721C0C207, 0xEADA7DD6CDE0EB1E, 0xF57D4F7FEE6ED178,
   0x06F067AA72176FBA, 0x0A637DC5A2C898A6, 0x113F9804BEF90DAE, 0x1B710B35131C471B,
   0x28DB77F523047D84, 0x32CAAB7B40C72493, 0x3C9EBE0A15C9BEBC, 0x431D67C49C100D4C,
   0x4CC5D4BECB3E42B6, 0x597F299CFC657E2A, 0x5FCB6FAB3AD6FAEC, 0x6C44198C4A475817]

/-- The round constants. -/
def shaK : List Word64 := shaK0 ++ shaK1 ++ shaK2 ++ shaK3 ++ shaK4

/-- The eight words of the hash in progress. -/
structure ShaState where
  a : Word64
  b : Word64
  c : Word64
  d : Word64
  e : Word64
  f : Word64
  g : Word64
  h : Word64
  deriving DecidableEq, Repr

/-- The initial hash value of SHA-384. -/
def shaInit : ShaState :=
  { a := 0xCBBB9D5DC1059ED8, b := 0x629A292A367CD507, c := 0x9159015A3070DD17, d := 0x152FECD8F70E5939,
    e := 0x67332667FFC00B31, f := 0x8EB44A8768581511, g := 0xDB0C2E0D64F98FA7, h := 0x47B5481DBEFA4FA4 }

/-- The two mixing functions of the schedule and the two of a round. -/
def shaSmall0 (x : Word64) : Word64 := x.rotateRight 1 ^^^ x.rotateRight 8 ^^^ (x >>> 7)
def shaSmall1 (x : Word64) : Word64 := x.rotateRight 19 ^^^ x.rotateRight 61 ^^^ (x >>> 6)
def shaBig0 (x : Word64) : Word64 := x.rotateRight 28 ^^^ x.rotateRight 34 ^^^ x.rotateRight 39
def shaBig1 (x : Word64) : Word64 := x.rotateRight 14 ^^^ x.rotateRight 18 ^^^ x.rotateRight 41

/-- The message schedule, latest word first. -/
def shaSchedule : Nat → List Word64 → List Word64
  | 0, w => w
  | n + 1, w => shaSchedule n ((shaSmall1 (w.getD 1 0) + w.getD 6 0 + shaSmall0 (w.getD 14 0) + w.getD 15 0) :: w)

/-- One round, with its constant and its word of the schedule. -/
def ShaState.round (x : ShaState) (k w : Word64) : ShaState :=
  let t1 := x.h + shaBig1 x.e + ((x.e &&& x.f) ^^^ (~~~x.e &&& x.g)) + k + w
  let t2 := shaBig0 x.a + ((x.a &&& x.b) ^^^ (x.a &&& x.c) ^^^ (x.b &&& x.c))
  { a := t1 + t2, b := x.a, c := x.b, d := x.c, e := x.d + t1, f := x.e, g := x.f, h := x.g }

/-- A value of bytes, the most significant first. -/
def bigEndian (bs : List Byte) : Nat := bs.foldl (fun v b => 256 * v + b.toNat) 0

/-- One block of 128 bytes. -/
def ShaState.block (x : ShaState) (bs : List Byte) : ShaState :=
  let w0 := (List.range 16).map fun j => BitVec.ofNat 64 (bigEndian ((bs.drop (8 * j)).take 8))
  let y := (shaK.zip (shaSchedule 64 w0.reverse).reverse).foldl (fun (y : ShaState) p => y.round p.1 p.2) x
  { a := x.a + y.a, b := x.b + y.b, c := x.c + y.c, d := x.d + y.d, e := x.e + y.e, f := x.f + y.f, g := x.g + y.g, h := x.h + y.h }

/-- The message with its padding: a bit 1, zeros, and its length in bits as 16 bytes. -/
def shaPad (bs : List Byte) : List Byte :=
  bs ++ [0x80] ++ List.replicate ((239 - bs.length % 128) % 128) 0 ++ (toBytes 16 (8 * bs.length)).reverse

/-- SHA-384 of a message. -/
def sha384 (bs : List Byte) : BitVec 384 :=
  let m := shaPad bs
  let y := (List.range (m.length / 128)).foldl (fun (y : ShaState) j => y.block ((m.drop (128 * j)).take 128)) shaInit
  y.a ++ y.b ++ y.c ++ y.d ++ y.e ++ y.f

/-! ### ECDSA over P-384 -/

/-- The prime of the field, the order of the group, and the coefficient b of y² = x³ − 3x + b. -/
def ecP : Nat := 2 ^ 384 - 2 ^ 128 - 2 ^ 96 + 2 ^ 32 - 1
def ecN : Nat :=
  0xFFFFFFFFFFFFFFFFFFFFFFFFFFFFFFFFFFFFFFFFFFFFFFFFC7634D81F4372DDF581A0DB248B0A77AECEC196ACCC52973
def ecB : Nat :=
  0xB3312FA7E23EE7E4988E056BE3F82D19181D9C6EFE8141120314088F5013875AC656398D8A2ED19D2A85C8EDD3EC2AEF

/-- A point as (x / z², y / z³); z = 0 is the point at infinity. -/
structure EcPoint where
  x : Nat
  y : Nat
  z : Nat
  deriving DecidableEq, Repr

def EcPoint.infinity : EcPoint := { x := 1, y := 1, z := 0 }

/-- The base point. -/
def EcPoint.base : EcPoint :=
  { x := 0xAA87CA22BE8B05378EB1C71EF320AD746E1D3B628BA79B9859F741E082542A385502F25DBF55296C3A545E3872760AB7
    y := 0x3617DE4A96262C6F5D9E98BF9292DC29F8F41DBD289A147CE9DA3113B5F0B8C00A60B1CE1D7E819D7A431D7C90EA0E5F
    z := 1 }

/-- a − b in the field, of reduced b. -/
def ecSub (a b : Nat) : Nat := (a + (ecP - b)) % ecP

/-- Twice a point. -/
def EcPoint.twice (q : EcPoint) : EcPoint :=
  if q.z = 0 ∨ q.y = 0 then EcPoint.infinity
  else
    let yy := q.y * q.y % ecP
    let zz := q.z * q.z % ecP
    let s := 4 * q.x * yy % ecP
    let m := 3 * (ecSub q.x zz) * (q.x + zz) % ecP
    let x := ecSub (m * m) (2 * s % ecP)
    { x := x, y := ecSub (m * ecSub s x) (8 * (yy * yy) % ecP), z := 2 * q.y * q.z % ecP }

/-- The sum of two points. -/
def EcPoint.add (q r : EcPoint) : EcPoint :=
  if q.z = 0 then r
  else if r.z = 0 then q
  else
    let z1 := q.z * q.z % ecP
    let z2 := r.z * r.z % ecP
    let u1 := q.x * z2 % ecP
    let u2 := r.x * z1 % ecP
    let s1 := q.y * (z2 * r.z % ecP) % ecP
    let s2 := r.y * (z1 * q.z % ecP) % ecP
    if u1 = u2 then (if s1 = s2 then q.twice else EcPoint.infinity)
    else
      let h := ecSub u2 u1
      let d := ecSub s2 s1
      let hh := h * h % ecP
      let h3 := hh * h % ecP
      let v := u1 * hh % ecP
      let x := ecSub (d * d) ((h3 + 2 * v) % ecP)
      { x := x, y := ecSub (d * ecSub v x) (s1 * h3 % ecP), z := q.z * r.z % ecP * h % ecP }

/-- The bits of a number below 2^384, the most significant first. -/
def ecBits (k : Nat) : List Bool := ((List.range 384).map fun j => bit k j).reverse

/-- u · base + v · q. -/
def ecSum (u v : Nat) (q : EcPoint) : EcPoint :=
  let both := EcPoint.base.add q
  ((ecBits u).zip (ecBits v)).foldl (fun (r : EcPoint) b =>
    let t := r.twice
    match b with
    | (false, false) => t
    | (true, false) => t.add EcPoint.base
    | (false, true) => t.add q
    | (true, true) => t.add both) EcPoint.infinity

/-- The inverse modulo the order of the group: the power of exponent n − 2. -/
def ecInverse (a : Nat) : Nat :=
  (ecBits (ecN - 2)).foldl (fun r b => if b then r * r % ecN * a % ecN else r * r % ecN) 1

/-- The public key of its 97 bytes: a byte 4, x and y, a point of the curve. -/
def ecKey (bs : List Byte) : Option EcPoint :=
  let x := bigEndian ((bs.drop 1).take 48)
  let y := bigEndian ((bs.drop 49).take 48)
  if bs.length = 97 ∧ bs.headD 0 = 4 ∧ x < ecP ∧ y < ecP ∧ y * y % ecP = (x * x % ecP * x + ecB + (ecP - 3) * x) % ecP then
    some { x := x, y := y, z := 1 }
  else none

/-- The signature of 96 bytes, r and s, verifies for a message under a key. -/
def ecdsaOk (key : List Byte) (msg : List Byte) (sig : List Byte) : Bool :=
  let r := bigEndian (sig.take 48)
  let s := bigEndian ((sig.drop 48).take 48)
  match ecKey key with
  | none => false
  | some q =>
    if r = 0 ∨ ecN ≤ r ∨ s = 0 ∨ ecN ≤ s then false
    else
      let w := ecInverse s
      let t := ecSum ((sha384 msg).toNat * w % ecN) (r * w % ecN) q
      let zz := t.z * t.z % ecP
      t.z != 0 && (r * zz % ecP == t.x || (decide (r + ecN < ecP) && (r + ecN) * zz % ecP == t.x))

/-! ### The image -/

/-- The signature of an image is good (R406): the hash of its key is one of the two root-key hashes in the boot ROM, and the
signature verifies over every byte before it. -/
def signatureOk (bs : List Byte) : Bool :=
  let body := bs.take (bs.length - 96)
  let key := body.drop (body.length - 97)
  decide (193 ≤ bs.length) && (sha384 key == Config.rootKeyHash 0 || sha384 key == Config.rootKeyHash 1)
    && ecdsaOk key body (bs.drop (bs.length - 96))

end Sys2Proof.Machine
end

