-- ==== Sys2Proof/Machine/Host.lean ====
section
/-!
DEFINITION. The host at the device (22_host_and_bringup.md R399 to R412): memory through CXL, the queue windows, fault
completions, invalidation and ownership commands (06 R134 to R140, R144), the configuration image, features, readiness and
checkpoints.
-/

namespace Sys2Proof.Machine

/-! ### Device memory through CXL (R399; 05 R124) -/

/-- A host access waits behind those that wait already, or is served. -/
def State.hostAccess (s : State) (w : HostWrite) : State :=
  if s.hostBehind s.mgmt.heldWrites w then { s with mgmt := { s.mgmt with heldWrites := s.mgmt.heldWrites ++ [w] } }
  else s.serveHost w

/-- HOST_MEM_READ. -/
def execHostMemRead (addr len : Nat) (s : State) : Out :=
  if deviceTop < addr + len then .fault .outsideDeviceMemory
  else if len = 0 then .next s
  else .next (s.hostAccess (.read addr len))

/-- HOST_MEM_WRITE. -/
def execHostMemWrite (addr : Nat) (data : List Byte) (s : State) : Out :=
  if deviceTop < addr + data.length then .fault .outsideDeviceMemory
  else if data.isEmpty then .next s
  else .next (s.hostAccess (.mem addr data))

/-! ### Work queues (R402; 06 R140, R145) -/

/-- QUEUE_ITEM_WRITE: an item enters, or REFUSED rises. -/
def execQueueItemWrite (q size : Nat) (item : Word128) (s : State) : Out :=
  .next (s.behindHeld (.item q size item) (s.writeItem q size item))

/-- HELD_ITEM_REOFFER: a queue may have room again; the held items are offered in the order they arose. -/
def execHeldItemReoffer (_q : Nat) (s : State) : Out := .next s.reofferAll

/-- A hotness notification item (06 R139). -/
def hotItem (slot block count : Nat) : Word128 := BitVec.ofNat 128 (slot % 8 * 2 ^ 64 + block % 2 ^ 24 * 2 ^ 16 + count)

/-- The item notifies of a block and slot. -/
def isHot (item : Word128) (slot block : Nat) : Bool := item.toNat / 65536 == (hotItem slot block 0).toNat / 65536

/-- One more crossing merged into a held item; COUNT saturates (06 R140). -/
def hotMerge (item : Word128) : Word128 := if item.extractLsb' 0 16 = 0xFFFF then item else item + 1

/-- HOTNESS_NOTIFICATION (06 R139, R140): a counter at its threshold is reported and returns to 0. Whose HOTQ takes the
item is open (LOG 4). -/
def execHotnessNotification (stack block slot : Nat) (s : State) : Out :=
  .next (
    let x := s.stack stack
    if x.hot.get (block, slot) 0 < s.hotLimit stack then s
    else
      let s1 := { s with hbm := s.hbm.set stack { x with hot := x.hot.set (block, slot) 0 } }
      let same := fun (h : Held) => h.source == srcStack stack && isHot h.item slot block
      if s1.held.any same then
        { s1 with held := s1.held.map fun h => if same h then { h with item := hotMerge h.item } else h }
      else
        let (p, s2) := s1.choose
        s2.post (srcStack stack) (s2.live (p % 8) 0).hotq (hotItem slot block 1))

/-! ### Fault completions (06 R144, R147, R160) -/

/-- The first byte of a logged access in the page of a request. -/
def LogAcc.inPage (a : LogAcc) (f : FaultReq) : Nat :=
  if a.va % 2 ^ 57 / 65536 = f.va / 65536 then a.va else (a.va / 65536 + 1) * 65536

/-- A logged access sees its request complete. -/
def LogAcc.complete (a : LogAcc) (f : FaultReq) (fail : Bool) : LogAcc :=
  if !a.tokens.contains f.token then a
  else if fail then { a with tokens := [], failed := some (a.inPage f) }
  else { a with tokens := a.tokens.filter fun t => t != f.token }

/-- A 57-bit address as the 64 bits of a canonical one. -/
def canon64 (va : Nat) : Nat := wrap (sext va 57) 64

/-- A failed request at a copy (16 R313). -/
def State.failCopy (s : State) (tok cl : Nat) (c : Copy) : State :=
  if c.tokens.contains tok then s.stopCopy cl { c with tokens := [] } 0x07 else s

/-- A failed request at a saved copy. -/
def State.failSaved (s : State) (tok : Nat) : State :=
  let hit := fun (c : Copy) => c.tokens.contains tok && !c.stopped
  let s1 := (s.saved.flatMap fun p => p.2.copies.filter hit).foldl (fun (st : State) c =>
    c.members.foldl (fun st m => st.onThread m.1 fun _ t =>
      { t with batches := t.batches.upd m.2 fun b => b.fault 0x07 }) st) s
  { s1 with saved := s1.saved.mapAll fun _ w =>
      { w with copies := w.copies.map fun c => if hit c then { c with tokens := [] }.stop else c } }

/-- A failed request at a task that has not failed before (19 R354, R360). -/
def Task.failPage (t : Task) (tok : Nat) : Task :=
  if t.tokens.contains tok && t.fail.isNone then { t with fail := some 6, fcause := 7, tokens := [] } else t
def Matrix.failPage (m : Matrix) (tok : Nat) : Matrix := { m with tasks := m.tasks.map fun t => t.failPage tok }

/-- A failed request at a launch's own access (03 R65): the completion record is lost; patches that still wait ask again. -/
def State.failLaunch (s : State) (tok : Nat) (l : Nat) : State :=
  match s.launches.find l with
  | some x =>
    if x.token ≠ some tok then s
    else
      match x.status with
      | .writing st => (s.loseCompletion x.part x.record.cpl (x.completion st)).forgetLaunch l
      | _ => { s with launches := s.launches.set l { x with token := none } }
  | none => s

/-- A failed request at a thread: PAGE at its own faulting address (06 R158); one that stalled with its crew tries again. -/
def Thread.failPage (t : Thread) (tok : Nat) : Thread :=
  match t.wait.kind with
  | .page x va =>
    if x = tok then { t with wait := { t.wait with kind := match va with | some a => .pageFail a | none => .again } } else t
  | .fetch (some (x, va)) => if x = tok then { t with wait := { t.wait with kind := .pageFail va } } else t
  | _ => t

/-- Everything that waits on a request learns of its failure. -/
def State.failRequest (s : State) (f : FaultReq) : State :=
  let s0 := (s.clusters.flatMap fun p => p.2.hawk.copies.map fun c => (p.1, c)).foldl (fun st x => st.failCopy f.token x.1 x.2) s
  let s1 := s0.failSaved f.token
  let s2 : State := { s1 with
    threads := s1.threads.mapAll fun _ t => t.failPage f.token
    clusters := s1.clusters.mapAll fun _ c => { c with matrix := c.matrix.failPage f.token }
    saved := s1.saved.mapAll fun _ w => { w with matrix := w.matrix.map fun m => m.failPage f.token } }
  let qs := (s2.lqueues.filter fun p => p.2.token == some f.token).map (·.1)
  let s3 := qs.foldl (fun st q => st.refuseHead q 2 10) s2
  (s3.launches.map (·.1)).foldl (fun st l => st.failLaunch f.token l) s3

/-- FAULT_COMPLETION (06 R144): TOKEN in bits 31:0, FAIL in bit 32; an unknown token has no effect, nor has that of a request that has
not been made yet. -/
def execFaultCompletion (part : Nat) (w : Word64) (s : State) : Out :=
  .next (match s.faults.find? fun f => f.part == part && f.offered && f.token == (w.extractLsb' 0 32).toNat with
    | none => s
    | some f =>
      let fail := w.getLsbD 32
      let s1 : State := { s with
        faults := s.faults.filter fun g => g.token != f.token
        log := s.log.map fun l => { l with accs := l.accs.map fun a => a.complete f fail } }
      if fail then s1.failRequest f else s1)

/-! ### Invalidation (06 R133 to R135) -/

/-- The physical address exists and is 8-byte aligned. -/
def State.cplAddrOk (s : State) (a : Nat) : Bool := a % 8 == 0 && s.spanMapped a 8

/-- Write a completion word at a physical address; none while it must wait. It is no owner's work (21 R383). -/
def State.writeWord (s : State) (a v : Nat) : Option State :=
  match s.locOf a with
  | some (.home h) =>
    if s.homeWaits h then none else some (((s.homeWrite h (toBytes 8 v) 0 3).testWaiters h 8).reap)
  | some (.host h) => some { s with hostMem := s.hostMem.setBytes h (toBytes 8 v) }
  | some (.peer pa) => let q := s.peerOf pa
                       s.ask q.1 .posted q.2 1 0 8 (toBytes 8 v)
  | _ => some s

/-- The page of a KIND 0 command: its virtual address and size; none for a reserved or unaligned one. -/
def invPage (cmd : Word128) : Option (Nat × Nat) :=
  let va := (cmd.extractLsb' 16 41).toNat * 65536
  let n := match (cmd.extractLsb' 12 2).toNat with | 0 => 2 ^ 16 | 1 => 2 ^ 21 | 2 => 2 ^ 30 | _ => 0
  if n = 0 ∨ va % n ≠ 0 then none else some (va, n)

/-- The cached translations that a command drops; none for a command with a reserved value. -/
def invDrops (part : Nat) (cmd : Word128) : Option (TlbEntry → Bool) :=
  let ctx := (cmd.extractLsb' 0 10).toNat
  match (cmd.extractLsb' 10 2).toNat with
  | 0 => (invPage cmd).map fun p x => x.part == part && x.ctx == ctx && meets (x.base % 2 ^ 57) x.size p.1 p.2
  | 1 => some fun x => x.part == part && x.ctx == ctx
  | 2 => some fun x => x.part == part
  | _ => none

/-- Drop what a command names from every level, and the root entries that the walkers cached (R135; 21 R375). -/
def State.dropTranslations (s : State) (part : Nat) (cmd : Word128) : State :=
  match invDrops part cmd with
  | none => s
  | some f =>
    let k := (cmd.extractLsb' 10 2).toNat
    { s with tlb := s.tlb.filter fun x => !f x
             roots := s.roots.keep fun r _ => !(r.1 == part && (k == 2 || (k == 1 && r.2 == (cmd.extractLsb' 0 10).toNat))) }

/-- An invalidation command: the translations are dropped, and the completion follows. -/
def State.invalidate (s : State) (part : Nat) (cmd : Word128) : State :=
  if !s.cplAddrOk (cmd.extractLsb' 64 64).toNat then s
  else
    let c : Cmd :=
      { cmd := cmd, word := if (invDrops part cmd).isSome then 1 else 2, waitLoads := [], waitSq := [], waitSync := [], waitPeers := [] }
    let s1 := s.dropTranslations part cmd
    { s1 with parts := s1.parts.set part { s1.part part with inval := (s1.part part).inval ++ [c] } }

/-- A command's KIND is a row's, or reserved. -/
def invKind (cmd : Word128) (k : Nat) : Bool := (cmd.extractLsb' 10 2).toNat == k || cmd.extractLsb' 10 2 == 3

/-- INVALIDATE_PAGE. -/
def execInvalidatePage (part : Nat) (cmd : Word128) (s : State) : Out :=
  .next (if invKind cmd 0 then s.invalidate part cmd else s)
/-- INVALIDATE_CONTEXT. -/
def execInvalidateContext (part : Nat) (cmd : Word128) (s : State) : Out :=
  .next (if invKind cmd 1 then s.invalidate part cmd else s)
/-- INVALIDATE_PARTITION. -/
def execInvalidatePartition (part : Nat) (cmd : Word128) (s : State) : Out :=
  .next (if invKind cmd 2 then s.invalidate part cmd else s)

/-- INVALIDATION_COMPLETE (06 R135): the oldest command's completion word is written. From then on the tables as they stand
are used: what was cached since its arrival is dropped too. -/
def execInvalidationComplete (part : Nat) (s : State) : Out :=
  .next (match (s.part part).inval with
    | [] => s
    | c :: rest =>
      match s.writeWord (c.cmd.extractLsb' 64 64).toNat c.word with
      | some s1 =>
        let s2 := s1.dropTranslations part c.cmd
        { s2 with parts := s2.parts.set part { s2.part part with inval := rest } }
      | none => s)

/-! ### Ownership (06 R136 to R138) -/

/-- The range of an ownership command, as addresses. One that runs past the end of its canonical half is taken as it stands, and no
access lies past the end: the model's choice (LOG 101). -/
def ownRange (cmd : Word128) : Nat × Nat :=
  (canon64 ((cmd.extractLsb' 28 36).toNat * 2 ^ 21), (cmd.extractLsb' 12 16).toNat * 2 ^ 21)
def ownCtx (cmd : Word128) : Nat := (cmd.extractLsb' 2 10).toNat

/-- The ranges after a command; none when it is refused. -/
def State.ownRanges (s : State) (part : Nat) (cmd : Word128) (host : Bool) : Option (List OwnRange) :=
  let r := ownRange cmd
  let rs := (s.ctxOf part (ownCtx cmd)).ranges
  let x : OwnRange := { base := r.1, size := r.2, host := host }
  if !rootV (s.rootEntry part (ownCtx cmd)) || r.2 = 0 then none
  else if rs.any fun y => y.base == r.1 && y.size == r.2 then
    some (rs.map fun y => if y.base = r.1 ∧ y.size = r.2 then x else y)
  else if rs.any (fun y => meets y.base y.size r.1 r.2) || decide (64 ≤ rs.length) then none
  else some (rs ++ [x])

/-- A thread belongs to a context. -/
def State.inCtx (s : State) (part ctx : Nat) (k : TKey) : Bool :=
  let e := s.env k
  e.part == part && e.ctx == ctx

/-- The reads and acquires admitted before a command to its range: loads, block fetches, acquires (R138 step 2). -/
def State.admittedReads (s : State) (part ctx : Nat) (r : Nat × Nat) : List Nat :=
  (s.loads.filter fun l => s.inCtx part ctx l.key && l.pieces.any fun p => meets p.va p.n r.1 r.2).map (·.id)
  ++ s.acqs.filterMap (fun a => match a.who with
      | .thread k req _ => if s.inCtx part ctx k && meets a.va 64 r.1 r.2 then some req else none
      | .peer .. => none)
  ++ s.clusters.flatMap fun c => (c.2.fetches.filter fun x =>
      BsBlock.ofCtx part ctx x.tag && meets x.tag.va x.tag.coded r.1 r.2).map (·.id)

/-- The acquires and releases at peers admitted before a command to its range: their threads and addresses. -/
def State.admittedSyncs (s : State) (part ctx : Nat) (r : Nat × Nat) : List (TKey × Nat) :=
  s.ports.flatMap fun p => p.2.tags.filterMap fun t =>
    match t.2 with
    | .sync k _ _ va _ _ _ => if s.inCtx part ctx k && meets va 64 r.1 r.2 then some (k, va) else none
    | _ => none

/-- The reads of a peer's memory admitted before a command, for the threads, copies, fetches and tasks of its context. The
model waits for those outside the range too: only when the completion word is written depends on it. -/
def State.admittedPeers (s : State) (part ctx : Nat) : List (Client × Nat) :=
  let ofLaunch := fun (l : Nat) => match s.launches.find l with | some x => x.part == part && x.record.ctx == ctx | none => false
  (s.peerReads.filter fun r => match r.client with
    | .thread k => s.inCtx part ctx k
    | .copy cl id => (s.cluster cl).hawk.copies.any fun c => c.id == id && ofLaunch c.launch
    | .fetch cl id => (s.cluster cl).fetches.any fun x => x.id == id && BsBlock.ofCtx part ctx x.tag
    | .task cl _ => (s.cluster cl).matrix.holder.any fun b => ofLaunch b.launch
    | .image _ => false).map fun r => (r.client, r.pa)

/-- The store-queue entries to a range (R138 step 3). -/
def State.admittedWrites (s : State) (part ctx : Nat) (r : Nat × Nat) : List Nat :=
  s.clusters.flatMap fun c => (c.2.sq.filter fun x =>
    match x.op with
    | .patch p => p.part == part && p.ctx == ctx && meets p.va ((p.pieces.map (·.2)).foldl (· + ·) 0) r.1 r.2
    | _ => x.bill.part == part && x.bill.ctx == ctx && meets x.va x.n r.1 r.2).map (·.id)

/-- An accepted or refused ownership command. -/
def State.ownCommand (s : State) (part : Nat) (cmd : Word128) (host : Bool) : State :=
  if !s.cplAddrOk (cmd.extractLsb' 64 64).toNat || cmd.getLsbD 0 != host then s
  else
    let ctx := ownCtx cmd
    let p := s.part part
    let put := fun (st : State) (c : Cmd) => { st with parts := st.parts.set part { p with own := p.own ++ [c] } }
    match s.ownRanges part cmd host with
    | none => put s { cmd := cmd, word := 2, waitLoads := [], waitSq := [], waitSync := [], waitPeers := [] }
    | some rs =>
      let r := ownRange cmd
      let c : Cmd := { cmd := cmd, word := 1
                       waitLoads := if host then s.admittedReads part ctx r else []
                       waitSq := if host then s.admittedWrites part ctx r else []
                       waitSync := if host then s.admittedSyncs part ctx r else []
                       waitPeers := if host then s.admittedPeers part ctx else [] }
      let s1 := { s with ctxs := s.ctxs.set (part, ctx) { s.ctxOf part ctx with ranges := rs } }
      put (if host then s1 else { s1 with clusters := s1.clusters.mapAll fun _ c => c.dropL1 }) c

/-- OWNERSHIP_RELEASE (R138): L1s drop the range's lines, and the device's accesses are admitted. -/
def execOwnershipRelease (part : Nat) (cmd : Word128) (s : State) : Out := .next (s.ownCommand part cmd false)
/-- OWNERSHIP_ACQUIRE (R138): from now on the device's accesses are not admitted. -/
def execOwnershipAcquire (part : Nat) (cmd : Word128) (s : State) : Out := .next (s.ownCommand part cmd true)

/-- The accesses a command waits for are complete. -/
def State.cmdDone (s : State) (c : Cmd) : Bool :=
  c.waitLoads.all (fun id => !(s.loads.any fun l => l.id == id)
      && !(s.acqs.any fun a => (match a.who with | .thread _ req _ => req == id | .peer .. => false))
      && !(s.clusters.any fun x => x.2.fetches.any fun f => f.id == id))
    && (c.waitSq.all fun id => !(s.clusters.any fun x => x.2.sq.any fun y => y.id == id))
    && (c.waitSync.all fun w => !(s.ports.any fun p => p.2.tags.any fun t => match t.2 with
          | .sync k _ _ va _ _ _ => k == w.1 && va == w.2
          | _ => false))
    && c.waitPeers.all fun w => !(s.peerReads.any fun r => r.client == w.1 && r.pa == w.2)

/-- OWNERSHIP_COMPLETE (R138): once every step is done the L1s have dropped the range, and the completion word is
written. -/
def execOwnershipComplete (part : Nat) (s : State) : Out :=
  .next (match (s.part part).own with
    | [] => s
    | c :: rest =>
      if !s.cmdDone c then s
      else
        let s0 := if c.word = 1 && c.cmd.getLsbD 0 then { s with clusters := s.clusters.mapAll fun _ x => x.dropL1 } else s
        match s0.writeWord (c.cmd.extractLsb' 64 64).toNat c.word with
        | some s1 => { s1 with parts := s1.parts.set part { s1.part part with own := rest } }
        | none => s)

/-! ### Reset and the configuration image (R403 to R406) -/

/-- DEVICE_RESET (R403): nothing persists on the device; the host's memory does. -/
def execDeviceReset (s : State) : Out :=
  .next { State.reset with hostMem := s.hostMem, agenda := s.agenda, oracle := s.oracle, free := s.free, serial := s.serial,
                           placeNo := s.placeNo, turn := s.turn }

/-- A range entry is good (R404 TYPE 2). -/
def rangeOk (e : RangeE) : Bool :=
  let k := rgKind e
  e.extractLsb' 224 32 == 0 && e.extractLsb' 204 12 == 0 && e.extractLsb' 194 5 == 0 && k != 3
    && (k != 0 || rgDev e == 0) && (k == 2 || (!rgAw e && !rgAr e)) && (k == 1 || rgPort e == 0)
    && (k != 2 || rgTbase e == 0) && rgSize e != 0 && rgSize e % 2 ^ 21 == 0 && rgBase e % 2 ^ 21 == 0
    && (if k = 2 then decide (rgBase e < deviceTop) else decide (deviceTop ≤ rgBase e))

/-- No two ranges of KIND 0 or 1 overlap. -/
def rangesApart : List RangeE → Bool
  | [] => true
  | e :: rest => (decide (2 ≤ rgKind e) || rest.all fun f => decide (2 ≤ rgKind f) || !meets (rgBase e) (rgSize e) (rgBase f) (rgSize f))
      && rangesApart rest

/-- A port entry is good (R404 TYPE 3). -/
def portOk (e : Word128) : Bool := e.extractLsb' 80 48 == 0 && e.extractLsb' 19 45 == 0 && e.extractLsb' 1 7 == 0

/-- A requester-slot word is good (R404 TYPE 4). -/
def hotWordOk (w : Word64) : Bool :=
  w.extractLsb' 16 48 == 0 && w.extractLsb' 9 6 == 0 && (!w.getLsbD 8 || w.extractLsb' 0 8 == 0)

/-- Equal parts of a body, each `n` bytes. -/
def parts (n : Nat) (body : List Byte) : List Nat :=
  (List.range (body.length / n)).map fun k => ofBytes ((body.drop (k * n)).take n)

/-- Take one section into an image; none when it is bad (R404). -/
def Image.section (im : Image) (type : Nat) (body : List Byte) : Option Image :=
  let n := body.length
  let v := ofBytes body
  match type with
  | 1 => if n = 8 && v / 256 = 0 then some { im with dev := BitVec.ofNat 8 v } else none
  | 2 =>
    let es := (parts 32 body).map (BitVec.ofNat 256)
    if n % 32 = 0 && decide (32 ≤ n) && decide (n ≤ 2048) && es.all rangeOk && rangesApart es then some { im with ranges := es }
    else none
  | 3 =>
    let es := (parts 16 body).map (BitVec.ofNat 128)
    if n = 128 && es.all portOk then some { im with ports := es } else none
  | 4 =>
    let ws := (parts 8 (body.take 64)).map (BitVec.ofNat 64)
    let ts := parts 4 (body.drop 64)
    if n = 96 && ws.all hotWordOk && ts.all (fun t => decide (t < 65536)) then some { im with hot := ws, hotTh := ts } else none
  | 5 =>
    let tcrit := fld v 16 16
    if n = 16 && v / 2 ^ 64 = 0 && decide (60 ≤ tcrit) && decide (tcrit ≤ 125) then
      some { im with limits := BitVec.ofNat 64 v }
    else none
  | _ => none

/-- Take some sections, each TYPE at most once; they fill the bytes given. -/
def Image.sections : Nat → List Nat → List Byte → Image → Option Image
  | 0, _, bs, im => if bs.isEmpty then some im else none
  | k + 1, seen, bs, im =>
    let h := ofBytes (bs.take 8)
    let type := fld h 0 16
    let n := fld h 32 32
    let body := (bs.drop 8).take n
    if bs.length < 8 + n ∨ fld h 16 16 ≠ 0 ∨ seen.contains type then none
    else (im.section type body).bind fun im1 => Image.sections k (type :: seen) (bs.drop (8 + n)) im1

/-- Read an image (R403, R406): none when its format is bad. -/
def readImageBytes (bs : List Byte) : Option Image :=
  let h := ofBytes (bs.take 16)
  if bs.length < 209 ∨ fld h 0 16 ≠ 0xC0F9 ∨ fld h 16 32 ≠ bs.length ∨ fld h 64 64 ≠ 0 then none
  else Image.sections (fld h 48 16) [] ((bs.drop 16).take (bs.length - 209)) { Image.empty with accepted := true }

/-- IMAGE_LOAD (R406): the image in the buffer is accepted, or refused for its signature or its format. -/
def execImageLoad (len : Nat) (s : State) : Out :=
  .next (if s.mgmt.image.accepted then s
    else
      let bs := s.mgmt.imgBuf.bytes 0 (min len 0x100000)
      if !signatureOk bs then { s with mgmt := { s.mgmt with imgStat := 2 } }
      else
        match (if len ≤ 0x100000 then readImageBytes bs else none) with
        | some im => { s with mgmt := { s.mgmt with imgStat := 1, image := im } }
        | none => { s with mgmt := { s.mgmt with imgStat := 3 } })

/-! ### Features and readiness (R407, R408) -/

/-- FEATURE_COMMIT (R407): FEAT holds bits 5:0, MAND bits 1:0; the image comes first (R412). -/
def execFeatureCommit (s : State) : Out :=
  .next (
    let m := s.mgmt
    if m.image.accepted && m.acceptReg &&& 3 == 3 && m.acceptReg >>> 6 == 0 then
      { s with mgmt := { m with accept := m.acceptReg, committed := true, fstat := 1 } }
    else { s with mgmt := { m with fstat := 2 } })

/-- A function that can become ready: after a commit, and a port only when it is connected and accepted (R405, R407). -/
def State.mayBeReady (s : State) (b : Nat) : Bool :=
  decide (b < 66) && s.mgmt.committed
    && (!(decide (10 ≤ b) && decide (b < 18)) || (s.portConnected (b - 10) && s.mgmt.accept.getLsbD 4))

/-- FUNCTION_READY (R408): a port that becomes ready comes up on 16 lanes. The host interface reports that its link has recovered
(R411; LOG 91). -/
def execFunctionReady (bit : Nat) (s : State) : Out :=
  .next (
    if bit = 1 ∧ s.mgmt.linkDown then { s with mgmt := { s.mgmt with linkDown := false } }
    else if !s.mayBeReady bit || s.readyBit bit then s
    else
      let s1 := { s with mgmt := { s.mgmt with ready := s.mgmt.ready ||| ((1 : Word128) <<< bit) } }
      if 10 ≤ bit ∧ bit < 18 then
        s1.setPort (bit - 10) (({ s1.port (bit - 10) with state := 1, paused := false } : Port).pump 512)
      else s1)

/-- READY_TIMEOUT (R408): what is not ready 2 s after the commit is marked FAILED. -/
def execReadyTimeout (s : State) : Out :=
  .next (
    let late := (List.range 66).filter fun b => s.mayBeReady b && !s.readyBit b
    { s with mgmt := { s.mgmt with failed := late.foldl (fun (f : Word128) b => f ||| ((1 : Word128) <<< b)) s.mgmt.failed } })

/-! ### Checkpoints (R410, R411) -/

/-- A checkpoint or restore command: refused, or begun with a save of every context. -/
def State.checkpointCommand (s : State) (cmd : Nat) : State :=
  let m := s.mgmt
  if m.ckStat = 3 then s
  else if m.ckBase.toNat % 2 ^ 30 ≠ 0 || !m.accept.getLsbD 5 then { s with mgmt := { m with ckStat := 4 } }
  else ({ s with mgmt := { m with ckStat := 3, ckCmd := cmd } } : State).requestAll

/-- CHECKPOINT (R410). -/
def execCheckpoint (s : State) : Out := .next (s.checkpointCommand 1)
/-- RESTORE (R410). -/
def execRestore (s : State) : Out := .next (s.checkpointCommand 2)

/-- Every sector of device memory is checked; those that fail are marked UE, and their fields made anew (R409). -/
def State.checkSectors (s : State) : State :=
  { s with poison := s.fieldOff.foldl (fun (p : Cells 2) k => (p.set (2 * k.1) 1).set (2 * k.1 + 1) 1) s.poison
           fieldOff := [] }

/-- Device memory is copied to the range (R410 step 4), each sector checked as it leaves (R409); the dado regions are not. -/
def State.copyOut (s0 : State) : State :=
  let s := s0.checkSectors
  let lo := s.mgmt.ckBase.toNat
  let h := (s.mem.filter fun p => decide (p.1 < deviceTop)).foldl (fun (m : Cells 8) p => m.set (lo + p.1) p.2)
    (s.hostMem.clearRange lo (lo + deviceTop))
  { s with hostMem := h, l2dirty := [], mgmt := { s.mgmt with ckStat := 1, ckPois := 0 } }

/-- Sectors whose check fails at a restore, from the oracle: which fail is open (LOG 4). -/
def State.chooseSectors : Nat → State → List Nat × State
  | 0, s => ([], s)
  | n + 1, s =>
    let c := s.choose
    let r := State.chooseSectors n c.2
    (c.1 % (deviceTop / 64) :: r.1, r.2)

/-- The range is copied back and every sector checked; those that fail are marked UE (R410, R411). -/
def State.copyIn (s : State) : State :=
  let lo := s.mgmt.ckBase.toNat
  let src := (s.hostMem.filter fun p => decide (lo ≤ p.1) && decide (p.1 < lo + deviceTop))
  let m := src.foldl (fun (m : Cells 8) p => m.set (p.1 - lo) p.2) (s.mem.clearRange 0 deviceTop)
  let (n, s1) := s.choose
  let (bad, s2) := State.chooseSectors n s1
  let sectors := dedup bad
  let pz := sectors.foldl (fun (p : Cells 2) k => (p.set (2 * k) 1).set (2 * k + 1) 1) (s.poison.clearRange 0 (deviceTop / 32))
  { s2 with mem := m, poison := pz, fieldOff := [], l2 := [], l2dirty := [], l2gran := [], evicting := [], replicas := []
            mgmt := { s.mgmt with ckStat := 1, ckPois := BitVec.ofNat 64 sectors.length } }

/-- CHECKPOINT_DONE (R410, R411): with every context saved and every store home, the copy is made and gangs may resume. -/
def execCheckpointDone (s : State) : Out :=
  .next (
    let r := s.flushAll (fun _ => true) (s.clusters.map (·.1))
    if s.mgmt.ckStat ≠ 3 then s
    else if !s.allSaved || !r.1.isEmpty || !(r.2.clusters.all fun p => p.2.sq.isEmpty) then r.2
    else (if s.mgmt.ckCmd = 1 then r.2.copyOut else r.2.copyIn).applyHeld)

/-- A command that is neither a checkpoint nor a restore is refused (R411). -/
def State.refuseCommand (s : State) : State :=
  if s.mgmt.ckStat = 3 then s else { s with mgmt := { s.mgmt with ckStat := 4 } }

/-- LINK_DOWN (R411): an operation in progress is abandoned, and its gangs resume only once the link has recovered. -/
def execLinkDown (s : State) : Out :=
  .next (if s.mgmt.ckStat = 3 then { s with mgmt := { s.mgmt with linkDown := true } }.abandonCopy else s)

/-! ### BAR0 (R400 to R402; 21 R378; 00 R5) -/

/-- The state that a meaning goes on to. -/
def State.after (s : State) (f : State → Out) : State := match f s with | .next t => t | _ => s

/-- An offset lies in a part of BAR0. -/
def barIn (off base len : Nat) : Bool := decide (base ≤ off) && decide (off < base + len)

/-- A write of a page of the management window that has a behaviour of its own; none for another offset (R403 to R411; 21 R373,
R377, R378). A register that takes a command takes it by a write of 1. Which lanes pass a retraining is open (LOG 4). -/
def State.commandWrite (s : State) (off size : Nat) (v : Word64) : Option State :=
  let w32 : Word32 := v.setWidth 32
  let page := (off - 0x0300000) / 4096
  let part := (off - 0x0340000) / 4096
  let at_ := off % 4096
  if off = 0 then some (if 4 ≤ size then s.after (execImageLoad v.toNat) else s)
  else if off = 0x40 then some (if v = 1 then s.after execFeatureCommit else s)
  else if off = 0x88 then
    some (if v = 1 then s.after execCheckpoint else if v = 2 then s.after execRestore else s.refuseCommand)
  else if barIn off 0x0202100 64 then
    some (if off % 8 = 0 && v = 1 then
        let r := s.choose
        r.2.after (execRetrain ((off - 0x0202100) / 8) (BitVec.ofNat 16 (65535 - r.1 % 65536)))
      else s)
  else if barIn off 0x0204000 4096 then some (if size = 4 then s.after (execOwnerTableWrite ((off - 0x0204000) / 4) w32) else s)
  else if barIn off 0x0205000 2048 then some (if size = 4 then s.after (execQueueTableWrite ((off - 0x0205000) / 4) w32) else s)
  else if barIn off 0x0205800 256 then
    some (if size = 4 then s.after (execLaunchQueueTableWrite ((off - 0x0205800) / 4) w32) else s)
  else if barIn off 0x0300000 0x40000 && at_ = 0x400 then
    some (if v = 1 then s.after (execConfigCommit (page / 8) (page % 8)) else s)
  else if barIn off 0x0340000 0x8000 && at_ = 0x010 then some (if v = 1 then s.after (execScommit part) else s)
  else if barIn off 0x0340000 0x8000 && at_ = 0x100 then
    some (if size = 8 && v.getLsbD 0 then s.after (execFaultReportClear part) else s)
  else if barIn off 0x0340000 0x8000 && at_ = 0x218 then
    some (if size = 8 && v.getLsbD 63 then s.after (execLostCompletionClear part) else s)
  else none

/-- A write of a queue's or a partition's window; none for another offset (R400 to R402). The 16-byte commands of the invalidation
and ownership windows come as one write (the rows INVALIDATE_* and OWNERSHIP_*), and a part of one has no effect (LOG 48). -/
def State.windowWrite (s : State) (off size : Nat) (v : Word64) : Option State :=
  let at_ := off % 4096
  if barIn off 0x1000000 0x40000 then
    let q := (off - 0x1000000) / 4096
    let x := s.lqueue q
    some (if at_ < 0x100 then { s with lqueues := s.lqueues.set q { x with staging := putPart x.staging at_ size v.toNat } }
      else if at_ = 0x100 && size = 8 && v = 1 then s.after (execLaunchDoorbell q x.staging)
      else s)
  else if barIn off 0x1200000 0x8000 then
    some (if at_ = 0x800 && size = 8 then s.after (execFaultCompletion ((off - 0x1200000) / 4096) v) else s)
  else if barIn off 0x2000000 0x200000 then
    some (if at_ < 0x10 then s.after (execQueueItemWrite ((off - 0x2000000) / 4096) size (v.setWidth 128)) else s)
  else none

/-- REGISTER_WRITE (21 R378; R400): an aligned write of 1, 2, 4 or 8 bytes of BAR0. -/
def execRegisterWrite (off size : Nat) (v : Word64) (s : State) : Out :=
  .next (if size = 0 ∨ 8 < size ∨ 8 % size ≠ 0 ∨ off % size ≠ 0 then s
    else
      match s.commandWrite off size v, s.windowWrite off size v with
      | some t, _ => t
      | none, some t => t
      | none, none => s.writeRegister off size v)

/-- A configuration block as it reads: its MBZ bits 0, and in sub-partition 0 the STARVE record in force (21 R373; 00 R5). -/
def State.blockRead (s : State) (part sub : Nat) : Block1K :=
  let c := s.sub part sub
  let b := if sub = 0 then c.held.put 0x010 16 c.live.starve.toNat else c.held
  let b1 := [(0x006, 2), (0x00C, 4), (0x01E, 2), (0x061, 3), (0x070, 912)].foldl (fun (b : Block1K) (p : Nat × Nat) => b.put p.1 p.2 0) b
  if sub = 0 then b1 else b1.put 0x068 8 0

/-- The status register of a port (17 R345), 0 while the ports' feature is not accepted (R407). -/
def State.portStatus (s : State) (p : Nat) : Nat :=
  let x := s.port p
  if s.mgmt.accept.getLsbD 4 then (x.sheds ++ x.replays ++ x.failmask ++ (0 : BitVec 14) ++ x.state).toNat else 0

/-- The register of the management window at an offset: where it begins, and its value, from bit 0 (21 R378; R403 to R411). A
register that is only written, and an offset that the map does not give, read 0. -/
def State.mgmtReg (s : State) (off : Nat) : Nat × Nat :=
  let m := s.mgmt
  let ck := fun (n : Nat) => if m.accept.getLsbD 5 then n else 0
  let page := (off - 0x0300000) / 4096
  let part := (off - 0x0340000) / 4096
  let at_ := off % 4096
  let u := s.usage.get ((off - 0x0400000) / 4096) Usage.zero
  if barIn off 0x08 8 then (0x08, m.imgStat)
  else if barIn off 0x10 16 then (0x10, 0x3F)
  else if barIn off 0x20 16 then (0x20, 0x03)
  else if barIn off 0x30 16 then (0x30, m.acceptReg.toNat)
  else if barIn off 0x48 8 then (0x48, m.fstat)
  else if barIn off 0x50 16 then (0x50, m.ready.toNat)
  else if barIn off 0x60 16 then (0x60, m.failed.toNat)
  else if barIn off 0x80 8 then (0x80, ck m.ckBase.toNat)
  else if barIn off 0x90 8 then (0x90, ck m.ckStat)
  else if barIn off 0x98 8 then (0x98, ck m.ckPois.toNat)
  else if barIn off 0x0100000 0x100000 then (off, ofBytes (m.imgBuf.bytes (off - 0x0100000) 8))
  else if barIn off 0x0200000 4 then (0x0200000, s.gov.rhold + 2 ^ 8 * s.gov.level + (if s.gov.lost then 2 ^ 12 else 0))
  else if barIn off 0x0200100 64 then (off / 8 * 8, (s.gov.curve.get ((off - 0x0200100) / 8)).toNat)
  else if barIn off 0x0200180 8 then (0x0200180, s.gov.sample.toNat)
  else if barIn off 0x0201000 768 then (off / 4 * 4, (s.cluster ((off - 0x0201000) / 4)).power.toNat)
  else if barIn off 0x0202000 64 then (off / 8 * 8, s.portStatus ((off - 0x0202000) / 8))
  else if barIn off 0x0204000 4096 then (off / 4 * 4, (m.owners.get ((off - 0x0204000) / 4)).toNat)
  else if barIn off 0x0205000 2048 then (off / 4 * 4, (m.queues.get ((off - 0x0205000) / 4)).toNat)
  else if barIn off 0x0205800 256 then (off / 4 * 4, (m.lqueues.get ((off - 0x0205800) / 4)).toNat)
  else if barIn off 0x0210000 0x10000 then (off / 16 * 16, (m.reload.get ((off - 0x0210000) / 16)).toNat)
  else if barIn off 0x0300000 0x40000 then
    if at_ < 0x400 then (off - at_, (s.blockRead (page / 8) (page % 8)).toNat)
    else if barIn at_ 0x408 8 then (off - at_ + 0x408, (s.sub (page / 8) (page % 8)).cstat)
    else (off, 0)
  else if barIn off 0x0340000 0x8000 then
    let p := s.part part
    if at_ < 0x10 then (off - at_, fld p.starveHeld.toNat 0 112)
    else if barIn at_ 0x18 8 then (off - at_ + 0x18, p.sstat)
    else if barIn at_ 0x100 32 then (off - at_ + 0x100, p.fault.toNat)
    else if barIn at_ 0x200 32 then (off - at_ + 0x200, p.lost.toNat)
    else (off, 0)
  else if barIn off 0x0400000 0x400000 && decide (at_ < 48) then
    (off - at_, (u.energy ++ u.link ++ u.wbytes ++ u.rbytes ++ u.mbusy ++ u.ccyc).toNat)
  else (off, 0)

/-- The register of a window at an offset (R401, R402). -/
def State.windowReg (s : State) (off : Nat) : Nat × Nat :=
  let at_ := off % 4096
  if barIn off 0x1000000 0x40000 then
    let x := s.lqueue ((off - 0x1000000) / 4096)
    if at_ < 0x100 then (off - at_, x.staging.toNat)
    else if barIn at_ 0x108 8 then (off - at_ + 0x108, 64 - x.recs.length)
    else (off, 0)
  else if barIn off 0x2000000 0x200000 then
    let q := (off - 0x2000000) / 4096
    if barIn at_ 0x10 4 then (off - at_ + 0x10, queueCap (s.mgmt.queues.get q) - (s.queue q).items.length)
    else if barIn at_ 0x14 4 then (off - at_ + 0x14, (s.queue q).refused.toNat)
    else (off, 0)
  else (off, 0)

/-- What an aligned read of `size` bytes of BAR0 returns (21 R378; R400). -/
def State.readBar (s : State) (off size : Nat) : Word64 :=
  if size = 0 ∨ 8 < size ∨ 8 % size ≠ 0 ∨ off % size ≠ 0 then 0
  else
    let r := if off < 0x1000000 then s.mgmtReg off else s.windowReg off
    BitVec.ofNat 64 (fld r.2 (8 * (off - r.1)) (8 * size))

/-- The host reads BAR0. -/
def State.hostBarRead (s : State) (off size : Nat) : State := { s with barRead := s.readBar off size }

end Sys2Proof.Machine
end

