-- ==== Sys2Proof/Machine/Agenda.lean ====
section
/-!
DEFINITION. Which agent moves when the agenda is empty (notes/assumptions/3.md): every agent of the device whose move the
state makes possible takes turns. What comes from outside the device (the host, peers, sensors) comes from the agenda alone.
-/

namespace Sys2Proof.Machine

/-- An event as a move. -/
abbrev ev (i : Instr) : Move := .event i

/-- The moves of one cluster: its slots, its clock, its store queue, its engines. -/
def Cluster.moves (cl : Nat) (c : Cluster) : List Move :=
  let slots : List Move := .cycles cl 1 :: (List.range 4).map (fun q => .issue cl q)
  let queue : List Move := c.sq.map fun x => ev (match x.op with | .patch _ => .merge cl x.id | _ => .homeItemApply cl x.id)
  let fetches : List Move := c.fetches.map fun x => ev (.blockFetch cl x.id)
  let accepts := fun (x : Copy) => match x.kind with
    | .multi es _ => es.map fun e => ev (.multicastAccept cl x.id e.1)
    | _ => []
  let copies : List Move := c.hawk.copies.flatMap fun x =>
    ev (.hawkDelivery cl x.id) :: ev (.copyComplete cl x.id) :: accepts x
  let tasks : List Move := if c.matrix.tasks.isEmpty then [] else (List.range 2).flatMap fun e =>
    [ev (.taskStart cl e), ev (.scaleRead cl e), ev (.taskStep cl e [])]
  let frozen : List Move := if c.freeze.isSome then [ev (.droopFreezeEnd cl)] else []
  [slots, queue, fetches, copies, tasks, [ev (.barrierWaveRelease cl)], frozen].flatten

/-- The moves of the threads that wait, and of what is in flight for them. -/
def State.threadMoves (s : State) : List Move :=
  let resumes : List Move := (s.threads.filter fun p => s.resumable p.1 p.2).map fun p => .resume p.1
  let starved : List Move := (s.threads.filter fun p => s.blocked p.1 p.2).map fun p => ev (.starved p.1.launch p.1.wid)
  let yields : List Move := (s.threads.filter fun p => (match p.2.wait.kind with | .yield _ => true | _ => false)).map fun p =>
    ev (.yieldExpiry p.1.launch p.1.wid)
  let loads : List Move := s.loads.flatMap fun l => (List.range l.pieces.length).map fun k => ev (.loadDataReturn l.id k)
  let logs : List Move := s.log.map fun l => ev (.operandLogReplay l.id)
  let grants : List Move := (dedup (s.acqs.map (·.obj))).map fun a => ev (.acquireGrant a)
  [resumes, starved, yields, loads, logs, grants].flatten

/-- What takes the transaction at the head of a port's received ones. -/
def takeTx (p : Nat) (h : Word128) : List Move :=
  match txKind h with
  | 0 => [ev (.scrimRead p)]
  | 1 => [ev (.scrimWrite p)]
  | 2 => [ev (.scrimAtomic p)]
  | 3 => [ev (.scrimAcquire p)]
  | 4 => [ev (.scrimRelease p)]
  | 5 => [ev (.scrimReadResponse p)]
  | 6 => [ev (.scrimWriteAck p)]
  | 7 => [ev (.scrimAtomicResponse p)]
  | 8 => [ev (.scrimSyncResponse p)]
  | 9 => [ev (.scrimWithdrawal p)]
  | _ => []

/-- The moves of the Scrim ports with received transactions. -/
def State.portMoves (s : State) : List Move :=
  (List.range 8).flatMap fun p =>
    match (s.port p).inbox with
    | [] => []
    | x :: _ => takeTx p x.hdr

/-- The first combination of clusters of a bay that takes a gang. -/
def State.fitBay (s : State) (pool : Pool) (r : Rec) (b : Nat) : Option (List Nat) :=
  let cls := ((upFrom (4 * b) 4).filter fun c => s.usable pool c && decide (1 ≤ s.room false r c)).take r.gangSize
  if cls.length = r.gangSize then some cls else none

/-- Places for some gangs, each in the first bay that takes it after those before it. -/
def State.fit (pool : Pool) (l : Nat) (x : Launch) : List Nat → State → List Placement
  | [], _ => []
  | g :: rest, s =>
    match (List.range 48).findSome? (s.fitBay pool x.record) with
    | some cls =>
      let p : Placement := { gang := g, clusters := cls }
      p :: State.fit pool l x rest (s.startGang l x p)
    | none => []

/-- A launch's own bays. -/
def Launch.ownPool (x : Launch) : Pool := { part := x.part, sub := x.sub, lent := false }

/-- The moves about a gang. -/
def State.gangMoves (s : State) (g : GKey) (x : Gang) : List Move :=
  let l := g.launch
  let n := g.gang
  match x.status with
  | .running => [ev (.gangRetire l n), ev (.preemptionRequest l n), ev (.quantumExpiry l n), ev (.shedFreeze l n)]
  | .requested .. => [ev (.gangRetire l n), ev (.reconvergedSave l n), ev (.fullSave l n), ev (.handlerTimeout l n)]
  | .saved _ =>
    match s.launches.find l with
    | some y => [ev (.gangRestore l (State.fit y.ownPool l y (sortBy (fun a b => decide (a < b)) (s.unitOf l n)) s))]
    | none => []

/-- The moves of the die schedulers. -/
def State.launchMoves (s : State) : List Move :=
  let accepts : List Move := (s.lqueues.filter fun p => p.2.head.isNone && !p.2.recs.isEmpty).map fun p => ev (.launchAccept p.1)
  let grants : List Move := s.lqueues.filterMap fun p => (s.headOf p.1).map fun h =>
    ev (.schedulerGrant (s.servingDie p.1) p.1 (State.fit h.2.ownPool h.1 h.2 h.2.nextUnit s))
  let gangs : List Move := s.gangs.flatMap fun p => s.gangMoves p.1 p.2
  let ends : List Move := (s.launches.filter fun p => p.2.status != .running).map fun p => ev (.gangRetire p.1 0)
  [accepts, grants, gangs, ends].flatten

/-- The moves of the clocks and of the management controller. -/
def State.mgmtMoves (s : State) : List Move :=
  let clocks : List Move := (List.range 4).flatMap fun d => [Move.tick d 1, ev (.writeBudgetWindow d)]
  let held : List Move := (dedup (s.held.map (·.queue))).map fun q => ev (.heldItemReoffer q)
  let hot : List Move := s.hbm.flatMap fun p => p.2.hot.map fun h => ev (.hotnessNotification p.1 h.1.1 h.1.2)
  let inval : List Move := (s.parts.filter fun p => !p.2.inval.isEmpty).map fun p => ev (.invalidationComplete p.1)
  let own : List Move := (s.parts.filter fun p => !p.2.own.isEmpty).map fun p => ev (.ownershipComplete p.1)
  let reloads : List Move := s.reloading.map fun r => ev (.reloadComplete r.1)
  let copy : List Move := if s.mgmt.ckStat = 3 then [ev .checkpointDone] else []
  let heat : List Move := if s.thermal.holding then [ev .thermalCritical] else []
  [clocks, held, hot, inval, own, reloads, copy, heat, [ev .telemetryLost]].flatten

/-- The moves the default policy takes turns at. -/
def State.candidates (s : State) : List Move :=
  let cls := dedup (s.blocks.map (fun p => p.2.cluster) ++ s.clusters.map (·.1))
  [cls.flatMap fun c => (s.cluster c).moves c, s.threadMoves, s.portMoves, s.launchMoves, s.mgmtMoves].flatten

/-- The move of an empty agenda: the candidates take turns. -/
def State.defaultMove (s : State) : Option Move :=
  match s.candidates with
  | [] => none
  | ms => ms[s.turn % ms.length]?

end Sys2Proof.Machine
end

