-- ==== Sys2Proof/Machine/CrewOps.lean ====
section
/-!
DEFINITION. The cross-thread instructions (10_core_crews_and_waiting.md R237 to R244): each executes once per crew of
the run, on the participants' operands as they stood at issue.
-/

namespace Sys2Proof.Machine

/-- What a participant brings: its key, crew rank and the operands it reads. -/
structure Part where
  key : TKey
  rank : Nat
  a : Word32
  b : Word32
  wide : Word64
  p : Bool
  deriving DecidableEq, Repr

/-- The participants with their operands, in ascending crew rank (R243). -/
def State.partsOf (s : State) (ks : List TKey) (a b : Operand) (wide : Env → Thread → Word64) (p : BitVec 3) : List Part :=
  sortBy (fun x y => decide (x.rank < y.rank)) (ks.filterMap fun k =>
    match s.threads.find k with
    | some t =>
      let e := s.env k
      some { key := k, rank := e.crank, a := src32 e t a, b := src32 e t b, wide := wide e t, p := t.pred p.toNat }
    | none => none)

/-- Bit i for crew rank i. -/
def partMask (ps : List Part) : Word32 := BitVec.ofNat 32 ((ps.map fun p => 2 ^ p.rank).foldl (· + ·) 0)

/-- Write each participant's 32-bit result and go on. -/
def State.giveAll (s : State) (i : Instr) (w : Bool) (d : BitVec 7) (ps : List Part) (val : Part → Word32) : State :=
  ps.foldl (fun st p => st.onThread p.key fun e t => (t.put32 e w d (val p)).advance i) s

/-- A 64-bit operand no instruction here reads. -/
def noWide (_ : Env) (_ : Thread) : Word64 := 0

/-- `bal` (R239). -/
def balMask (ps : List Part) : Word32 := partMask (ps.filter fun p => p.a != 0)
def execBal (f : FDA) (s : State) : Out :=
  .next (s.issueCrews srcNat (.bal f) fun st _ ks =>
    let ps := st.partsOf ks f.a .zero noWide 0
    st.giveAll (.bal f) f.w f.d ps fun _ => balMask ps)

/-- The truth value of `vote` (R240). -/
def voteOf (op : VoteOp) (ps : List Part) : Bool :=
  match op with
  | .any => ps.any (·.p)
  | .all => ps.all (·.p)
  | .uni => ps.all (·.p) || ps.all (!·.p)
def execVote (f : FVote) (s : State) : Out :=
  .next (s.issueCrews srcNat (.vote f) fun st _ ks =>
    let ps := st.partsOf ks .zero .zero noWide f.pa
    ps.foldl (fun st p => st.onThread p.key fun _ t => (t.setPredD f.p f.w (voteOf f.op ps)).advance (.vote f)) st)

/-- The A of crew rank `r` if it is a participant, else the participant's own (R241). -/
def shuffle (ps : List Part) (p : Part) (r : Nat) : Word32 :=
  match ps.find? fun q => q.rank == r with
  | some q => q.a
  | none => p.a
def execShfi (f : FDAB) (s : State) : Out :=
  .next (s.issueCrews srcNat (.shfi f) fun st _ ks =>
    let ps := st.partsOf ks f.a f.b noWide 0
    st.giveAll (.shfi f) f.w f.d ps fun p => shuffle ps p (p.b.toNat % 32))
def execShfx (f : FDAB) (s : State) : Out :=
  .next (s.issueCrews srcNat (.shfx f) fun st _ ks =>
    let ps := st.partsOf ks f.a f.b noWide 0
    st.giveAll (.shfx f) f.w f.d ps fun p => shuffle ps p (p.rank ^^^ (p.b.toNat % 32)))

/-- Two keys match (R242): bits, or floating values where a NaN matches nothing. -/
def keyEq (kind : MatchKind) (p q : Part) : Bool :=
  match kind with
  | .b32 => p.a == q.a
  | .b64 => p.wide == q.wide
  | .f32 => (fval Fmt.f32 p.a.toNat).cmp (fval Fmt.f32 q.a.toNat) == some .eq
  | .f64 => (fval Fmt.f64 p.wide.toNat).cmp (fval Fmt.f64 q.wide.toNat) == some .eq
/-- The mask `match` gives: its own bit always, and those of equal keys (R242). -/
def matchMask (kind : MatchKind) (ps : List Part) (p : Part) : Word32 :=
  partMask (ps.filter fun q => q.rank == p.rank || keyEq kind p q)
def execMtch (f : FMatch) (s : State) : Out :=
  .next (s.issueCrews srcNat (.mtch f) fun st _ ks =>
    let ps := st.partsOf ks f.a .zero
      (match f.kind with
       | .f64 => fun e t => srcF64 e t f.a
       | .b64 => fun e t => srcZ64 e t f.a
       | _ => noWide) 0
    st.giveAll (.mtch f) f.w f.d ps (matchMask f.kind ps))

/-- One combination of `red` (R243): f32 sums in RN, no flush; canonical NaN results. -/
def redOp (op : RedOp) (x y : Word32) : Word32 :=
  let p0 := Fpm.of 0
  match op with
  | .add => x + y
  | .mins => minsOp32 x y
  | .minz => if x.ult y then x else y
  | .maxs => if x.slt y then y else x
  | .maxz => if x.ult y then y else x
  | .and => x &&& y
  | .or => x ||| y
  | .xor => x ^^^ y
  | .fadd => BitVec.ofNat 32 (faddBits p0 Fmt.f32 x.toNat y.toNat)
  | .fmin => BitVec.ofNat 32 (minBits Fmt.f32 x.toNat y.toNat)
  | .fmax => BitVec.ofNat 32 (maxBitsOf Fmt.f32 x.toNat y.toNat)
where
  minsOp32 (x y : Word32) : Word32 := if x.slt y then x else y

/-- A NaN result of a floating combination is canonical (R194, R243). -/
def redCanon (op : RedOp) (x : Word32) : Word32 :=
  match op with
  | .fadd | .fmin | .fmax => if isNanBits Fmt.f32 x.toNat then 0x7FC00000 else x
  | _ => x

/-- The combination of values in ascending crew rank (R243). -/
def redAll (op : RedOp) (vs : List Word32) : Word32 :=
  match vs with
  | [] => 0
  | v :: rest => redCanon op (rest.foldl (redOp op) v)

/-- What participant p receives: over all, or over the crew ranks up to its own with PRE (R243). -/
def redVal (f : FRed) (ps : List Part) (p : Part) : Word32 :=
  redAll f.op ((ps.filter fun q => !f.pre || decide (q.rank ≤ p.rank)).map (·.a))
def execRed (f : FRed) (s : State) : Out :=
  .next (s.issueCrews srcNat (.red f) fun st _ ks =>
    let ps := st.partsOf ks f.a .zero noWide 0
    st.giveAll (.red f) f.w f.d ps (redVal f ps))

/-- `cact` (R244). -/
def execCact (f : FD) (s : State) : Out :=
  .next (s.issueCrews srcNat (.cact f) fun st _ ks =>
    let ps := st.partsOf ks .zero .zero noWide 0
    st.giveAll (.cact f) f.w f.d ps fun _ => partMask ps)

end Sys2Proof.Machine
end

