-- ==== Sys2Proof/Machine/Dispatch.lean ====
section
/-!
DEFINITION. One arm for each constructor of Instr: a call of its meaning.
-/

namespace Sys2Proof.Machine

def exec (i : Instr) (s : State) : Host.Outcome State Fault Refusal :=
  match i with
  | .nop f => Sys2Proof.Machine.execNop f s
  | .bra f => Sys2Proof.Machine.execBra f s
  | .brx f => Sys2Proof.Machine.execBrx f s
  | .call f => Sys2Proof.Machine.execCall f s
  | .ret f => Sys2Proof.Machine.execRet f s
  | .exit f => Sys2Proof.Machine.execExit f s
  | .trap f => Sys2Proof.Machine.execTrap f s
  | .rti => Sys2Proof.Machine.execRti s
  | .wbase f => Sys2Proof.Machine.execWbase f s
  | .sreg f => Sys2Proof.Machine.execSreg f s
  | .sset f => Sys2Proof.Machine.execSset f s
  | .yield f => Sys2Proof.Machine.execYield f s
  | .yieldExpiry launch wid => Sys2Proof.Machine.execYieldExpiry launch wid s
  | .fence f => Sys2Proof.Machine.execFence f s
  | .bar f => Sys2Proof.Machine.execBar f s
  | .arrive f => Sys2Proof.Machine.execArrive f s
  | .barrierWaveRelease cl => Sys2Proof.Machine.execBarrierWaveRelease cl s
  | .wait f => Sys2Proof.Machine.execWait f s
  | .pchk f => Sys2Proof.Machine.execPchk f s
  | .swait f => Sys2Proof.Machine.execSwait f s
  | .acqX f => Sys2Proof.Machine.execAcqX f s
  | .acqS f => Sys2Proof.Machine.execAcqS f s
  | .acqXTry f => Sys2Proof.Machine.execAcqXTry f s
  | .acqSTry f => Sys2Proof.Machine.execAcqSTry f s
  | .acquireGrant obj => Sys2Proof.Machine.execAcquireGrant obj s
  | .rel f => Sys2Proof.Machine.execRel f s
  | .bind f => Sys2Proof.Machine.execBind f s
  | .bindClr f => Sys2Proof.Machine.execBindClr f s
  | .deq f => Sys2Proof.Machine.execDeq f s
  | .deqTry f => Sys2Proof.Machine.execDeqTry f s
  | .enq f => Sys2Proof.Machine.execEnq f s
  | .enqTry f => Sys2Proof.Machine.execEnqTry f s
  | .bal f => Sys2Proof.Machine.execBal f s
  | .vote f => Sys2Proof.Machine.execVote f s
  | .shfi f => Sys2Proof.Machine.execShfi f s
  | .shfx f => Sys2Proof.Machine.execShfx f s
  | .mtch f => Sys2Proof.Machine.execMtch f s
  | .red f => Sys2Proof.Machine.execRed f s
  | .cact f => Sys2Proof.Machine.execCact f s
  | .pset f => Sys2Proof.Machine.execPset f s
  | .pmov f => Sys2Proof.Machine.execPmov f s
  | .add f => Sys2Proof.Machine.execAdd f s
  | .sub f => Sys2Proof.Machine.execSub f s
  | .mul f => Sys2Proof.Machine.execMul f s
  | .mulhs f => Sys2Proof.Machine.execMulhs f s
  | .mulhz f => Sys2Proof.Machine.execMulhz f s
  | .mad f => Sys2Proof.Machine.execMad f s
  | .mins f => Sys2Proof.Machine.execMins f s
  | .minz f => Sys2Proof.Machine.execMinz f s
  | .maxs f => Sys2Proof.Machine.execMaxs f s
  | .maxz f => Sys2Proof.Machine.execMaxz f s
  | .and f => Sys2Proof.Machine.execAnd f s
  | .or f => Sys2Proof.Machine.execOr f s
  | .xor f => Sys2Proof.Machine.execXor f s
  | .andn f => Sys2Proof.Machine.execAndn f s
  | .shl f => Sys2Proof.Machine.execShl f s
  | .shrs f => Sys2Proof.Machine.execShrs f s
  | .shrz f => Sys2Proof.Machine.execShrz f s
  | .rot f => Sys2Proof.Machine.execRot f s
  | .bfx f => Sys2Proof.Machine.execBfx f s
  | .bfi f => Sys2Proof.Machine.execBfi f s
  | .bitc f => Sys2Proof.Machine.execBitc f s
  | .cmps f => Sys2Proof.Machine.execCmps f s
  | .cmpz f => Sys2Proof.Machine.execCmpz f s
  | .sel f => Sys2Proof.Machine.execSel f s
  | .mov f => Sys2Proof.Machine.execMov f s
  | .add64 f => Sys2Proof.Machine.execAdd64 f s
  | .sub64 f => Sys2Proof.Machine.execSub64 f s
  | .mul64 f => Sys2Proof.Machine.execMul64 f s
  | .shl64 f => Sys2Proof.Machine.execShl64 f s
  | .shrs64 f => Sys2Proof.Machine.execShrs64 f s
  | .shrz64 f => Sys2Proof.Machine.execShrz64 f s
  | .cmp64 f => Sys2Proof.Machine.execCmp64 f s
  | .lea f => Sys2Proof.Machine.execLea f s
  | .rng f => Sys2Proof.Machine.execRng f s
  | .faddF64 f => Sys2Proof.Machine.execFaddF64 f s
  | .faddF32 f => Sys2Proof.Machine.execFaddF32 f s
  | .faddF16x2 f => Sys2Proof.Machine.execFaddF16x2 f s
  | .faddBf16x2 f => Sys2Proof.Machine.execFaddBf16x2 f s
  | .fsubF64 f => Sys2Proof.Machine.execFsubF64 f s
  | .fsubF32 f => Sys2Proof.Machine.execFsubF32 f s
  | .fmulF64 f => Sys2Proof.Machine.execFmulF64 f s
  | .fmulF32 f => Sys2Proof.Machine.execFmulF32 f s
  | .fmulF16x2 f => Sys2Proof.Machine.execFmulF16x2 f s
  | .fmulBf16x2 f => Sys2Proof.Machine.execFmulBf16x2 f s
  | .fmaF64 f => Sys2Proof.Machine.execFmaF64 f s
  | .fmaF32 f => Sys2Proof.Machine.execFmaF32 f s
  | .fmaF16x2 f => Sys2Proof.Machine.execFmaF16x2 f s
  | .fmaBf16x2 f => Sys2Proof.Machine.execFmaBf16x2 f s
  | .fminF64 f => Sys2Proof.Machine.execFminF64 f s
  | .fminF32 f => Sys2Proof.Machine.execFminF32 f s
  | .fmaxF64 f => Sys2Proof.Machine.execFmaxF64 f s
  | .fmaxF32 f => Sys2Proof.Machine.execFmaxF32 f s
  | .fcmpF64 f => Sys2Proof.Machine.execFcmpF64 f s
  | .fcmpF32 f => Sys2Proof.Machine.execFcmpF32 f s
  | .fsgn f => Sys2Proof.Machine.execFsgn f s
  | .fclass f => Sys2Proof.Machine.execFclass f s
  | .fsfu f => Sys2Proof.Machine.execFsfu f s
  | .fdivF64 f => Sys2Proof.Machine.execFdivF64 f s
  | .fdivF32 f => Sys2Proof.Machine.execFdivF32 f s
  | .fscaleF64 f => Sys2Proof.Machine.execFscaleF64 f s
  | .fscaleF32 f => Sys2Proof.Machine.execFscaleF32 f s
  | .fround f => Sys2Proof.Machine.execFround f s
  | .cvt f => Sys2Proof.Machine.execCvt f s
  | .pack f => Sys2Proof.Machine.execPack f s
  | .rqnt f => Sys2Proof.Machine.execRqnt f s
  | .dp4 f => Sys2Proof.Machine.execDp4 f s
  | .dp8 f => Sys2Proof.Machine.execDp8 f s
  | .fdp2 f => Sys2Proof.Machine.execFdp2 f s
  | .fcbk f => Sys2Proof.Machine.execFcbk f s
  | .ld f => Sys2Proof.Machine.execLd f s
  | .st f => Sys2Proof.Machine.execSt f s
  | .stTry f => Sys2Proof.Machine.execStTry f s
  | .lds f => Sys2Proof.Machine.execLds f s
  | .sts f => Sys2Proof.Machine.execSts f s
  | .ldt f => Sys2Proof.Machine.execLdt f s
  | .stt f => Sys2Proof.Machine.execStt f s
  | .atom f => Sys2Proof.Machine.execAtom f s
  | .cas f => Sys2Proof.Machine.execCas f s
  | .atoms f => Sys2Proof.Machine.execAtoms f s
  | .prf f => Sys2Proof.Machine.execPrf f s
  | .resPrio f => Sys2Proof.Machine.execResPrio f s
  | .resDemote f => Sys2Proof.Machine.execResDemote f s
  | .resEvict f => Sys2Proof.Machine.execResEvict f s
  | .cinvLine f => Sys2Proof.Machine.execCinvLine f s
  | .cinvAll f => Sys2Proof.Machine.execCinvAll f s
  | .tdescLoad f => Sys2Proof.Machine.execTdescLoad f s
  | .tdescStore f => Sys2Proof.Machine.execTdescStore f s
  | .tdescClear f => Sys2Proof.Machine.execTdescClear f s
  | .qpop f => Sys2Proof.Machine.execQpop f s
  | .qpopTry f => Sys2Proof.Machine.execQpopTry f s
  | .bdec f => Sys2Proof.Machine.execBdec f s
  | .bflushBlk f => Sys2Proof.Machine.execBflushBlk f s
  | .bflushForce f => Sys2Proof.Machine.execBflushForce f s
  | .bflushTensor f => Sys2Proof.Machine.execBflushTensor f s
  | .bflushAll f => Sys2Proof.Machine.execBflushAll f s
  | .bstat f => Sys2Proof.Machine.execBstat f s
  | .bstatDec f => Sys2Proof.Machine.execBstatDec f s
  | .hcpy f => Sys2Proof.Machine.execHcpy f s
  | .hseal f => Sys2Proof.Machine.execHseal f s
  | .hwait f => Sys2Proof.Machine.execHwait f s
  | .htest f => Sys2Proof.Machine.execHtest f s
  | .hmc f => Sys2Proof.Machine.execHmc f s
  | .hrun f => Sys2Proof.Machine.execHrun f s
  | .xcpy f => Sys2Proof.Machine.execXcpy f s
  | .mtask f => Sys2Proof.Machine.execMtask f s
  | .mwait f => Sys2Proof.Machine.execMwait f s
  | .mwaitSt f => Sys2Proof.Machine.execMwaitSt f s
  | .maccReg f => Sys2Proof.Machine.execMaccReg f s
  | .maccSpad f => Sys2Proof.Machine.execMaccSpad f s
  | .operandLogReplay id => Sys2Proof.Machine.execOperandLogReplay id s
  | .loadDataReturn id piece => Sys2Proof.Machine.execLoadDataReturn id piece s
  | .homeItemApply cl id => Sys2Proof.Machine.execHomeItemApply cl id s
  | .starved launch wid => Sys2Proof.Machine.execStarved launch wid s
  | .promotion launch wid => Sys2Proof.Machine.execPromotion launch wid s
  | .preemptionRequest launch gang => Sys2Proof.Machine.execPreemptionRequest launch gang s
  | .reconvergedSave launch gang => Sys2Proof.Machine.execReconvergedSave launch gang s
  | .fullSave launch gang => Sys2Proof.Machine.execFullSave launch gang s
  | .handlerTimeout launch gang => Sys2Proof.Machine.execHandlerTimeout launch gang s
  | .gangRestore launch places => Sys2Proof.Machine.execGangRestore launch places s
  | .quantumExpiry launch gang => Sys2Proof.Machine.execQuantumExpiry launch gang s
  | .launchDoorbell q staged => Sys2Proof.Machine.execLaunchDoorbell q staged s
  | .launchAccept q => Sys2Proof.Machine.execLaunchAccept q s
  | .schedulerGrant die q places => Sys2Proof.Machine.execSchedulerGrant die q places s
  | .gangRetire launch gang => Sys2Proof.Machine.execGangRetire launch gang s
  | .lostCompletionClear part => Sys2Proof.Machine.execLostCompletionClear part s
  | .lend lender part sub clusters => Sys2Proof.Machine.execLend lender part sub clusters s
  | .recallLent lender clusters => Sys2Proof.Machine.execRecallLent lender clusters s
  | .partitionTeardown part => Sys2Proof.Machine.execPartitionTeardown part s
  | .writeBudgetWindow die => Sys2Proof.Machine.execWriteBudgetWindow die s
  | .droopTrip cl => Sys2Proof.Machine.execDroopTrip cl s
  | .droopFreezeEnd cl => Sys2Proof.Machine.execDroopFreezeEnd cl s
  | .islandSkim cl quarter island => Sys2Proof.Machine.execIslandSkim cl quarter island s
  | .islandWake cl quarter island => Sys2Proof.Machine.execIslandWake cl quarter island s
  | .blockFetch cl id => Sys2Proof.Machine.execBlockFetch cl id s
  | .merge cl id => Sys2Proof.Machine.execMerge cl id s
  | .hawkDelivery cl copy => Sys2Proof.Machine.execHawkDelivery cl copy s
  | .multicastAccept cl copy entry => Sys2Proof.Machine.execMulticastAccept cl copy entry s
  | .copyComplete cl copy => Sys2Proof.Machine.execCopyComplete cl copy s
  | .taskStart cl eng => Sys2Proof.Machine.execTaskStart cl eng s
  | .taskStep cl eng upset => Sys2Proof.Machine.execTaskStep cl eng upset s
  | .scaleRead cl eng => Sys2Proof.Machine.execScaleRead cl eng s
  | .scrimRead port => Sys2Proof.Machine.execScrimRead port s
  | .scrimWrite port => Sys2Proof.Machine.execScrimWrite port s
  | .scrimAtomic port => Sys2Proof.Machine.execScrimAtomic port s
  | .scrimAcquire port => Sys2Proof.Machine.execScrimAcquire port s
  | .scrimRelease port => Sys2Proof.Machine.execScrimRelease port s
  | .scrimWithdrawal port => Sys2Proof.Machine.execScrimWithdrawal port s
  | .scrimReadResponse port => Sys2Proof.Machine.execScrimReadResponse port s
  | .scrimWriteAck port => Sys2Proof.Machine.execScrimWriteAck port s
  | .scrimAtomicResponse port => Sys2Proof.Machine.execScrimAtomicResponse port s
  | .scrimSyncResponse port => Sys2Proof.Machine.execScrimSyncResponse port s
  | .flitReceive port flit => Sys2Proof.Machine.execFlitReceive port flit s
  | .idleFlit port => Sys2Proof.Machine.execIdleFlit port s
  | .laneFailure port lanes => Sys2Proof.Machine.execLaneFailure port lanes s
  | .shedResume port ack => Sys2Proof.Machine.execShedResume port ack s
  | .retrain port pass => Sys2Proof.Machine.execRetrain port pass s
  | .hostMemRead addr len => Sys2Proof.Machine.execHostMemRead addr len s
  | .hostMemWrite addr data => Sys2Proof.Machine.execHostMemWrite addr data s
  | .queueItemWrite q size item => Sys2Proof.Machine.execQueueItemWrite q size item s
  | .heldItemReoffer q => Sys2Proof.Machine.execHeldItemReoffer q s
  | .hotnessNotification stack block slot => Sys2Proof.Machine.execHotnessNotification stack block slot s
  | .faultCompletion part w => Sys2Proof.Machine.execFaultCompletion part w s
  | .invalidatePage part cmd => Sys2Proof.Machine.execInvalidatePage part cmd s
  | .invalidateContext part cmd => Sys2Proof.Machine.execInvalidateContext part cmd s
  | .invalidatePartition part cmd => Sys2Proof.Machine.execInvalidatePartition part cmd s
  | .invalidationComplete part => Sys2Proof.Machine.execInvalidationComplete part s
  | .ownershipRelease part cmd => Sys2Proof.Machine.execOwnershipRelease part cmd s
  | .ownershipAcquire part cmd => Sys2Proof.Machine.execOwnershipAcquire part cmd s
  | .ownershipComplete part => Sys2Proof.Machine.execOwnershipComplete part s
  | .configCommit part sub => Sys2Proof.Machine.execConfigCommit part sub s
  | .scommit part => Sys2Proof.Machine.execScommit part s
  | .ownerTableWrite o v => Sys2Proof.Machine.execOwnerTableWrite o v s
  | .queueTableWrite q v => Sys2Proof.Machine.execQueueTableWrite q v s
  | .launchQueueTableWrite q v => Sys2Proof.Machine.execLaunchQueueTableWrite q v s
  | .registerWrite off size v => Sys2Proof.Machine.execRegisterWrite off size v s
  | .faultReportClear part => Sys2Proof.Machine.execFaultReportClear part s
  | .telemetrySample len v => Sys2Proof.Machine.execTelemetrySample len v s
  | .telemetryLost => Sys2Proof.Machine.execTelemetryLost s
  | .shedFreeze launch gang => Sys2Proof.Machine.execShedFreeze launch gang s
  | .thermalCritical => Sys2Proof.Machine.execThermalCritical s
  | .thermalAbort => Sys2Proof.Machine.execThermalAbort s
  | .railsReturn => Sys2Proof.Machine.execRailsReturn s
  | .ueFound block => Sys2Proof.Machine.execUeFound block s
  | .reloadComplete block => Sys2Proof.Machine.execReloadComplete block s
  | .scanDrain cl => Sys2Proof.Machine.execScanDrain cl s
  | .scanPass cl pass => Sys2Proof.Machine.execScanPass cl pass s
  | .subarrayRefresh stack channel bank subarray => Sys2Proof.Machine.execSubarrayRefresh stack channel bank subarray s
  | .rowThrottle part stack row => Sys2Proof.Machine.execRowThrottle part stack row s
  | .refreshInterval => Sys2Proof.Machine.execRefreshInterval s
  | .deviceReset => Sys2Proof.Machine.execDeviceReset s
  | .imageLoad len => Sys2Proof.Machine.execImageLoad len s
  | .featureCommit => Sys2Proof.Machine.execFeatureCommit s
  | .functionReady bit => Sys2Proof.Machine.execFunctionReady bit s
  | .readyTimeout => Sys2Proof.Machine.execReadyTimeout s
  | .checkpoint => Sys2Proof.Machine.execCheckpoint s
  | .restore => Sys2Proof.Machine.execRestore s
  | .checkpointDone => Sys2Proof.Machine.execCheckpointDone s
  | .linkDown => Sys2Proof.Machine.execLinkDown s
  | .powerAboveRating cl mhz => Sys2Proof.Machine.execPowerAboveRating cl mhz s
  | .dynamicAddressAssignment addr => Sys2Proof.Machine.execDynamicAddressAssignment addr s

end Sys2Proof.Machine
end

