-- ==== Sys2Proof/Machine/Step.lean ====
section
/-!
DEFINITION. One step of the machine: the next move of the agenda, or of the default policy when it is empty; and the
placing of one instruction where the next step fetches it.
-/

namespace Sys2Proof.Machine

/-- Carry out one move. -/
def moveStep (s : State) (m : Move) : Host.Outcome State Fault Refusal :=
  match m with
  | .issue cl q =>
    match s.slot cl q with
    | .run i s1 => exec i s1
    | .done s1 => .next s1
  | .resume k =>
    match s.again k with
    | .run i s1 => exec i s1
    | .done s1 => .next s1
  | .cycles cl n => .next (s.passCycles cl n)
  | .tick die n => .next (s.passNs die n)
  | .event i => if i.shape.isNone then exec i s else .next s
  | .barRead off size => .next (s.hostBarRead off size)
  | .flaw x => .next (s.flaw x)
  | .corrected => .next s.correct
  | .activate part stack row => .next (s.activate part stack row)

/-- One step: what can be done at once is done, then one agent moves. -/
def step (s : State) : Host.Outcome State Fault Refusal :=
  let s0 := s.settle
  match s0.agenda with
  | m :: rest => moveStep { s0 with agenda := rest } m
  | [] =>
    match s0.defaultMove with
    | some m => moveStep { s0 with turn := s0.turn + 1 } m
    | none => .next s0

/-- `s` with one instruction placed where the next step fetches it (notes/assumptions/7.md). -/
def State.withFetchWord (s : State) (nbits w : Nat) : State := s.placeWords (tableWords nbits w)

end Sys2Proof.Machine
end

