-- ==== Sys2Proof/Safety.lean ====
section
/-!
DEFINITION. What the statements mean by a safe step and by an issue that completes: the outcome is a next state, the
memories keep their canonical form, no thread is to be killed, and every thread of the run passes the checks of orders 2
to 5 (04_instruction_formats.md R96).
-/

namespace Sys2Proof.Machine

/-- The machine's memories and maps are in canonical form. -/
abbrev State.MemOk (s : State) : Prop :=
  Cells.wf s.mem = true ∧ Cells.wf s.hostMem = true ∧ Cells.wf s.poison = true

/-- The outcome is a next state. -/
def Answers (o : Host.Outcome State Fault Refusal) : Prop := ∃ t, o = .next t

/-- No gang waits to be killed (06 R150; 21 R393). -/
abbrev State.Calm (s : State) : Prop := ∀ p ∈ s.threads, p.2.dying = none

/-- The threads of a run, each once, issue an instruction that no check of orders 2 to 5 refuses for any of them
(02 R45, R46; 04 R96). -/
structure Issues (s : State) (i : Instr) : Prop where
  once : s.run.Nodup
  calm : s.Calm
  pass : ∀ k ∈ s.run, ∃ t, s.threads.find k = some t ∧ precheck (s.env k) t i = none

/-- One thread alone issues an instruction, passes the checks of orders 2 to 5, and its guard is true. -/
structure Alone (s : State) (k : TKey) (t : Thread) (i : Instr) : Prop where
  run : s.run = [k]
  here : s.threads.find k = some t
  calm : s.Calm
  pass : precheck (s.env k) t i = none
  guard : t.guard (guardOf i) = true

/-- Nothing but threads of the run changes, and each of them becomes what `r` says. -/
structure RunBecomes (s u : State) (r : Env → Thread → Thread → Prop) : Prop where
  rest : u = { s with threads := u.threads }
  others : ∀ k, k ∉ s.run → u.threads.find k = s.threads.find k
  each : ∀ k ∈ s.run, ∀ t, s.threads.find k = some t → ∃ t', u.threads.find k = some t' ∧ r (s.env k) t t'

/-- The registers of a thread after a write of `v` to `n` registers from window register `d`: every other physical
register is as before, and nothing is written with W = 1 (04 R81 to R83). -/
def WritesRegs (e : Env) (t t' : Thread) (w : Bool) (d : BitVec 7) (n : Nat) (v : Nat) : Prop :=
  if w then t'.regs = t.regs
  else
    (∀ j, j < n → t'.regs.get (t.phys e (d.toNat + j)) = BitVec.ofNat 32 (v / 2 ^ (32 * j)))
      ∧ ∀ p, (∀ j, j < n → p ≠ t.phys e (d.toNat + j)) → t'.regs.get p = t.regs.get p

/-- A thread that went on past a short instruction: only its PC, registers, predicates, latches and chain may have
changed; `v` is in bl0, and each older latch one place further (04 R89). -/
structure ShortDone (i : Instr) (v : Word128) (t t' : Thread) : Prop where
  same : t' = { t with pc := t'.pc, regs := t'.regs, preds := t'.preds, latches := t'.latches, chain := t'.chain,
                       wait := Wait.idle, blockCtr := 0 }
  pc : t'.pc = t.pc + BitVec.ofNat 64 i.bytes
  latches : t'.latches = (v :: t.latches).take 8

/-- A short instruction whose result `v` goes to `n` registers from D: a guard-true thread writes them and nothing else,
a guard-false one writes nothing and puts 0 in bl0 (04 R84, R89). -/
def ShortResult (i : Instr) (w : Bool) (g : BitVec 3) (d : BitVec 7) (n : Nat) (v : Env → Thread → Nat) : Prop :=
  ∀ s, Issues s i → s.chainTrap i = false →
    ∃ u, exec i s = .next u ∧ RunBecomes s u fun e t t' =>
      if t.guard g then
        ShortDone i (BitVec.ofNat 128 (v e t)) t t' ∧ t'.preds = t.preds ∧ WritesRegs e t t' w d n (v e t)
      else ShortDone i 0 t t' ∧ t'.preds = t.preds ∧ t'.regs = t.regs

/-- A short instruction whose result `v` goes to predicates through a descriptor (04 R86, R89). -/
def ShortPred (i : Instr) (w : Bool) (g : BitVec 3) (p : PredD) (v : Env → Thread → Bool) : Prop :=
  ∀ s, Issues s i → s.chainTrap i = false →
    ∃ u, exec i s = .next u ∧ RunBecomes s u fun e t t' =>
      if t.guard g then
        ShortDone i (if v e t then 1 else 0) t t' ∧ t'.regs = t.regs
          ∧ (∀ n, n < 8 → t'.pred n =
              (if w = false ∧ n ≠ 0 ∧ n = p.n.toNat then v e t
               else if w = false ∧ p.c = true ∧ n ≠ 0 ∧ n = p.n.toNat ^^^ 1 then !(v e t) else t.pred n))
      else ShortDone i 0 t t' ∧ t'.preds = t.preds ∧ t'.regs = t.regs

/-- A thread that went on past an instruction that is not short: only its PC and registers may have changed; any chain
ends, and the latches stay (04 R89, R90). -/
def LongDone (i : Instr) (t t' : Thread) : Prop :=
  t' = { t with pc := t.pc + BitVec.ofNat 64 i.bytes, regs := t'.regs, chain := none, wait := Wait.idle, blockCtr := 0,
                kept := none, prog := none, todo := none }

/-- An instruction that is not short whose result `v` goes to `n` registers from D, each thread for itself. -/
def LongResult (i : Instr) (w : Bool) (g : BitVec 3) (d : BitVec 7) (n : Nat) (v : Env → Thread → Nat) : Prop :=
  ∀ s, Issues s i →
    ∃ u, exec i s = .next u ∧ RunBecomes s u fun e t t' =>
      LongDone i t t' ∧ if t.guard g then WritesRegs e t t' w d n (v e t) else t'.regs = t.regs

/-- What a trap leaves (06 R151, R156, R157): the handler's address in the PC, where the trap stands in `%tpc`, the window
base in `%twb`, `%fpm` at 0, no latch and no chain, the registers and predicates as they were, and the fields of
`%tcause` and `%tinfo`. -/
structure EnteredTrap (e : Env) (t t' : Thread) (tr : Trap) (w : TrapAt) : Prop where
  handler : t'.inHandler = true
  pc : t'.pc = e.rcd.tvec
  tpc : t'.tpc = w.tpc
  twb : t'.twb = BitVec.ofNat 32 t.base
  fpm : t'.fpm = 0
  latches : t'.latches = []
  chain : t'.chain = none
  regs : t'.regs = t.regs
  preds : t'.preds = t.preds
  cause : t'.tcause.extractLsb' 0 8 = tr.cause
  sub : t'.tcause.extractLsb' 8 6 = BitVec.ofNat 6 tr.sub
  chainBit : t'.tcause.getLsbD 14 = w.chain
  deferBit : t'.tcause.getLsbD 15 = w.defer
  psave : t'.tcause.extractLsb' 16 7 = t.preds.extractLsb' 1 7
  fpmsave : t'.tcause.extractLsb' 23 9 = t.fpm.extractLsb' 0 9
  value : t'.tinfo.extractLsb' 64 64 = tr.value
  degr : t'.tinfo.extractLsb' 56 8 = e.degr
  ipc : t'.tinfo.extractLsb' 0 55 = w.ipc.extractLsb' 2 55

/-- A thread that traps enters its handler: it has a trap reserve, runs no handler, and no earlier load or logged access
of it is outstanding (06 R149 to R151). -/
abbrev Traps (e : Env) (t : Thread) : Prop := e.rcd.trsv = true ∧ t.inHandler = false ∧ e.drain = false

/-- The threads of a run belong to one crew, with their ranks in it (02 R46). -/
structure CrewIssues (s : State) (i : Instr) (c : CKey) : Prop where
  issues : Issues s i
  crew : ∀ k ∈ s.run, (s.env k).ckey = c
  ranks : (s.run.map fun k => (s.env k).crank).Nodup

/-- The thread with crew rank `r` takes part: it is in the run and its guard is true (10 R237). -/
def Participates (s : State) (g : BitVec 3) (r : Nat) (e : Env) (t : Thread) : Prop :=
  ∃ k ∈ s.run, s.threads.find k = some t ∧ e = s.env k ∧ e.crank = r ∧ t.guard g = true

/-- The participant with crew rank `r`, if there is one. -/
def State.partAt (s : State) (g : BitVec 3) (r : Nat) : Option (Env × Thread) :=
  (s.run.find? fun k => (s.env k).crank == r && (match s.threads.find k with | some t => t.guard g | none => false)).bind
    fun k => (s.threads.find k).map fun t => (s.env k, t)

/-- An instruction of a crew whose 32-bit result goes to D: the participants write it, the other threads of the run go
on, and nothing else changes (10 R237, R239 to R244). -/
def CrewResult (i : Instr) (w : Bool) (g : BitVec 3) (d : BitVec 7) (v : State → Env → Thread → Word32 → Prop) : Prop :=
  ∀ s c, CrewIssues s i c →
    ∃ u, exec i s = .next u ∧ RunBecomes s u fun e t t' =>
      LongDone i t t' ∧
        if t.guard g then ∃ x, v s e t x ∧ WritesRegs e t t' w d 1 x.toNat else t'.regs = t.regs

/-- A short instruction of two 32-bit sources, its 32-bit result `v`. -/
def Result32 (i : Instr) (f : FDAB) (v : Word32 → Word32 → Word32) : Prop :=
  ShortResult i f.w f.g f.d 1 fun e t => (v (src32 e t f.a) (src32 e t f.b)).toNat

/-- As `Result32`, D read as a third source. -/
def Result32D (i : Instr) (f : FDAB) (v : Word32 → Word32 → Word32 → Word32) : Prop :=
  ShortResult i f.w f.g f.d 1 fun e t => (v (src32 e t f.a) (src32 e t f.b) (t.reg e f.d.toNat)).toNat

/-- A short instruction of two 64-bit sources, its 64-bit result `v`. -/
def Result64 (i : Instr) (f : FDAB) (v : Word64 → Word64 → Word64) : Prop :=
  ShortResult i f.w f.g f.d 2 fun e t => (v (src64 e t f.a) (src64 e t f.b)).toNat

/-- A short instruction of a 64-bit and a 32-bit source, its 64-bit result `v`. -/
def Result6432 (i : Instr) (f : FDAB) (v : Word64 → Word32 → Word64) : Prop :=
  ShortResult i f.w f.g f.d 2 fun e t => (v (src64 e t f.a) (src32 e t f.b)).toNat

/-- A short instruction of two numbers of a format of 32 bits, under the thread's mode (08 R191). -/
def ResultF32 (i : Instr) (f : FDAB) (v : Fpm → Word32 → Word32 → Word32) : Prop :=
  ShortResult i f.w f.g f.d 1 fun e t => (v (Fpm.of t.fpm) (src32 e t f.a) (src32 e t f.b)).toNat

/-- A short instruction of two binary64 numbers, under the thread's mode. -/
def ResultF64 (i : Instr) (f : FDAB) (v : Fpm → Word64 → Word64 → Word64) : Prop :=
  ShortResult i f.w f.g f.d 2 fun e t => (v (Fpm.of t.fpm) (srcF64 e t f.a) (srcF64 e t f.b)).toNat

/-- Everything that holds bytes of memory is as before: homes, the host's memory, marks, blocks with their scratchpads. -/
def SameMemory (s u : State) : Prop :=
  u.mem = s.mem ∧ u.hostMem = s.hostMem ∧ u.poison = s.poison ∧ u.blocks = s.blocks

/-- Every byte of home memory outside `[a, a + n)` reads as before. -/
def MemoryOutside (s u : State) (a n : Nat) : Prop := ∀ b, b < a ∨ a + n ≤ b → u.mem.get b = s.mem.get b

/-- Only cluster `cl` of the clusters may have changed. -/
def OneCluster (s u : State) (cl : Nat) : Prop := ∀ c, c ≠ cl → u.clusters.find c = s.clusters.find c

/-- A thread released from where it waited, at `pc`. -/
def Released (t t' : Thread) (pc : Word64) : Prop := t' = { t with pc := pc, chain := none, wait := Wait.idle, blockCtr := 0 }

/-- The barrier instance after one more arrival of thread `k` with a count. -/
def Barrier.arrivedOnce (x : Barrier) (k : TKey) (n : Nat) : Barrier :=
  { phase := x.phase, arrivals := x.arrivals + 1, expected := some n, arrived := k :: x.arrived }

/-- One more arrival of `k` completes the phase: the count is reached, or with count 0 every thread of the scope that has
not exited has arrived, in launch scope those of gangs not started yet among them (10 R247). -/
abbrev Completes (s : State) (b : BarKey) (x : Barrier) (k : TKey) (n : Nat) : Prop :=
  (n ≠ 0 ∧ x.arrivals + 1 = n)
    ∨ (n = 0 ∧ (b.scope = .launch → ∀ l, s.launches.find b.launch = some l → l.pending = [])
        ∧ ∀ p ∈ s.threads, inScope (s.recOf k.launch) b p.1 = true → p.1 = k ∨ p.1 ∈ x.arrived)

/-- The place of a thread's crew among the crews of its cluster that wait with it: how many of them come before it in the order of
10 R249. -/
def State.waveNo (s : State) (ks : List TKey) (k : TKey) : Nat :=
  ((s.crewOrder (s.env k).cl ks).findIdx? fun c => c == (s.env k).ckey).getD 0

/-- A thread that the completion of a phase lets go, where `ks` wait for it: its crew, number m in the order of its cluster's waiting
crews, leaves in wave m / width (10 R249), or parks where the launch's class is shed and the scope is above the crew (10 R250). -/
def LetGo (s : State) (b : BarKey) (ks : List TKey) (k : TKey) (t t' : Thread) : Prop :=
  if s.shed (s.recOf b.launch).prio = true ∧ b.scope ≠ .crew then t' = { t with wait := { kind := .parked, counts := false } }
  else
    let c := s.cluster (s.env k).cl
    t' = { t with wait := { kind := .wave (c.cyc + c.waveSpace * (s.waveNo ks k / c.waveWidth)) (b.scope != .crew), counts := true } }

/-- What the completion of a phase leaves: the next phase with no arrival and no count, and every thread that waits for
this one let go, where `ks` wait for it (10 R247, R249, R250). -/
def PhaseOver (s u : State) (b : BarKey) (x : Barrier) (ks : List TKey) (k : TKey) : Prop :=
  u.barriers.find b = some { phase := x.phase + 1, arrivals := 0, expected := none, arrived := [] }
  ∧ (∀ b', b' ≠ b → u.barriers.find b' = s.barriers.find b')
  ∧ (∀ k2 t2, k2 ≠ k → s.threads.find k2 = some t2 →
      (t2.wait.kind = .bar b x.phase → ∃ t', u.threads.find k2 = some t' ∧ LetGo s b ks k2 t2 t')
      ∧ ((∀ p ∈ s.threads, p.1 = k2 → p.2.wait.kind ≠ .bar b x.phase) → u.threads.find k2 = some t2))
  ∧ u.gangs = s.gangs
  ∧ SameMemory s u

/-- The object at home address `a` holds `o`, and every byte outside its 64 is as before. -/
def ObjectBecomes (s u : State) (a o : Nat) : Prop :=
  u.mem.bytes a 64 = toBytes 64 o ∧ MemoryOutside s u a 64 ∧ u.hostMem = s.hostMem ∧ u.blocks = s.blocks

/-- A store is queued: one entry for each of its pieces stands at the end of its cluster's queue, together they hold its
bytes, its crew's counter rises by their number, and its thread becomes `t'`; nothing else of the work changes (05 R110). -/
structure StoreQueued (s u : State) (e : Env) (t' : Thread) (ps : List Piece0) (bytes : List Byte) (strm : BitVec 2) : Prop where
  queue : ∃ xs : List SqEntry, (u.cluster e.cl).sq = (s.cluster e.cl).sq ++ xs
    ∧ xs.map (fun x => (x.loc, x.va, x.n)) = ps
    ∧ (∀ x ∈ xs, x.key = e.key ∧ x.strm = some strm ∧ x.counted = true ∧ ∃ bs, x.op = .write bs 0)
    ∧ (xs.flatMap fun x => match x.op with | .write bs _ => bs | _ => []) = bytes
  crew : ∀ w, s.crews.find e.ckey = some w → u.crews.find e.ckey = some { w with unacked := w.unacked + ps.length }
  threads : u.threads = s.threads.set e.key t'
  others : OneCluster s u e.cl
  mem : SameMemory s u
  loads : u.loads = s.loads
  log : u.log = s.log

/-- An atomic is queued with the load that takes its old value to the first physical register `dst` (09 R220; 06 R424). -/
structure AtomicQueued (s u : State) (e : Env) (t t' : Thread) (p : Piece0) (wide : Bool) (op : AtomOp) (b cmp : Nat)
    (dst : Option Nat) (strm : BitVec 2) : Prop where
  queue : ∃ (x : SqEntry) (l : PendLoad), (u.cluster e.cl).sq = (s.cluster e.cl).sq ++ [x] ∧ u.loads = s.loads ++ [l]
    ∧ x.loc = p.1 ∧ x.n = p.2.2 ∧ x.key = e.key ∧ x.strm = some strm ∧ x.op = .atomic op wide b cmp l.id
    ∧ l.key = e.key ∧ l.pc = t.pc ∧ l.dst = dst ∧ l.atomic = true ∧ l.ty = (if wide then .b64 else .b32)
  threads : u.threads = s.threads.set e.key t'
  others : OneCluster s u e.cl
  mem : SameMemory s u
  log : u.log = s.log

/-- A `bflush` of the blocks that `named` names: none of them is left in the cluster's block store, and the patch of each dirty one,
with its mask and values, stands in the store queue among those waited for (14 R290, R297). -/
structure AllFlushed (s u : State) (cl : Nat) (named : BsBlock → Bool) (snap : List Nat) : Prop where
  gone : ∀ b ∈ (u.cluster cl).store, named b = false
  others : ∀ b, named b = false → (b ∈ (u.cluster cl).store ↔ b ∈ (s.cluster cl).store)
  sent : ∀ b ∈ (s.cluster cl).store, named b = true → b.dirty ≠ 0 → ∃ y ∈ (u.cluster cl).sq, y.id ∈ snap ∧ ∃ p,
    y.op = .patch p ∧ p.ofTag b = true ∧ p.mask = b.dirty ∧ p.vals = b.vals ∧ p.forced = none

/-- A thread that stalls at its instruction. -/
def Stalled (t : Thread) (counts : Bool) : Thread :=
  { t with wait := { kind := .again, counts := counts }, chain := none, kept := none, prog := none }

/-! ### Scrim -/

/-- A port after the transaction at its head has left and its answer has been put behind the unsent ones (17 R338). -/
def State.answered (s : State) (port : Nat) (x : ScrimTx) (kind sub : Nat) (data : List Byte) : Port :=
  ({ s.port port with inbox := (s.port port).inbox.tail } : Port).put
    (txHeader (txAddr x.hdr) s.mgmt.image.dev (txTag x.hdr) kind sub data.length) data

/-- A port after an answer to this device has been taken: it leaves, and its tag is free (17 R338). -/
def Port.answerTaken (p : Port) (x : ScrimTx) : Port := { p with inbox := p.inbox.tail, tags := p.tags.erase (txTag x.hdr) }

/-- Each hotness counter of the blocks of a span that counts this accessor has risen by 1, up to 65,535, and no other has
changed (06 R139). -/
def HotCounted (s u : State) (who : Option Nat) (a n : Nat) : Prop :=
  ∀ b k, (u.stack (stackOf (b * 65536))).hot.get (b, k) 0 =
    if b ∈ blocksOf a n ∧ k ∈ s.hotSlots who then min 65535 ((s.stack (stackOf (b * 65536))).hot.get (b, k) 0 + 1)
    else (s.stack (stackOf (b * 65536))).hot.get (b, k) 0

/-- Every home slice of a span takes writes. -/
abbrev State.homesUp (s : State) (a n : Nat) : Prop := ∀ b, a ≤ b → b < a + n → s.homeFailed b = false

end Sys2Proof.Machine
end

