-- ==== Sys2Proof/Certificates/Slice0/Obligations.lean ====
section
/-!
DEFINITION. The statements for the provers: what the rules R<n> of spec/ say an instruction or the machine does, with
what each leaves unchanged.
-/

open Sys2Proof Sys2Proof.Machine

/-! ### Integer and address instructions (07) -/

/-- The 32-bit integer instructions, the 64-bit and address instructions, `bitc` and `mov` complete in every run: each
guard-true thread has its result in D and in bl0, each guard-false one has 0 in bl0, and nothing else changes (07 R174 to
R176, R179; 04 R82, R84, R89). -/
def Obligations.IntegerResults : Prop :=
  (∀ f : FDAB,
    Result32 (.add f) f (fun a b => a + b) ∧ Result32 (.sub f) f (fun a b => a - b)
    ∧ Result32 (.mul f) f (fun a b => a * b) ∧ Result32D (.mad f) f (fun a b d => a * b + d)
    ∧ Result32 (.mulhs f) f mulhsOp ∧ Result32 (.mulhz f) f mulhzOp
    ∧ Result32 (.and f) f (fun a b => a &&& b) ∧ Result32 (.or f) f (fun a b => a ||| b)
    ∧ Result32 (.xor f) f (fun a b => a ^^^ b) ∧ Result32 (.andn f) f (fun a b => a &&& ~~~b)
    ∧ Result32 (.mins f) f (fun a b => if b.slt a then b else a) ∧ Result32 (.minz f) f (fun a b => if b.ult a then b else a)
    ∧ Result32 (.maxs f) f (fun a b => if a.slt b then b else a) ∧ Result32 (.maxz f) f (fun a b => if a.ult b then b else a)
    ∧ Result32 (.shl f) f shlOp ∧ Result32 (.shrs f) f shrsOp ∧ Result32 (.shrz f) f shrzOp ∧ Result32 (.rot f) f rotOp
    ∧ Result32 (.bfx f) f bfxOp ∧ Result32D (.bfi f) f bfiOp)
  ∧ ((∀ f : FBitc, f.op.wideD = false →
    ShortResult (.bitc f) f.w f.g f.d 1 fun e t => (bitc32 f.op (src32 e t f.a) (src64 e t f.a)).toNat)
  ∧ (∀ f : FBitc, f.op.wideD = true →
    ShortResult (.bitc f) f.w f.g f.d 2 fun e t => (bitc64 f.op (src64 e t f.a)).toNat)
  ∧ ∀ f : FDA, ShortResult (.mov f) f.w f.g f.d 1 fun e t => (src32 e t f.a).toNat)
  ∧ (∀ f : FDAB,
    Result64 (.add64 f) f (fun a b => a + b) ∧ Result64 (.sub64 f) f (fun a b => a - b)
    ∧ Result64 (.mul64 f) f (fun a b => a * b)
    ∧ Result6432 (.shl64 f) f (fun a b => if 64 ≤ b.toNat then 0 else a <<< b.toNat)
    ∧ Result6432 (.shrz64 f) f (fun a b => if 64 ≤ b.toNat then 0 else a >>> b.toNat)
    ∧ Result6432 (.shrs64 f) f (fun a b => a.sshiftRight (min b.toNat 63))
    ∧ Result6432 (.lea f) f (fun a b => a + b.signExtend 64))

/-- What the named integer operations compute, in exact arithmetic on naturals and integers, and what the counts of `bitc`
are: the leading and trailing zeros bound a non-zero value, a zero has the width (07 R174 to R176). -/
def Obligations.IntegerOperations : Prop :=
  (∀ a b d : Word32,
    (mulhsOp a b).toInt = (a.toInt * b.toInt) / 2 ^ 32
    ∧ (mulhzOp a b).toNat = a.toNat * b.toNat / 2 ^ 32
    ∧ (shlOp a b).toNat = (if 32 ≤ b.toNat then 0 else a.toNat * 2 ^ b.toNat % 2 ^ 32)
    ∧ (shrzOp a b).toNat = (if 32 ≤ b.toNat then 0 else a.toNat / 2 ^ b.toNat)
    ∧ (shrsOp a b).toInt = a.toInt / 2 ^ min b.toNat 31
    ∧ (∀ k, k < 32 → (rotOp a b).getLsbD ((k + b.toNat) % 32) = a.getLsbD k)
    ∧ (∀ k, k < 32 → (bfiOp a b d).getLsbD k =
        (if b.toNat % 32 ≤ k ∧ k < b.toNat % 32 + fieldLen b then a.getLsbD (k - b.toNat % 32) else d.getLsbD k))
    ∧ (∀ k, k < 32 → (bfxOp a b).getLsbD k =
        (if k < fieldLen b then a.getLsbD (b.toNat % 32 + k)
         else (b.getLsbD 16 && decide (0 < fieldLen b) && a.getLsbD (b.toNat % 32 + fieldLen b - 1)))))
  ∧ (∀ a : Word32,
    (a ≠ 0 → clzOp a < 32 ∧ 2 ^ (31 - clzOp a) ≤ a.toNat ∧ a.toNat < 2 ^ (32 - clzOp a))
    ∧ (a ≠ 0 → a.getLsbD (ctzOp a) = true ∧ ∀ k, k < ctzOp a → a.getLsbD k = false)
    ∧ clzOp (0 : Word32) = 32 ∧ ctzOp (0 : Word32) = 32
    ∧ ∀ k, k < 32 → (brevOp a).getLsbD k = a.getLsbD (31 - k))

/-- The compares write the truth value of their condition through the descriptor, with C its negation to the other
predicate of the pair (04 R86, R87; 07 R177; 08 R200). -/
def Obligations.CompareResults : Prop :=
  ∀ f : FCmp,
    ShortPred (.cmps f) f.w f.g f.p (fun e t => condS f.cond (src32 e t f.a) (src32 e t f.b))
    ∧ ShortPred (.cmpz f) f.w f.g f.p (fun e t => condZ f.cond (src32 e t f.a) (src32 e t f.b))
    ∧ ShortPred (.cmp64 f) f.w f.g f.p (fun e t =>
        if f.cond = 4 ∨ f.cond = 5 ∨ f.cond = 7 then cond64 f.cond (srcZ64 e t f.a) (srcZ64 e t f.b)
        else cond64 f.cond (src64 e t f.a) (src64 e t f.b))
    ∧ ShortPred (.fcmpF32 f) f.w f.g f.p (fun e t =>
        condF f.cond ((fin (Fpm.of t.fpm) Fmt.f32 (src32 e t f.a).toNat).cmp (fin (Fpm.of t.fpm) Fmt.f32 (src32 e t f.b).toNat)))
    ∧ ShortPred (.fcmpF64 f) f.w f.g f.p (fun e t =>
        condF f.cond ((fin (Fpm.of t.fpm) Fmt.f64 (srcF64 e t f.a).toNat).cmp (fin (Fpm.of t.fpm) Fmt.f64 (srcF64 e t f.b).toNat)))

/-- What the conditions mean: as orders of integers (`s`), of naturals (`z`), as bit tests, and of floating values, where a
NaN makes every condition but ne and unordered false (04 R87). -/
def Obligations.ConditionMeanings : Prop :=
  (∀ a b : Word32,
    (condS 0 a b = true ↔ a.toInt = b.toInt) ∧ (condS 1 a b = true ↔ a.toInt ≠ b.toInt)
    ∧ (condS 2 a b = true ↔ a.toInt < b.toInt) ∧ (condS 3 a b = true ↔ a.toInt ≤ b.toInt)
    ∧ (condS 4 a b = true ↔ b.toInt < a.toInt) ∧ (condS 5 a b = true ↔ b.toInt ≤ a.toInt)
    ∧ (condZ 2 a b = true ↔ a.toNat < b.toNat) ∧ (condZ 3 a b = true ↔ a.toNat ≤ b.toNat)
    ∧ (condZ 4 a b = true ↔ b.toNat < a.toNat) ∧ (condZ 5 a b = true ↔ b.toNat ≤ a.toNat)
    ∧ (condS 6 a b = true ↔ ∃ k, a.getLsbD k = true ∧ b.getLsbD k = true)
    ∧ (condS 7 a b = true ↔ ∀ k, a.getLsbD k = true → b.getLsbD k = false))
  ∧ (∀ a b : Word32, (condZ 0 a b = true ↔ a = b) ∧ (condZ 1 a b = true ↔ a ≠ b)
    ∧ (condZ 6 a b = true ↔ a &&& b ≠ 0) ∧ (condZ 7 a b = true ↔ a &&& b = 0))
  ∧ (∀ a b : Word64, (cond64 0 a b = true ↔ a = b) ∧ (cond64 1 a b = true ↔ a ≠ b)
    ∧ (cond64 2 a b = true ↔ a.toInt < b.toInt) ∧ (cond64 3 a b = true ↔ a.toInt ≤ b.toInt)
    ∧ (cond64 4 a b = true ↔ a.toNat < b.toNat) ∧ (cond64 5 a b = true ↔ a.toNat ≤ b.toNat)
    ∧ (cond64 6 a b = true ↔ b.toInt < a.toInt) ∧ (cond64 7 a b = true ↔ b.toNat < a.toNat))
  ∧ ∀ x y : FVal,
    (condF 0 (x.cmp y) = true ↔ x.cmp y = some .eq) ∧ (condF 1 (x.cmp y) = true ↔ x.cmp y ≠ some .eq)
    ∧ (condF 2 (x.cmp y) = true ↔ x.cmp y = some .lt) ∧ (condF 4 (x.cmp y) = true ↔ x.cmp y = some .gt)
    ∧ (condF 3 (x.cmp y) = true ↔ x.cmp y = some .lt ∨ x.cmp y = some .eq)
    ∧ (condF 5 (x.cmp y) = true ↔ x.cmp y = some .gt ∨ x.cmp y = some .eq)
    ∧ (condF 6 (x.cmp y) = true ↔ x = .nan ∨ y = .nan) ∧ (condF 7 (x.cmp y) = true ↔ x ≠ .nan ∧ y ≠ .nan)
    ∧ (x = .nan ∨ y = .nan → ∀ c : BitVec 3, c ≠ 1 → c ≠ 6 → condF c (x.cmp y) = false)

/-- `pset` writes the truth-table bit that its two predicates select: bit a + 2 b; `sel` writes D := A where the guard is true
and D := B where it is false; `pmov` writes the predicates that B selects from A, D receiving the predicates as they stood:
bit 0 is 1 and bit k is pk (04 R85, R86; 07 R178, R180, R181). -/
def Obligations.PredicateResults : Prop :=
  (∀ f : FPset, ShortPred (.pset f) f.w f.g f.p fun _ t =>
    f.t.getLsbD ((if t.pred f.pa.toNat then 1 else 0) + 2 * (if t.pred f.pb.toNat then 1 else 0)))
  ∧ ((∀ (f : FDAB) (s : State), Issues s (.sel f) → s.chainTrap (.sel f) = false →
    ∃ u, exec (.sel f) s = .next u ∧ RunBecomes s u fun e t t' =>
      let v := if t.guard f.g then src32 e t f.a else src32 e t f.b
      ShortDone (.sel f) (v.setWidth 128) t t' ∧ t'.preds = t.preds ∧ WritesRegs e t t' f.w f.d 1 v.toNat)
  ∧ ∀ (f : FDAB) (s : State), Issues s (.pmov f) → s.chainTrap (.pmov f) = false →
    ∃ u, exec (.pmov f) s = .next u ∧ RunBecomes s u fun e t t' =>
      if t.guard f.g then
        (∃ v : Word32, (∀ k, k < 32 → v.getLsbD k = (decide (k < 8) && t.pred k))
          ∧ ShortDone (.pmov f) (v.setWidth 128) t t' ∧ WritesRegs e t t' f.w f.d 1 v.toNat)
        ∧ ∀ k, k < 8 → t'.pred k = if k ≠ 0 ∧ (src32 e t f.b).getLsbD k then (src32 e t f.a).getLsbD k else t.pred k
      else ShortDone (.pmov f) 0 t t' ∧ t'.preds = t.preds ∧ t'.regs = t.regs)

/-! ### Numbers (08) -/

/-- The floating arithmetic instructions write their result under the thread's mode to D and nothing else; `fdiv` and `fsfu`
are not short: they end a chain and leave the latches (08 R191, R196 to R201, R205; 04 R88, R89). -/
def Obligations.FloatResults : Prop :=
  (∀ f : FDAB,
    ResultF64 (.faddF64 f) f (fun p a b => BitVec.ofNat 64 (faddBits p Fmt.f64 a.toNat b.toNat))
    ∧ ResultF64 (.fsubF64 f) f (fun p a b => BitVec.ofNat 64 (fsubBits p Fmt.f64 a.toNat b.toNat))
    ∧ ResultF64 (.fmulF64 f) f (fun p a b => BitVec.ofNat 64 (fmulBits p Fmt.f64 a.toNat b.toNat))
    ∧ ResultF64 (.fminF64 f) f (fun p a b => BitVec.ofNat 64 (fminBits p Fmt.f64 a.toNat b.toNat))
    ∧ ResultF64 (.fmaxF64 f) f (fun p a b => BitVec.ofNat 64 (fmaxBits p Fmt.f64 a.toNat b.toNat))
    ∧ ResultF32 (.faddF32 f) f (fun p a b => BitVec.ofNat 32 (faddBits p Fmt.f32 a.toNat b.toNat))
    ∧ ResultF32 (.fsubF32 f) f (fun p a b => BitVec.ofNat 32 (fsubBits p Fmt.f32 a.toNat b.toNat))
    ∧ ResultF32 (.fmulF32 f) f (fun p a b => BitVec.ofNat 32 (fmulBits p Fmt.f32 a.toNat b.toNat))
    ∧ ResultF32 (.fminF32 f) f (fun p a b => BitVec.ofNat 32 (fminBits p Fmt.f32 a.toNat b.toNat))
    ∧ ResultF32 (.fmaxF32 f) f (fun p a b => BitVec.ofNat 32 (fmaxBits p Fmt.f32 a.toNat b.toNat))
    ∧ ResultF32 (.faddF16x2 f) f (fun p a b => packed2 (faddBits p Fmt.f16) a b)
    ∧ ResultF32 (.faddBf16x2 f) f (fun p a b => packed2 (faddBits p Fmt.bf16) a b)
    ∧ ResultF32 (.fmulF16x2 f) f (fun p a b => packed2 (fmulBits p Fmt.f16) a b)
    ∧ ResultF32 (.fmulBf16x2 f) f (fun p a b => packed2 (fmulBits p Fmt.bf16) a b)
    ∧ ResultF32 (.fscaleF32 f) f (fun p a b => BitVec.ofNat 32 (fscaleBits p Fmt.f32 a.toNat b.toInt))
    ∧ ShortResult (.fscaleF64 f) f.w f.g f.d 2 (fun e t =>
        fscaleBits (Fpm.of t.fpm) Fmt.f64 (srcF64 e t f.a).toNat (src32 e t f.b).toInt % 2 ^ 64)
    ∧ ShortResult (.fmaF64 f) f.w f.g f.d 2 (fun e t =>
        fmaBits (Fpm.of t.fpm) Fmt.f64 (srcF64 e t f.a).toNat (srcF64 e t f.b).toNat (t.regsAt e f.d.toNat 2) % 2 ^ 64)
    ∧ ShortResult (.fmaF32 f) f.w f.g f.d 1 (fun e t =>
        fmaBits (Fpm.of t.fpm) Fmt.f32 (src32 e t f.a).toNat (src32 e t f.b).toNat (t.reg e f.d.toNat).toNat % 2 ^ 32)
    ∧ ShortResult (.fmaF16x2 f) f.w f.g f.d 1 (fun e t =>
        (packed3 (fmaBits (Fpm.of t.fpm) Fmt.f16) (src32 e t f.a) (src32 e t f.b) (t.reg e f.d.toNat)).toNat)
    ∧ ShortResult (.fmaBf16x2 f) f.w f.g f.d 1 (fun e t =>
        (packed3 (fmaBits (Fpm.of t.fpm) Fmt.bf16) (src32 e t f.a) (src32 e t f.b) (t.reg e f.d.toNat)).toNat))
  ∧ ((∀ f : FDAB,
    LongResult (.fdivF32 f) f.w f.g f.d 1 (fun e t =>
      fdivBits (Fpm.of t.fpm) Fmt.f32 (src32 e t f.a).toNat (src32 e t f.b).toNat % 2 ^ 32)
    ∧ LongResult (.fdivF64 f) f.w f.g f.d 2 (fun e t =>
      fdivBits (Fpm.of t.fpm) Fmt.f64 (srcF64 e t f.a).toNat (srcF64 e t f.b).toNat % 2 ^ 64))
  ∧ ∀ f : FSfu,
    (f.wide = true →
      LongResult (.fsfu f) f.w f.g f.d 2 fun e t => sfuBits (Fpm.of t.fpm) Fmt.f64 f.fn (srcF64 e t f.a).toNat % 2 ^ 64)
    ∧ (f.wide = false →
      LongResult (.fsfu f) f.w f.g f.d 1 fun e t => sfuBits (Fpm.of t.fpm) Fmt.f32 f.fn (src32 e t f.a).toNat % 2 ^ 32))

/-- The conversions, roundings, classes, packings and dot products write their result to D and nothing else (08 R202 to
R212). -/
def Obligations.NarrowResults : Prop :=
  (∀ f : FSgn, ShortResult (.fsgn f) f.w f.g f.d f.ty.regs fun e t =>
    match f.ty with
    | .f64 => signBits f.op 64 (srcF64 e t f.a).toNat % 2 ^ 64
    | .f32 => signBits f.op 32 (src32 e t f.a).toNat % 2 ^ 32
    | _ => (packed1 (signBits f.op 16) (src32 e t f.a)).toNat)
  ∧ (∀ f : FClass, ShortResult (.fclass f) f.w f.g f.d 1 fun e t =>
      2 ^ classBit (classFmt f.ty)
        ((if f.ty = .f64 then (srcF64 e t f.a).toNat else (src32 e t f.a).toNat) % 2 ^ (classFmt f.ty).width) % 2 ^ 32)
  ∧ (∀ f : FRound, ShortResult (.fround f) f.w f.g f.d f.ty.regs fun e t =>
    match f.ty with
    | .f64 => froundBits (Fpm.of t.fpm) Fmt.f64 (roundMode (Fpm.of t.fpm) f.mode) (srcF64 e t f.a).toNat % 2 ^ 64
    | .f32 => froundBits (Fpm.of t.fpm) Fmt.f32 (roundMode (Fpm.of t.fpm) f.mode) (src32 e t f.a).toNat % 2 ^ 32
    | .f16x2 => (packed1 (froundBits (Fpm.of t.fpm) Fmt.f16 (roundMode (Fpm.of t.fpm) f.mode)) (src32 e t f.a)).toNat
    | .bf16x2 => (packed1 (froundBits (Fpm.of t.fpm) Fmt.bf16 (roundMode (Fpm.of t.fpm) f.mode)) (src32 e t f.a)).toNat)
  ∧ (∀ f : FCvt, ShortResult (.cvt f) f.w f.g f.d f.code.regs.1 fun e t =>
      cvtBits (cvtMode (Fpm.of t.fpm) f.trunc) f.code (srcNat e t { o := f.a, w := f.code.src })
        % 2 ^ (32 * f.code.regs.1))
  ∧ (∀ f : FPack, ShortResult (.pack f) f.w f.g f.d 1 fun e t =>
      packByte (Fpm.of t.fpm) f.fmt (imm20 f.k) (src32 e t f.a).toNat % 2 ^ 8
        + 2 ^ 8 * (packByte (Fpm.of t.fpm) f.fmt (imm20 f.k) (src32 e t f.b).toNat % 2 ^ 8)
        + 2 ^ 16 * ((t.reg e f.d.toNat).toNat % 2 ^ 16))
  ∧ (∀ f : FRqnt, ShortResult (.rqnt f) f.w f.g f.d 1 fun e t =>
      (rqntWord f (if f.s4 then (srcOct e t f.a).toNat else (src128 e t f.a).toNat) (src32 e t f.b)).toNat)
  ∧ (∀ f : FDAB,
      Result32D (.dp4 f) f (fun a b d => d + BitVec.ofInt 32 (dotSigned 8 4 a b))
      ∧ Result32D (.dp8 f) f (fun a b d => d + BitVec.ofInt 32 (dotSigned 4 8 a b))
      ∧ ShortResult (.fdp2 f) f.w f.g f.d 1 fun e t =>
          fdp2Bits (Fpm.of t.fpm) (src32 e t f.a) (src32 e t f.b) (t.reg e f.d.toNat) % 2 ^ 32)
  ∧ ∀ f : FCbk, ShortResult (.fcbk f) f.w f.g f.d (if f.fmt = .bf16 then 4 else 2) fun e t =>
      let x := (src32 e t f.a).toNat / (if f.half then 2 ^ 16 else 1) % 2 ^ 16
      match f.fmt with
      | .bf16 => cbkPack Fmt.bf16 x % 2 ^ 128
      | .e4m3 => cbkPack Fmt.e4m3 x % 2 ^ 64
      | .e5m2 => cbkPack Fmt.e5m2 x % 2 ^ 64

/-- Rules of the floating results that no finite table of cases shows, in every mode: in binary64, binary32, binary16 and bfloat16 a
NaN operand gives the canonical NaN of the format in `fadd`, `fsub`, `fmul`, `fdiv`, `fma`, `fscale`, `fround` and `fsfu`; `fmin`
and `fmax` return the other operand of one NaN, its input flush applied, and the canonical NaN of two; the sign operations change
the sign bit of an element only: they clear it, invert it or set it (08 R185, R194, R197, R199, R202). -/
def Obligations.FloatSpecials : Prop :=
  (∀ (p : Fpm) (F : Fmt) (x y z : Nat) (k : Int) (fn : SfuFn) (m : RMode),
    F = Fmt.f64 ∨ F = Fmt.f32 ∨ F = Fmt.f16 ∨ F = Fmt.bf16 → isNanBits F x = true →
    (faddBits p F x y = F.nanBits ∧ faddBits p F y x = F.nanBits ∧ fsubBits p F x y = F.nanBits ∧ fsubBits p F y x = F.nanBits
      ∧ fmulBits p F x y = F.nanBits ∧ fmulBits p F y x = F.nanBits ∧ fdivBits p F x y = F.nanBits ∧ fdivBits p F y x = F.nanBits
      ∧ fmaBits p F x y z = F.nanBits ∧ fmaBits p F y x z = F.nanBits ∧ fmaBits p F y z x = F.nanBits
      ∧ fscaleBits p F x k = F.nanBits ∧ froundBits p F m x = F.nanBits ∧ sfuBits p F fn x = F.nanBits)
    ∧ (isNanBits F y = true → fminBits p F x y = F.nanBits ∧ fmaxBits p F x y = F.nanBits)
    ∧ (isNanBits F y = false →
      let v := flushIn F (p.inFlush F) y
      fminBits p F x y = v ∧ fminBits p F y x = v ∧ fmaxBits p F x y = v ∧ fmaxBits p F y x = v))
  ∧ (Fmt.f64.nanBits = 0x7FF8000000000000 ∧ Fmt.f32.nanBits = 0x7FC00000 ∧ Fmt.f16.nanBits = 0x7E00 ∧ Fmt.bf16.nanBits = 0x7FC0)
  ∧ ∀ (op : SignOp) (n x : Nat), n = 16 ∨ n = 32 ∨ n = 64 → x < 2 ^ n →
    signBits op n x < 2 ^ n
    ∧ (∀ j, j < n - 1 → (signBits op n x).testBit j = x.testBit j)
    ∧ (signBits op n x).testBit (n - 1) = (match op with | .abs => false | .neg => !x.testBit (n - 1) | .nabs => true)

/-! ### Control and special registers (07) -/

/-- Branches: each guard-true thread goes to its exact target, and `call` and `brx` write the address of the next
instruction to their pair; a guard-false thread goes on. `nop`, `yield` and `wbase` go on past themselves: `nop` changes
nothing else, `yield` leaves the thread waiting for a slot, `wbase` moves the window to a multiple of 16 below the usable
allocation. A yielding thread is eligible again in the slot after its quarter issues any other run; where its quarter issues none,
YIELD_EXPIRY makes it eligible once 16 slots have passed (07 R161, R162, R165, R169, R170). -/
def Obligations.ControlFlow : Prop :=
  ((∀ (f : FBra) (s : State), Issues s (.bra f) →
    (∀ k ∈ s.run, ∀ t, s.threads.find k = some t → canonical (t.pc.toNat + 4 * f.imm.toInt) = true) →
    (∀ k ∈ s.run, ∀ t, s.threads.find k = some t → t.pc.toNat % 4 = 0) →
    ∃ u, exec (.bra f) s = .next u ∧ RunBecomes s u fun _ t t' =>
      if t.guard f.g then
        t' = { t with pc := BitVec.ofInt 64 (t.pc.toNat + 4 * f.imm.toInt), chain := none, wait := Wait.idle, blockCtr := 0,
                      kept := none, prog := none, todo := none }
      else LongDone (.bra f) t t' ∧ t'.regs = t.regs)
  ∧ (∀ (f : FCall) (s : State), Issues s (.call f) →
    (∀ k ∈ s.run, ∀ t, s.threads.find k = some t → canonical (t.pc.toNat + 4 * f.imm.toInt) = true) →
    (∀ k ∈ s.run, ∀ t, s.threads.find k = some t → t.pc.toNat % 4 = 0) →
    ∃ u, exec (.call f) s = .next u ∧ RunBecomes s u fun e t t' =>
      if t.guard f.g then
        t' = { t with pc := BitVec.ofInt 64 (t.pc.toNat + 4 * f.imm.toInt), regs := t'.regs, chain := none,
                      wait := Wait.idle, blockCtr := 0, kept := none, prog := none, todo := none }
          ∧ WritesRegs e t t' false f.d 2 (t.pc + BitVec.ofNat 64 (Instr.call f).bytes).toNat
      else LongDone (.call f) t t' ∧ t'.regs = t.regs)
  ∧ (∀ (f : FDA) (s : State), Issues s (.brx f) →
    (∀ k ∈ s.run, ∀ t, s.threads.find k = some t →
      canonical (src64 (s.env k) t f.a).toNat = true ∧ (src64 (s.env k) t f.a).toNat % 4 = 0) →
    ∃ u, exec (.brx f) s = .next u ∧ RunBecomes s u fun e t t' =>
      if t.guard f.g then
        t' = { t with pc := src64 e t f.a, regs := t'.regs, chain := none, wait := Wait.idle, blockCtr := 0, kept := none, prog := none, todo := none }
          ∧ WritesRegs e t t' f.w f.d 2 (t.pc + BitVec.ofNat 64 (Instr.brx f).bytes).toNat
      else LongDone (.brx f) t t' ∧ t'.regs = t.regs)
  ∧ ∀ (f : FA) (s : State), Issues s (.ret f) →
    (∀ k ∈ s.run, ∀ t, s.threads.find k = some t →
      canonical (src64 (s.env k) t f.a).toNat = true ∧ (src64 (s.env k) t f.a).toNat % 4 = 0) →
    ∃ u, exec (.ret f) s = .next u ∧ RunBecomes s u fun e t t' =>
      if t.guard f.g then
        t' = { t with pc := src64 e t f.a, chain := none, wait := Wait.idle, blockCtr := 0, kept := none, prog := none, todo := none }
      else LongDone (.ret f) t t' ∧ t'.regs = t.regs)
  ∧ ((∀ (f : FG) (s : State), Issues s (.nop f) →
    ∃ u, exec (.nop f) s = .next u ∧ RunBecomes s u fun _ t t' => LongDone (.nop f) t t' ∧ t'.regs = t.regs)
  ∧ (∀ (f : FG) (s : State), Issues s (.yield f) →
    ∃ u, exec (.yield f) s = .next u ∧ RunBecomes s u fun _ t t' =>
      t' = { t with pc := t.pc + BitVec.ofNat 64 (Instr.yield f).bytes, chain := none, blockCtr := 0, kept := none, prog := none, todo := none,
                    wait := if t.guard f.g then { kind := .yield 0, counts := false } else Wait.idle })
  ∧ ∀ (f : FA) (s : State), Issues s (.wbase f) →
    (∀ k ∈ s.run, ∀ t, s.threads.find k = some t → t.inHandler = false
      ∧ (src32 (s.env k) t f.a).toNat % 16 = 0 ∧ (src32 (s.env k) t f.a).toNat < (s.env k).U) →
    ∃ u, exec (.wbase f) s = .next u ∧ RunBecomes s u fun e t t' =>
      t' = { t with pc := t.pc + BitVec.ofNat 64 (Instr.wbase f).bytes, chain := none, wait := Wait.idle, blockCtr := 0,
                    kept := none, prog := none, todo := none, base := if t.guard f.g then (src32 e t f.a).toNat else t.base })
  ∧ (∀ (s : State) (k : TKey) (t : Thread) (n : Nat), s.threads.find k = some t → t.wait.kind = .yield n →
    exec (.yieldExpiry k.launch k.wid) s = .next (if 16 ≤ n then s.setThread k { t with wait := Wait.idle } else s.setThread k t)
    ∧ ∀ ks : List TKey, k ∉ ks → s.isResident k = true →
      let after := (s.afterSlot (s.env k).cl ((s.env k).crew % 4) ks).threads.find k
      (ks ≠ [] → after = some { t with wait := Wait.idle })
      ∧ (ks = [] → after = some { t with wait := { kind := .yield (n + 1), counts := false } }))

/-- A branch (`bra`, `call`, `brx`, `ret`) to an address that is not canonical or not 4-byte aligned raises ADDRESS with the target,
and writes no link; a check of orders 2 to 5 that refuses (said of `add`) is a trap at the instruction, and a special register of
the handler read outside one is ILLEGAL_ENCODING; `trap` raises SOFTWARE with its immediate as VALUE and `%tpc` at the next
instruction; nothing else of the state changes (07 R162, R167, R172; 04 R95, R96; 06 R151, R156, R157). That the CHAIN bit is set at
a lone short instruction is the model's reading, log entry 14; which of several registers out of range a WINDOW trap names is log
entry 16. -/
def Obligations.TrapEntries : Prop :=
  ((∀ (f : FBra) (s : State) (k : TKey) (t : Thread), Alone s k t (.bra f) → Traps (s.env k) t →
    let a : Int := (t.pc.toNat : Int) + 4 * f.imm.toInt
    (canonical a = false ∨ a % 4 ≠ 0) →
    ∃ t', exec (.bra f) s = .next (s.setThread k t') ∧
      EnteredTrap (s.env k) t t' { cause := 0x06, sub := 0, value := BitVec.ofInt 64 a }
        { tpc := t.pc, ipc := t.pc, defer := false, chain := false, resume := 0 })
  ∧ (∀ (f : FCall) (s : State) (k : TKey) (t : Thread), Alone s k t (.call f) → Traps (s.env k) t →
    let a : Int := (t.pc.toNat : Int) + 4 * f.imm.toInt
    (canonical a = false ∨ a % 4 ≠ 0) →
    ∃ t', exec (.call f) s = .next (s.setThread k t') ∧
      EnteredTrap (s.env k) t t' { cause := 0x06, sub := 0, value := BitVec.ofInt 64 a }
        { tpc := t.pc, ipc := t.pc, defer := false, chain := false, resume := 0 })
  ∧ ∀ (f : FA) (s : State) (k : TKey) (t : Thread), Alone s k t (.ret f) → Traps (s.env k) t →
    (canonical (src64 (s.env k) t f.a).toNat = false ∨ (src64 (s.env k) t f.a).toNat % 4 ≠ 0) →
    ∃ t', exec (.ret f) s = .next (s.setThread k t') ∧
      EnteredTrap (s.env k) t t' { cause := 0x06, sub := 0, value := src64 (s.env k) t f.a }
        { tpc := t.pc, ipc := t.pc, defer := false, chain := false, resume := 0 })
  ∧
  (∀ (f : FDA) (s : State) (k : TKey) (t : Thread), Alone s k t (.brx f) → Traps (s.env k) t →
    (canonical (src64 (s.env k) t f.a).toNat = false ∨ (src64 (s.env k) t f.a).toNat % 4 ≠ 0) →
    ∃ t', exec (.brx f) s = .next (s.setThread k t') ∧
      EnteredTrap (s.env k) t t' { cause := 0x06, sub := 0, value := src64 (s.env k) t f.a }
        { tpc := t.pc, ipc := t.pc, defer := false, chain := false, resume := 0 })
  ∧ (∀ (f : FDAB) (s : State) (k : TKey) (t : Thread) (tr : Trap), s.run = [k] → s.Calm → s.threads.find k = some t →
    Traps (s.env k) t → precheck (s.env k) t (.add f) = some tr → t.chain = none →
    ∃ t', exec (.add f) s = .next (s.setThread k t') ∧
      EnteredTrap (s.env k) t t' tr
        { tpc := t.pc, ipc := t.pc, defer := false, chain := (Thread.inChain t (.add f)), resume := 0 })
  ∧ (∀ (f : FTrap) (s : State) (k : TKey) (t : Thread), Alone s k t (.trap f) → Traps (s.env k) t →
    ∃ t', exec (.trap f) s = .next (s.setThread k t') ∧
      EnteredTrap (s.env k) t t' { cause := 0x13, sub := 0, value := f.imm.signExtend 64 }
        { tpc := t.pc + BitVec.ofNat 64 (Instr.trap f).bytes, ipc := t.pc, defer := false, chain := false, resume := 0 })
  ∧ (∀ (f : FSreg) (s : State) (k : TKey) (t : Thread), s.run = [k] → s.Calm → s.threads.find k = some t →
    Traps (s.env k) t → f.r.handlerOnly = true → t.chain = none →
    ∃ t', exec (.sreg f) s = .next (s.setThread k t') ∧
      EnteredTrap (s.env k) t t' { cause := 0x01, sub := 0, value := (Instr.sreg f).word0.setWidth 64 }
        { tpc := t.pc, ipc := t.pc, defer := false, chain := false, resume := 0 })

/-- `exit` COMPLETES in every form, with no access of the thread logged: the guard-true threads of the run end, the
guard-false ones go on, and where no barrier of their launch is pending nothing else changes; where one is pending the thread
ends all the same, memory stays, and only threads that wait at a barrier may change. A trap of a thread whose launch has no trap
reserve kills its gang: the launch ends with KILLED, and no gang of it is left, nor any thread of its gangs (07 R166; 06 R150; 02
R26; 03 R64). -/
def Obligations.EndsOfThreads : Prop :=
  (∀ (f : FG) (s : State), Issues s (.exit f) → (∀ k ∈ s.run, ∀ l ∈ s.log, ∀ a ∈ l.accs, a.key ≠ k) →
    (∀ k ∈ s.run, ∀ b ∈ s.barriers, b.1.launch ≠ k.launch) →
    ∃ u, exec (.exit f) s = .next u ∧ u = { s with threads := u.threads }
      ∧ (∀ k, k ∉ s.run → u.threads.find k = s.threads.find k)
      ∧ ∀ k ∈ s.run, ∀ t, s.threads.find k = some t →
          u.threads.find k = if t.guard f.g then none else some (t.advance (.exit f)))
  ∧ (∀ (f : FG) (s : State) (k : TKey) (t : Thread), Alone s k t (.exit f) → (∀ l ∈ s.log, ∀ a ∈ l.accs, a.key ≠ k) →
    ∃ u, exec (.exit f) s = .next u ∧ u.threads.find k = none ∧ SameMemory s u ∧ u.gangs = s.gangs ∧ u.launches = s.launches
      ∧ ∀ k2, k2 ≠ k → (∀ p ∈ s.threads, p.1 = k2 → ∀ b ph, p.2.wait.kind ≠ .bar b ph) →
          u.threads.find k2 = s.threads.find k2)
  ∧ (∀ (f : FG) (s : State) (k : TKey) (t : Thread), Alone s k t (.exit f) →
    (s.log.all fun l => l.accs.all fun a => a.key != k) = true → (∀ b ∈ s.barriers, b.1.launch ≠ k.launch) →
    exec (.exit f) s = .next { s with threads := s.threads.erase k })
  ∧ (∀ (f : FTrap) (s : State) (k : TKey) (t : Thread) (x : Launch) (g : Gang), Alone s k t (.trap f) →
    (s.env k).rcd.trsv = false → (s.env k).drain = false → s.launches.find k.launch = some x →
    s.gangs.find (s.env k).gkey = some g →
    ∃ u, exec (.trap f) s = .next u ∧ u.threads.find k = none
      ∧ (∀ g2, g2.launch = k.launch → u.gangs.find g2 = none)
      ∧ (∀ k2, k2.launch = k.launch → (s.gangs.find (s.env k2).gkey).isSome = true → u.threads.find k2 = none)
      ∧ (∃ y, u.launches.find k.launch = some y ∧ y.status = .ending 0x04) ∧ u.mem = s.mem ∧ u.hostMem = s.hostMem)

/-- `rti` restores the predicates and `%fpm` from `%tcause`, the window base from `%twb`, and goes on at `%tpc`, or at the
resume point of a deferred trap; the registers stay. A trap and the return from its handler give back the predicates,
`%fpm` and the window base, and go on at the place the trap stood at (06 R151, R154; 07 R168). -/
def Obligations.TrapReturns : Prop :=
  (∀ (s : State), Issues s .rti → ∃ u, exec .rti s = .next u ∧ RunBecomes s u fun _ t t' =>
    t'.inHandler = false ∧ t'.pc = (if t.tcause.getLsbD 15 then t.resume else t.tpc) ∧ t'.base = t.twb.toNat
      ∧ t'.fpm = (t.tcause.extractLsb' 23 9).setWidth 32 ∧ (∀ n, 1 ≤ n → n < 8 → t'.pred n = t.tcause.getLsbD (15 + n))
      ∧ t'.regs = t.regs ∧ t'.tcause = t.tcause ∧ t'.tpc = t.tpc ∧ t'.tinfo = t.tinfo ∧ t'.twb = t.twb ∧ t'.chain = none)
  ∧ (∀ (e : Env) (t : Thread) (tr : Trap) (w : TrapAt), Traps e t → w.defer = false → t.base < 2 ^ 32 →
    t.fpm.toNat < 2 ^ 9 → t.preds.getLsbD 0 = false →
    let r := (t.enterTrap e tr w).returnFromTrap
    r.preds = t.preds ∧ r.fpm = t.fpm ∧ r.base = t.base ∧ r.pc = w.tpc ∧ r.regs = t.regs ∧ r.inHandler = false)

/-- `sreg` COMPLETES for every register, in every run whose threads pass the checks of orders 2 to 5: it writes the special
register to D, at its width, and nothing else; the identity registers hold the fields of the
work identifier at the launch's widths, `%owner` the record's OWNER, `%class` the classes of its levels, of the block and of the
gang; the others hold the cluster, the die, the device, the cluster's scan count and cycle counter, the crew's generator, and the
thread's own registers (07 R171, R172; 02 R27, R30, R34; 01 R9; 06 R159). -/
def Obligations.ReadSpecial : Prop :=
  (∀ f : FSreg, LongResult (.sreg f) f.w f.g f.d f.r.regs fun e t => (sregVal e t f.r).toNat)
  ∧ (∀ (e : Env) (t : Thread), e.rcd.bw ≤ 10 → e.rcd.gw ≤ 2 → (∀ k, k < 6 → e.rcd.width k ≤ 32) →
    let read := fun r => (sregVal e t r).toNat
    let wid := e.wid.toNat
    let w := e.rcd.width
    read .wid = wid ∧ read .rank = wid % 2 ^ e.rcd.bw ∧ read .crank = wid % 2 ^ e.rcd.bw % 32
    ∧ read .crew = wid % 2 ^ e.rcd.bw / 32 ∧ read .block = wid / 2 ^ e.rcd.bw
    ∧ read .gang = wid / 2 ^ e.rcd.bw % 2 ^ e.rcd.gw
    ∧ read .wf0 = wid % 2 ^ w 0 ∧ read .wf1 = wid / 2 ^ w 0 % 2 ^ w 1 ∧ read .wf2 = wid / 2 ^ (w 0 + w 1) % 2 ^ w 2
    ∧ read .wf3 = wid / 2 ^ (w 0 + w 1 + w 2) % 2 ^ w 3 ∧ read .wf4 = wid / 2 ^ (w 0 + w 1 + w 2 + w 3) % 2 ^ w 4
    ∧ read .wf5 = wid / 2 ^ (w 0 + w 1 + w 2 + w 3 + w 4) % 2 ^ w 5)
  ∧ (∀ (e : Env) (t : Thread), e.cl < 192 →
    let read := fun r => (sregVal e t r).toNat
    read .owner = (e.rcd.extractLsb' 368 16).toNat
    ∧ (∀ k, 1 ≤ k → k ≤ 6 → fld (read .cls) (2 * k - 2) 2 = e.rcd.cls k) ∧ fld (read .cls) 12 2 = e.rcd.blockClass
    ∧ fld (read .cls) 14 2 = e.rcd.gangClass ∧ fld (read .cls) 16 16 = 0
    ∧ read .clid = e.cl ∧ read .die = e.cl / 48 ∧ read .dev = e.dev.toNat ∧ read .scan = e.scan.toNat
    ∧ read .cyc = e.cyc % 2 ^ 64 ∧ read .rngkey = e.rngKey.toNat ∧ read .rngctr = e.rngCtr.toNat
    ∧ read .fpm = t.fpm.toNat ∧ read .tcause = t.tcause.toNat ∧ read .tpc = t.tpc.toNat ∧ read .twb = t.twb.toNat
    ∧ sregVal e t .tinfo = t.tinfo)

/-- `sset` of a thread's own register: only the fields it may write change: nine bits of `%fpm`, the saved fields of
`%tcause`, `%tpc` whole, `%twb` at a value a window base may take; of the generator's key or counter: the crew's. `rng`
gives a guard-true thread a value of its crew's key, counter and rank, and the counter advances by 1 for the execution,
with every thread's guard false too (07 R172, R173, R182; 06 R156). -/
def Obligations.WriteSpecial : Prop :=
  (∀ (f : FSset) (s : State), Issues s (.sset f) → f.r = .fpm ∨ f.r = .tcause ∨ f.r = .tpc ∨ f.r = .twb →
    (f.r = .twb → ∀ k ∈ s.run, ∀ t, s.threads.find k = some t →
      (src32 (s.env k) t f.a).toNat % 16 = 0 ∧ (src32 (s.env k) t f.a).toNat < (s.env k).U) →
    ∃ u, exec (.sset f) s = .next u ∧ RunBecomes s u fun e t t' =>
      t' = { t with pc := t.pc + BitVec.ofNat 64 (Instr.sset f).bytes, chain := none, wait := Wait.idle, blockCtr := 0,
                    kept := none, prog := none, todo := none, fpm := t'.fpm, tcause := t'.tcause, tpc := t'.tpc, twb := t'.twb }
      ∧ t'.fpm = (if t.guard f.g = true ∧ f.r = .fpm then src32 e t f.a &&& 0x1FF else t.fpm)
      ∧ (∀ j, j < 32 → t'.tcause.getLsbD j =
          if t.guard f.g = true ∧ f.r = .tcause ∧ 16 ≤ j then (src32 e t f.a).getLsbD j else t.tcause.getLsbD j)
      ∧ t'.tpc = (if t.guard f.g = true ∧ f.r = .tpc then srcZ64 e t f.a else t.tpc)
      ∧ t'.twb = (if t.guard f.g = true ∧ f.r = .twb then src32 e t f.a else t.twb))
  ∧ (∀ (f : FSset) (s : State) (k : TKey) (t : Thread) (c : Crew), Alone s k t (.sset f) → f.r = .rngkey ∨ f.r = .rngctr →
    s.crews.find (s.env k).ckey = some c →
    ∃ u t', exec (.sset f) s = .next u ∧ LongDone (.sset f) t t' ∧ t'.regs = t.regs ∧ u.threads = s.threads.set k t'
      ∧ u.crews.find (s.env k).ckey =
          some (if f.r = .rngkey then { c with rngKey := srcZ64 (s.env k) t f.a } else { c with rngCtr := srcZ64 (s.env k) t f.a })
      ∧ (∀ c', c' ≠ (s.env k).ckey → u.crews.find c' = s.crews.find c')
      ∧ u = { s with threads := u.threads, crews := u.crews })
  ∧ (∀ (f : FD) (s : State) (k : TKey) (t : Thread) (c : Crew), s.run = [k] → s.threads.find k = some t → s.Calm →
    precheck (s.env k) t (.rng f) = none → s.crews.find (s.env k).ckey = some c →
    ∃ u t', exec (.rng f) s = .next u ∧ u.threads = s.threads.set k t'
      ∧ u.crews.find (s.env k).ckey = some { c with rngCtr := c.rngCtr + 1 }
      ∧ u = { s with threads := u.threads, crews := u.crews }
      ∧ (if t.guard f.g then
          ∃ v : Word32, v = (mix (c.rngKey + 32 * c.rngCtr + BitVec.ofNat 64 (s.env k).crank)).setWidth 32
            ∧ ShortDone (.rng f) (v.setWidth 128) t t' ∧ WritesRegs (s.env k) t t' f.w f.d 1 v.toNat
         else ShortDone (.rng f) 0 t t' ∧ t'.regs = t.regs))

/-! ### Crews (10) -/

/-- `bal` and `cact` give each participant of the crew a mask with bit r for crew rank r, of the participants whose A is not 0
and of all participants; `shfi` and `shfx` give it the A of another rank where that rank participates, else its own (10
R239, R241, R244). -/
def Obligations.CrewMasks : Prop :=
  (∀ f : FDA, CrewResult (.bal f) f.w f.g f.d fun s _ _ x =>
    ∀ r, r < 32 → (x.getLsbD r = true ↔ ∃ e t, Participates s f.g r e t ∧ src32 e t f.a ≠ 0))
  ∧ (∀ f : FD, CrewResult (.cact f) f.w f.g f.d fun s _ _ x =>
    ∀ r, r < 32 → (x.getLsbD r = true ↔ ∃ e t, Participates s f.g r e t))
  ∧ (∀ f : FDAB, CrewResult (.shfi f) f.w f.g f.d fun s e t x =>
    x = match s.partAt f.g ((src32 e t f.b).toNat % 32) with | some p => src32 p.1 p.2 f.a | none => src32 e t f.a)
  ∧ (∀ f : FDAB, CrewResult (.shfx f) f.w f.g f.d fun s e t x =>
    x = match s.partAt f.g (e.crank ^^^ ((src32 e t f.b).toNat % 32)) with
        | some p => src32 p.1 p.2 f.a | none => src32 e t f.a)

/-- `match` gives each participant the mask of those whose key matches its own, `red` the combination of the participants'
values in ascending crew rank, up to the own rank with PRE, and `vote` whether any, all, or equally many of the
participants' predicates are true (10 R237, R240, R242, R243; 04 R86). -/
def Obligations.CrewResults : Prop :=
  ((∀ f : FMatch, CrewResult (.mtch f) f.w f.g f.d fun s e0 t0 x =>
    ∀ r, r < 32 → (x.getLsbD r = true ↔ ∃ e t, Participates s f.g r e t ∧ (r = e0.crank ∨ match f.kind with
      | .b32 => src32 e t f.a = src32 e0 t0 f.a
      | .b64 => srcZ64 e t f.a = srcZ64 e0 t0 f.a
      | .f32 => (fval Fmt.f32 (src32 e0 t0 f.a).toNat).cmp (fval Fmt.f32 (src32 e t f.a).toNat) = some .eq
      | .f64 => (fval Fmt.f64 (srcF64 e0 t0 f.a).toNat).cmp (fval Fmt.f64 (srcF64 e t f.a).toNat) = some .eq)))
  ∧ (∀ f : FRed, CrewResult (.red f) f.w f.g f.d fun s e _ x =>
    x = redAll f.op (((List.range 32).filter fun r => !f.pre || decide (r ≤ e.crank)).filterMap fun r =>
      (s.partAt f.g r).map fun p => src32 p.1 p.2 f.a)))
  ∧ (∀ (f : FVote) (s : State) (c : CKey), CrewIssues s (.vote f) c →
    ∃ u, exec (.vote f) s = .next u ∧ RunBecomes s u fun _ t t' =>
      t' = { t with pc := t.pc + BitVec.ofNat 64 (Instr.vote f).bytes, preds := t'.preds, chain := none,
                    wait := Wait.idle, blockCtr := 0, kept := none, prog := none, todo := none }
      ∧ if t.guard f.g then
          ∃ b : Bool, (b = true ↔ match f.op with
              | .any => ∃ r e t2, Participates s f.g r e t2 ∧ t2.pred f.pa.toNat = true
              | .all => ∀ r e t2, Participates s f.g r e t2 → t2.pred f.pa.toNat = true
              | .uni => (∀ r e t2, Participates s f.g r e t2 → t2.pred f.pa.toNat = true)
                  ∨ (∀ r e t2, Participates s f.g r e t2 → t2.pred f.pa.toNat = false))
            ∧ ∀ n, n < 8 → t'.pred n =
                (if f.w = false ∧ n ≠ 0 ∧ n = f.p.n.toNat then b
                 else if f.w = false ∧ f.p.c = true ∧ n ≠ 0 ∧ n = f.p.n.toNat ^^^ 1 then !b else t.pred n)
        else t'.preds = t.preds)

/-! ### Ordering and barriers (05, 09, 10) -/

/-- `fence` COMPLETES in every scope: of crew and block scope every thread of the run goes on, in a guard-true form with no
load or logged access of its own outstanding; of gang scope and wider it waits for the store-queue entries that
stood in its snapshot, those to a host or a peer at system scope only, and then goes on with its cluster's L1 empty, the
context's clean decoded blocks gone and its dirty ones marked REFRESH (05 R119; 09 R232; 14 R299). -/
def Obligations.Fences : Prop :=
  (∀ (f : FFence) (s : State), Issues s (.fence f) → f.scope = .crew ∨ f.scope = .block →
    (∀ k ∈ s.run, (s.env k).drain = false) →
    ∃ u, exec (.fence f) s = .next u ∧ RunBecomes s u fun _ t t' => t' = t.advance (.fence f))
  ∧ (∀ (f : FFence) (s : State), Issues s (.fence f) → (∀ k ∈ s.run, ∀ t, s.threads.find k = some t → t.guard f.g = false) →
    ∃ u, exec (.fence f) s = .next u ∧ RunBecomes s u fun _ t t' => t' = t.advance (.fence f))
  ∧
  ∀ (f : FFence) (s : State) (k : TKey) (t : Thread) (snap : List Nat), Alone s k t (.fence f) →
    (s.env k).drain = false →
    let e := s.env k
    let c := s.cluster e.cl
    (f.scope = .crew ∨ f.scope = .block → exec (.fence f) s = .next (s.setThread k (t.advance (.fence f))))
    ∧ (f.scope ≠ .crew → f.scope ≠ .block →
        (t.wait.kind = .fence snap ∨ ((∀ l, t.wait.kind ≠ .fence l) ∧
          snap = (c.sq.filter fun x => f.scope == .system || !x.loc.outside).map (·.id))) →
        ((∀ x ∈ c.sq, x.id ∉ snap) →
          ∃ u, exec (.fence f) s = .next u
            ∧ u = { s with threads := s.threads.set k (t.advance (.fence f)), clusters := u.clusters }
            ∧ OneCluster s u e.cl ∧ (u.cluster e.cl).l1 = [] ∧ (u.cluster e.cl).sq = c.sq
            ∧ ∀ b ∈ (u.cluster e.cl).store, b.part = e.part → b.ctx = e.ctx → b.dirty ≠ 0 ∧ b.refresh = true)
        ∧ ((∃ x ∈ c.sq, x.id ∈ snap) →
          exec (.fence f) s = .next (s.setThread k
            { t with wait := { kind := .fence (snap.filter fun n => c.sq.any fun x => x.id == n), counts := true } })))

/-- `bar` and `arrive` record an arrival: where it completes the phase every waiter is released in its wave, or parks where
the launch's class is shed, the thread of a `bar` with them, and an `arrive` goes on; a `bar` that does not complete it waits
for the phase, an `arrive` goes on; D of `arrive` receives the phase number; with PUB the fence of the scope comes first. An
arrival with another count, of a `bar` or an `arrive`, raises ILLEGAL_WAIT with SUB 2, a second one of a thread at a phase that
waits for all with SUB 3, a `bar` at launch scope where a level above the block is not of class C with SUB 1. BARRIER_WAVE_RELEASE lets the threads of the due wave
leave their `bar`: `bar` COMPLETES there, unless the gang is frozen or saved, or its crew stands for a save (10 R246 to
R250). -/
def Obligations.Barriers : Prop :=
  ((∀ (f : FBar) (s s1 : State) (k : TKey) (t : Thread), Alone s k t (.bar f) →
    (∀ p ∈ s.threads, p.1 = k → p.2.wait.kind = .none) → (f.scope = .launch → (s.env k).rcd.launchBarOk = true) →
    (f.pub = false ∧ s1 = s ∨ f.pub = true ∧ s.fence (s.env k) t (barFence f.scope) = (true, s1)) →
    let b := barKey (s.env k) f.scope f.id
    let x := s.barrier b
    let n := f.count.toNat
    (x.expected = none ∨ x.expected = some n ∧ (n = 0 → k ∉ x.arrived)) →
    let waits := { t with wait := { kind := .bar b x.phase, counts := true }, chain := none }
    let ks := (s.setThread k waits).waitersOf b x.phase
    (¬ Completes s b x k n →
      exec (.bar f) s = .next (({ s1 with barriers := s1.barriers.set b (Barrier.arrivedOnce x k n) } : State).setThread k waits))
    ∧ (Completes s b x k n →
      ∃ u t', exec (.bar f) s = .next u ∧ u.threads.find k = some t' ∧ LetGo s b ks k { t with chain := none } t'
        ∧ PhaseOver s u b x ks k))
  ∧ ∀ (f : FArrive) (s s1 : State) (k : TKey) (t : Thread), Alone s k t (.arrive f) →
    (∀ p ∈ s.threads, p.1 = k → p.2.wait.kind = .none) →
    (f.pub = false ∧ s1 = s ∨ f.pub = true ∧ s.fence (s.env k) t (barFence f.scope) = (true, s1)) →
    let e := s.env k
    let b := barKey e f.scope f.id
    let x := s.barrier b
    let n := f.count.toNat
    (x.expected = none ∨ x.expected = some n ∧ (n = 0 → k ∉ x.arrived)) →
    (¬ Completes s b x k n →
      exec (.arrive f) s = .next (({ s1 with barriers := s1.barriers.set b (Barrier.arrivedOnce x k n) } : State).setThread k
        ((t.put32 e f.w f.d x.phase).advance (.arrive f))))
    ∧ (Completes s b x k n →
      ∃ u, exec (.arrive f) s = .next u ∧ u.threads.find k = some ((t.put32 e f.w f.d x.phase).advance (.arrive f))
        ∧ PhaseOver s u b x (s.waitersOf b x.phase) k))
  ∧ (∀ (s : State) (cl : Nat) (ks : List TKey),
    let place := fun (c : CKey) =>
      match s.blocks.find { launch := c.launch, block := c.block } with | some y => y.place | none => 0
    (s.crewOrder cl ks).Nodup ∧ (∀ c, c ∈ s.crewOrder cl ks ↔ ∃ k ∈ ks, (s.env k).cl = cl ∧ (s.env k).ckey = c)
    ∧ (s.crewOrder cl ks).Pairwise fun c d => place c < place d ∨ place c = place d ∧ c.crew ≤ d.crew)
  ∧ (∀ (f : FBar) (s : State) (k : TKey) (t : Thread), Alone s k t (.bar f) → Traps (s.env k) t → t.wait.kind = .none →
    let x := s.barrier (barKey (s.env k) f.scope f.id)
    let n := f.count.toNat
    let traps := fun sub => ∃ t', exec (.bar f) s = .next (s.setThread k t') ∧
      EnteredTrap (s.env k) t t' { cause := 0x0B, sub := sub, value := 0 }
        { tpc := t.pc, ipc := t.pc, defer := false, chain := false, resume := 0 }
    (f.scope = .launch → (s.env k).rcd.launchBarOk = false → traps 1)
    ∧ ((f.scope = .launch → (s.env k).rcd.launchBarOk = true) →
        (∀ m, x.expected = some m → m ≠ n → traps 2) ∧ (x.expected = some 0 → n = 0 → k ∈ x.arrived → traps 3)))
  ∧ (∀ (f : FArrive) (s : State) (k : TKey) (t : Thread), Alone s k t (.arrive f) → Traps (s.env k) t →
    let x := s.barrier (barKey (s.env k) f.scope f.id)
    let n := f.count.toNat
    let traps := fun sub => ∃ t', exec (.arrive f) s = .next (s.setThread k t') ∧
      EnteredTrap (s.env k) t t' { cause := 0x0B, sub := sub, value := 0 }
        { tpc := t.pc, ipc := t.pc, defer := false, chain := false, resume := 0 }
    (∀ m, x.expected = some m → m ≠ n → traps 2) ∧ (x.expected = some 0 → n = 0 → k ∈ x.arrived → traps 3))
  ∧ (∀ (s : State) (cl : Nat), ∃ u, exec (.barrierWaveRelease cl) s = .next u ∧ u = { s with threads := u.threads } ∧
    ∀ k t, s.threads.find k = some t →
      (∀ due wide g b, (s.env k).cl = cl → t.wait.kind = .wave due wide → due ≤ (s.cluster cl).cyc →
        s.gangs.find (s.env k).gkey = some g → g.frozen = false →
        (g.status = .running ∨ (∀ b, g.status ≠ .saved b) ∧ (s.crews.get (s.env k).ckey Crew.start).stopped = false) →
        s.blocks.find (s.env k).bkey = some b → b.resident = true → s.crewParked (s.env k).ckey = false →
        ∃ t', u.threads.find k = some t' ∧ Released t t' (t.pc + 8))
      ∧ ((s.env k).cl ≠ cl ∨ (∀ due wide, t.wait.kind = .wave due wide → (s.cluster cl).cyc < due)
          ∨ (∃ g, s.gangs.find (s.env k).gkey = some g ∧ g.frozen = true) → u.threads.find k = some t))

/-! ### Waiting on memory, sync objects, bindings (05, 09, 10) -/

/-- `wait` COMPLETES once its checks pass and its read is served with the condition true: it writes the value to D and goes
on; with the condition false it waits and counts. `pchk` COMPLETES once its checks pass: it puts the read in flight with its
predicate and goes on, and with its page absent it answers false and goes on. `swait` COMPLETES once its arrival word's
generation is B or later, with the generation in D; before that it waits and counts (10 R253 to R255). -/
def Obligations.MemoryWaits : Prop :=
  (∀ (f : FWait) (s s1 s2 : State) (k : TKey) (t : Thread) (ps : List Piece0) (bs : List Byte), Alone s k t (.wait f) →
    let e := s.env k
    let n := if f.wide then 8 else 4
    let addr := memAddr e t f.a f.imm
    e.rcd.blockClass ≠ 0 → s.logMeets k addr.toNat n = false → s.checkRead (.thread k) e.who addr n false = (.ok ps, s1) →
    watchRefused addr.toNat n ps = false → s1.readFresh e ps = (.ready bs none, s2) →
    ∃ u t', exec (.wait f) s = .next u ∧ u = { s2.forget (.thread k) with threads := u.threads }
      ∧ u.threads.find k = some t' ∧ (∀ k2, k2 ≠ k → u.threads.find k2 = s.threads.find k2) ∧ SameMemory s u
      ∧ (waitCond f.cond f.wide (ofBytes bs) (dataOf (atomTy f.wide) e t f.b) = true →
          t' = { (if f.w then t else t.setRegs e f.d.toNat (if f.wide then 2 else 1) (ofBytes bs)).advance (.wait f) with
                 seen := t'.seen })
      ∧ (waitCond f.cond f.wide (ofBytes bs) (dataOf (atomTy f.wide) e t f.b) = false →
          t' = { Stalled t true with seen := t'.seen }))
  ∧ (∀ (f : FPchk) (s s1 : State) (k : TKey) (t : Thread) (ps : List Piece0), Alone s k t (.pchk f) →
    let e := s.env k
    let n := if f.wide then 8 else 4
    let addr := memAddr e t f.a f.imm
    s.logMeets k addr.toNat n = false → s.check e.who addr n false false = (.ok ps, s1) →
    watchRefused addr.toNat n ps = false → (s1.cluster e.cl).unread ps = false →
    exec (.pchk f) s = .next { s1 with
      serial := s1.serial + 1
      threads := s1.threads.set k (t.advance (.pchk f))
      loads := s1.loads ++ [{ newLoad s1.serial k t.pc (atomTy f.wide) .fresh 3 none ps (s1.leavesFor e.who ps) with
        pred := if f.w then none else some (f.p, f.cond, dataOf (atomTy f.wide) e t f.b), watch := true }] })
  ∧ (∀ (f : FPchk) (s s1 : State) (k : TKey) (t : Thread) (pages : List (Nat × Bool)), Alone s k t (.pchk f) →
    let e := s.env k
    let n := if f.wide then 8 else 4
    let addr := memAddr e t f.a f.imm
    s.logMeets k addr.toNat n = false → s.check e.who addr n false false = (.absent pages, s1) →
    ∃ u, exec (.pchk f) s = .next u ∧ u.threads.find k = some ((t.setPredD f.p f.w false).advance (.pchk f)) ∧ SameMemory s u)
  ∧ ∀ (f : FSwait) (s : State) (k : TKey) (t : Thread) (b : Block) (p : Spad), Alone s k t (.swait f) →
    let e := s.env k
    let addr := (spadAddr e t f.a f.imm).toNat
    e.rcd.blockClass ≠ 0 → spadAt e.rcd e.bkey addr 16 = .ok p → p.own = true → addr % 16 = 0 →
    s.blocks.find e.bkey = some b → p.off ∈ b.arrivals →
    let g : Word32 := BitVec.ofNat 32 (b.scratch.le p.off 16 % 2 ^ 32)
    exec (.swait f) s = .next (s.setThread k
      (if (g - src32 e t f.b).toNat < 2 ^ 31 then (t.put32 e f.w f.d g).advance (.swait f)
       else Stalled t true))

/-- `acq.x`, `acq.s` and their `.try` forms, at an object whose checks pass: a grantable object nobody waits for is granted
at once, with the cluster's L1 emptied; otherwise a blocking acquire joins the requests and waits, and a try answers
false and changes nothing. ACQUIRE_GRANT grants the oldest request that waits, once it is grantable (05 R114, R115; 09
R233). -/
def Obligations.Acquires : Prop :=
  (∀ (f : FMem) (g : FAcqTry) (excl : Bool) (s s1 : State) (k : TKey) (t : Thread) (a : Nat),
    let i : Instr := if excl then .acqX f else .acqS f
    let j : Instr := if excl then .acqXTry g else .acqSTry g
    let e := s.env k
    s1.homeFailed a = false → s1.homeFailed (a + 32) = false →
    (Alone s k t i → e.rcd.blockClass ≠ 0 → s.choose.2.syncAt i e t (memAddr e t f.a f.imm) true true = .here a s1 →
      (objGrants (s1.obj a) excl = true → (∀ r ∈ s1.acqs, r.obj ≠ a) →
        ∃ u t', exec i s = .next u ∧ ObjectBecomes s1 u a (objGranted (s1.obj a) excl k.wid)
          ∧ u.threads = s.threads.set k t' ∧ Released t t' (t.pc + BitVec.ofNat 64 i.bytes)
          ∧ (u.cluster e.cl).l1 = [] ∧ OneCluster s1 u e.cl ∧ u.acqs = s1.acqs)
      ∧ (objGrants (s1.obj a) excl = false ∨ (∃ r ∈ s1.acqs, r.obj = a) →
        exec i s = .next { s1 with
          serial := s1.serial + 1
          acqs := s1.acqs ++ [{ obj := a, va := (memAddr e t f.a f.imm).toNat, excl := excl,
                                who := .thread k s1.serial (t.pc + BitVec.ofNat 64 i.bytes) }]
          threads := s1.threads.set k { t with wait := { kind := .acq s1.serial, counts := true }, chain := none } }))
    ∧ (Alone s k t j → s.choose.2.syncAt j e t (memAddr e t g.a g.imm) false false = .here a s1 →
      (objGrants (s1.obj a) excl = true → (∀ r ∈ s1.acqs, r.obj ≠ a) →
        ∃ u, exec j s = .next u ∧ ObjectBecomes s1 u a (objGranted (s1.obj a) excl k.wid)
          ∧ u.threads = s.threads.set k ((t.setPredD g.p g.w true).advance j)
          ∧ (u.cluster e.cl).l1 = [] ∧ OneCluster s1 u e.cl ∧ u.acqs = s1.acqs)
      ∧ (objGrants (s1.obj a) excl = false ∨ (∃ r ∈ s1.acqs, r.obj = a) →
        exec j s = .next (s1.setThread k ((t.setPredD g.p g.w false).advance j)))))
  ∧ (∀ (s : State) (r : AcqReq) (rest : List AcqReq) (k : TKey) (n : Nat) (next : Word64) (t : Thread),
    s.acqs = r :: rest → r.who = .thread k n next → s.homeWaits r.obj = false →
    (objGrants (s.obj r.obj) r.excl = true → objClean (s.obj r.obj) = true → s.objMark r.obj = 0 →
      s.homeFailed r.obj = false → s.homeFailed (r.obj + 32) = false → (∀ x ∈ rest, x.obj ≠ r.obj) →
      s.threads.find k = some t →
      ∃ u t', exec (.acquireGrant r.obj) s = .next u ∧ u.acqs = rest
        ∧ ObjectBecomes s u r.obj (objGranted (s.obj r.obj) r.excl k.wid)
        ∧ u.threads = s.threads.set k t' ∧ Released t t' next ∧ (u.cluster (s.env k).cl).l1 = [])
    ∧ (objGrants (s.obj r.obj) r.excl = false → exec (.acquireGrant r.obj) s = .next s))

/-- What a grant and a release make of a sync object; `rel`, its waits over: a legal release writes the object and goes on;
an illegal one raises ACCESS with the address and leaves the object (05 R113, R114, R116; 09 R234). -/
def Obligations.Releases : Prop :=
  (∀ (o : Nat) (w : Word64), o < 2 ^ 512 →
    (objGrants o true = true ↔ bit o 63 = false ∧ fld o 0 32 = 0)
    ∧ (objGrants o false = true ↔ bit o 63 = false ∧ fld o 0 32 < 2 ^ 32 - 1)
    ∧ objX (objGranted o true w) = true ∧ objHolder (objGranted o true w) = w.toNat
    ∧ objCount (objGranted o true w) = objCount o ∧ objGen (objGranted o true w) = objGen o
    ∧ (objGrants o false = true → objCount (objGranted o false w) = objCount o + 1 ∧ objX (objGranted o false w) = false)
    ∧ (objX o = true → objHolder o = w.toNat → ∃ r, objReleased o w = some r ∧ objX r = false ∧ objHolder r = 0
        ∧ objGen r = (objGen o + 1) % 2 ^ 64)
    ∧ (objX o = true → objHolder o ≠ w.toNat → objReleased o w = none)
    ∧ (objX o = false → 0 < objCount o → ∃ r, objReleased o w = some r ∧ objCount r = objCount o - 1
        ∧ objGen r = (objGen o + 1) % 2 ^ 64)
    ∧ (objX o = false → objCount o = 0 → objReleased o w = none))
  ∧ (∀ (f : FMem) (s s1 s2 : State) (k : TKey) (t : Thread) (a : Nat), Alone s k t (.rel f) →
    let e := s.env k
    let addr := memAddr e t f.a f.imm
    s.syncAt (.rel f) e t addr false true = .here a s1 → s1.relBefore (.rel f) e t (.home a) = (none, s2) → s2.Calm →
    s2.homeFailed a = false → s2.homeFailed (a + 32) = false →
    (∀ o, objReleased (s2.obj a) k.wid = some o →
      ∃ u, exec (.rel f) s = .next u ∧ ObjectBecomes s2 u a o
        ∧ u.threads = s2.threads.set k (t.advance (.rel f)) ∧ u.acqs = s2.acqs)
    ∧ (objReleased (s2.obj a) k.wid = none → Traps e t →
      ∃ t', exec (.rel f) s = .next (s2.setThread k t') ∧ EnteredTrap e t t' { cause := 0x08, sub := 0, value := BitVec.ofNat 64 addr.toNat }
        { tpc := t.pc, ipc := t.pc, defer := false, chain := false, resume := 0 }))

/-- `bind` puts the range and the object in its entry of the context's binding table, and `bind.clr` empties an entry; no
other entry, context or byte of memory changes; a refused binding raises ACCESS with the base (05 R117; 09 R235). That a base or
size that is not well-formed gives SUB 1 whatever else is wrong with the binding is the model's choice, log entry 69. -/
def Obligations.Bindings : Prop :=
  (∀ (f : FBind) (s : State) (k : TKey) (t : Thread), Alone s k t (.bind f) →
    let e := s.env k
    let base := (src128 e t f.a).toNat % 2 ^ 64
    let size := (src128 e t f.a).toNat / 2 ^ 64
    let obj := src64 e t f.b
    (s.bindFault e f.e.toNat base size obj.toNat = none →
      ∃ u, exec (.bind f) s = .next u ∧ u = { s with threads := s.threads.set k (t.advance (.bind f)), ctxs := u.ctxs }
        ∧ (u.ctxOf e.part e.ctx).binds.find f.e.toNat = some { base := base, size := size, obj := obj }
        ∧ (∀ n, n ≠ f.e.toNat → (u.ctxOf e.part e.ctx).binds.find n = (s.ctxOf e.part e.ctx).binds.find n)
        ∧ ∀ c, c ≠ (e.part, e.ctx) → u.ctxs.find c = s.ctxs.find c)
    ∧ (∀ sub, s.bindFault e f.e.toNat base size obj.toNat = some sub → Traps e t →
      ∃ t', exec (.bind f) s = .next (s.setThread k t') ∧ EnteredTrap e t t' { cause := 0x08, sub := sub, value := BitVec.ofNat 64 base }
        { tpc := t.pc, ipc := t.pc, defer := false, chain := false, resume := 0 })
    ∧ (base % 64 ≠ 0 ∨ size % 64 ≠ 0 ∨ size = 0 → s.bindFault e f.e.toNat base size obj.toNat = some 1))
  ∧ ∀ (f : FBindClr) (s : State) (k : TKey) (t : Thread), Alone s k t (.bindClr f) →
    let e := s.env k
    ∃ u, exec (.bindClr f) s = .next u ∧ u = { s with threads := s.threads.set k (t.advance (.bindClr f)), ctxs := u.ctxs }
      ∧ (u.ctxOf e.part e.ctx).binds.find f.e.toNat = none
      ∧ (∀ n, n ≠ f.e.toNat → (u.ctxOf e.part e.ctx).binds.find n = (s.ctxOf e.part e.ctx).binds.find n)
      ∧ ∀ c, c ≠ (e.part, e.ctx) → u.ctxs.find c = s.ctxs.find c

/-! ### Hardware queues (02, 10) -/

/-- `deq`, `deq.try`, `enq` and `enq.try` at a queue their selector names: an item is taken from the queue (of a group, as
R51 picks it) into D, an empty queue makes `deq` wait among the requests and `deq.try` answer false; an item enters at
the tail of a queue with room, a full queue makes `enq` stall and `enq.try` answer false; an item that enters an empty
queue goes to the oldest request waiting for it (02 R49 to R51; 10 R256 to R258). -/
def Obligations.QueueInstructions : Prop :=
  (∀ (f : FDeq) (s : State) (k : TKey) (t : Thread), Alone s k t (.deq f) →
    let e := s.env k
    let sel := (src32 e t f.b).toNat % 16
    (∀ q item rest, s.qsel k.launch f.grp sel = .one q → (s.queue q).items = item :: rest →
      exec (.deq f) s = .next { s with
        queues := s.queues.set q { items := rest, refused := (s.queue q).refused }
        threads := s.threads.set k ((t.put128 e f.w f.d item).advance (.deq f)) })
    ∧ (∀ l g ms item s1, s.qsel k.launch f.grp sel = .group l g ms → s.takeItem (.group l g ms) = some (item, s1) →
      exec (.deq f) s = .next (s1.setThread k ((t.put128 e f.w f.d item).advance (.deq f))))
    ∧ (∀ q, s.qsel k.launch f.grp sel = .one q → (s.queue q).items = [] →
      exec (.deq f) s = .next { s with
        serial := s.serial + 1
        deqs := s.deqs ++ [{ id := s.serial, key := k, grp := f.grp, sel := sel, dst := t.dstOf e f.w f.d,
                             next := t.pc + BitVec.ofNat 64 (Instr.deq f).bytes }]
        threads := s.threads.set k { t with wait := { kind := .deq s.serial, counts := false }, chain := none } }))
  ∧ (∀ (f : FDeqTry) (s : State) (k : TKey) (t : Thread) (q : Nat), Alone s k t (.deqTry f) →
    let e := s.env k
    s.qsel k.launch f.grp ((src32 e t f.b).toNat % 16) = .one q →
    (∀ item rest, (s.queue q).items = item :: rest →
      exec (.deqTry f) s = .next { s with
        queues := s.queues.set q { items := rest, refused := (s.queue q).refused }
        threads := s.threads.set k (((t.put128 e f.w f.d item).setPred f.pr.toNat true).advance (.deqTry f)) })
    ∧ ((s.queue q).items = [] →
      exec (.deqTry f) s = .next (s.setThread k ((t.setPred f.pr.toNat false).advance (.deqTry f)))))
  ∧ (∀ (f : FEnq) (s : State) (k : TKey) (t : Thread) (q : Nat), Alone s k t (.enq f) →
    let e := s.env k
    s.qsel k.launch false ((src32 e t f.b).toNat % 16) = .one q →
    (s.queueRoom q = true → s.deqs = [] →
      exec (.enq f) s = .next { s with
        queues := s.queues.set q { items := (s.queue q).items ++ [src128 e t f.a], refused := (s.queue q).refused }
        threads := s.threads.set k (t.advance (.enq f)) })
    ∧ (∀ r t2, s.queueRoom q = true → s.deqs = [r] → r.key ≠ k → r.grp = false → (s.queue q).items = [] →
      s.qsel r.key.launch false r.sel = .one q → s.threads.find r.key = some t2 →
      ∃ u t', exec (.enq f) s = .next u ∧ u.deqs = [] ∧ (u.queue q).items = [] ∧ u.threads.find k = some (t.advance (.enq f))
        ∧ u.threads.find r.key = some t'
        ∧ Released (match r.dst with | some p => t2.setPhys p 4 (src128 e t f.a).toNat | none => t2) t' r.next
        ∧ SameMemory s u)
    ∧ (s.queueRoom q = false →
      exec (.enq f) s = .next (s.setThread k (Stalled t false))))
  ∧ ∀ (f : FEnqTry) (s : State) (k : TKey) (t : Thread) (q : Nat), Alone s k t (.enqTry f) →
    let e := s.env k
    s.qsel k.launch false ((src32 e t f.b).toNat % 16) = .one q →
    (s.queueRoom q = true → s.deqs = [] →
      exec (.enqTry f) s = .next { s with
        queues := s.queues.set q { items := (s.queue q).items ++ [src128 e t f.a], refused := (s.queue q).refused }
        threads := s.threads.set k ((t.setPred f.pr.toNat true).advance (.enqTry f)) })
    ∧ (s.queueRoom q = false →
      exec (.enqTry f) s = .next (s.setThread k ((t.setPred f.pr.toNat false).advance (.enqTry f))))

/-! ### Memory (05, 06, 09) -/

/-- The checks of an access change cached translations and use up choices, and nothing else. `ld` puts a load in flight and
goes on; `st` and `st.try` queue their pieces and go on where the budget and the queue take them, and otherwise `st`
stalls or raises WRITE_BUDGET and `st.try` answers false (05 R107, R110; 06 R129 to R133, R141; 09 R216, R217, R226,
R227). -/
def Obligations.LoadsAndStores : Prop :=
  (∀ (s : State) (w : Who) (addr : Int) (n : Nat) (wr fetch : Bool),
    (s.check w addr n wr fetch).2 =
      { s with tlb := (s.check w addr n wr fetch).2.tlb, roots := (s.check w addr n wr fetch).2.roots, oracle := (s.check w addr n wr fetch).2.oracle })
  ∧ ((∀ (f : FLd) (s s1 : State) (k : TKey) (t : Thread) (ps : List Piece0), Alone s k t (.ld f) →
    let e := s.env k
    let r := planLd f e t
    s.logBlocks k r = false → s.bump.checkReq e r = (.ok ps, s1) →
    ((s1.cluster e.cl).unreadFor f.hint ps = false → exec (.ld f) s = .next { s1 with
      serial := s1.serial + 1
      threads := s1.threads.set k (t.advance (.ld f))
      loads := s1.loads ++ [newLoad s1.serial k t.pc f.ty f.hint (if f.hint = .st then 0 else 3)
        (if f.w then none else some (t.phys e f.d.toNat)) ps (s1.leavesFor e.who ps)] })
    ∧ ((s1.cluster e.cl).unreadFor f.hint ps = true → exec (.ld f) s = .next (s1.setThread k (Stalled t true))))
  ∧ (∀ (f : FSt) (s s1 : State) (k : TKey) (t : Thread) (ps : List Piece0), Alone s k t (.st f) →
    let e := s.env k
    let r := planSt f e t
    s.logBlocks k r = false → s.bump.checkReq e r = (.ok ps, s1) →
    (s1.admission e ps = .yes → ∃ u, exec (.st f) s = .next u
      ∧ StoreQueued s1 u e (t.advance (.st f)) ps (toBytes f.ty.bytes (dataOf f.ty e t f.b)) f.strm)
    ∧ (s1.admission e ps = .full → exec (.st f) s = .next (s1.setThread k (Stalled t true)))
    ∧ (∀ st, s1.admission e ps = .budget st → e.rcd.bmode = false →
      exec (.st f) s = .next (s1.setThread k { Stalled t true with wait := { kind := .store, counts := true } }))
    ∧ (∀ st, s1.admission e ps = .budget st → e.rcd.bmode = true → Traps e t →
      ∃ t', exec (.st f) s = .next (s1.setThread k t') ∧ EnteredTrap e t t' { cause := 0x0D, sub := 0, value := BitVec.ofNat 64 st }
        { tpc := t.pc, ipc := t.pc, defer := false, chain := false, resume := 0 }))
  ∧ ∀ (f : FStTry) (s s1 : State) (k : TKey) (t : Thread) (ps : List Piece0), Alone s k t (.stTry f) →
    let e := s.env k
    let r := planStTry f e t
    s.logBlocks k r = false → s.checkReq e r = (.ok ps, s1) →
    (s1.admission e ps = .yes → ∃ u, exec (.stTry f) s = .next u
      ∧ StoreQueued s1 u e ((t.setPredD f.p f.w true).advance (.stTry f)) ps (toBytes f.ty.bytes (dataOf f.ty e t f.b)) f.strm)
    ∧ (s1.admission e ps ≠ .yes →
      exec (.stTry f) s = .next (s1.setThread k ((t.setPredD f.p f.w false).advance (.stTry f)))))

/-- `atom` and `cas` COMPLETE once their checks pass and the budget and the queue take them: they queue one item with a load for
the old value and go on; a full queue stalls them, and the budget stalls them or raises WRITE_BUDGET; what every
operation stores at 32 and at 64 bits, `fadd` rounding to nearest with no flush, whatever `%fpm` holds, and giving the canonical NaN
(09 R220, R227; 06 R424; 08 R191, R194). -/
def Obligations.Atomics : Prop :=
  ((∀ (f : FAtom) (s s1 : State) (k : TKey) (t : Thread) (p : Piece0) (ps : List Piece0), Alone s k t (.atom f) →
    let e := s.env k
    let r := planAtom f e t
    s.logBlocks k r = false → s.bump.checkReq e r = (.ok (p :: ps), s1) →
    (s1.admission e (p :: ps) = .yes →
      ∃ u, exec (.atom f) s = .next u ∧ AtomicQueued s1 u e t (t.advance (.atom f)) p f.wide f.op (dataOf (atomTy f.wide) e t f.b) 0
        (if f.w then none else some (t.phys e f.d.toNat)) f.strm)
    ∧ (s1.admission e (p :: ps) = .full → exec (.atom f) s = .next (s1.setThread k (Stalled t true)))
    ∧ (∀ st, s1.admission e (p :: ps) = .budget st → e.rcd.bmode = false →
      exec (.atom f) s = .next (s1.setThread k { Stalled t true with wait := { kind := .store, counts := true } }))
    ∧ (∀ st, s1.admission e (p :: ps) = .budget st → e.rcd.bmode = true → Traps e t →
      ∃ t', exec (.atom f) s = .next (s1.setThread k t') ∧ EnteredTrap e t t' { cause := 0x0D, sub := 0, value := BitVec.ofNat 64 st }
        { tpc := t.pc, ipc := t.pc, defer := false, chain := false, resume := 0 }))
  ∧ ∀ (f : FCas) (s s1 : State) (k : TKey) (t : Thread) (p : Piece0) (ps : List Piece0), Alone s k t (.cas f) →
    let e := s.env k
    let r := planCas f e t
    s.logBlocks k r = false → s.bump.checkReq e r = (.ok (p :: ps), s1) →
    (s1.admission e (p :: ps) = .yes →
      ∃ u, exec (.cas f) s = .next u ∧ AtomicQueued s1 u e t (t.advance (.cas f)) p f.wide .cas (dataOf (atomTy f.wide) e t f.b)
        (if f.wide then t.regsAt e f.d.toNat 2 else (t.reg e f.d.toNat).toNat)
        (if f.w then none else some (t.phys e f.d.toNat)) f.strm)
    ∧ (s1.admission e (p :: ps) = .full → exec (.cas f) s = .next (s1.setThread k (Stalled t true)))
    ∧ (∀ st, s1.admission e (p :: ps) = .budget st → e.rcd.bmode = false →
      exec (.cas f) s = .next (s1.setThread k { Stalled t true with wait := { kind := .store, counts := true } }))
    ∧ (∀ st, s1.admission e (p :: ps) = .budget st → e.rcd.bmode = true → Traps e t →
      ∃ t', exec (.cas f) s = .next (s1.setThread k t') ∧ EnteredTrap e t t' { cause := 0x0D, sub := 0, value := BitVec.ofNat 64 st }
        { tpc := t.pc, ipc := t.pc, defer := false, chain := false, resume := 0 }))
  ∧ ((∀ a b c : Word32,
    atomNew .add false a.toNat b.toNat c.toNat = (a + b).toNat ∧ atomNew .and false a.toNat b.toNat c.toNat = (a &&& b).toNat
    ∧ atomNew .or false a.toNat b.toNat c.toNat = (a ||| b).toNat ∧ atomNew .xor false a.toNat b.toNat c.toNat = (a ^^^ b).toNat
    ∧ atomNew .exch false a.toNat b.toNat c.toNat = b.toNat
    ∧ atomNew .cas false a.toNat b.toNat c.toNat = (if a = c then b else a).toNat
    ∧ atomNew .mins false a.toNat b.toNat c.toNat = (if b.toInt < a.toInt then b else a).toNat
    ∧ atomNew .maxs false a.toNat b.toNat c.toNat = (if a.toInt < b.toInt then b else a).toNat
    ∧ atomNew .minz false a.toNat b.toNat c.toNat = min a.toNat b.toNat
    ∧ atomNew .maxz false a.toNat b.toNat c.toNat = max a.toNat b.toNat)
  ∧ (∀ a b c : Word64,
    atomNew .add true a.toNat b.toNat c.toNat = (a + b).toNat ∧ atomNew .and true a.toNat b.toNat c.toNat = (a &&& b).toNat
    ∧ atomNew .or true a.toNat b.toNat c.toNat = (a ||| b).toNat ∧ atomNew .xor true a.toNat b.toNat c.toNat = (a ^^^ b).toNat
    ∧ atomNew .exch true a.toNat b.toNat c.toNat = b.toNat
    ∧ atomNew .cas true a.toNat b.toNat c.toNat = (if a = c then b else a).toNat
    ∧ atomNew .mins true a.toNat b.toNat c.toNat = (if b.toInt < a.toInt then b else a).toNat
    ∧ atomNew .maxs true a.toNat b.toNat c.toNat = (if a.toInt < b.toInt then b else a).toNat
    ∧ atomNew .minz true a.toNat b.toNat c.toNat = min a.toNat b.toNat
    ∧ atomNew .maxz true a.toNat b.toNat c.toNat = max a.toNat b.toNat)
  ∧ ∀ (wide : Bool) (a b c : Nat),
    let F := if wide then Fmt.f64 else Fmt.f32
    (isNanBits F a = true ∨ isNanBits F b = true → atomNew .fadd wide a b c = F.nanBits)
    ∧ atomNew .fadd wide a b c = ((fval F a).add .rn (fval F b)).round F .rn false)

/-- `lds`, `sts` and `atoms` at the thread's own scratchpad: `lds` writes the bytes, extended, to D; `sts` puts its bytes at
its offset; `atoms` puts the new value there and the old one in D; no other offset, block or byte of memory changes (05
R121; 09 R218 to R220). -/
def Obligations.Scratchpads : Prop :=
  (∀ (f : FLds) (s : State) (k : TKey) (t : Thread) (p : Spad) (b : Block), Alone s k t (.lds f) →
    let e := s.env k
    spadAt e.rcd e.bkey (spadAddr e t f.a f.imm).toNat f.ty.bytes = .ok p → p.own = true → s.blocks.find e.bkey = some b →
    (∀ g, p.off / 32 ≤ g → g ≤ (p.off + f.ty.bytes - 1) / 32 → b.poison.get g = 0) →
    exec (.lds f) s = .next (s.setThread k ((if f.w then t
      else t.setRegs e f.d.toNat f.ty.regs (extend f.ty (b.scratch.le p.off f.ty.bytes))).advance (.lds f))))
  ∧ (∀ (f : FSts) (s : State) (k : TKey) (t : Thread) (p : Spad) (b : Block), Alone s k t (.sts f) →
    let e := s.env k
    spadAt e.rcd e.bkey (spadAddr e t f.a f.imm).toNat f.ty.bytes = .ok p → p.own = true → s.blocks.find p.block = some b →
    (∀ w ∈ b.arrivals, meets w 16 p.off f.ty.bytes = false) →
    ∃ u b', exec (.sts f) s = .next u ∧ u = { s with blocks := u.blocks, threads := s.threads.set k (t.advance (.sts f)) }
      ∧ u.blocks.find p.block = some b' ∧ b'.scratch.bytes p.off f.ty.bytes = toBytes f.ty.bytes (dataOf f.ty e t f.b)
      ∧ (∀ o, o < p.off ∨ p.off + f.ty.bytes ≤ o → b'.scratch.get o = b.scratch.get o)
      ∧ b' = { b with scratch := b'.scratch, poison := b'.poison }
      ∧ ∀ x, x ≠ p.block → u.blocks.find x = s.blocks.find x)
  ∧ ∀ (f : FAtom) (s : State) (k : TKey) (t : Thread) (p : Spad) (b : Block), Alone s k t (.atoms f) →
    let e := s.env k
    let n := if f.wide then 8 else 4
    let cmp := if f.wide then t.regsAt e f.d.toNat 2 else (t.reg e f.d.toNat).toNat
    (spadAddr e t f.a f.imm).toNat % n = 0 → spadAt e.rcd e.bkey (spadAddr e t f.a f.imm).toNat n = .ok p → p.own = true →
    s.blocks.find p.block = some b → b.poison.get (p.off / 32) = 0 → (∀ w ∈ b.arrivals, meets w 16 p.off n = false) →
    let old := b.scratch.le p.off n
    ∃ u b', exec (.atoms f) s = .next u
      ∧ u = { s with
          blocks := u.blocks
          threads := s.threads.set k ((if f.w then t else t.setRegs e f.d.toNat (if f.wide then 2 else 1) old).advance (.atoms f)) }
      ∧ u.blocks.find p.block = some b'
      ∧ b'.scratch.bytes p.off n = toBytes n (atomNew f.op f.wide old (dataOf (atomTy f.wide) e t f.b) cmp)
      ∧ (∀ o, o < p.off ∨ p.off + n ≤ o → b'.scratch.get o = b.scratch.get o)
      ∧ ∀ x, x ≠ p.block → u.blocks.find x = s.blocks.find x

/-- `ldt` and `stt`, by the entry that stands in the table when the instruction issues, COMPLETE: at an element of a valid plain tensor of the right rank and element size, in range, are a load and a
store at base + (sum of coordinate times stride) times element size; out of range with CLIP, `ldt` writes 0 and `stt` does
nothing; at a decoded block the block store holds, `ldt` reads its value and `stt` replaces it, dirty (09 R225; 14 R294). -/
def Obligations.TensorElements : Prop :=
  (∀ (f : FLdt) (s s1 : State) (k : TKey) (t : Thread) (ps : List Piece0), Alone s k t (.ldt f) →
    let e := s.env k
    let id := (src32 e t f.b).toNat % 1024
    let x := s.entryFor e t id
    let is := coords e t f.a f.nc
    x.v = true → x.rank = f.nc.toNat + 1 → accessFits e x f.ty (f.hint == .ro) = true →
    (x.outside is = true → f.clip = true →
      exec (.ldt f) s = .next (s.bump.setThread k ((if f.w then t else t.setRegs e f.d.toNat f.ty.regs 0).advance (.ldt f))))
    ∧ (x.outside is = false → x.fmt ≠ 1 →
      let r : MemReq := { kind := .load f.hint, ty := f.ty, addr := x.elemAddr is, data := 0, cmp := 0,
                          dst := t.dstOf e f.w f.d, strm := 0, prio := if f.hint == .st then 0 else x.res }
      s.logBlocks k r = false → s.bump.checkReq e r = (.ok ps, s1) → (s1.cluster e.cl).unreadFor f.hint ps = false →
      exec (.ldt f) s = .next { s1 with
        serial := s1.serial + 1
        threads := s1.threads.set k (t.advance (.ldt f))
        loads := s1.loads ++ [newLoad s1.serial k t.pc f.ty f.hint (if f.hint == .st then 0 else x.res) (t.dstOf e f.w f.d) ps
          (s1.leavesFor e.who ps)] })
    ∧ (∀ b v, x.outside is = false → x.fmt = 1 →
      s.logMeets k (blockTag e x id is).va (blockTag e x id is).coded = false →
      (s.cluster e.cl).usable t (blockTag e x id is) (ldtUse f x is) = some b → b.vals[x.position is]? = some v →
      ∃ u, exec (.ldt f) s = .next u ∧ u.threads = s.threads.set k ((if f.w then t
          else t.setRegs e f.d.toNat f.ty.regs v.toNat).advance (.ldt f))
        ∧ OneCluster s u e.cl ∧ SameMemory s u ∧ (u.cluster e.cl).sq = (s.cluster e.cl).sq))
  ∧ ∀ (f : FStt) (s s1 : State) (k : TKey) (t : Thread) (ps : List Piece0), Alone s k t (.stt f) →
    let e := s.env k
    let id := (src32 e t f.b).toNat % 1024
    let x := s.entryFor e t id
    let is := coords e t f.a f.nc
    let v := t.regsAt e f.d.toNat f.ty.regs
    x.v = true → x.rank = f.nc.toNat + 1 → accessFits e x f.ty false = true →
    (x.outside is = true → f.clip = true → exec (.stt f) s = .next (s.bump.setThread k (t.advance (.stt f))))
    ∧ (x.outside is = false → x.fmt ≠ 1 →
      let r : MemReq := { kind := .store, ty := f.ty, addr := x.elemAddr is, data := v, cmp := 0, dst := none, strm := f.strm,
                          prio := if f.hint == .st then 0 else x.res }
      s.logBlocks k r = false → s.bump.checkReq e r = (.ok ps, s1) → s1.admission e ps = .yes →
      ∃ u, exec (.stt f) s = .next u ∧ StoreQueued s1 u e (t.advance (.stt f)) ps (toBytes f.ty.bytes v) f.strm)
    ∧ (∀ b, x.outside is = false → x.fmt = 1 →
      s.logMeets k (blockTag e x id is).va (blockTag e x id is).coded = false → accessCanonical ((blockTag e x id is).va : Int) (blockTag e x id is).coded = true →
      s.bump.blockWritable e (blockTag e x id is).va = (.ok [], s1) →
      (s1.cluster e.cl).usable t (blockTag e x id is) (sttUse x is) = some b → x.position is < b.vals.length →
      ∃ u b', exec (.stt f) s = .next u ∧ u.threads = s.threads.set k (t.advance (.stt f))
        ∧ b' ∈ (u.cluster e.cl).store ∧ b'.same b = true ∧ b'.vals = b.vals.set (x.position is) (BitVec.ofNat 64 v)
        ∧ b'.dirty = b.dirty ||| ((1 : Word64) <<< x.position is) ∧ OneCluster s u e.cl ∧ SameMemory s u)

/-- `tdesc.load`, `tdesc.store` and `tdesc.clear` COMPLETE: `tdesc.load` takes a well-formed or invalid entry from memory into the table, `tdesc.store` queues a table entry's 64
bytes, `tdesc.clear` makes an entry invalid; a valid entry that is not well-formed raises TENSOR_ID with SUB 4 and the
table stays (09 R221 to R224). -/
def Obligations.TensorTable : Prop :=
  (∀ (f : FTdescLd) (s s1 s2 : State) (k : TKey) (t : Thread) (ps : List Piece0) (bs : List Byte), Alone s k t (.tdescLoad f) →
    let e := s.env k
    let addr := memAddr e t f.a f.imm
    let id := (src32 e t f.b).toNat % 1024
    let x : TEntry := BitVec.ofNat 512 (ofBytes bs)
    s.logMeets k addr.toNat 64 = false →
    s.checkRead (.thread k) e.who addr 64 false = (.ok ps, s1) → addr % 64 = 0 → s1.readFresh e ps = (.ready bs none, s2) →
    (x.v = false ∨ x.wellFormed = true →
      ∃ u t', exec (.tdescLoad f) s = .next u ∧ u.threads = s.threads.set k t'
        ∧ t' = { t.advance (.tdescLoad f) with seen := t'.seen }
        ∧ u.tensor e.part e.ctx id = x ∧ (∀ n, n ≠ id → u.tensor e.part e.ctx n = s.tensor e.part e.ctx n)
        ∧ (∀ c, c ≠ (e.part, e.ctx) → u.ctxs.find c = s.ctxs.find c) ∧ SameMemory s u)
    ∧ (x.v = true → x.wellFormed = false → Traps e t →
      ∃ u t', exec (.tdescLoad f) s = .next u ∧ u.threads = s.threads.set k t' ∧ u.ctxs = s.ctxs ∧ SameMemory s u
        ∧ EnteredTrap e t t' { cause := 0x0E, sub := 4, value := BitVec.ofNat 64 id }
          { tpc := t.pc, ipc := t.pc, defer := false, chain := false, resume := 0 }))
  ∧ (∀ (f : FTdescSt) (s s1 : State) (k : TKey) (t : Thread) (ps : List Piece0), Alone s k t (.tdescStore f) →
    let e := s.env k
    let addr := memAddr e t f.a f.imm
    s.logHolds k addr.toNat 64 true f.strm = false → s.check e.who addr 64 true false = (.ok ps, s1) → addr % 64 = 0 →
    s1.admission e ps = .yes →
    ∃ u, exec (.tdescStore f) s = .next u ∧ StoreQueued s1 u e (t.advance (.tdescStore f)) ps
      (toBytes 64 (s.tensor e.part e.ctx ((src32 e t f.b).toNat % 1024)).toNat) f.strm)
  ∧ ∀ (f : FB) (s : State) (k : TKey) (t : Thread), Alone s k t (.tdescClear f) →
    let e := s.env k
    let id := (src32 e t f.b).toNat % 1024
    ∃ u, exec (.tdescClear f) s = .next u ∧ u = { s with threads := s.threads.set k (t.advance (.tdescClear f)), ctxs := u.ctxs }
      ∧ (u.tensor e.part e.ctx id).v = false ∧ (∀ n, n ≠ id → u.tensor e.part e.ctx n = s.tensor e.part e.ctx n)
      ∧ ∀ c, c ≠ (e.part, e.ctx) → u.ctxs.find c = s.ctxs.find c

/-- `prf`, `res.prio`, `res.demote`, `res.evict`, `cinv.line` and `cinv.all` COMPLETE, and move no data: `prf` goes on whatever it finds; `res.prio` writes the RES field
of a valid entry, `res.demote` gives its lines the lowest priority, `res.evict` goes on with no line it did not hold;
`cinv.line` drops the sector of its address and `cinv.all` all of the cluster's L1; of an invalid entry the three raise
TENSOR_ID with SUB 1 (05 R109; 09 R228 to R230). -/
def Obligations.ResidencyAndInvalidation : Prop :=
  (∀ (i : Instr) (b : Operand) (s : State) (k : TKey) (t : Thread),
    (∃ f, i = .resPrio f ∧ b = f.b) ∨ (∃ f, i = .resDemote f ∧ b = f.b) ∨ (∃ f, i = .resEvict f ∧ b = f.b) →
    Alone s k t i → Traps (s.env k) t →
    let e := s.env k
    let id := (src32 e t b).toNat % 1024
    (s.tensor e.part e.ctx id).v = false →
    ∃ t', exec i s = .next (s.setThread k t') ∧ EnteredTrap e t t' { cause := 0x0E, sub := 1, value := BitVec.ofNat 64 id }
      { tpc := t.pc, ipc := t.pc, defer := false, chain := false, resume := 0 })
  ∧
  (∀ (f : FPrf) (s : State) (k : TKey) (t : Thread), Alone s k t (.prf f) →
    ∃ u, exec (.prf f) s = .next u ∧ u.threads = s.threads.set k (t.advance (.prf f)) ∧ SameMemory s u)
  ∧ (∀ (f : FResPrio) (s : State) (k : TKey) (t : Thread), Alone s k t (.resPrio f) →
    let e := s.env k
    let id := (src32 e t f.b).toNat % 1024
    (s.tensor e.part e.ctx id).v = true →
    ∃ u, exec (.resPrio f) s = .next u ∧ u = { s with threads := s.threads.set k (t.advance (.resPrio f)), ctxs := u.ctxs }
      ∧ (u.tensor e.part e.ctx id).extractLsb' 413 3 = f.prio ∧ (u.tensor e.part e.ctx id).v = true
      ∧ (∀ n, n < 512 → n < 413 ∨ 416 ≤ n →
          (u.tensor e.part e.ctx id).getLsbD n = (s.tensor e.part e.ctx id).getLsbD n)
      ∧ ∀ n, n ≠ id → u.tensor e.part e.ctx n = s.tensor e.part e.ctx n)
  ∧ (∀ (f : FB) (s : State) (k : TKey) (t : Thread), Alone s k t (.resDemote f) →
    let e := s.env k
    let x := s.tensor e.part e.ctx ((src32 e t f.b).toNat % 1024)
    x.v = true →
    ∃ u, exec (.resDemote f) s = .next u ∧ u = { s with threads := s.threads.set k (t.advance (.resDemote f)), l2 := u.l2 }
      ∧ ∀ line, u.l2.get line = if (s.l2.any fun p => p.1 == line) = true ∧ lineIn (s.tensorHome e.who x) line = true then 1 else s.l2.get line)
  ∧ (∀ (f : FB) (s : State) (k : TKey) (t : Thread), Alone s k t (.resEvict f) →
    let e := s.env k
    let x := s.tensor e.part e.ctx ((src32 e t f.b).toNat % 1024)
    x.v = true →
    ∃ u, exec (.resEvict f) s = .next u ∧ u.threads = s.threads.set k (t.advance (.resEvict f)) ∧ SameMemory s u
      ∧ (∀ line, u.l2.get line = s.l2.get line ∨ u.l2.get line = 0)
      ∧ ∀ line, lineIn (s.tensorHome e.who x) line = false → u.l2.get line = s.l2.get line)
  ∧ (∀ (f : FMem) (s s1 : State) (k : TKey) (t : Thread) (l : Leaf) (h : Nat), Alone s k t (.cinvLine f) →
    let e := s.env k
    let addr := memAddr e t f.a f.imm
    accessCanonical addr 1 = true → ¬ (dadoVa ≤ addr.toNat ∧ addr.toNat < dadoVa + dadoSpan) →
    s.translate e.who addr.toNat = (.leaf l, s1) → s1.locOf (l.pa + (addr.toNat - l.base)) = some (.home h) →
    ∃ u, exec (.cinvLine f) s = .next u ∧ u.threads = s.threads.set k (t.advance (.cinvLine f)) ∧ SameMemory s u
      ∧ OneCluster s u e.cl ∧ (∀ x ∈ (u.cluster e.cl).l1, x.sector ≠ h / 64) ∧ ∀ x ∈ (u.cluster e.cl).l1, x ∈ (s.cluster e.cl).l1)
  ∧ ∀ (f : FG) (s : State) (k : TKey) (t : Thread), Alone s k t (.cinvAll f) →
    let e := s.env k
    ∃ u, exec (.cinvAll f) s = .next u
      ∧ u = { s with
          threads := s.threads.set k (t.advance (.cinvAll f))
          clusters := s.clusters.set e.cl { s.cluster e.cl with l1 := [] } }

/-! ### The memory path's moves (01, 05, 06) -/

/-- HOME_ITEM_APPLY of a write: its bytes are at its place, every other byte is as before, and its entry is gone from the
queue; of an atomic: the new value is there and the thread's register holds the old one. LOAD_DATA_RETURN: the last missing
piece of a load returns: the load is over and its register holds the value, extended. OPERAND_LOG_REPLAY: an entry of one
thread whose page is now present leaves the log and its access issues (01 R15; 05 R106, R108, R110, R111; 06 R142, R146,
R424; 09 R220). -/
def Obligations.MemoryPathMoves : Prop :=
  (∀ (s : State) (cl : Nat) (x : SqEntry) (a : Nat), (s.cluster cl).sq.find? (fun y => y.id == x.id) = some x → x.loc = .home a →
    s.entryWaits x = false → s.homeFailed a = false → mayLeave x (s.cluster cl).sq = true → s.Calm →
    (∀ r ∈ s.acqs, meets r.obj 64 a x.n = false) →
    (∀ bs m, x.op = .write bs m →
      ∃ u, exec (.homeItemApply cl x.id) s = .next u ∧ u.mem.bytes a bs.length = bs ∧ MemoryOutside s u a bs.length
        ∧ u.hostMem = s.hostMem ∧ u.blocks = s.blocks ∧ u.threads = s.threads
        ∧ (u.cluster cl).sq = (s.cluster cl).sq.filter (fun y => y.id != x.id)
        ∧ ∀ c, x.counted = true → s.crews.find (s.env x.key).ckey = some c →
            u.crews.find (s.env x.key).ckey = some { c with unacked := c.unacked - 1 })
    ∧ (∀ op wide b cmp load l p, x.op = .atomic op wide b cmp load → x.n = (if wide then 8 else 4) → s.markAt a = 0 → (s.formRead x).isSome = true →
      s.loads.find? (fun y => y.id == load) = some l → l.pieces = [p] → ∀ t r, s.threads.find l.key = some t → l.dst = some r →
      l.pred = none → l.ty = (if wide then .b64 else .b32) →
      let old := s.mem.le a x.n
      ∃ u, exec (.homeItemApply cl x.id) s = .next u ∧ u.mem.bytes a x.n = toBytes x.n (atomNew op wide old b cmp)
        ∧ MemoryOutside s u a x.n ∧ u.threads = s.threads.set l.key (t.setPhys r (if wide then 2 else 1) old)
        ∧ u.loads = s.loads.filter (fun y => y.id != load)
        ∧ (u.cluster cl).sq = (s.cluster cl).sq.filter (fun y => y.id != x.id)))
  ∧ (∀ (s s1 : State) (l : PendLoad) (p : Piece) (bs : List Byte) (t : Thread) (r : Nat),
    s.loads.find? (fun y => y.id == l.id && !y.atomic) = some l → l.pieces = [p] → p.got = none → (∀ a, p.loc ≠ .peer a) →
    s.loadPiece l p = some (bs, 0, s1) → s.Calm → s.threads.find l.key = some t → l.dst = some r → l.pred = none →
    ∃ u t', exec (.loadDataReturn l.id 0) s = .next u
      ∧ u.threads = s.threads.set l.key t'
      ∧ t' = { t.setPhys r l.ty.regs (extend l.ty (ofBytes bs)) with seen := t'.seen }
      ∧ u.loads = s.loads.filter (fun y => y.id != l.id) ∧ SameMemory s u)
  ∧ (∀ (s s1 : State) (l : LogEntry) (x : LogAcc) (b : Block) (ps : List Piece0) (rest : List LogEntry),
    s.log = l :: rest → l.accs = [x] → x.tokens = [] → x.failed = none →
    s.blocks.find { launch := l.crew.launch, block := l.crew.block } = some b → b.resident = true → s.Calm →
    let s0 : State := { s with log := rest }
    s0.checkReq (s0.env x.key) (l.req x) = (.ok ps, s1) →
    (∀ h, l.kind = .load h →
      exec (.operandLogReplay l.id) s = .next { s1 with
        serial := s1.serial + 1
        loads := s1.loads ++ [newLoad s1.serial x.key l.pc l.ty h l.prio x.dst ps (s1.leavesFor (s0.env x.key).who ps)] })
    ∧ (l.kind = .store → s1.admission (s0.env x.key) ps = .yes →
      ∀ t, s.threads.find x.key = some t →
      ∃ u, exec (.operandLogReplay l.id) s = .next u ∧ u.log = rest ∧ u.threads = s.threads ∧ SameMemory s u
        ∧ ∃ xs : List SqEntry, (u.cluster (s0.env x.key).cl).sq = (s.cluster (s0.env x.key).cl).sq ++ xs
          ∧ xs.map (fun x => (x.loc, x.va, x.n)) = ps))

/-! ### The Trowel (14) -/

/-- `bdec`, `bstat` and `bstat.dec` COMPLETE: `bdec` starts the fetch of a block that is neither in the store nor on its way, drops
one that would fault, and otherwise only goes on; `bstat` gives
the block's status in D, absent or resident, and `bstat.dec` that of a usable resident block (14 R296, R298). -/
def Obligations.BlockInstructions : Prop :=
  (∀ (f : FBdec) (s s1 : State) (k : TKey) (t : Thread) (x : TEntry) (id : Nat) (is : List Nat) (ps : List Piece0),
    Alone s k t (.bdec f) →
    let e := s.env k
    let c := s.cluster e.cl
    let tag := blockTag e x id is
    let s0 := s.setThread k (t.advance (.bdec f))
    s.codedElem e t f.a f.b f.nc = .ok (x, id, is) →
    ((c.block tag).isSome = true → f.fresh = false → exec (.bdec f) s = .next s0)
    ∧ ((c.block tag = none ∨ f.fresh = true) → (c.fetches.any fun y => y.tag.same tag) = true →
      exec (.bdec f) s = .next (s0.setCluster e.cl
        { c with fetches := c.fetches.map fun y => if y.tag.same tag then { y with ahead := true } else y }))
    ∧ ((c.block tag = none ∨ f.fresh = true) → (c.fetches.any fun y => y.tag.same tag) = false →
      (∀ pieces, s0.check e.who (tag.va : Int) tag.coded false false = (.ok ps, s1) ∧ anyOutside ps = false ∧ pieces = some ps
          ∨ s0.check e.who (tag.va : Int) tag.coded false false = (.wait, s1) ∧ pieces = none →
        ∃ u, exec (.bdec f) s = .next u ∧ u.threads = s.threads.set k (t.advance (.bdec f))
          ∧ (∃ y, (u.cluster e.cl).fetches = c.fetches ++ [y]
            ∧ y = { id := s.serial, tag := tag, pieces := pieces, leaves := y.leaves, waiters := [], stale := false, ahead := true,
                    held := false })
          ∧ OneCluster s u e.cl ∧ SameMemory s u)
      ∧ (s0.check e.who (tag.va : Int) tag.coded false false = (.ok ps, s1) ∧ anyOutside ps = true
          ∨ (∃ tr, s0.check e.who (tag.va : Int) tag.coded false false = (.fault tr, s1))
          ∨ (∃ pages, s0.check e.who (tag.va : Int) tag.coded false false = (.absent pages, s1)) →
        exec (.bdec f) s = .next s1 ∧ s1.threads = s.threads.set k (t.advance (.bdec f)) ∧ s1.clusters = s.clusters)))
  ∧ ∀ (f : FBstat) (s : State) (k : TKey) (t : Thread) (x : TEntry) (id : Nat) (is : List Nat),
    let e := s.env k
    let tag := blockTag e x id is
    s.codedElem e t f.a f.b f.nc = .ok (x, id, is) →
    (Alone s k t (.bstat f) → exec (.bstat f) s = .next (s.setThread k ((t.put128 e f.w f.d
      (blockStatus tag.index (s.merr e id) ((s.cluster e.cl).block tag))).advance (.bstat f))))
    ∧ (∀ b, Alone s k t (.bstatDec f) → s.blockHeld e tag = false → (s.cluster e.cl).usable t tag wholeUse = some b →
      exec (.bstatDec f) s = .next (s.setThread k ((t.put128 e f.w f.d
        (blockStatus tag.index (s.merr e id) (some b))).advance (.bstatDec f))))

/-- The `bflush` instructions COMPLETE: once the patches they wait for are acknowledged, and where there is nothing to send, they go
on, no merge error of the context being recorded; `bflush.blk` drops a clean block and `bflush.tensor` and `bflush.all`
every clean block they name; the patch of a dirty block, its mask and values in it, is queued, the block leaves the store, and the
thread waits for the patch: the block named by `bflush.blk` or `bflush.force`, every one that `bflush.tensor` or `bflush.all` names;
`bflush.force` sends a clean block too, as a forced patch (14 R290, R297). -/
def Obligations.Flushes : Prop :=
  (∀ (f : FBlk) (force : Bool) (s : State) (k : TKey) (t : Thread) (x : TEntry) (id : Nat) (is : List Nat),
    let i : Instr := if force then .bflushForce f else .bflushBlk f
    let e := s.env k
    let c := s.cluster e.cl
    let tag := blockTag e x id is
    Alone s k t i → s.codedElem e t f.a f.b f.nc = .ok (x, id, is) →
    (∀ snap, t.wait.kind = .flush false snap → (∀ y ∈ c.sq, y.id ∉ snap) → c.mergeErr.find (e.part, e.ctx) = none →
      exec i s = .next (s.setThread k (t.advance i)))
    ∧ ((∀ snap, t.wait.kind ≠ .flush false snap) → c.patchIds s.serial (fun p => p.ofTag tag) = [] →
      (force = true → s.blockHeld e tag = false) →
      (force = false → c.block tag = none → c.mergeErr.find (e.part, e.ctx) = none →
        exec i s = .next (s.setThread k (t.advance i)))
      ∧ (∀ b, force = false → c.block tag = some b → b.dirty = 0 → c.mergeErr.find (e.part, e.ctx) = none →
        exec i s = .next ((s.setCluster e.cl { c with store := c.store.filter fun y => !y.same tag }).setThread k (t.advance i)))
      ∧ (∀ b s1, c.block tag = some b → b.dirty ≠ 0 → s.sendPatch e.cl b false = .ok s1 →
        ∃ u snap y p, exec i s = .next u ∧ u.threads = s.threads.set k
            { t with wait := { kind := .flush false snap, counts := true }, chain := none, kept := some x }
          ∧ (u.cluster e.cl).block tag = none ∧ (u.cluster e.cl).sq = c.sq ++ [y] ∧ y.id ∈ snap ∧ y.op = .patch p
          ∧ p.ofTag tag = true ∧ p.mask = b.dirty ∧ p.vals = b.vals ∧ p.forced = none
          ∧ u.clusters = s1.clusters ∧ u.mem = s.mem)
      ∧ (∀ b s1, force = true → c.usable t tag wholeUse = some b → b.dirty = 0 →
        s.sendPatch e.cl b true = .ok s1 →
        ∃ u snap y p, exec i s = .next u ∧ u.threads = s.threads.set k
            { t with wait := { kind := .flush false snap, counts := true }, chain := none, kept := some x }
          ∧ (u.cluster e.cl).block tag = none ∧ (u.cluster e.cl).sq = c.sq ++ [y] ∧ y.id ∈ snap ∧ y.op = .patch p
          ∧ p.ofTag tag = true ∧ p.vals = b.vals ∧ p.forced = some (b.hdr, b.clamp)
          ∧ u.clusters = s1.clusters ∧ u.mem = s.mem)))
  ∧ (∀ (f : FB) (s : State) (k : TKey) (t : Thread), Alone s k t (.bflushTensor f) →
    let e := s.env k
    let c := s.cluster e.cl
    let id := (src32 e t f.b).toNat % 1024
    let x := s.entryFor e t id
    let named := fun (b : BsBlock) => BsBlock.ofCtx e.part e.ctx b && b.tid == id
    x.v = true → codedOk e x = true → c.mergeErr.find (e.part, e.ctx) = none →
    (t.wait.kind = .none → (∃ b ∈ c.store, named b = true ∧ b.dirty ≠ 0) →
      ∀ s1, State.sendAll e.cl (c.dirtyBlocks named) (s.setCluster e.cl (c.dropClean named)) = (none, s1) →
      ∃ u snap, exec (.bflushTensor f) s = .next u ∧ u.threads = s.threads.set k
          { t with wait := { kind := .flush false snap, counts := true }, chain := none, kept := some x }
        ∧ AllFlushed s u e.cl named snap ∧ u.clusters = s1.clusters ∧ u.mem = s.mem)
    ∧ (∀ snap, t.wait.kind = .flush false snap → (∀ y ∈ c.sq, y.id ∉ snap) →
      exec (.bflushTensor f) s = .next (s.setThread k (t.advance (.bflushTensor f))))
    ∧ (t.wait.kind = .none → c.patchIds s.serial (fun _ => true) = [] → (∀ b ∈ c.store, named b = true → b.dirty = 0) →
      exec (.bflushTensor f) s = .next ((s.setCluster e.cl { c with store := c.store.filter fun b => b.dirty != 0 || !named b }).setThread
        k (t.advance (.bflushTensor f)))))
  ∧ ∀ (f : FG) (s : State) (k : TKey) (t : Thread), Alone s k t (.bflushAll f) →
    let e := s.env k
    let c := s.cluster e.cl
    let named := BsBlock.ofCtx e.part e.ctx
    c.mergeErr.find (e.part, e.ctx) = none →
    (t.wait.kind = .none → (∃ b ∈ c.store, named b = true ∧ b.dirty ≠ 0) →
      ∀ s1, State.sendAll e.cl (c.dirtyBlocks named) (s.setCluster e.cl (c.dropClean named)) = (none, s1) →
      ∃ u snap, exec (.bflushAll f) s = .next u ∧ u.threads = s.threads.set k
          { t with wait := { kind := .flush false snap, counts := true }, chain := none }
        ∧ AllFlushed s u e.cl named snap ∧ u.clusters = s1.clusters ∧ u.mem = s.mem)
    ∧ (∀ snap, t.wait.kind = .flush false snap → (∀ y ∈ c.sq, y.id ∉ snap) →
      exec (.bflushAll f) s = .next (s.setThread k (t.advance (.bflushAll f))))
    ∧ (t.wait.kind = .none → c.patchIds s.serial (fun _ => true) = [] →
      (∀ b ∈ c.store, BsBlock.ofCtx e.part e.ctx b = true → b.dirty = 0) →
      exec (.bflushAll f) s = .next ((s.setCluster e.cl
        { c with store := c.store.filter fun b => b.dirty != 0 || !BsBlock.ofCtx e.part e.ctx b }).setThread k (t.advance (.bflushAll f))))

/-- BLOCK_FETCH decodes the block's bytes and makes it resident, clean, its fetch gone; MERGE decodes the block as it stands
at its home, puts the patched values over it, and writes it encoded again at its places and nowhere else, its entry gone
(14 R288, R292). -/
def Obligations.TrowelMoves : Prop :=
  (∀ (s s1 s2 : State) (cl : Nat) (x : BsFetch) (ps : List Piece0) (bytes : List Byte) (d : Decoded),
    (s.cluster cl).fetches.find? (fun y => y.id == x.id) = some x →
    s.fetchPieces cl x x.tag = (.ok ps, s1) → anyOutside ps = false →
    (∀ p ∈ ps, ∀ y ∈ (s1.cluster cl).sq, ∀ q, y.op = .patch q → y.meets p.1 p.2.2 = false) →
    (∀ p ∈ ps, ∀ a, p.1 = .home a → s1.homeWaits a = false) → (s1.cluster cl).block x.tag = none →
    (s1.cluster cl).storeRoom 1 x.tag.size = true → x.waiters = [] →
    (s1.countWaiters cl x false).readPieces x.tag.part x.tag.sub x.tag.owner x.tag.res ps = (true, s2) →
    gatherAll (ps.map fun p => (s2.readPiece (.fetch cl x.id) p, p.2.1)) = .ready bytes none →
    decodeBlock x.tag.f64 x.tag.dim x.tag.rate bytes = some d →
    ∃ u b, exec (.blockFetch cl x.id) s = .next u ∧ b ∈ (u.cluster cl).store ∧ b.same x.tag = true ∧ b.vals = d.vals
      ∧ b.hdr = d.head ∧ b.clamp = d.clamp ∧ b.special = d.special ∧ b.zero = d.zero ∧ b.dirty = 0 ∧ b.refresh = x.stale
      ∧ (u.cluster cl).fetches = (s.cluster cl).fetches.filter (fun y => y.id != x.id) ∧ u.threads = s.threads ∧ SameMemory s u)
  ∧ ∀ (s s1 : State) (cl : Nat) (x : SqEntry) (p : Patch) (d : Decoded), (s.cluster cl).sq.find? (fun y => y.id == x.id) = some x →
    x.op = .patch p → mayLeave x (s.cluster cl).sq = true → (∀ q ∈ p.pieces, ∀ a, q.1 = .home a → s.homeWaits a = false) →
    s.readPieces x.bill.part x.bill.sub x.bill.owner x.prio (p.pieces.map fun q => (q.1, 0, q.2)) = (true, s1) →
    (∀ q ∈ p.pieces, (s.readLoc q.1 q.2).2 = 0) →
    decodeBlock p.f64 p.dim p.rate (p.pieces.flatMap fun q => (s.readLoc q.1 q.2).1) = some d →
    s.Calm → (∀ r ∈ s.acqs, ∀ q ∈ p.pieces, ∀ a, q.1 = .home a → meets r.obj 64 a q.2 = false) →
    ∃ u, exec (.merge cl x.id) s = .next u ∧ u.threads = s.threads
      ∧ (u.cluster cl).sq = (s.cluster cl).sq.filter (fun y => y.id != x.id)
      ∧ (∀ b, (∀ q ∈ p.pieces, ∀ a, q.1 = .home a → b < a ∨ a + q.2 ≤ b) → u.mem.get b = s.mem.get b)
      ∧ ∀ a n, p.pieces = [(.home a, n)] → s.homeFailed a = false →
          u.mem.bytes a ((p.merged d).take n).length = (p.merged d).take n

/-! ### The Hawk (16) -/

/-- `hcpy`, `hmc`, `xcpy` and `hrun` COMPLETE: `hcpy`, `hmc` and `xcpy` give the Hawk a copy that joins the thread's open
batch, and go on, and `hrun` starts the program of a good descriptor in a free slot and goes on; where its slot is busy, or no slot, place or queue is
free, it stalls, and goes on later by what it read when it issued. A copy of no bytes only goes
on; with 64 copies an `hcpy` stalls; an ill-formed one raises HAWK with SUB 3, a bad chain with SUB 1, and an
`hrun` that asks for decompression ILLEGAL_ENCODING while that feature is absent, by the reading of log entry 83 (16 R310 to R313, R315 to R318, R324, R329). -/
def Obligations.CopyInstructions : Prop :=
  ((∀ (f : FHcpy) (s : State) (k : TKey) (t : Thread) (src : Int) (lc : Nat), Alone s k t (.hcpy f) →
    let e := s.env k
    let len := (dst32 e t f.d).toNat
    let ops := src64 e t f.b
    let aw := f.awoff.toNat * 16
    (chainBad f.et ops.toNat = true → Traps e t →
      ∃ t', exec (.hcpy f) s = .next (s.setThread k t') ∧ EnteredTrap e t t' { cause := 0x10, sub := 1, value := ops }
        { tpc := t.pc, ipc := t.pc, defer := false, chain := false, resume := 0 })
    ∧ (chainBad f.et ops.toNat = false → illFormedCopy e.rcd.scratchBytes len f.dk f.et ops.toNat f.awe aw = true → Traps e t →
      ∃ t', exec (.hcpy f) s = .next (s.setThread k t') ∧ EnteredTrap e t t' { cause := 0x10, sub := 3, value := BitVec.ofNat 64 len }
        { tpc := t.pc, ipc := t.pc, defer := false, chain := false, resume := 0 })
    ∧ (chainBad f.et ops.toNat = false → illFormedCopy e.rcd.scratchBytes len f.dk f.et ops.toNat f.awe aw = false →
      s.copySource e f.sk (quadLo e t f.a) len f.lc.toNat f.ldef f.dz = .ok (src, lc) →
      (64 ≤ (s.cluster e.cl).hawk.copies.length → exec (.hcpy f) s = .next (s.setThread k (Stalled t false)))
      ∧ ((s.cluster e.cl).hawk.copies.length < 64 → len = 0 → exec (.hcpy f) s = .next (s.setThread k (t.advance (.hcpy f))))
      ∧ ((s.cluster e.cl).hawk.copies.length < 64 → len ≠ 0 →
        ∃ u, exec (.hcpy f) s = .next u ∧ u.threads = s.threads.set k ((t.join s.serial).advance (.hcpy f))
          ∧ (u.cluster e.cl).hawk.copies = (s.cluster e.cl).hawk.copies ++ [newCopy e s.serial .one [(k, t.openBatch)] f.sk src f.dk
              (quadHi e t f.a) len f.dz lc f.et ops (if f.awe then some aw else none)]
          ∧ OneCluster s u e.cl ∧ SameMemory s u)))
  ∧ (∀ (f : FHmc) (s : State) (k : TKey) (t : Thread) (src : Int) (lc : Nat) (p : Spad) (b : Block), Alone s k t (.hmc f) →
    let e := s.env k
    let len := (dst32 e t f.d).toNat
    let hi := quadHi e t f.a
    let aw := f.awoff.toNat * 16
    let list := (src32 e t f.b).toNat
    fld hi 19 13 = 0 → fld hi 32 32 = 0 → f.awe = true → list % 32 = 0 →
    illFormedCopy e.rcd.scratchBytes len .spad .raw 0 true aw = false → spadAt e.rcd e.bkey list 32 = .ok p → p.own = true →
    s.copySource e .mem (quadLo e t f.a) len f.lc.toNat false false = .ok (src, lc) → s.blocks.find e.bkey = some b →
    (s.cluster e.cl).hawk.copies.length < 64 → len ≠ 0 →
    ∃ u, exec (.hmc f) s = .next u ∧ u.threads = s.threads.set k ((t.join s.serial).advance (.hmc f))
      ∧ (u.cluster e.cl).hawk.copies = (s.cluster e.cl).hawk.copies ++ [newCopy e s.serial
          (.multi (targets (b.scratch.bytes p.off 32)) []) [(k, t.openBatch)] .mem src .spad (fld hi 0 32) len false lc .raw 0 (some aw)]
      ∧ OneCluster s u e.cl ∧ SameMemory s u)
  ∧ ∀ (f : FXcpy) (s : State) (k : TKey) (t : Thread), Alone s k t (.xcpy f) →
    let e := s.env k
    let len := (dst32 e t f.d).toNat
    (s.cluster e.cl).hawk.copies.length < 64 → len ≠ 0 →
    ∃ u, exec (.xcpy f) s = .next u ∧ u.threads = s.threads.set k ((t.join s.serial).advance (.xcpy f))
      ∧ (u.cluster e.cl).hawk.copies = (s.cluster e.cl).hawk.copies ++ [newCopy e s.serial
          (.packets f.psel f.port.toNat (256 * 2 ^ f.pkt.val)) [(k, t.openBatch)] .mem (quadLo e t f.a : Int) .mem (quadHi e t f.a)
          len false 0 .raw 0 none]
      ∧ OneCluster s u e.cl ∧ SameMemory s u)
  ∧ (∀ (f : FHrun) (s : State) (k : TKey) (t : Thread) (p : Spad) (b : Block) (sk : CopySrc) (dk : CopyDst) (et : CopyEt)
    (src : Int) (lc : Nat), Alone s k t (.hrun f) →
    let e := s.env k
    let addr := (src32 e t f.a).toNat
    let d : BitVec 512 := BitVec.ofNat 512 (b.scratch.le p.off 64)
    let h := (s.cluster e.cl).hawk
    t.prog = none → spadAt e.rcd e.bkey addr 64 = .ok p → s.blocks.find e.bkey = some b → p.own = true → addr % 64 = 0 →
    Desc.bad d = false → Desc.sk d = some sk → Desc.dk d = some dk → Desc.et d = some et →
    (Desc.dz d = true → e.has 3 = false → Traps e t →
      ∃ t', exec (.hrun f) s = .next (s.setThread k t') ∧ EnteredTrap e t t'
        { cause := 0x01, sub := 0, value := (Instr.hrun f).word0.setWidth 64 }
        { tpc := t.pc, ipc := t.pc, defer := false, chain := false, resume := 0 })
    ∧ ((Desc.dz d = true → e.has 3 = true) →
    chainBad et (Desc.ops d).toNat = false →
    illFormedCopy e.rcd.scratchBytes (Desc.len d) dk et (Desc.ops d).toNat (Desc.awe d) (Desc.aw d) = false →
    s.copySource e sk (Desc.src d) (Desc.len d) (Desc.lc d) (Desc.ldef d) (Desc.dz d) = .ok (src, lc) →
    (h.slots.find (e.bkey, f.k.toNat) ≠ none ∨ 8 ≤ h.slots.length ∨ 64 ≤ h.copies.length
        ∨ dk = .dq ∧ h.dqs.find (e.bkey, Desc.dst d % 8) = none ∧ 8 ≤ h.dqs.length →
      exec (.hrun f) s = .next (s.setThread k { Stalled t false with prog := some { desc := d, src := src, lc := lc } }))
    ∧ (h.slots.find (e.bkey, f.k.toNat) = none → h.slots.length < 8 → h.copies.length < 64 →
    (dk = .dq → h.dqs.find (e.bkey, Desc.dst d % 8) ≠ none ∨ h.dqs.length < 8) →
    ∃ u, exec (.hrun f) s = .next u ∧ u.threads = s.threads.set k ((t.join s.serial).advance (.hrun f))
      ∧ (u.cluster e.cl).hawk.copies = h.copies ++ [newCopy e s.serial (.prog f.k.toNat d) [(k, t.openBatch)] sk src dk (Desc.dst d)
          (Desc.len d) (Desc.dz d) lc et (Desc.ops d) (if Desc.awe d then some (Desc.aw d) else none)]
      ∧ (u.cluster e.cl).hawk.slots.find (e.bkey, f.k.toNat) = some s.serial ∧ OneCluster s u e.cl ∧ SameMemory s u)))
  ∧ (∀ (f : FHrun) (s : State) (k : TKey) (t : Thread) (x : Program) (sk : CopySrc) (dk : CopyDst) (et : CopyEt), Alone s k t (.hrun f) →
    let e := s.env k
    let h := (s.cluster e.cl).hawk
    let d := x.desc
    t.prog = some x → Desc.sk d = some sk → Desc.dk d = some dk → Desc.et d = some et →
    h.slots.find (e.bkey, f.k.toNat) = none → h.slots.length < 8 → h.copies.length < 64 →
    (dk = .dq → h.dqs.find (e.bkey, Desc.dst d % 8) ≠ none ∨ h.dqs.length < 8) →
    ∃ u, exec (.hrun f) s = .next u ∧ u.threads = s.threads.set k ((t.join s.serial).advance (.hrun f))
      ∧ (u.cluster e.cl).hawk.copies = h.copies ++ [newCopy e s.serial (.prog f.k.toNat d) [(k, t.openBatch)] sk x.src dk (Desc.dst d)
          (Desc.len d) (Desc.dz d) x.lc et (Desc.ops d) (if Desc.awe d then some (Desc.aw d) else none)]
      ∧ (u.cluster e.cl).hawk.slots.find (e.bkey, f.k.toNat) = some s.serial ∧ OneCluster s u e.cl ∧ SameMemory s u)

/-- `hseal`, `hwait` and `htest` COMPLETE: `hseal` closes the open batch and gives its number; `hwait` and `htest` of a sealed
batch give DONE with the OR of the statuses not yet reported once every batch up to it is complete, and before that `hwait` stalls and `htest` gives 0; an
unsealed batch raises HAWK with SUB 2 (16 R320 to R322). -/
def Obligations.Batches : Prop :=
  (∀ (f : FD) (s : State) (k : TKey) (t : Thread), Alone s k t (.hseal f) →
    let e := s.env k
    let c := (t.batchNo + 1) % 65536
    ((t.batch ((t.batchNo + 1 + 32768) % 65536)).copies = [] →
      ∃ t', exec (.hseal f) s = .next (s.setThread k t') ∧ t'.batchNo = c ∧ t'.pc = t.pc + BitVec.ofNat 64 (Instr.hseal f).bytes
        ∧ WritesRegs e t t' f.w f.d 1 c ∧ (t'.batches.find c).isSome = true ∧ t'.batches.find ((c + 1) % 65536) = none)
    ∧ ((t.batch ((t.batchNo + 1 + 32768) % 65536)).copies ≠ [] → exec (.hseal f) s = .next (s.setThread k (Stalled t true))))
  ∧ ∀ (f : FDA) (waits : Bool) (s : State) (k : TKey) (t : Thread),
    let i : Instr := if waits then .hwait f else .htest f
    let e := s.env k
    let n := (src32 e t f.a).toNat % 65536
    Alone s k t i →
    ((t.batchNo + 65536 - n) % 65536 < 32768 → (∀ p ∈ t.covered n, p.2.copies = []) →
      ∃ t', exec i s = .next (s.setThread k t') ∧ t'.pc = t.pc + BitVec.ofNat 64 i.bytes
        ∧ WritesRegs e t t' f.w f.d 2 (reportOf (t.covered n)).toNat
        ∧ ∀ m b, t.batches.find m = some b → t'.batches.find m =
            some { b with reported := b.reported || (t.covered n).any fun p => p.1 == m })
    ∧ ((t.batchNo + 65536 - n) % 65536 < 32768 → (∃ p ∈ t.covered n, p.2.copies ≠ []) →
      exec i s = .next (s.setThread k (if waits then Stalled t true else (t.put64 e f.w f.d 0).advance i)))
    ∧ (32768 ≤ (t.batchNo + 65536 - n) % 65536 → Traps e t →
      ∃ t', exec i s = .next (s.setThread k t') ∧ EnteredTrap e t t' { cause := 0x10, sub := 2, value := BitVec.ofNat 64 n }
        { tpc := t.pc, ipc := t.pc, defer := false, chain := false, resume := 0 })

/-- `qpop` and `qpop.try` COMPLETE: they take the head entry of a queue, the thread with crew rank r its bytes 8 r to
8 r + 7; on an empty queue a copy feeds `qpop` waits, on one nothing feeds it raises HAWK with SUB 4, and `qpop.try`
answers false (16 R319). -/
def Obligations.DeliveryQueues : Prop :=
  (∀ (f : FQpop) (s : State) (k : TKey) (t : Thread), Alone s k t (.qpop f) →
    let e := s.env k
    let h := (s.cluster e.cl).hawk
    let q := f.q.toNat
    (∀ x rest, h.dqs.get (e.bkey, q) [] = x :: rest → x.mark = 0 → s.qpopAhead e.bkey q (t.qpopOrder s.serial) = false →
      ∃ u, exec (.qpop f) s = .next u 
        ∧ (u.cluster e.cl).hawk.dqs = ((h.dqs.set (e.bkey, q) rest).filter fun p =>
            !p.2.isEmpty || h.copies.any fun c => c.feeds p.1.1 p.1.2)
        ∧ OneCluster s u e.cl ∧ SameMemory s u
        ∧ u.threads = s.threads.set k ((t.put64 e f.w f.d
            (BitVec.ofNat 64 (ofBytes ((x.bytes.drop (8 * e.crank)).take 8)))).advance (.qpop f)))
    ∧ (h.dqs.get (e.bkey, q) [] = [] → (h.copies.any fun c => c.feeds e.bkey q) = true →
      exec (.qpop f) s = .next (s.bump.setThread k
        { t with wait := { kind := .qpop q (t.qpopOrder s.serial), counts := false }, chain := none }))
    ∧ (h.dqs.get (e.bkey, q) [] = [] → (h.copies.any fun c => c.feeds e.bkey q) = false → Traps e t →
      ∃ t', exec (.qpop f) s = .next (s.setThread k t') ∧ EnteredTrap e t t' { cause := 0x10, sub := 4, value := BitVec.ofNat 64 q }
        { tpc := t.pc, ipc := t.pc, defer := false, chain := false, resume := 0 }))
  ∧ ∀ (f : FQpopTry) (s : State) (k : TKey) (t : Thread), Alone s k t (.qpopTry f) →
    let e := s.env k
    let h := (s.cluster e.cl).hawk
    let q := f.q.toNat
    (∀ x rest, h.dqs.get (e.bkey, q) [] = x :: rest → x.mark = 0 →
      ∃ u, exec (.qpopTry f) s = .next u 
        ∧ (u.cluster e.cl).hawk.dqs = ((h.dqs.set (e.bkey, q) rest).filter fun p =>
            !p.2.isEmpty || h.copies.any fun c => c.feeds p.1.1 p.1.2)
        ∧ OneCluster s u e.cl ∧ SameMemory s u
        ∧ u.threads = s.threads.set k (((t.put64 e f.w f.d
            (BitVec.ofNat 64 (ofBytes ((x.bytes.drop (8 * e.crank)).take 8)))).setPred f.pr.toNat true).advance (.qpopTry f)))
    ∧ (h.dqs.get (e.bkey, q) [] = [] →
      exec (.qpopTry f) s = .next (s.setThread k ((t.setPred f.pr.toNat false).advance (.qpopTry f))))

/-- The Hawk's moves: a delivery of a one-shot copy to a scratchpad writes the next bytes at their place and nowhere else,
and counts them as delivered; a read takes the next source bytes through the chain; a complete copy leaves the Hawk, frees
its slot and joins its status to its member's batch; a receiver that cannot accept a multicast is flagged (16 R312, R317,
R322, R323, R325, R331). -/
def Obligations.HawkMoves : Prop :=
  (∀ (s : State) (cl : Nat) (c : Copy) (p : Spad) (b : Block), (s.cluster cl).hawk.copies.find? (fun y => y.id == c.id) = some c →
    s.copyMoves c = true → c.tokens = [] → c.kind = .one → c.dk = .spad → c.out ≠ [] → c.aw = none →
    let a := (c.dst + c.put) % 2 ^ 32
    let n := min c.out.length (32 - a % 32)
    spadAt (s.recOf c.launch) c.block a n = .ok p → s.blocks.find p.block = some b → b.arrivals = [] →
    ∃ u b', exec (.hawkDelivery cl c.id) s = .next u ∧ u.blocks.find p.block = some b'
      ∧ b'.scratch.bytes p.off n = (c.out.take n).map (·.b)
      ∧ (∀ o, o < p.off ∨ p.off + n ≤ o → b'.scratch.get o = b.scratch.get o)
      ∧ (∀ x, x ≠ p.block → u.blocks.find x = s.blocks.find x)
      ∧ (∃ c' ∈ (u.cluster cl).hawk.copies, c'.id = c.id ∧ c'.put = c.put + n ∧ c'.out = c.out.drop n)
      ∧ u.threads = s.threads ∧ u.mem = s.mem ∧ OneCluster s u cl)
  ∧ (∀ (s s1 : State) (cl : Nat) (c : Copy) (bs : List HByte), (s.cluster cl).hawk.copies.find? (fun y => y.id == c.id) = some c →
    s.copyMoves c = true → c.tokens = [] → c.ready = false → c.dead = none → c.pos < c.len → c.dz = false →
    s.readPlain cl c = (.bytes bs, s1) →
    let r := applyChain c.et c.ops.toNat (c.raw ++ bs)
    ∃ u, exec (.hawkDelivery cl c.id) s = .next u ∧ SameMemory s u ∧ u.threads = s.threads
      ∧ ∃ c' ∈ (u.cluster cl).hawk.copies, c'.id = c.id ∧ c'.pos = c.pos + bs.length ∧ c'.out = c.out ++ r.1 ∧ c'.raw = r.2)
  ∧ (∀ (s : State) (cl : Nat) (c : Copy) (m : TKey × Nat) (t : Thread) (b : Batch),
    (s.cluster cl).hawk.copies.find? (fun y => y.id == c.id) = some c → s.copyDone cl c = true → c.members = [m] →
    s.threads.find m.1 = some t → t.batches.find m.2 = some b →
    ∃ u t', exec (.copyComplete cl c.id) s = .next u
      ∧ (u.cluster cl).hawk.copies = (s.cluster cl).hawk.copies.filter (fun y => y.id != c.id)
      ∧ (∀ x ∈ (u.cluster cl).hawk.slots, x.2 ≠ c.id) ∧ u.threads = s.threads.set m.1 t'
      ∧ t' = { t with batches := t'.batches }
      ∧ t'.batches.find m.2 = some { b with copies := b.copies.erase c.id, status := joinStatus b.status c.status } ∧ SameMemory s u)
  ∧ ∀ (s : State) (cl entry : Nat) (c : Copy) (es : List (Nat × BitVec 16)) (acc : List BKey) (p : Nat × BitVec 16),
    (s.cluster cl).hawk.copies.find? (fun y => y.id == c.id) = some c → c.kind = .multi es acc →
    es.find? (fun q => q.1 == entry) = some p →
    let rest := es.filter fun q => q.1 != entry
    (∀ b, s.receiver cl c p.2 = some b →
      ∃ u, exec (.multicastAccept cl c.id entry) s = .next u ∧ u.mem = s.mem ∧ u.threads = s.threads
        ∧ ∃ c' ∈ (u.cluster cl).hawk.copies, c' = { c with kind := .multi rest (acc ++ [b]) })
    ∧ (s.receiver cl c p.2 = none →
      ∃ u, exec (.multicastAccept cl c.id entry) s = .next u ∧ SameMemory s u ∧ u.threads = s.threads
        ∧ ∃ c' ∈ (u.cluster cl).hawk.copies, c' = { c with kind := .multi rest acc, status := c'.status }
          ∧ c'.status = c.status ||| ((1 : Word64) <<< (48 + entry)) ||| ((1 : Word64) <<< 5))

/-! ### The matrix engines (19) -/

/-- `mtask`, `mwait`, `mwait.st`, `macc.reg` and `macc.spad` COMPLETE: `mtask` of a good record gives the scheduler a task
with the next number and that number in D; the `mwait` forms of a complete task give its status, and `mwait` raises MATRIX for a failed one; of one not complete they stall; another block
holding the matrix state raises MATRIX with SUB 5. `macc.reg` gives each thread element (row A mod 32, its crew rank) of a
slot, scaled and converted; `macc.spad` writes rows of a slot to the scratchpad; with CLR they clear what they read; a slot
a task still names raises MATRIX with SUB 7, but not for a `macc` with CLR where the task has yet to start, by the reading of log
entry 82 (19 R355, R356, R361, R362, R367). -/
def Obligations.MatrixInstructions : Prop :=
  ((∀ (f : FDAB) (s : State) (k : TKey) (t : Thread), Alone s k t (.mtask f) →
    let e := s.env k
    let r := (src128 e t f.a).toNat
    let x := s.tensor e.part e.ctx (fld r 4 10)
    let y := s.tensor e.part e.ctx (fld r 14 10)
    let m := (s.cluster e.cl).matrix
    let no := (m.counter + 1) % 65536
    x.v = true → y.v = true → operandFits x y = true → operandFits y x = true → recordBad r x y = false →
    (∀ d ∈ recordDeps r, depBad no d = false) → m.heldByOther e.bkey = false → m.tasks.length < 16 →
    ∃ u, exec (.mtask f) s = .next u
      ∧ u.threads = s.threads.set k ((t.put32 e f.w f.d (BitVec.ofNat 32 no)).advance (.mtask f))
      ∧ (u.cluster e.cl).matrix.holder = some e.bkey ∧ (u.cluster e.cl).matrix.ctr = no
      ∧ (u.cluster e.cl).matrix.tasks = (if m.holder.isSome then m.tasks else []) ++ [newTask r no s.serial (src64 e t f.b).toNat x y]
      ∧ OneCluster s u e.cl ∧ SameMemory s u)
  ∧ ∀ (f : FDA) (quiet : Bool) (s : State) (k : TKey) (t : Thread),
    let i : Instr := if quiet then .mwaitSt f else .mwait f
    let e := s.env k
    let n := (src32 e t f.a).toNat % 65536
    let m := (s.cluster e.cl).matrix
    let traps := fun sub v => ∃ t', exec i s = .next (s.setThread k t') ∧ EnteredTrap e t t' { cause := 0x11, sub := sub, value := BitVec.ofNat 64 v }
      { tpc := t.pc, ipc := t.pc, defer := false, chain := false, resume := 0 }
    Alone s k t i →
    (m.heldByOther e.bkey = true → Traps e t → traps 5 e.cl)
    ∧ (m.holder = none → (n ≠ 0 → Traps e t → traps 9 n)
        ∧ (n = 0 → exec i s = .next (s.setThread k ((t.put32 e f.w f.d 1).advance i))))
    ∧ (m.holder = some e.bkey → 32768 ≤ (m.ctr + 65536 - n) % 65536 → Traps e t → traps 9 n)
    ∧ (m.holder = some e.bkey → (m.ctr + 65536 - n) % 65536 < 32768 →
        ((∃ u ∈ m.tasks, (n + 65536 - u.no) % 65536 < 32768) → exec i s = .next (s.setThread k (Stalled t true)))
        ∧ ∀ st pa, (∀ u ∈ m.tasks, 32768 ≤ (n + 65536 - u.no) % 65536) → m.done.get n (1, 0) = (st, pa) →
          (quiet = true ∨ statusFailed st = false →
            exec i s = .next (s.setThread k ((t.put32 e f.w f.d st).advance i)))
          ∧ (quiet = false → st.getLsbD 4 = false → Traps e t → ∀ sub, failSub st = some sub → traps sub n)))
  ∧ ((∀ (f : FMaccReg) (s : State) (k : TKey) (t : Thread), Alone s k t (.maccReg f) →
    let e := s.env k
    let m := (s.cluster e.cl).matrix
    let n := f.slot.toNat
    let at_ := 32 * ((src32 e t f.a).toNat % 32) + e.crank
    m.holder = some e.bkey →
    (m.accFault e.bkey e.cl n f.cvt f.clr = none →
      let v := accOut (Fpm.of t.fpm) f.cvt (m.slot n).kind (imm20 f.k) ((m.slot n).tile.get at_)
      ∃ u, exec (.maccReg f) s = .next u ∧ u.threads = s.threads.set k
          ((if f.cvt = .f64 then t.put64 e f.w f.d (BitVec.ofNat 64 v) else t.put32 e f.w f.d (BitVec.ofNat 32 v)).advance (.maccReg f))
        ∧ (∀ j, ((u.cluster e.cl).matrix.slot n).tile.get j =
            if f.clr = true ∧ j = at_ then 0 else (m.slot n).tile.get j)
        ∧ (∀ j, j ≠ n → (u.cluster e.cl).matrix.slot j = m.slot j) ∧ OneCluster s u e.cl ∧ SameMemory s u)
    ∧ (∀ tr, m.accFault e.bkey e.cl n f.cvt f.clr = some tr → Traps e t →
      ∃ t', exec (.maccReg f) s = .next (s.setThread k t') ∧ EnteredTrap e t t' tr
        { tpc := t.pc, ipc := t.pc, defer := false, chain := false, resume := 0 })
    ∧ ((m.slot n).odd = false → (m.slot n).kind ≠ .fp64 →
      ((∃ u ∈ m.tasks, u.slot = n ∧ (u.running = true ∨ f.clr = false)) →
        m.accFault e.bkey e.cl n f.cvt f.clr = some { cause := 0x11, sub := 7, value := BitVec.ofNat 64 n })
      ∧ ((∀ u ∈ m.tasks, u.slot = n → u.running = false ∧ f.clr = true) → m.accFault e.bkey e.cl n f.cvt f.clr = none)))
  ∧ ∀ (f : FMaccSpad) (s : State) (k : TKey) (t : Thread) (p : Spad) (b : Block), Alone s k t (.maccSpad f) →
    let e := s.env k
    let m := (s.cluster e.cl).matrix
    let x := m.slot f.slot.toNat
    let d := (src32 e t f.a).toNat
    let n := fld d 5 6
    let w := accWidth f.cvt
    let addr := (src32 e t f.b).toNat
    m.holder = some e.bkey → m.accFault e.bkey e.cl f.slot.toNat f.cvt f.clr = none → fld d 11 21 = 0 → n ≠ 0 → fld d 0 5 + n ≤ 32 →
    spadAt e.rcd e.bkey addr (32 * w * n) = .ok p → p.own = true → addr % w = 0 → s.blocks.find e.bkey = some b → b.arrivals = [] →
    ∃ u b', exec (.maccSpad f) s = .next u ∧ u.threads = s.threads.set k (t.advance (.maccSpad f)) ∧ u.mem = s.mem
      ∧ u.blocks.find e.bkey = some b' ∧ (∀ c, c ≠ e.bkey → u.blocks.find c = s.blocks.find c)
      ∧ (∀ r j, r < n → j < 32 → b'.scratch.bytes (p.off + 32 * w * r + w * j) w =
          toBytes w (accOut (Fpm.of t.fpm) f.cvt x.kind (imm20 f.k) (x.tile.get (32 * (fld d 0 5 + r) + j))))
      ∧ (∀ o, o < p.off ∨ p.off + 32 * w * n ≤ o → b'.scratch.get o = b.scratch.get o)
      ∧ ∀ j, ((u.cluster e.cl).matrix.slot f.slot.toNat).tile.get j =
          if f.clr = true ∧ 32 * fld d 0 5 ≤ j ∧ j < 32 * (fld d 0 5 + n) then 0 else x.tile.get j)

/-- The matrix engines' moves: a task whose slot and FIFOs are free starts: a `.mul` task with its slot cleared, of its kind, a pair
formed by an FP64 one and dissolved by another; a `.mac` task on a slot of its kind, failing with KIND on another; a `.skip` task
changing no slot; one whose dependence failed fails with DEPFAIL; a step of
unmarked, unscaled entries whose checksums hold adds to each element of the slot the rounded sum of its old value and the
exact dot product of row and column; the scale bytes of a step are taken from memory (19 R354, R357 to R361). -/
def Obligations.MatrixMoves : Prop :=
  (∀ (s : State) (cl eng : Nat) (t : Task),
    let m := (s.cluster cl).matrix
    let starts := fun fail => m.tasks.map fun y => if y.no = t.no then { t with running := true, fail := fail } else y
    let other := if t.slot % 2 = 0 then t.slot + 1 else t.slot - 1
    let kind := (m.slot t.slot).kind
    m.next eng = some t → t.fail = none →
    ∃ u, exec (.taskStart cl eng) s = .next u ∧ OneCluster s u cl ∧ SameMemory s u ∧ u.threads = s.threads
      ∧ let v := (u.cluster cl).matrix
        (m.depFailed t = true → v = { m with tasks := starts (some 3) })
        ∧ (m.depFailed t = false →
          (t.op = 2 → v = { m with tasks := starts none })
          ∧ (t.op = 1 → kind = t.pair.2 → v = { m with tasks := starts none })
          ∧ (t.op = 1 → kind ≠ t.pair.2 → v = { m with tasks := starts (some 5) })
          ∧ (t.op = 0 → v.tasks = starts none ∧ v.slot t.slot = { kind := t.pair.2, odd := false, tile := [] }
            ∧ (t.pair.2 = .fp64 → t.slot % 2 = 0 → v.slot other = { kind := .fp64, odd := true, tile := [] })
            ∧ (t.pair.2 ≠ .fp64 → kind = .fp64 → v.slot other = { kind := .fp32, odd := false, tile := [] })
            ∧ (t.pair.2 ≠ .fp64 → kind ≠ .fp64 → v.slot other = m.slot other)
            ∧ ∀ j, j ≠ t.slot → j ≠ other → t.pair.2 ≠ .fp64 ∨ t.slot % 2 = 0 → v.slot j = m.slot j)))
  ∧ (∀ (s : State) (cl eng : Nat) (t : Task) (a b : Entry) (arest brest : List Entry),
    let m := (s.cluster cl).matrix
    let n := t.pair.1
    let rows := operandRows t.aTy n a.bytes [] (t.step % 4)
    let cols := operandRows t.bTy n b.bytes [] 0
    let old := (m.slot t.slot).tile
    m.onEngine eng = some t → (s.cluster cl).freeze = none → t.freshA = true → t.fail = none → t.op ≠ 2 →
    m.fifo t.fifoA = a :: arest → m.fifo t.fifoB = b :: brest → a.mark = 0 → b.mark = 0 →
    t.aScaled = false → t.bScaled = false → t.scales = none →
    (t.tol = 3 ∨ stepBad t.pair.2 t.tol old (stepTile t.pair.2 old rows cols) rows cols n = false) →
    ∃ u, exec (.taskStep cl eng []) s = .next u
      ∧ (∀ i j, i < 32 → j < 32 → ((u.cluster cl).matrix.slot t.slot).tile.get (32 * i + j) =
          BitVec.ofNat 64 (accBits t.pair.2 ((slotVal t.pair.2 (old.get (32 * i + j))).add .rn
            (dotVals (rows.getD i []) (cols.getD j [])))))
      ∧ (u.cluster cl).matrix.fifo t.fifoB = brest ∧ (u.cluster cl).matrix.fifo t.fifoA = arest
      ∧ OneCluster s u cl ∧ SameMemory s u ∧ u.threads = s.threads)
  ∧ ∀ (s s1 s2 : State) (cl eng : Nat) (t : Task) (b : BKey) (ps : List Piece0) (hb : List HByte),
    let m := (s.cluster cl).matrix
    let w := s.launchWho b.launch cl
    m.onEngine eng = some t → m.holder = some b → t.tokens = [] → t.fail = none → t.op ≠ 2 → t.aScaled = true →
    t.bScaled = false → t.scales = none →
    s.checkRead (.task cl t.no) w ((t.aSbase.toNat + t.asoff + 32 * t.step : Nat) : Int) 32 false = (.ok ps, s1) →
    s1.readFor cl t.since (.task cl t.no) w (s.recOf b.launch).owner ps = (.bytes hb, s2) → (∀ x ∈ hb, x.mark = 0) →
    ∃ u, exec (.scaleRead cl eng) s = .next u ∧ SameMemory s u ∧ u.threads = s.threads
      ∧ ∃ t' ∈ (u.cluster cl).matrix.tasks, t' = { t with scales := some ((hb.map (·.b)).take 32, (hb.map (·.b)).drop 32) }

/-! ### Scrim (17) -/

/-- A peer's read, write and atomic at this device, once at its port's head: one not admitted is answered with status 2 and
does nothing else; one that must wait stays; one served counts as an access and is answered with the bytes, the
acknowledgement or the old value, and a write or atomic changes its bytes and no others (17 R338, R344; 22 R404; 06
R139). Status 2 for an admitted atomic that is not aligned is the model's reading, log entry 31. -/
def Obligations.ScrimRequests : Prop :=
  (∀ (s : State) (port : Nat) (x : ScrimTx), s.inboxHead port 0 = some x →
    let a := txAddr x.hdr
    let n := txLen x.hdr
    (s.peerMay (txDev x.hdr) a n false = false →
      exec (.scrimRead port) s = .next { s with ports := s.ports.set port (s.answered port x 5 2 []) })
    ∧ (s.peerMay (txDev x.hdr) a n false = true → s.peerWaits x.hdr n = true → exec (.scrimRead port) s = .next s)
    ∧ (s.peerMay (txDev x.hdr) a n false = true → s.peerWaits x.hdr n = false →
      ∃ u, exec (.scrimRead port) s = .next u
        ∧ u = { s with
            hbm := u.hbm
            ports := s.ports.set port (s.answered port x 5 (if s.spanMark a n = 0 then 0 else 1) (s.mem.bytes a n)) }
        ∧ HotCounted s u (some (txDev x.hdr)) a n))
  ∧ (∀ (s : State) (port : Nat) (x : ScrimTx), s.inboxHead port 1 = some x →
    let a := txAddr x.hdr
    let n := x.data.length
    (s.peerMay (txDev x.hdr) a n true = false →
      exec (.scrimWrite port) s = .next { s with ports := s.ports.set port (s.answered port x 6 2 []) })
    ∧ (s.peerMay (txDev x.hdr) a n true = true → s.peerWaits x.hdr n = true → exec (.scrimWrite port) s = .next s)
    ∧ (s.peerMay (txDev x.hdr) a n true = true → s.peerWaits x.hdr n = false → s.Calm → s.acqs = [] → s.homesUp a n →
      ∃ u, exec (.scrimWrite port) s = .next u ∧ u.mem.bytes a n = x.data ∧ MemoryOutside s u a n
        ∧ u.ports = s.ports.set port (s.answered port x 6 0 []) ∧ u.hostMem = s.hostMem ∧ u.blocks = s.blocks
        ∧ u.threads = s.threads ∧ u.clusters = s.clusters ∧ HotCounted s u (some (txDev x.hdr)) a n
        ∧ ∀ g, a ≤ 32 * g → 32 * g + 32 ≤ a + n → u.markAt (32 * g) = if txSub x.hdr = 0 then 0 else 2))
  ∧ ∀ (s : State) (port : Nat) (x : ScrimTx), s.inboxHead port 2 = some x →
    let a := txAddr x.hdr
    let op := aopOf (txSub x.hdr)
    let n := if op = .cas then x.data.length / 2 else x.data.length
    (s.peerMay (txDev x.hdr) a n true = false ∨ a % n ≠ 0 →
      exec (.scrimAtomic port) s = .next { s with ports := s.ports.set port (s.answered port x 7 2 []) })
    ∧ (s.peerMay (txDev x.hdr) a n true = true → a % n = 0 → n = 4 ∨ n = 8 → s.peerWaits x.hdr n = false → s.Calm →
      s.acqs = [] → s.homeFailed a = false → s.markAt a = 0 →
      ∃ u, exec (.scrimAtomic port) s = .next u
        ∧ u.mem.bytes a n = toBytes n (atomNew op (n == 8) (s.mem.le a n) (ofBytes (x.data.take n)) (ofBytes (x.data.drop n)))
        ∧ MemoryOutside s u a n ∧ u.ports = s.ports.set port (s.answered port x 7 0 (s.mem.bytes a n))
        ∧ HotCounted s u (some (txDev x.hdr)) a n ∧ u.hostMem = s.hostMem ∧ u.blocks = s.blocks ∧ u.threads = s.threads ∧ u.clusters = s.clusters)

/-- A peer's acquire, release and withdrawal: a grantable object nobody waits for is granted at once; a try that is not
granted is denied; an acquire that is not granted joins the requests; a legal release writes the object; an illegal one,
one not admitted and one at an illegal object are answered with status 2, one at a marked object with status 1; a withdrawal takes
the request back and is answered with status 4, one not admitted with status 2, and one whose request has gone is dropped (17 R338,
R344; 05 R114, R126; 22 R404). -/
def Obligations.ScrimSync : Prop :=
  (∀ (s : State) (h : Word128),
    let a := txAddr h
    (s.peerMay (txDev h) a 64 false = false ∨ a % 64 ≠ 0 ∨ objClean (s.obj a) = false → s.syncRefused h = some 2)
    ∧ (s.peerMay (txDev h) a 64 false = true → a % 64 = 0 → objClean (s.obj a) = true →
        s.syncRefused h = if s.objMark a = 0 then none else some 1))
  ∧
  (∀ (s : State) (port : Nat) (x : ScrimTx), s.inboxHead port 3 = some x →
    let a := txAddr x.hdr
    let wid := BitVec.ofNat 64 (ofBytes x.data)
    let excl := (txSub x.hdr).testBit 0
    (∀ st, (s.peerMay (txDev x.hdr) a 64 false = false ∨ s.peerWaits x.hdr 64 = false) → s.syncRefused x.hdr = some st →
      exec (.scrimAcquire port) s = .next { s with ports := s.ports.set port (s.answered port x 8 st []) })
    ∧ (s.peerWaits x.hdr 64 = false → s.syncRefused x.hdr = none →
      (objGrants (s.obj a) excl = true → (∀ r ∈ s.acqs, r.obj ≠ a) → s.homeFailed a = false → s.homeFailed (a + 32) = false →
        ∃ u, exec (.scrimAcquire port) s = .next u ∧ ObjectBecomes s u a (objGranted (s.obj a) excl wid)
          ∧ u.ports = s.ports.set port (s.answered port x 8 0 []) ∧ u.acqs = s.acqs ∧ u.threads = s.threads)
      ∧ (objGrants (s.obj a) excl = false ∨ (∃ r ∈ s.acqs, r.obj = a) →
        ((txSub x.hdr).testBit 1 = true →
          ∃ u, exec (.scrimAcquire port) s = .next u
            ∧ u = { s with hbm := u.hbm, ports := s.ports.set port (s.answered port x 8 3 []) })
        ∧ ((txSub x.hdr).testBit 1 = false →
          ∃ u, exec (.scrimAcquire port) s = .next u
            ∧ u = { s with
                hbm := u.hbm
                ports := s.ports.set port { s.port port with inbox := (s.port port).inbox.tail }
                acqs := s.acqs ++ [{ obj := a, va := a, excl := excl, who := .peer port (txTag x.hdr) (txDev x.hdr) wid }] }))))
  ∧ (∀ (s : State) (port : Nat) (x : ScrimTx), s.inboxHead port 4 = some x → s.peerWaits x.hdr 64 = false →
    let a := txAddr x.hdr
    let wid := BitVec.ofNat 64 (ofBytes x.data)
    (∀ st, s.syncRefused x.hdr = some st →
      exec (.scrimRelease port) s = .next { s with ports := s.ports.set port (s.answered port x 8 st []) })
    ∧ (s.syncRefused x.hdr = none →
      (∀ o, objReleased (s.obj a) wid = some o → s.homeFailed a = false → s.homeFailed (a + 32) = false →
        ∃ u, exec (.scrimRelease port) s = .next u ∧ ObjectBecomes s u a o
          ∧ u.ports = s.ports.set port (s.answered port x 8 0 []) ∧ u.acqs = s.acqs ∧ u.threads = s.threads)
      ∧ (objReleased (s.obj a) wid = none →
        ∃ u, exec (.scrimRelease port) s = .next u
          ∧ u = { s with hbm := u.hbm, ports := s.ports.set port (s.answered port x 8 2 []) })))
  ∧ ∀ (s : State) (port : Nat) (x : ScrimTx), s.inboxHead port 9 = some x →
    let a := txAddr x.hdr
    let mine := fun (r : AcqReq) => r.withdrawn port (txTag x.hdr) (txDev x.hdr) a
    (s.peerMay (txDev x.hdr) a 64 false = false →
      exec (.scrimWithdrawal port) s = .next { s with ports := s.ports.set port (s.answered port x 8 2 []) })
    ∧ (s.peerMay (txDev x.hdr) a 64 false = true →
      ((∃ r ∈ s.acqs, mine r = true) →
        exec (.scrimWithdrawal port) s = .next { s with
          acqs := s.acqs.filter fun r => !mine r
          ports := s.ports.set port (s.answered port x 8 4 []) })
      ∧ ((∀ r ∈ s.acqs, mine r = false) →
        exec (.scrimWithdrawal port) s = .next { s with
          ports := s.ports.set port { s.port port with inbox := (s.port port).inbox.tail } }))

/-- An answer to this device frees its tag and completes what waited for it: a load or an atomic writes its register, a
client's read keeps the answer, a store, a write or a packet of a copy leaves the queue, an acquire or a release goes on at its next instruction, an acquire with an empty L1; a store that the peer refused raises ACCESS,
deferred, at its own instruction, and one of a copy stops the copy with FCAUSE 8 (16 R313; 17 R338, R344; 06 R424; 05 R110, R115).
That the ACCESS of a refused store is deferred is the model's reading, log entry 31. -/
def Obligations.ScrimAnswers : Prop :=
  (∀ (s : State) (port : Nat) (x : ScrimTx) (l : PendLoad) (p : Piece) (t : Thread) (r : Nat),
    s.inboxHead port 5 = some x → s.tagUse port (txTag x.hdr) = some (.load l.id 0) → txSub x.hdr = 0 →
    s.loads.find? (fun y => y.id == l.id) = some l → l.pieces = [p] → s.threads.find l.key = some t → l.dst = some r →
    l.pred = none → s.Calm →
    let got := takeOver p.taken p.loc x.data 0
    got.2 = 0 →
    ∃ u, exec (.scrimReadResponse port) s = .next u
      ∧ u = { s with
          threads := s.threads.set l.key (t.setPhys r l.ty.regs (extend l.ty (ofBytes got.1)))
          loads := s.loads.filter fun y => y.id != l.id
          ports := s.ports.set port ((s.port port).answerTaken x) })
  ∧ (∀ (s : State) (port : Nat) (x : ScrimTx) (c : Client) (pa : Nat),
    s.inboxHead port 5 = some x → s.tagUse port (txTag x.hdr) = some (.read c pa) →
    exec (.scrimReadResponse port) s = .next { s with
      ports := s.ports.set port ((s.port port).answerTaken x)
      peerReads := s.peerReads.map fun r => if r.client = c ∧ r.pa = pa then { r with answer := some (txSub x.hdr, x.data) } else r })
  ∧ (∀ (s : State) (port cl : Nat) (x : ScrimTx) (y : SqEntry),
    s.inboxHead port 6 = some x → s.tagUse port (txTag x.hdr) = some (.store cl y.id) →
    (s.cluster cl).sq.find? (fun z => z.id == y.id) = some y → s.Calm →
    (txSub x.hdr ≠ 2 →
      ∃ u, exec (.scrimWriteAck port) s = .next u ∧ (u.cluster cl).sq = (s.cluster cl).sq.filter (fun z => z.id != y.id)
        ∧ u.ports = s.ports.set port ((s.port port).answerTaken x) ∧ u.threads = s.threads ∧ SameMemory s u ∧ OneCluster s u cl
        ∧ ∀ c, y.counted = true → s.crews.find (s.env y.key).ckey = some c →
            u.crews.find (s.env y.key).ckey = some { c with unacked := c.unacked - 1 })
    ∧ (∀ n pc t, txSub x.hdr = 2 → y.copy = none → y.who = some (n, pc) → s.threads.find y.key = some t →
        t.wait.kind = .none → t.chain = none → (s.env y.key).rcd.trsv = true → t.inHandler = false →
      ∃ u t', exec (.scrimWriteAck port) s = .next u ∧ u.threads = s.threads.set y.key t' ∧ SameMemory s u
        ∧ (∀ z ∈ (u.cluster cl).sq, z.id ≠ y.id)
        ∧ EnteredTrap (s.env y.key) t t' { cause := 0x08, sub := 0, value := BitVec.ofNat 64 y.va }
          { tpc := pc, ipc := pc, defer := true, chain := false, resume := t.pc }))
  ∧ (∀ (s : State) (port cl : Nat) (x : ScrimTx) (y : SqEntry) (c : Copy) (m : TKey × Nat) (t : Thread) (b : Batch),
    s.inboxHead port 6 = some x → s.tagUse port (txTag x.hdr) = some (.store cl y.id) → txSub x.hdr = 2 →
    (s.cluster cl).sq.find? (fun z => z.id == y.id) = some y → y.copy = some c.id → y.counted = false →
    (s.cluster cl).hawk.copies.find? (fun z => z.id == c.id) = some c → c.stopped = false → c.members = [m] →
    s.threads.find m.1 = some t → t.batches.find m.2 = some b → s.Calm →
    ∃ u t', exec (.scrimWriteAck port) s = .next u ∧ u.ports = s.ports.set port ((s.port port).answerTaken x)
      ∧ u.threads = s.threads.set m.1 t' ∧ t' = { t with batches := t'.batches } ∧ t'.batches.find m.2 = some (b.fault 8)
      ∧ SameMemory s u ∧ OneCluster s u cl ∧ (∀ z ∈ (u.cluster cl).sq, z.id ≠ y.id) ∧ c.stop ∈ (u.cluster cl).hawk.copies)
  ∧ (∀ (s : State) (port cl : Nat) (x : ScrimTx) (y : SqEntry) (op : AtomOp) (wide : Bool) (b cmp : Nat) (l : PendLoad) (p : Piece)
      (t : Thread) (r : Nat),
    s.inboxHead port 7 = some x → s.tagUse port (txTag x.hdr) = some (.atomic cl y.id) → txSub x.hdr = 0 →
    (s.cluster cl).sq.find? (fun z => z.id == y.id) = some y → y.op = .atomic op wide b cmp l.id →
    s.loads.find? (fun z => z.id == l.id) = some l → l.pieces = [p] → s.threads.find l.key = some t → l.dst = some r →
    l.pred = none → s.Calm →
    ∃ u, exec (.scrimAtomicResponse port) s = .next u
      ∧ u.threads = s.threads.set l.key (t.setPhys r l.ty.regs (extend l.ty (ofBytes x.data)))
      ∧ u.loads = s.loads.filter (fun z => z.id != l.id) ∧ (u.cluster cl).sq = (s.cluster cl).sq.filter (fun z => z.id != y.id)
      ∧ u.ports = s.ports.set port ((s.port port).answerTaken x) ∧ SameMemory s u ∧ OneCluster s u cl)
  ∧ ∀ (s : State) (port : Nat) (x : ScrimTx) (k : TKey) (acq : Bool) (addr va : Nat) (tryP : Option (PredD × Bool)) (next : Word64)
      (drawn : Bool) (t : Thread),
    s.inboxHead port 8 = some x → s.tagUse port (txTag x.hdr) = some (.sync k acq addr va tryP next drawn) →
    s.threads.find k = some t → t.wait.kind = .peerSync (txTag x.hdr) → s.isResident k = true → t.due = [] → s.Calm →
    let done := fun (t1 : Thread) => { t1 with pc := next, chain := none, wait := Wait.idle, blockCtr := 0, kept := none, prog := none, todo := none }
    (txSub x.hdr = 0 →
      ∃ u, exec (.scrimSyncResponse port) s = .next u
        ∧ u.threads = s.threads.set k (done (match tryP with | some (p, w) => t.setPredD p w true | none => t))
        ∧ u.ports = s.ports.set port ((s.port port).answerTaken x) ∧ SameMemory s u ∧ OneCluster s u (s.env k).cl
        ∧ (acq = true → (u.cluster (s.env k).cl).l1 = []) ∧ (acq = false → u.clusters = s.clusters))
    ∧ (∀ p w, txSub x.hdr = 3 → tryP = some (p, w) →
      exec (.scrimSyncResponse port) s = .next { s with
        threads := s.threads.set k (done (t.setPredD p w false))
        ports := s.ports.set port ((s.port port).answerTaken x) })

/-- The link layer of a port: an idle flit carries the acknowledgement and no data; a good data flit in order gives its
transaction to the inbox; a flit that fails its CRC asks for a replay once; an acknowledgement drops the kept flits it
covers; a NAK sends every kept flit again, with the present acknowledgement. A port goes over to the half that holds no failed
lane, or down, and counts one shed; a lane that fails during a shed makes no further one; on resumption it sends a link
control flit and its kept flits. Retraining finds the lanes that pass; one asked for during a shed takes effect at its end (17
R337, R339 to R342, R346; 18 R350). SHEDS counts on over a retraining: log entry 76. What REPLAYS counts
is the model's reading, log entry 32. -/
def Obligations.ScrimPorts : Prop :=
  (∀ (s : State) (port : Nat), s.portConnected port = true → (s.port port).state ≠ 0 → (s.port port).paused = false →
    let p := s.port port
    (∃ f, exec (.idleFlit port) s = .next (s.setPort port { p with sent := p.sent ++ [f] })
      ∧ flitKind f = 1 ∧ flitAck f = p.expect - 1 ∧ flitAv f = p.gotAny ∧ flitNak f = false ∧ flitGood f = true)
    ∧ ∀ f : BitVec 2048,
      (flitGood f = false →
        ∃ g, flitNak g = true ∧ flitGood g = true ∧ exec (.flitReceive port f) s = .next (s.setPort port
          (if p.nakked then p else { p with nakked := true, sent := p.sent ++ [g], replays := satAdd p.replays })))
      ∧ (flitGood f = true → flitAv f = false → flitNak f = false → flitKind f = 0 → flitSeq f = p.expect → p.rx = [] → p.stream = [] →
        ∀ h data, flitPayload f = txBytes h data → data.length = txData h → txOk h = true →
        exec (.flitReceive port f) s = .next (s.setPort port
          { p with expect := p.expect + 1, gotAny := true, nakked := false, inbox := p.inbox ++ [{ hdr := h, data := data }] }))
      ∧ (flitGood f = true → flitKind f = 1 → p.stream = [] →
        (flitAv f = true → flitNak f = false →
          exec (.flitReceive port f) s = .next (s.setPort port { p with kept := p.kept.filter fun g => !ackCovers (flitAck f) (flitSeq g) }))
        ∧ (flitAv f = false → flitNak f = true →
          exec (.flitReceive port f) s = .next (s.setPort port { p with sent := p.sent ++ p.kept.map p.refreshed, replays := satAdd p.replays }))))
  ∧ (∀ (s : State) (port : Nat), s.portConnected port = true → s.readyBit (10 + port) = true →
    let p := s.port port
    (∀ lanes : BitVec 16,
      let mask := p.failmask ||| lanes
      (lanes &&& p.lanes = 0 → exec (.laneFailure port lanes) s = .next (s.setPort port { p with failmask := mask }))
      ∧ (lanes &&& p.lanes ≠ 0 → p.retrain = none →
        ∃ u, exec (.laneFailure port lanes) s = .next u ∧ SameMemory s u ∧ u.threads = s.threads
          ∧ u.ports = s.ports.set port { p with
              failmask := mask, sheds := if p.paused then p.sheds else satAdd p.sheds, paused := true
              state := if mask &&& 0x00FF = 0 then 2 else if mask &&& 0xFF00 = 0 then 3 else 0 }))
    ∧ (∀ ack : BitVec 12, p.state ≠ 0 → p.paused = true → p.stream = [] → p.retrain = none →
      let kept := p.kept.filter fun g => !ackCovers ack (flitSeq g)
      ∃ f, flitKind f = 2 ∧ flitAck f = p.expect - 1 ∧ flitAv f = p.gotAny ∧ flitGood f = true
        ∧ exec (.shedResume port ack) s = .next (s.setPort port
          { p with paused := false, nakked := false, kept := kept, sent := p.sent ++ [f] ++ kept.map p.refreshed }))
    ∧ ∀ pass : BitVec 16,
      (p.state ≠ 0 → p.paused = true →
        exec (.retrain port pass) s = .next (s.setPort port { p with retrain := some pass }))
      ∧ (p.state = 0 ∨ p.paused = false →
        ∃ u q, exec (.retrain port pass) s = .next u ∧ SameMemory s u ∧ u.threads = s.threads ∧ u.ports = s.ports.set port q
          ∧ q = { p with failmask := ~~~pass, paused := true, state := q.state, retrain := none }
          ∧ (q.state = 1 ↔ pass = 0xFFFF)
          ∧ (q.state = 2 ↔ pass &&& 0x00FF = 0x00FF ∧ pass ≠ 0xFFFF)
          ∧ (q.state = 3 ↔ pass &&& 0xFF00 = 0xFF00 ∧ pass ≠ 0xFFFF)))

/-! ### Launches and gangs (02, 03) -/

/-- A doorbell puts the staged record behind its queue's, at once or behind writes of the host that wait; a full queue takes none, and
where the queue's owner is being torn down the record ends ABANDONED, in the lost-completion register where it may not be written at
CPL; what counts as a teardown in progress is the model's choice, log entry 91. A record that fails a check and may not be written at
CPL leaves its queue, its completion in the lost-completion register; one that passes becomes a launch with every gang to start; a
grant starts the threads of its gang from CODE, one block on each cluster it names (03 R61, R62, R64, R65, R67, R68; 05 R124;
22 R401, R412). -/
def Obligations.LaunchStarts : Prop :=
  (∀ (s : State) (q : Nat) (r : Rec), q < 64 →
    let x := s.lqueue q
    ((∀ w ∈ s.mgmt.heldWrites, w.reads = true) →
      (s.tornDown q = false ∨ 64 ≤ x.recs.length →
        ∃ u, exec (.launchDoorbell q r) s = .next u ∧ u = { s with lqueues := u.lqueues }
          ∧ (∀ p, p ≠ q → u.lqueue p = s.lqueue p)
          ∧ u.lqueue q = { x with staging := r, recs := if x.recs.length < 64 then x.recs ++ [r] else x.recs })
      ∧ (s.tornDown q = true → x.recs.length < 64 → s.mayWriteCpl q r = false → s.thermal.railsOff = false →
        (s.part (s.lqPart q)).lost.getLsbD 255 = false →
        ∃ u, exec (.launchDoorbell q r) s = .next u ∧ u.lqueue q = { x with staging := r } ∧ u.threads = s.threads ∧ SameMemory s u
          ∧ (u.part (s.lqPart q)).lost = (1 : BitVec 1) ++ (0 : BitVec 63) ++ r.cpl
              ++ ((0 : BitVec 64) ++ (0 : BitVec 32) ++ (0 : BitVec 24) ++ (5 : Byte) : Word128)))
    ∧ ((∃ w ∈ s.mgmt.heldWrites, w.reads = false) →
      exec (.launchDoorbell q r) s = .next { s with
        lqueues := s.lqueues.set q { x with staging := r }
        mgmt := { s.mgmt with heldWrites := s.mgmt.heldWrites ++ [.doorbell q r] } }))
  ∧ (∀ (s : State) (q d : Nat) (r : Rec) (rest : List Rec) (st : Byte), (s.lqueue q).head = none → (s.lqueue q).recs = r :: rest →
    s.requested (s.lqueue q).token = false → s.homeWaits ((s.live (ownerPart (s.ownerEntry r.owner)) 0).ptroots + 8 * r.ctx) = false →
    s.refusal q r = some (st, d) → s.mayWriteCpl q r = false → s.thermal.railsOff = false →
    (s.part (s.lqPart q)).lost.getLsbD 255 = false →
    ∃ u, exec (.launchAccept q) s = .next u ∧ (u.lqueue q).recs = rest ∧ u.threads = s.threads ∧ SameMemory s u
      ∧ (u.part (s.lqPart q)).lost = (1 : BitVec 1) ++ (0 : BitVec 63) ++ r.cpl
          ++ ((0 : BitVec 64) ++ BitVec.ofNat 32 d ++ (0 : BitVec 24) ++ st : Word128))
  ∧ (∀ (s : State) (q : Nat) (r : Rec) (rest : List Rec), (s.lqueue q).head = none → (s.lqueue q).recs = r :: rest →
    s.requested (s.lqueue q).token = false → s.homeWaits ((s.live (ownerPart (s.ownerEntry r.owner)) 0).ptroots + 8 * r.ctx) = false →
    s.refusal q r = none → r.tcnt = 0 →
    ∃ u, exec (.launchAccept q) s = .next u
      ∧ u = { s with
          serial := s.serial + 1
          launches := u.launches
          rings := u.rings
          lqueues := s.lqueues.set q { s.lqueue q with head := some (s.serial + 1), token := none }
          peerReads := u.peerReads }
      ∧ (∀ l, l ≠ s.serial + 1 → u.launches.find l = s.launches.find l)
      ∧ u.launches.find (s.serial + 1) = some
          { record := r, detail := 0, atCpl := true, part := s.lqPart q, sub := s.lqSub q, queue := q, status := .running,
            pending := (List.range r.gangCount).map r.gangNo, retired := 0, relaunches := 0, token := none })
  ∧ ∀ (s s1 : State) (die q l : Nat) (x : Launch) (p : Placement), s.headOf q = some (l, x) → s.servingDie q = die →
    let pool := s.poolOf x [p]
    let rest := x.pending.filter fun g => g != p.gang
    s.reservable false pool.lent l x = true → s.outranked pool.lent die x = false → x.nextUnit = [p.gang] →
    s.pickHead pool.lent die x.part x.sub x.record.prio = some (q, s1) → s1.placeable pool x.record p.clusters = true →
    ∃ u, exec (.schedulerGrant die q [p]) s = .next u
      ∧ (∀ b ∈ gangBlocks x.record p.gang, ∀ w ∈ blockWids x.record b,
          u.threads.find { launch := l, wid := BitVec.ofNat 64 w } = some (Thread.start x.record.code))
      ∧ (∀ k, k.launch ≠ l → u.threads.find k = s.threads.find k)
      ∧ (∀ j cl, p.clusters[j]? = some cl → ∃ b, u.blocks.find { launch := l, block := p.gang * x.record.gangSize + j } = some b
          ∧ b.cluster = cl ∧ b.resident = true ∧ b.scratch = startScratch x.record)
      ∧ (∃ g, u.gangs.find { launch := l, gang := p.gang } = some g ∧ g.status = .running)
      ∧ u.launches.find l = some { x with pending := rest }
      ∧ (rest = [] → (u.lqueue q).recs = (s.lqueue q).recs.tail ∧ (u.lqueue q).head = none)
      ∧ (rest ≠ [] → u.lqueue q = s.lqueue q) ∧ u.mem = s.mem ∧ u.hostMem = s.hostMem

/-- A gang whose threads have exited and whose work is complete retires; with the last gang of a launch its completion
record, DONE, is written at CPL and the launch is gone; the lost-completion register is cleared by its write; a teardown
ends every running launch of its partition and no other's; a window's boundary clears the die's counters and puts the
committed budgets in force (02 R26; 03 R64, R65, R73; 09 R226; 21 R374). -/
def Obligations.LaunchEnds : Prop :=
  (∀ (s : State) (g : GKey) (x : Launch), s.mayRetire g = true → s.launches.find g.launch = some x → x.status = .running →
    ((x.pending ≠ [] ∨ ∃ p ∈ s.gangs, p.1.launch = g.launch ∧ p.1 ≠ g) →
      ∃ u, exec (.gangRetire g.launch g.gang) s = .next u ∧ u.gangs.find g = none
        ∧ (∀ h, h ≠ g → u.gangs.find h = s.gangs.find h) ∧ u.launches.find g.launch = some { x with retired := x.retired + 1 }
        ∧ u.threads = s.threads ∧ u.mem = s.mem ∧ u.hostMem = s.hostMem)
    ∧ (∀ (s2 : State) (a : Nat), x.pending = [] → (∀ p ∈ s.gangs, p.1.launch = g.launch → p.1 = g) → x.token = none →
      x.atCpl = true → s.thermal.railsOff = false → s.acqs = [] → s.Calm →
      (∀ o ∈ s.orphans, BsBlock.ofCtx x.part x.record.ctx o.2 = false) →
      (∀ p ∈ s.saved, ∀ b ∈ p.2.unsent, BsBlock.ofCtx x.part x.record.ctx b = false) →
      (∀ p ∈ s.clusters, p.2.dirtyBlocks (BsBlock.ofCtx x.part x.record.ctx) = []
        ∧ (p.2.patchIds 0 fun y => y.part == x.part && y.ctx == x.record.ctx) = []) →
      ((s.retireGang g).endIfDone g.launch).check (x.who (s.servingDie x.queue)) (x.record.cpl.toNat : Int) 16 true false
        = (.ok [(.home a, x.record.cpl.toNat, 16)], s2) →
      s2.homeWaits a = false → s2.homeFailed a = false →
      ∃ u, exec (.gangRetire g.launch g.gang) s = .next u ∧ u.launches.find g.launch = none ∧ u.gangs.find g = none
        ∧ u.mem.bytes a 16 = toBytes 16 (BitVec.ofNat 64 (x.retired + 1) ++ BitVec.ofNat 32 x.detail ++ (0 : BitVec 16)
            ++ BitVec.ofNat 8 x.relaunches ++ (1 : Byte) : Word128).toNat
        ∧ MemoryOutside s u a 16 ∧ u.threads = s.threads ∧ u.hostMem = s.hostMem))
  ∧ (∀ (s : State) (part : Nat), ∃ u, exec (.lostCompletionClear part) s = .next u ∧ u = { s with parts := u.parts }
    ∧ (∀ p, p ≠ part → u.part p = s.part p) ∧ u.part part = { s.part part with lost := (u.part part).lost }
    ∧ ∀ j, j < 256 → (u.part part).lost.getLsbD j = (decide (j < 224) && (s.part part).lost.getLsbD j))
  ∧ (∀ (s : State) (part : Nat), s.Calm → s.acqs = [] → s.deqs = [] → (∀ p ∈ s.launches, p.1 ≤ s.serial) →
    (s.launches.map (·.1)).Nodup →
    (∀ p ∈ s.threads, (s.gangs.find (s.env p.1).gkey).isSome = true) →
    ∃ u, exec (.partitionTeardown part) s = .next u
      ∧ (∀ l x, s.launches.find l = some x → x.part = part → x.status = .running →
          (∀ k, k.launch = l → u.threads.find k = none) ∧ ∀ y, u.launches.find l = some y → y.status = .ending 5 ∨ y.status = .writing 5)
      ∧ ∀ l x, s.launches.find l = some x → x.part ≠ part →
          u.launches.find l = some x ∧ ∀ k, k.launch = l → u.threads.find k = s.threads.find k)
  ∧ ∀ (s : State) (die : Nat), die < 4 →
    (s.toWindow die ≠ 0 → exec (.writeBudgetWindow die) s = .next s)
    ∧ (s.toWindow die = 0 → s.evicting = [] →
      ∃ u, exec (.writeBudgetWindow die) s = .next u
        ∧ u = { s with windows := u.windows, wctr := u.wctr, rctr := u.rctr, parts := u.parts }
        ∧ u.windows.get die 0 = s.windows.get die 0 + 1
        ∧ (∀ c, u.wctr.get c 0 = (if c.1 / 2 = die then 0 else s.wctr.get c 0)
            ∧ u.rctr.get c 0 = (if c.1 / 2 = die then 0 else s.rctr.get c 0))
        ∧ ∀ p sb st, st < 8 →
            (u.sub p sb).live = (s.sub p sb).live
            ∧ (u.sub p sb).inForce.wbud st = (if st / 2 = die then (s.sub p sb).live.wbud st else (s.sub p sb).inForce.wbud st)
            ∧ (u.sub p sb).inForce.rbud st = (if st / 2 = die then (s.sub p sb).live.rbud st else (s.sub p sb).inForce.rbud st))

/-- STARVED strikes a thread past its blocking limit and no other; a promotion puts the runs of an aged thread's PC first;
a victim, an expired quantum that something waits behind, and a gang on a recalled cluster are asked to save; an empty
cluster of a lender passes to the borrower and back (02 R39, R42, R43, R52; 03 R69, R70, R72; 21 R382). -/
def Obligations.Requests : Prop :=
  (∀ (s : State) (k : TKey) (t : Thread), s.threads.find k = some t → s.Calm →
    let n := s.limitOf (s.env k)
    (t.blockCtr ≤ n ∨ n = 0 ∨ s.blocked k t = false → exec (.starved k.launch k.wid) s = .next s)
    ∧ (t.wait = { kind := .again, counts := true } → n ≠ 0 → n < t.blockCtr → t.due = [] → t.chain = none → s.mayRun k = true →
      Traps (s.env k) t →
      ∃ t', exec (.starved k.launch k.wid) s = .next (s.setThread k t')
        ∧ EnteredTrap (s.env k) t t' { cause := 0x0C, sub := 0, value := BitVec.ofNat 64 n }
          { tpc := t.pc, ipc := t.pc, defer := false, chain := false, resume := 0 }))
  ∧ (∀ (s : State) (k : TKey) (t : Thread), s.threads.find k = some t →
    let e := s.env k
    let q := (s.cluster e.cl).quarter (e.crew % 4)
    (t.age < 64 ∨ s.isResident k = false → exec (.promotion k.launch k.wid) s = .next s)
    ∧ (64 ≤ t.age → e.rcd.blockClass ≠ 0 → (∀ r ∈ q.promoted, k ∉ r.keys) → s.isResident k = true →
      s.chainRun e.cl (e.crew % 4) false = [] →
      ∃ u ks, exec (.promotion k.launch k.wid) s = .next u ∧ u = { s with clusters := u.clusters, serial := s.serial + 1 }
        ∧ OneCluster s u e.cl
        ∧ ((u.cluster e.cl).quarter (e.crew % 4)).promoted = q.promoted ++ [{ no := s.serial, keys := ks }]
        ∧ ∀ j, j ∈ ks ↔ ∃ y, (j, y) ∈ s.threads ∧ j.launch = k.launch ∧ y.pc = t.pc ∧ (s.env j).cl = e.cl
            ∧ (s.env j).crew % 4 = e.crew % 4 ∧ s.isResident j = true))
  ∧ (∀ (s : State) (g : GKey) (y : Gang), s.gangs.find g = some y → y.status = .running →
    let asked := fun (u : State) => u = { s with gangs := u.gangs }
      ∧ u.gangs.find g = some { y with status := .requested (s.ns y.die) (s.preemptNsOf g) }
      ∧ ∀ h, h.launch ≠ g.launch → u.gangs.find h = s.gangs.find h
    ((∃ q l x, q < 64 ∧ s.waitingHead q = some (l, x) ∧ s.victimFor l x = some g) →
      ∃ u, exec (.preemptionRequest g.launch g.gang) s = .next u ∧ asked u)
    ∧ ((∀ q l x, q < 64 → s.waitingHead q = some (l, x) → s.victimFor l x ≠ some g) →
      exec (.preemptionRequest g.launch g.gang) s = .next s)
    ∧ ∀ x, s.launches.find g.launch = some x → x.record.quantum ≠ 0 →
      (s.ns y.die - y.quantumAt < 1024 * x.record.quantum → exec (.quantumExpiry g.launch g.gang) s = .next s)
      ∧ (1024 * x.record.quantum ≤ s.ns y.die - y.quantumAt →
        (s.waitsAt g.launch x = true → ∃ u, exec (.quantumExpiry g.launch g.gang) s = .next u ∧ asked u)
        ∧ (s.waitsAt g.launch x = false → exec (.quantumExpiry g.launch g.gang) s =
            .next { s with gangs := s.gangs.set g { y with quantumAt := s.ns y.die } })))
  ∧ ∀ (s : State) (lender part sub cl : Nat), cl < 192 → bit (s.live lender 0).bays (cl / 4) = true →
    ((s.cluster cl).lent = none → s.reservedOn false cl ≠ [] → exec (.lend lender part sub [cl]) s = .next s)
    ∧ ((s.cluster cl).lent = none → s.reservedOn false cl = [] → (s.cluster cl).sq = [] →
      (∀ b ∈ (s.cluster cl).store, b.dirty = 0) →
      ∃ u, exec (.lend lender part sub [cl]) s = .next u ∧ (u.cluster cl).lent = some (part, sub) ∧ (u.cluster cl).l1 = []
        ∧ (u.cluster cl).store = [] ∧ OneCluster s u cl ∧ SameMemory s u ∧ u.threads = s.threads)
    ∧ ((s.cluster cl).lent ≠ none → s.reservedOn false cl = [] → (s.cluster cl).sq = [] →
      (∀ b ∈ (s.cluster cl).store, b.dirty = 0) → (∀ p ∈ s.clusters, p.2.recalled = false) →
      ∃ u, exec (.recallLent lender [cl]) s = .next u ∧ (u.cluster cl).lent = none ∧ (u.cluster cl).recalled = false
        ∧ OneCluster s u cl ∧ SameMemory s u ∧ u.threads = s.threads ∧ u.gangs = s.gangs)
    ∧ ∀ g y, (s.cluster cl).lent ≠ none → g ∈ s.gangsOn cl → s.gangs.find g = some y → y.status = .running →
      ∃ u, exec (.recallLent lender [cl]) s = .next u
        ∧ u.gangs.find g = some { y with status := .requested (s.ns y.die) (min 100000 (s.preemptNsOf g)) }

/-- A save, reconverged or full, of a gang with its group: once its conditions hold and its clusters hold no dirty block or
patch of its context, its blocks leave their clusters, its threads keep their registers, predicates and trap state, and
every thread outside the group is as before, but that one which stands in a chain with a thread of it returns to its chain's head;
memory is as before; a restore, where nothing of a higher PRIO waits for its resources and the clusters have room for what the gang's
blocks saved, a matrix state of its own among them, makes the blocks resident again where the
schedulers place them and the gang run (02 R52 to R56; 03 R68, R72; 04 R94; 06 R142, R155; 14 R301; 19 R365). -/
def Obligations.SavesAndRestores : Prop :=
  (∀ (s : State) (l gang : Nat) (ev : Instr) (full : Bool),
    let v := s.group l gang
    s.unitAsked v = true → s.inTurn v = true → s.drained v = true → (∀ p ∈ s.threads, v.thread p.1 = true → p.2.atPeer = none) →
    (ev = .reconvergedSave l gang ∧ full = false ∧ s.allReconverged v = true ∧ s.copiesDone v false = true
      ∨ ev = .fullSave l gang ∧ full = true ∧ s.timedOut v = true ∧ s.handlersDone v false = true ∧ s.copiesDone v true = true
      ∨ ev = .handlerTimeout l gang ∧ full = true ∧ s.timedOut v = true ∧ s.handlersDone v true = true ∧ s.copiesDone v true = true) →
    (∀ p ∈ s.clusters, p.2.recalled = false ∧ p.2.dirtyBlocks (BsBlock.ofCtx v.part v.rcd.ctx) = []
      ∧ (p.2.patchIds 0 fun y => y.part == v.part && y.ctx == v.rcd.ctx) = []) →
    ∃ u, exec ev s = .next u
      ∧ (∀ g y, g ∈ v.gs → s.gangs.find { launch := l, gang := g } = some y →
          u.gangs.find { launch := l, gang := g } = some { y with status := match y.status with | .saved f => .saved f | _ => .saved full })
      ∧ (∀ g, g.launch ≠ l → u.gangs.find g = s.gangs.find g)
      ∧ (∀ b y, v.block b = true → s.blocks.find b = some y → u.blocks.find b = some { y with resident := false })
      ∧ (∀ b, b.launch ≠ l → u.blocks.find b = s.blocks.find b)
      ∧ (∀ k t, s.threads.find k = some t →
          (v.thread k = false → (∀ p ∈ s.threads, p.1 = k → p.2 = t) → u.threads.find k = some
            (if k ∈ (s.threads.filter fun p => v.thread p.1).flatMap fun p => s.chainMates p.1 p.2 then t.rewind else t))
          ∧ (v.thread k = true → ∃ t', u.threads.find k = some t' ∧ t' = { t with
              pc := t'.pc, latches := t'.latches, chain := t'.chain, wait := t'.wait, kept := none, prog := none, todo := none }))
      ∧ u.mem = s.mem ∧ u.hostMem = s.hostMem ∧ u.poison = s.poison)
  ∧ ∀ (s : State) (l : Nat) (x : Launch) (p : Placement) (y : Gang) (f : Bool), s.launches.find l = some x → x.status = .running →
    s.gangs.find { launch := l, gang := p.gang } = some y → y.status = .saved f → s.unitOf l p.gang = [p.gang] →
    s.noPlacing x = false → s.outranked (s.poolOf x [p]).lent (s.servingDie x.queue) x = false →
    s.placeable (s.poolOf x [p]) x.record p.clusters = true → s.Calm →
    (∀ q, (s.port q).answers = []) →
    s.matrixFree l x p = true →
    (State.restoreBlocks x l ((gangBlocks x.record p.gang).zip p.clusters) (s.takeClusters x.part p.clusters)).isSome = true →
    ∃ u g, exec (.gangRestore l [p]) s = .next u ∧ u.gangs.find { launch := l, gang := p.gang } = some g ∧ g.status = .running
      ∧ g.frozen = false ∧ g.shedAt = none
      ∧ (∀ j cl b, p.clusters[j]? = some cl → s.blocks.find { launch := l, block := p.gang * x.record.gangSize + j } = some b →
          ∃ b', u.blocks.find { launch := l, block := p.gang * x.record.gangSize + j } = some b'
            ∧ b' = { b with cluster := cl, place := b'.place, resident := true, starve := s.starveOf x })
      ∧ (∀ k t, s.threads.find k = some t →
          ∃ t', u.threads.find k = some t' ∧ t' = { t with handlerAt := t'.handlerAt } ∧ (t.inHandler = false → t' = t))
      ∧ u.mem = s.mem ∧ u.hostMem = s.hostMem ∧ u.poison = s.poison

/-! ### The management controller (21, 22) -/

/-- Configuration: a held block is accepted whole, or refused and left; a change of the dado size clears the region; the
STARVE record comes from its own commit; table entries and registers take what is written, reserved bits apart, and a
write of another size or alignment does nothing; a fault report is cleared (21 R373, R374, R377, R378, R394; 09 R231). Which sizes a
register takes is the model's reading, log entry 47, and that SCOMMIT enables a partition again log entry 44. -/
def Obligations.Configuration : Prop :=
  (∀ (s : State) (part sub : Nat), part < 8 → sub < 8 →
    let c := s.sub part sub
    let b := if sub = 0 then c.held.put 0x010 16 c.live.starve.toNat else c.held
    ∃ u, exec (.configCommit part sub) s = .next u
      ∧ (∀ p k, (p, k) ≠ (part, sub) → u.sub p k = s.sub p k) ∧ u.threads = s.threads ∧ u.hostMem = s.hostMem
      ∧ u.sub part sub = (if s.blockOk part sub b then { c with live := b, cstat := 1 } else { c with cstat := 2 })
      ∧ ∀ a, u.mem.get a = if s.blockOk part sub b = true ∧ sub = 0 ∧ b.dadoBytes ≠ c.live.dadoBytes
          ∧ dadoHome part ≤ a ∧ a < dadoHome part + dadoSpan then 0 else s.mem.get a)
  ∧ (∀ (s : State) (part : Nat), part < 8 →
    let x := (s.part part).starveHeld
    ∃ u, exec (.scommit part) s = .next u ∧ u = { s with parts := u.parts } ∧ (∀ p, p ≠ part → u.part p = s.part p)
      ∧ (∀ k, k ≠ 0 → u.sub part k = s.sub part k)
      ∧ (x.extractLsb' 112 16 = 0 → (u.live part 0).starve = x ∧ (u.part part).sstat = 1 ∧ (u.part part).disabled = false)
      ∧ (x.extractLsb' 112 16 ≠ 0 → u.part part = { s.part part with sstat := 2 }))
  ∧ (∀ (s : State) (n : Nat) (v : Word32),
    (n < 1024 → s.deqs = [] → s.held = [] → (∀ f ∈ s.faults, f.offered = true) → s.Calm →
      ∃ u, exec (.ownerTableWrite n v) s = .next u ∧ u = { s with rings := u.rings, mgmt := { s.mgmt with owners := u.mgmt.owners } }
      ∧ u.mgmt.owners.get n = v &&& 0xC000FF3F ∧ ∀ m, m ≠ n → u.mgmt.owners.get m = s.mgmt.owners.get m)
    ∧ (n < 64 → ∃ u, exec (.launchQueueTableWrite n v) s = .next u ∧ u = { s with rings := u.rings, mgmt := { s.mgmt with lqueues := u.mgmt.lqueues } }
      ∧ u.mgmt.lqueues.get n = v &&& 0x80000FFF ∧ ∀ m, m ≠ n → u.mgmt.lqueues.get m = s.mgmt.lqueues.get m)
    ∧ (n < 512 → s.deqs = [] → s.held = [] → (∀ f ∈ s.faults, f.offered = true) → s.Calm →
      ∃ u, exec (.queueTableWrite n v) s = .next u ∧ u = { s with rings := u.rings, mgmt := { s.mgmt with queues := u.mgmt.queues } }
      ∧ u.mgmt.queues.get n = v &&& 0x83FFFFFF ∧ ∀ m, m ≠ n → u.mgmt.queues.get m = s.mgmt.queues.get m))
  ∧ (∀ (s : State) (off size : Nat) (v : Word64),
    (size ∉ [1, 2, 4, 8] ∨ off % size ≠ 0 → exec (.registerWrite off size v) s = .next s)
    ∧ exec (.registerWrite 0x80 8 v) s = .next { s with mgmt := { s.mgmt with ckBase := v } }
    ∧ exec (.registerWrite 0x0200000 4 v) s = .next { s with gov := { s.gov with rhold := v.toNat % 256 } }
    ∧ (size ∈ [1, 2, 4, 8] → off % size = 0 → off + size ≤ 0x100000 →
      exec (.registerWrite (0x0100000 + off) size v) s =
        .next { s with mgmt := { s.mgmt with imgBuf := s.mgmt.imgBuf.setBytes off (toBytes size v.toNat) } })
    ∧ (∀ cl, cl < 192 → ∃ u, exec (.registerWrite (0x0201000 + 4 * cl) 4 v) s = .next u ∧ OneCluster s u cl
        ∧ u = { s with clusters := u.clusters } ∧ u.cluster cl = { s.cluster cl with power := v.setWidth 32 &&& 0x07FFFF7F })
    ∧ ∀ part sub, part < 8 → sub < 8 → size ∈ [1, 2, 4, 8] → off % size = 0 → off + size ≤ 0x400 →
      ¬ (sub = 0 ∧ 0x010 ≤ off ∧ off < 0x020) →
      ∃ u, exec (.registerWrite (0x0300000 + 4096 * (8 * part + sub) + off) size v) s = .next u ∧ u = { s with parts := u.parts }
        ∧ (∀ p k, (p, k) ≠ (part, sub) → u.sub p k = s.sub p k)
        ∧ u.sub part sub = { s.sub part sub with held := (s.sub part sub).held.put off size v.toNat })
  ∧ ∀ (s : State) (part : Nat), ∃ u, exec (.faultReportClear part) s = .next u ∧ u = { s with parts := u.parts }
    ∧ (∀ p, p ≠ part → u.part p = s.part p) ∧ u.part part = { s.part part with fault := (u.part part).fault }
    ∧ ∀ j, j < 256 → (u.part part).fault.getLsbD j = (decide (2 ≤ j) && (s.part part).fault.getLsbD j)

/-- Bring-up: an image is accepted, or refused for its signature (IMGSTAT 2) or its format (3), and a second one is not
looked at; a feature commit needs an image, the mandatory bits and no reserved bit; a function becomes ready after it, a
port on 16 lanes; what is late is marked FAILED; a reset leaves nothing of the device's state (22 R403, R405 to R408; 21
R387). That the signature is looked at before the format is the model's reading, log entry 47, as is a second commit, log entry 50;
how the signature's bytes are read is log entry 90, and that the host interface reports its link's recovery by its READY bit log
entry 91. -/
def Obligations.BringUp : Prop :=
  (∀ (s : State) (len : Nat), len ≤ 0x100000 →
    let bs := s.mgmt.imgBuf.bytes 0 len
    (s.mgmt.image.accepted = true → exec (.imageLoad len) s = .next s)
    ∧ (s.mgmt.image.accepted = false →
      ∃ u, exec (.imageLoad len) s = .next u ∧ u = { s with mgmt := { s.mgmt with imgStat := u.mgmt.imgStat, image := u.mgmt.image } }
        ∧ (u.mgmt.imgStat = 2 ∧ signatureOk bs = false ∧ u.mgmt.image = s.mgmt.image
          ∨ u.mgmt.imgStat = 3 ∧ signatureOk bs = true ∧ readImageBytes bs = none ∧ u.mgmt.image = s.mgmt.image
          ∨ u.mgmt.imgStat = 1 ∧ signatureOk bs = true ∧ readImageBytes bs = some u.mgmt.image)))
  ∧ (∀ s : State, exec .featureCommit s = .next { s with mgmt :=
      if s.mgmt.image.accepted = true ∧ s.mgmt.acceptReg.toNat < 64 ∧ s.mgmt.acceptReg.toNat % 4 = 3 then
        { s.mgmt with accept := s.mgmt.acceptReg, committed := true, fstat := 1 }
      else { s.mgmt with fstat := 2 } })
  ∧ (∀ s : State, s.mgmt.linkDown = true →
    exec (.functionReady 1) s = .next { s with mgmt := { s.mgmt with linkDown := false } })
  ∧ (∀ (s : State) (b : Nat), s.mayBeReady b = true → s.readyBit b = false → b ≠ 1 ∨ s.mgmt.linkDown = false →
    ∃ u, exec (.functionReady b) s = .next u
      ∧ u = { s with ports := u.ports, mgmt := { s.mgmt with ready := u.mgmt.ready } }
      ∧ (∀ j, j < 128 → u.readyBit j = (decide (j = b) || s.readyBit j))
      ∧ ((b < 10 ∨ 18 ≤ b) → u.ports = s.ports)
      ∧ (10 ≤ b → b < 18 → (s.port (b - 10)).stream = [] →
          u.ports = s.ports.set (b - 10) { s.port (b - 10) with state := 1, paused := false }))
  ∧ (∀ s : State, ∃ u, exec .readyTimeout s = .next u ∧ u = { s with mgmt := { s.mgmt with failed := u.mgmt.failed } }
    ∧ ∀ j, u.failedBit j = (s.failedBit j || (s.mayBeReady j && !s.readyBit j)))
  ∧ (∀ (s : State) (a : BitVec 7), exec (.dynamicAddressAssignment a) s = .next { s with gov := { s.gov with i3c := some a } })
  ∧ ∀ s : State, ∃ u, exec .deviceReset s = .next u
    ∧ u = { State.reset with
        hostMem := s.hostMem, agenda := s.agenda, oracle := s.oracle, free := s.free, serial := s.serial
        placeNo := s.placeNo, turn := s.turn }

/-- Power: a droop trip freezes its cluster for HOLD cycles and rewinds the chains in progress on it, and the freeze ends once they
have passed; islands sleep when idle and wake; the shed level rises to a sample's target at once and falls by 1 after RHOLD samples
below it; the gangs of a newly shed class are timed, their crews that leave a completed barrier park there and leave in waves when
the class is restored, and a gang that has not parked in time is frozen; the thermal sequence asks every gang to save, removes the
rails when all is home, and their return disables every partition until its driver enables it (21 R384, R385, R387 to R391; 04 R94;
10 R250, R261; 01 R22). Which of the crews that leave in waves park is the model's reading, log entry 75. -/
def Obligations.Power : Prop :=
  (∀ (s : State) (cl : Nat),
    (∃ u, exec (.droopTrip cl) s = .next u ∧ OneCluster s u cl
      ∧ u = { s with threads := u.threads, clusters := u.clusters, crews := u.crews }
      ∧ u.cluster cl = { s.cluster cl with freeze := some (max 8 (min 1024 ((s.cluster cl).power.extractLsb' 16 11).toNat)) }
      ∧ ∀ k t, s.threads.find k = some t → (∀ p ∈ s.threads, p.1 = k → p.2 = t) → u.threads.find k = some
          (if (s.env k).cl = cl ∧ s.isResident k = true ∧ t.inside (s.peek k t) = true then t.rewind else t))
    ∧ ((s.cluster cl).freeze = some 0 →
        exec (.droopFreezeEnd cl) s = .next (s.setCluster cl { s.cluster cl with freeze := none }))
    ∧ ((s.cluster cl).freeze ≠ some 0 → exec (.droopFreezeEnd cl) s = .next s)
    ∧ (∀ q i x, (s.cluster cl).islands.find (q, i) = some x →
      (4000 ≤ x.idleNs ∨ 500 ≤ x.idleNs ∧ s.skimOwners cl q i = true →
        exec (.islandSkim cl q i) s = .next (s.setCluster cl
          { s.cluster cl with islands := (s.cluster cl).islands.set (q, i) { x with skim := true } }))
      ∧ (x.idleNs < 500 ∨ x.idleNs < 4000 ∧ s.skimOwners cl q i = false → exec (.islandSkim cl q i) s = .next s)
      ∧ exec (.islandWake cl q i) s = .next (s.setCluster cl
          { s.cluster cl with islands := (s.cluster cl).islands.set (q, i) { skim := false, idleNs := 0 } }))
    ∧ ∀ mhz, exec (.powerAboveRating cl mhz) s =
        .next (s.setCluster cl { s.cluster cl with mhz := max 2000 (min 2200 mhz) }))
  ∧ (∀ (s : State) (v : Word64),
    let g := s.gov
    let t := s.shedTarget v
    ∃ u, exec (.telemetrySample 8 v) s = .next u ∧ u.mem = s.mem
      ∧ u.gov = { g with sample := v, lost := false, sinceNs := 0, level := u.gov.level, count := u.gov.count }
      ∧ (g.level < t → u.gov.level = t ∧ u.gov.count = 0
        ∧ (∀ k y, s.threads.find k = some y →
            ((∀ n, y.wait.kind ≠ .wave n true) → u.threads.find k = some y)
            ∧ ∀ n, y.wait.kind = .wave n true → s.isResident k = true → g.level ≤ (s.recOf k.launch).prio →
                (s.recOf k.launch).prio < t → u.threads.find k = some { y with wait := { kind := .parked, counts := false } })
        ∧ ∀ h x, s.gangs.find h = some x → u.gangs.find h = some
            { x with shedAt := if g.level ≤ (s.recOf h.launch).prio ∧ (s.recOf h.launch).prio < t then some (s.ns x.die) else x.shedAt })
      ∧ (t = g.level → u.gov.level = t ∧ u.gov.count = 0 ∧ u.threads = s.threads ∧ u.gangs = s.gangs)
      ∧ (t < g.level → g.count + 1 ≠ max 1 g.rhold → u.gov.level = g.level ∧ u.gov.count = g.count + 1
          ∧ u.threads = s.threads ∧ u.gangs = s.gangs)
      ∧ (t < g.level → g.count + 1 = max 1 g.rhold → u.gov.level = g.level - 1 ∧ u.gov.count = 0
          ∧ (∀ h x, s.gangs.find h = some x → u.gangs.find h = some
            (if g.level - 1 ≤ (s.recOf h.launch).prio then { x with frozen := false, shedAt := none } else x))
          ∧ let ks := (s.threads.filter fun p => p.2.wait.kind == .parked && decide (g.level - 1 ≤ (s.recOf p.1.launch).prio)
              && s.isResident p.1).map (·.1)
            ∀ k y, s.threads.find k = some y →
              (k ∉ ks → u.threads.find k = some y)
              ∧ (k ∈ ks → let c := s.cluster (s.env k).cl
                u.threads.find k = some { y with wait :=
                  { kind := .wave (c.cyc + c.waveSpace * (s.waveNo ks k / c.waveWidth)) true, counts := true } })))
  ∧ (∀ s : State, exec .telemetryLost s =
      .next (if 1000000 ≤ s.gov.sinceNs then { s with gov := { s.gov with lost := true } } else s))
  ∧ (∀ (s : State) (g : GKey) (x : Gang) (t : Nat), s.gangs.find g = some x → x.shedAt = some t → x.status = .running →
    s.hasParked g = false →
    exec (.shedFreeze g.launch g.gang) s =
      .next (if s.ns x.die - t < 200000 then s else { s with gangs := s.gangs.set g { x with frozen := true } }))
  ∧ (∀ s : State, s.thermal.railsOff = false → (∀ p ∈ s.clusters, p.2.sq = [] ∧ p.2.dirtyBlocks (fun _ => true) = []) →
    s.mgmt.ckStat ≠ 3 →
    (s.allSaved = true →
      ∃ u, exec .thermalCritical s = .next u ∧ u.thermal = { railsOff := true, holding := true } ∧ u.tlb = [] ∧ u.threads = s.threads
        ∧ u.gangs = s.gangs ∧ (∀ c, (u.cluster c).l1 = [] ∧ (u.cluster c).store = [])
        ∧ (∀ a, a < deviceTop → u.mem.get a = s.mem.get a) ∧ u.hostMem = s.hostMem)
    ∧ (s.allSaved = false → s.thermal.holding = false →
      ∃ u, exec .thermalCritical s = .next u ∧ u = { s with thermal := { s.thermal with holding := true }, gangs := u.gangs }
        ∧ ∀ g x, s.gangs.find g = some x → x.status = .running →
            u.gangs.find g = some { x with status := .requested (s.ns x.die) (s.preemptNsOf g) }))
  ∧ (∀ s : State, s.thermal = { railsOff := false, holding := true } →
    ∃ u, exec .thermalAbort s = .next u ∧ u.thermal = { railsOff := true, holding := true }
      ∧ (s.allSaved = true → s.l2dirty = [] → (∀ a, a < deviceTop → u.mem.get a = s.mem.get a) ∧ u.threads = s.threads)
      ∧ ∀ g x y, s.gangs.find g = some x → (∀ f, x.status ≠ .saved f) → s.launches.find g.launch = some y →
          ∃ z, u.launches.find g.launch = some z ∧ z.status = .ending 0x04)
  ∧ ∀ s : State, s.thermal.railsOff = true → (∀ p ∈ s.launches, p.2.status = .running) →
    ∃ u, exec .railsReturn s = .next u ∧ u.thermal = { railsOff := false, holding := false }
      ∧ (∀ p x, s.parts.find p = some x → u.parts.find p = some { x with disabled := true })
      ∧ u.threads = s.threads ∧ u.gangs = s.gangs ∧ SameMemory s u

/-- Repair: a block found with a UE mark reloads from its source where a used leaf and its stack's remap table allow it (64 entries,
those of reloads in progress among them; a block that has one keeps it), else every
granule of it is marked and an item goes to the FAULTQ of each partition; which partitions those are is log entry 46. A reload whose check holds copies the source, clears the
marks and takes a spare block that no other has; a die drains one cluster at a time, a pass returns it empty to service, a failure takes it out; a row whose
count has passed the threshold is throttled, its counts start again with each 32 ms interval, and the base dies' own moves
change no memory (21 R380, R381, R395 to R397). -/
def Obligations.Repair : Prop :=
  (∀ (s : State) (block : Nat), s.blockUe block = true → block * 65536 < deviceTop → (∀ r ∈ s.reloading, r.1 ≠ block) →
    (∀ h, s.reloadSource block = some h → s.reloadable block = true → s.remapRoom block = true →
      exec (.ueFound block) s = .next { s with reloading := s.reloading ++ [(block, h)] })
    ∧ (s.reloadSource block = none ∨ s.reloadable block = false ∨ s.remapRoom block = false →
      ∃ u, exec (.ueFound block) s = .next u ∧ u.mem = s.mem ∧ u.hostMem = s.hostMem
        ∧ (∀ g, g < 2048 → u.markAt (block * 65536 + 32 * g) = 1)
        ∧ (∀ g, g / 2048 ≠ block → u.poison.get g = s.poison.get g)
        ∧ (s.deqs = [] → u.threads = s.threads)
        ∧ let qs := s.partitions.map fun p => (s.live p 0).faultq
          (s.deqs = [] → (∀ h ∈ s.held, h.source ≠ srcMgmt) → qs.Nodup → (∀ q ∈ qs, s.queueRoom q = true) →
            ∀ q, (u.queue q).items = if q ∈ qs then (s.queue q).items ++ [mgmtItem 1 (block * 65536) 0] else (s.queue q).items)))
  ∧ (∀ (s : State) (block h : Nat), s.MemOk → s.reloading.find? (fun r => r.1 == block) = some (block, h) →
    (∀ c rest, s.oracle = c :: rest → c ≠ 1 →
      ∃ u, exec (.reloadComplete block) s = .next u ∧ u.hostMem = s.hostMem ∧ u.threads = s.threads
        ∧ (∀ k, k < 65536 → u.mem.get (block * 65536 + k) = s.hostMem.get (h + k)) ∧ MemoryOutside s u (block * 65536) 65536
        ∧ (∀ g, g / 2048 = block → u.poison.get g = 0) ∧ (∀ r ∈ u.reloading, r.1 ≠ block)
        ∧ ∃ n, (u.stack (stackOf (block * 65536))).remap.find block = some n
          ∧ ∀ p ∈ (s.stack (stackOf (block * 65536))).remap, p.2 < n)
    ∧ ∀ rest, s.oracle = 1 :: rest →
      ∃ u, exec (.reloadComplete block) s = .next u ∧ u.mem = s.mem ∧ ∀ g, g < 2048 → u.poison.get (block * 2048 + g) = 1)
  ∧ (∀ (s : State) (block : Nat),
    let st := stackOf (block * 65536)
    let x := s.stack st
    (x.remap.find block ≠ none → s.remapRoom block = true)
    ∧ (x.remap.find block = none → 64 ≤ x.remap.length → s.remapRoom block = false)
    ∧ (x.remap.length < 64 → (∀ r ∈ s.reloading, stackOf (r.1 * 65536) ≠ st) → s.remapRoom block = true))
  ∧ (∀ (s : State) (cl : Nat), cl < 192 →
    ((∃ p ∈ s.clusters, p.1 / 48 = cl / 48 ∧ p.2.draining = true) → exec (.scanDrain cl) s = .next s)
    ∧ (s.mgmt.image.limits.extractLsb' 32 32 ≠ 0 → (s.cluster cl).inService = true →
      (∀ p ∈ s.clusters, p.1 / 48 = cl / 48 → p.2.draining = false) →
      ∃ u, exec (.scanDrain cl) s = .next u ∧ u.cluster cl = { s.cluster cl with draining := true } ∧ OneCluster s u cl
        ∧ u = { s with clusters := u.clusters, gangs := u.gangs }
        ∧ ∀ g y, g ∈ s.gangsOn cl → s.gangs.find g = some y → y.status = .running →
            u.gangs.find g = some { y with status := .requested (s.ns y.die) (s.preemptNsOf g) })
    ∧ (∀ pass, (s.cluster cl).draining = true → s.reservedOn false cl = [] → (s.cluster cl).sq = [] →
      (∀ b ∈ (s.cluster cl).store, b.dirty = 0) → s.deqs = [] →
      ∃ u, exec (.scanPass cl pass) s = .next u ∧ OneCluster s u cl ∧ SameMemory s u ∧ u.threads = s.threads
        ∧ (u.cluster cl).draining = false ∧ (u.cluster cl).l1 = [] ∧ (u.cluster cl).store = []
        ∧ (u.cluster cl).scan = (s.cluster cl).scan + (if pass then 1 else 0)
        ∧ (u.cluster cl).inService = (pass && (s.cluster cl).inService)))
  ∧ ∀ (s : State) (st ch bank sa part row : Nat),
    (∃ u, exec (.subarrayRefresh st ch bank sa) s = .next u ∧ u = { s with hbm := u.hbm }
      ∧ (u.stack st).refreshing.find (ch, bank) = some sa)
    ∧ ((s.stack st).acts.get (part, row) 0 ≤ s.rowLimit → exec (.rowThrottle part st row) s = .next s)
    ∧ (s.rowLimit < (s.stack st).acts.get (part, row) 0 →
      ∃ u, exec (.rowThrottle part st row) s = .next u ∧ u = { s with hbm := u.hbm } ∧ (part, row) ∈ (u.stack st).throttled)
    ∧ ∃ u, exec .refreshInterval s = .next u ∧ u = { s with hbm := u.hbm }
      ∧ ∀ k, (s.ns (k / 2) / 32000000 = (s.stack k).interval → u.stack k = s.stack k)
        ∧ (s.ns (k / 2) / 32000000 ≠ (s.stack k).interval →
            (u.stack k).acts = [] ∧ (u.stack k).throttled = [] ∧ (u.stack k).refreshing = [])

/-! ### The host (06, 22) -/

/-- The host's accesses: a read gives the bytes with their marks and changes no memory; a write changes its bytes and no
others; an access that must wait at its home, and one behind a waiting access at its stack, waits, and so does a write while a
checkpoint or restore runs, whose held writes a read does not wait for; a window write waits behind every write that waits; an item
enters its queue, or REFUSED rises; a held item enters once there is room; a hotness counter at its threshold returns to 0 and its
item, with COUNT 1, is posted (22 R399, R402, R408, R410, R412; 05 R124; 06 R139, R140, R145). The fault outside device memory is
the model's choice, log entry 6; whose HOTQ takes an item is open, log entries 4 and 33. -/
def Obligations.HostAccesses : Prop :=
  (∀ (s : State) (a n : Nat),
    (deviceTop < a + n → exec (.hostMemRead a n) s = .fault .outsideDeviceMemory)
    ∧ (a + n ≤ deviceTop → n ≠ 0 →
      (s.hostWaits a n = true ∨ (∃ w ∈ s.mgmt.heldWrites, (∃ st ∈ w.stacks, st ∈ (HostWrite.read a n).stacks)
          ∧ (w.reads = true ∨ s.mgmt.ckStat ≠ 3)) →
        exec (.hostMemRead a n) s = .next { s with mgmt := { s.mgmt with heldWrites := s.mgmt.heldWrites ++ [.read a n] } })
      ∧ (s.hostWaits a n = false → (∀ w ∈ s.mgmt.heldWrites, (∀ st ∈ w.stacks, st ∉ (HostWrite.read a n).stacks)
          ∨ w.reads = false ∧ s.mgmt.ckStat = 3) →
      ∃ u, exec (.hostMemRead a n) s = .next u
        ∧ u = { s with hbm := u.hbm, hostRead := u.hostRead, free := s.free + n } ∧ HotCounted s u none a n
        ∧ u.hostRead.length = n
        ∧ ∀ k, k < n → s.deviceOwned (a + k) = false → u.hostRead[k]? = some (s.mem.get (a + k), s.markAt (a + k)))))
  ∧ (∀ (s : State) (a : Nat) (bs : List Byte),
    (deviceTop < a + bs.length → exec (.hostMemWrite a bs) s = .fault .outsideDeviceMemory)
    ∧ (a + bs.length ≤ deviceTop → bs ≠ [] →
      (s.mgmt.ckStat = 3 ∨ s.hostWaits a bs.length = true
          ∨ (∃ w ∈ s.mgmt.heldWrites, ∃ st ∈ w.stacks, st ∈ (HostWrite.mem a bs).stacks) →
        exec (.hostMemWrite a bs) s = .next { s with mgmt := { s.mgmt with heldWrites := s.mgmt.heldWrites ++ [.mem a bs] } })
      ∧ (s.mgmt.ckStat ≠ 3 → s.hostWaits a bs.length = false →
        (∀ w ∈ s.mgmt.heldWrites, ∀ st ∈ w.stacks, st ∉ (HostWrite.mem a bs).stacks) → s.Calm → s.acqs = [] → s.homesUp a bs.length →
        ∃ u, exec (.hostMemWrite a bs) s = .next u ∧ MemoryOutside s u a bs.length ∧ u.hostMem = s.hostMem ∧ u.blocks = s.blocks
          ∧ u.threads = s.threads ∧ HotCounted s u none a bs.length
          ∧ ∀ k b, bs[k]? = some b → s.deviceOwned (a + k) = false → u.mem.get (a + k) = b)))
  ∧ (∀ (s : State) (q : Nat) (item : Word128), q < 512 →
    (∀ size, (∃ w ∈ s.mgmt.heldWrites, w.reads = false) → exec (.queueItemWrite q size item) s =
      .next { s with mgmt := { s.mgmt with heldWrites := s.mgmt.heldWrites ++ [.item q size item] } })
    ∧ ((∀ w ∈ s.mgmt.heldWrites, w.reads = true) → s.queueRoom q = true → s.deqs = [] →
      exec (.queueItemWrite q 16 item) s =
        .next { s with queues := s.queues.set q { s.queue q with items := (s.queue q).items ++ [item] } })
    ∧ (∀ size, (∀ w ∈ s.mgmt.heldWrites, w.reads = true) → size ≠ 16 ∨ s.queueRoom q = false →
      exec (.queueItemWrite q size item) s =
        .next { s with queues := s.queues.set q { s.queue q with refused := (s.queue q).refused + 1 } })
    ∧ ∀ h, s.held = [h] → h.queue = q → (∀ f ∈ s.faults, f.offered = true) →
      (s.queueRoom q = true → s.deqs = [] → exec (.heldItemReoffer q) s =
        .next { s with held := [], queues := s.queues.set q { s.queue q with items := (s.queue q).items ++ [h.item] } })
      ∧ (s.queueRoom q = false → exec (.heldItemReoffer q) s = .next s))
  ∧ ∀ (s : State) (st block slot : Nat),
    let x := s.stack st
    (x.hot.get (block, slot) 0 < s.hotLimit st → exec (.hotnessNotification st block slot) s = .next s)
    ∧ (∀ p rest, s.oracle = p :: rest →
      let q := (s.live (p % 8) 0).hotq
      s.hotLimit st ≤ x.hot.get (block, slot) 0 → s.held = [] → s.deqs = [] → s.queueRoom q = true →
      slot < 8 → block < 2 ^ 24 →
      ∃ u item, exec (.hotnessNotification st block slot) s = .next u
        ∧ u = { s with oracle := rest, hbm := u.hbm, queues := s.queues.set q { s.queue q with items := (s.queue q).items ++ [item] } }
        ∧ (u.stack st).hot.get (block, slot) 0 = 0
        ∧ item.extractLsb' 0 16 = 1 ∧ (item.extractLsb' 16 24).toNat = block ∧ (item.extractLsb' 64 3).toNat = slot)

/-- The host's commands: a fault completion ends its request, and with FAIL each waiter learns its own page; an unknown token
has no effect, nor has that of a request not made yet; an invalidation drops the cached translations and root entries it names, and drops translations again when it
completes; an ownership command changes its range, a release
empties the L1s; a completion word is written once the command's accesses are done (06 R134, R135, R137, R138, R144). That the L1s
are emptied whole is the model's choice, log entry 49. -/
def Obligations.HostCommands : Prop :=
  (∀ (s : State) (part : Nat) (w : Word64),
    ((∀ f ∈ s.faults, f.part = part → f.offered = true → f.token ≠ (w.extractLsb' 0 32).toNat) →
      exec (.faultCompletion part w) s = .next s)
    ∧ ∀ f, s.faults.find? (fun g => g.part == part && g.offered && g.token == (w.extractLsb' 0 32).toNat) = some f →
      (w.getLsbD 32 = false →
        ∃ u, exec (.faultCompletion part w) s = .next u ∧ u = { s with faults := u.faults, log := u.log }
          ∧ (∀ g, g ∈ u.faults ↔ g ∈ s.faults ∧ g.token ≠ f.token)
          ∧ ∀ l ∈ u.log, ∀ a ∈ l.accs, f.token ∉ a.tokens)
      ∧ (w.getLsbD 32 = true → (∀ p ∈ s.lqueues, p.2.token ≠ some f.token) → (∀ p ∈ s.launches, p.2.token ≠ some f.token) →
        (∀ p ∈ s.clusters, ∀ c ∈ p.2.hawk.copies, f.token ∉ c.tokens) → (∀ p ∈ s.saved, ∀ c ∈ p.2.copies, f.token ∉ c.tokens) →
        ∃ u, exec (.faultCompletion part w) s = .next u ∧ SameMemory s u
          ∧ (∀ g, g ∈ u.faults ↔ g ∈ s.faults ∧ g.token ≠ f.token)
          ∧ ∀ k t, s.threads.find k = some t →
              let becomes := fun (w : WaitKind) => u.threads.find k = some { t with wait := { t.wait with kind := w } }
              (∀ va, t.wait.kind = .page f.token (some va) ∨ t.wait.kind = .fetch (some (f.token, va)) → becomes (.pageFail va))
              ∧ (t.wait.kind = .page f.token none → becomes .again)
              ∧ ((∀ va, t.wait.kind ≠ .page f.token va) → (∀ va, t.wait.kind ≠ .fetch (some (f.token, va))) →
                  u.threads.find k = some t)))
  ∧ (∀ (s : State) (part : Nat) (cmd : Word128) (kind : Nat) (ev : Instr) (d : TlbEntry → Bool),
    (ev = .invalidatePage part cmd ∧ kind = 0 ∨ ev = .invalidateContext part cmd ∧ kind = 1 ∨ ev = .invalidatePartition part cmd ∧ kind = 2) →
    (cmd.extractLsb' 10 2).toNat = kind → s.cplAddrOk (cmd.extractLsb' 64 64).toNat = true → invDrops part cmd = some d →
    ∃ u, exec ev s = .next u ∧ u = { s with tlb := s.tlb.filter fun x => !d x, roots := u.roots, parts := u.parts }
      ∧ (∀ r, u.roots.find r =
          if r.1 = part ∧ (kind = 2 ∨ kind = 1 ∧ r.2 = (cmd.extractLsb' 0 10).toNat) then none else s.roots.find r)
      ∧ (∀ p, p ≠ part → u.part p = s.part p)
      ∧ u.part part = { s.part part with inval := (s.part part).inval ++ [{ cmd := cmd, word := 1, waitLoads := [], waitSq := [], waitSync := [], waitPeers := [] }] })
  ∧ (∀ (s : State) (part : Nat) (cmd : Word128) (c : Cmd) (rest : List Cmd) (a : Nat) (own : Bool) (ev : Instr),
    (ev = .invalidationComplete part ∧ own = false ∧ (s.part part).inval = c :: rest
      ∨ ev = .ownershipComplete part ∧ own = true ∧ (s.part part).own = c :: rest ∧ s.cmdDone c = true) →
    c.cmd = cmd → s.locOf (cmd.extractLsb' 64 64).toNat = some (.home a) → s.homeWaits a = false → s.homesUp a 8 →
    s.acqs = [] → s.Calm →
    ∃ u, exec ev s = .next u ∧ u.mem.bytes a 8 = toBytes 8 c.word ∧ MemoryOutside s u a 8 ∧ u.threads = s.threads
      ∧ u.part part = (if own then { s.part part with own := rest } else { s.part part with inval := rest })
      ∧ (own = false → ∀ d, invDrops part cmd = some d → u.tlb = s.tlb.filter fun x => !d x)
      ∧ (own = true → c.word = 1 → cmd.getLsbD 0 = true → ∀ k, (u.cluster k).l1 = []))
  ∧ ∀ (s : State) (part : Nat) (cmd : Word128) (host : Bool) (rs : List OwnRange),
    let ev := if host then Instr.ownershipAcquire part cmd else Instr.ownershipRelease part cmd
    let ctx := ownCtx cmd
    s.cplAddrOk (cmd.extractLsb' 64 64).toNat = true → cmd.getLsbD 0 = host → s.ownRanges part cmd host = some rs →
    ∃ u c, exec ev s = .next u ∧ u = { s with ctxs := u.ctxs, parts := u.parts, clusters := u.clusters }
      ∧ (u.ctxOf part ctx).ranges = rs ∧ (∀ x, x ≠ (part, ctx) → u.ctxs.find x = s.ctxs.find x)
      ∧ u.part part = { s.part part with own := (s.part part).own ++ [c] } ∧ c.cmd = cmd ∧ c.word = 1
      ∧ (host = false → ∀ k, (u.cluster k).l1 = []) ∧ (host = true → u.clusters = s.clusters)

/-- Checkpoint and restore: refused without the feature or at an unaligned range; otherwise every gang is asked to save;
once all are saved and every store is home, a checkpoint has copied device memory to its range and a restore has copied
the range back, and a write held meanwhile is applied after that (22 R410); a link that goes down abandons an operation in progress,
a held write is applied, and no gang is placed until the link has recovered (22 R411). That threads and gangs stay over a restore is
the model's choice, log entry 45. -/
def Obligations.Checkpoints : Prop :=
  (∀ (s : State) (cmd : Nat) (ev : Instr), (ev = .checkpoint ∧ cmd = 1 ∨ ev = .restore ∧ cmd = 2) →
    (s.mgmt.ckStat = 3 → exec ev s = .next s)
    ∧ (s.mgmt.ckStat ≠ 3 → (s.mgmt.ckBase.toNat % 2 ^ 30 ≠ 0 ∨ s.mgmt.accept.getLsbD 5 = false) →
      exec ev s = .next { s with mgmt := { s.mgmt with ckStat := 4 } })
    ∧ (s.mgmt.ckStat ≠ 3 → s.mgmt.ckBase.toNat % 2 ^ 30 = 0 → s.mgmt.accept.getLsbD 5 = true →
      ∃ u, exec ev s = .next u ∧ u = { s with mgmt := { s.mgmt with ckStat := 3, ckCmd := cmd }, gangs := u.gangs }
        ∧ ∀ g x, s.gangs.find g = some x → x.status = .running →
            u.gangs.find g = some { x with status := .requested (s.ns x.die) (s.preemptNsOf g) }))
  ∧ (∀ s : State, s.MemOk → s.mgmt.ckStat = 3 → s.allSaved = true → s.mgmt.heldWrites = [] →
    (∀ p ∈ s.clusters, p.2.sq = [] ∧ p.2.dirtyBlocks (fun _ => true) = []) →
    let lo := s.mgmt.ckBase.toNat
    (s.mgmt.ckCmd = 1 →
      ∃ u, exec .checkpointDone s = .next u ∧ u.mgmt.ckStat = 1 ∧ u.mem = s.mem ∧ u.threads = s.threads ∧ u.gangs = s.gangs
        ∧ (∀ a, a < deviceTop → u.hostMem.get (lo + a) = s.mem.get a)
        ∧ ∀ a, a < lo ∨ lo + deviceTop ≤ a → u.hostMem.get a = s.hostMem.get a)
    ∧ (∀ rest, s.mgmt.ckCmd = 2 → s.oracle = 0 :: rest →
      ∃ u, exec .checkpointDone s = .next u ∧ u.mgmt.ckStat = 1 ∧ u.mgmt.ckPois = 0 ∧ u.hostMem = s.hostMem ∧ u.threads = s.threads
        ∧ ∀ a, u.mem.get a = if a < deviceTop then s.hostMem.get (lo + a) else s.mem.get a))
  ∧ (∀ (s : State) (a : Nat) (bs : List Byte) (ev : Instr), s.mgmt.ckStat = 3 → s.mgmt.ckCmd = 1 → s.mgmt.heldWrites = [.mem a bs] →
    bs ≠ [] → a + bs.length ≤ deviceTop → s.hostWaits a bs.length = false → s.homesUp a bs.length → s.acqs = [] → s.Calm →
    (∀ c ∈ s.ctxs, ∀ r ∈ c.2.ranges, r.host = true) →
    (ev = .linkDown ∨ ev = .checkpointDone ∧ s.allSaved = true
      ∧ ∀ p ∈ s.clusters, p.2.sq = [] ∧ p.2.dirtyBlocks (fun _ => true) = []) →
    ∃ u, exec ev s = .next u ∧ u.mgmt.heldWrites = [] ∧ u.mem.bytes a bs.length = bs ∧ MemoryOutside s u a bs.length
      ∧ u.threads = s.threads ∧ u.gangs = s.gangs
      ∧ (ev = .checkpointDone → s.MemOk → ∀ b, b < deviceTop → u.hostMem.get (s.mgmt.ckBase.toNat + b) = s.mem.get b))
  ∧ ∀ s : State, (s.mgmt.ckStat ≠ 3 → exec .linkDown s = .next s)
    ∧ (s.mgmt.ckStat = 3 → s.acqs = [] → s.deqs = [] → s.Calm → s.mgmt.heldWrites = [] →
      ∃ u, exec .linkDown s = .next u ∧ u.mgmt = { s.mgmt with ckStat := 2, linkDown := true } ∧ u.threads = s.threads
        ∧ u.gangs = s.gangs ∧ ∀ x, u.noPlacing x = true)

/-! ### The whole machine -/

/-- A step runs the decoded instruction. After what can be done at once is done, an issue move executes, for the run its slot
picks, the instruction that the words at the PC decode to, with the run recorded; a resume move executes a waiting thread's
instruction again; an event move is its event; a read of BAR0 gives the register and changes nothing else. A fetched word is the four bytes at the PC's home address, the lowest first (04 R76; 02 R38, R45; 00 R3). -/
def Obligations.StepRunsDecoded : Prop :=
  (∀ (s s2 : State) (cl q : Nat) (rest : List Move) (k : TKey) (ks : List TKey) (t : Thread) (i : Instr),
    s.settle.agenda = .issue cl q :: rest →
    let s0 : State := { s.settle with agenda := rest }
    let c := s0.choose
    s0.promotionDue cl q = none → c.2.slotRun c.1 cl q = k :: ks → c.2.lacks (k :: ks) = [] →
    (∀ j ∈ k :: ks, ∀ u, c.2.threads.find j = some u → c.2.eligible j u = true) →
    let s1 := c.2.afterSlot cl q (k :: ks)
    s1.threads.find k = some t → s1.fetchInstr (s1.env k) t.pc = (.instr i, s2) →
    let s3 := (s2.forget (.thread k)).busyIslands cl (k :: ks) i
    let s4 := (k :: ks).foldl (fun st j => st.onThread j fun _ u => { u with issue := c.2.serial, await := [] }) s3
    step s = exec i { s4 with serial := s4.serial + 1, run := k :: ks })
  ∧ (∀ (s s1 : State) (rest : List Move) (k : TKey) (i : Instr), s.settle.agenda = .resume k :: rest →
    ({ s.settle with agenda := rest } : State).again k = .run i s1 → step s = exec i s1)
  ∧ (∀ (s : State) (rest : List Move) (i : Instr), s.settle.agenda = .event i :: rest → i.shape = none →
    step s = exec i { s.settle with agenda := rest })
  ∧ (∀ (s : State) (rest : List Move) (off size : Nat), s.settle.agenda = .barRead off size :: rest →
    step s = .next { s.settle with agenda := rest, barRead := s.settle.readBar off size })
  ∧ (∀ (s s1 s2 : State) (e : Env) (pc : Word64) (w : Word32) (ws rest : List Word32) (i : Instr), pc.toNat % 4 = 0 →
    s.fetchWord e pc.toNat = (.word w, s1) → s1.fetchWords e (pc.toNat + 4) (lengthOf w - 1) = (ws, none, s2) →
    decode (w :: ws) = .ok (i, rest) → s.fetchInstr e pc = (.instr i, s2))
  ∧ ∀ (s s1 s2 : State) (e : Env) (a h : Nat),
    s.checkRead (.thread e.key) { e.who with caches := [.quarter e.cl (e.crew % 4), .cluster e.cl, .die e.die] } a 4 true
      = (.ok [(.home h, a, 4)], s1) →
    s1.readPieces e.part e.sub e.rcd.owner 3 [(.home h, a, 4)] = (true, s2) →
    s2.homeWaits h = false → s2.markAt h = 0 → s.fetchWord e a = (.word (BitVec.ofNat 32 (s2.mem.le h 4)), s2)

/-- Words of the spec's encodings decode to their instructions (04 R74 to R80, R99; the extension maps of 07, 09, 10). -/
def Obligations.DecodeWords : Prop :=
  decode [0x017C3F20, 0x3E8] = .ok (.add { w := false, g := 0, d := 11, a := .latch 0, b := .lit32 1000 }, [])
  ∧ decode [0x0000000D, 0x01D00000] = .ok (.bar { g := 0, id := 3, pub := true, scope := .block, count := 0 }, [])
  ∧ decode [0x00C10065, 0x40000000] =
      .ok (.ld { w := false, g := 0, d := 6, a := .reg 4, ty := .b32, hint := .none, imm := 0 }, [])
  ∧ decode [0x00010366, 0x40000000] =
      .ok (.st { g := 0, a := .reg 4, b := .reg 6, ty := .b32, hint := .none, strm := 0, imm := 0 }, [])
  ∧ decode [0x30804120] = .ok (.add { w := false, g := 3, d := 4, a := .reg 1, b := .reg 2 }, [])
  ∧ decode [0x01404122] = .ok (.mul { w := false, g := 0, d := 10, a := .reg 1, b := .reg 2 }, [])
  ∧ decode [0x01800071, 3] = .ok (.qpop { w := false, g := 0, d := 12, q := 3 }, [])
  ∧ decode [0x00000000] = .ok (.nop { g := 0 }, [])

/-- Decoding and encoding agree: every well-formed instruction's words decode to it and nothing more, its opcode word gives
its length, and no bit of words that decode is dropped (04 R74 to R80, R99, R100). -/
def Obligations.EncodeDecode : Prop :=
  (∀ (i : Instr) (rest : List Word32), i.wf = true →
    decode (encode i ++ rest) = .ok (i, rest) ∧ i.bytes = 4 * lengthOf i.word0)
  ∧ ∀ (ws rest : List Word32) (i : Instr), decode ws = .ok (i, rest) → encode i ++ rest = ws

/-- Every step keeps the memories in canonical form: addresses strictly rising, no entry equal to what an unlisted address
reads as (the model's own form of memory, LOG 1). -/
def Obligations.MemoriesStayCanonical : Prop := ∀ s t : State, s.MemOk → step s = .next t → t.MemOk

/-- The state after reset: memory with nothing listed (the model's own form of memory, log entry 1) and in canonical form, no thread, only the management controller ready, every Scrim
port down, and the reset values of the power register, the STARVE record, the budgets and RHOLD (22 R403, R408; 21 R373,
R386, R389; 02 R44). A write at a home reads back and keeps the form. -/
def Obligations.ResetState : Prop :=
  State.reset.mem = [] ∧ State.reset.hostMem = [] ∧ State.reset.MemOk ∧ State.reset.threads = [] ∧ State.reset.mgmt.image.accepted = false
  ∧ (∀ k, State.reset.readyBit k = decide (k = 0)) ∧ (∀ p, (State.reset.port p).state = 0)
  ∧ (∀ c, ((State.reset.cluster c).power.extractLsb' 16 11).toNat = 48
      ∧ ((State.reset.cluster c).power.extractLsb' 8 8).toNat = 4 ∧ ((State.reset.cluster c).power.extractLsb' 0 7).toNat = 8)
  ∧ (∀ p sb st, st < 8 → (State.reset.live p sb).wbud st = 12800000 ∧ (State.reset.live p sb).rbud st = 51200000
      ∧ preemptNs (State.reset.live p sb).starve = 20000 ∧ ∀ c, starveLimit (State.reset.live p sb).starve c = 0)
  ∧ State.reset.gov.rhold = 4 ∧ State.reset.gov.level = 0
  ∧ ∀ (s : State) (a : Nat) (bs : List Byte) (mark : BitVec 2) (prio : Nat), s.homeFailed a = false →
    (s.homeWrite a bs mark prio).mem.bytes a bs.length = bs ∧ MemoryOutside s (s.homeWrite a bs mark prio) a bs.length
    ∧ (s.MemOk → (s.homeWrite a bs mark prio).MemOk)

/-- No instruction is refused, and none faults but a host access outside device memory (22 R399), whose fault is the model's choice,
log entry 6. -/
def Obligations.EveryInstructionAnswers : Prop :=
  ∀ (i : Instr) (s : State),
    (Answers (exec i s) ∨ exec i s = .fault .outsideDeviceMemory)
    ∧ (exec i s = .fault .outsideDeviceMemory →
        (∃ a n, i = .hostMemRead a n ∧ deviceTop < a + n) ∨ ∃ a bs, i = .hostMemWrite a bs ∧ deviceTop < a + bs.length)
end

