-- ==== Sys2Proof/Laws/Cells.lean ====
section
/-!
SUPPORT. Laws of the sparse maps and tables: a read after a write, what a write leaves alone, and the canonical form,
which every operation on a map keeps.
-/

namespace Sys2Proof.Machine

/-! ### Reading after writing -/

@[simp] theorem Cells.get_nil {w : Nat} (a : Nat) : Cells.get ([] : Cells w) a = 0 := rfl

theorem Cells.get_drop {w : Nat} (m : Cells w) (a b : Nat) : (m.drop a).get b = if b = a then 0 else m.get b := by
  induction m with
  | nil => simp [Cells.drop, Cells.get]
  | cons p m ih =>
    obtain ⟨k, x⟩ := p
    simp only [Cells.drop, Cells.get]
    split_ifs <;> simp_all [Cells.get]

theorem Cells.get_put {w : Nat} (m : Cells w) (a b : Nat) (v : BitVec w) :
    (m.put a v).get b = if b = a then v else m.get b := by
  induction m with
  | nil => simp [Cells.put, Cells.get, eq_comm]
  | cons p m ih =>
    obtain ⟨k, x⟩ := p
    simp only [Cells.put]
    by_cases hb : b = a
    · subst hb
      rw [if_pos rfl] at ih ⊢
      split_ifs with h1 h2
      · simp [Cells.get]
      · simp [Cells.get]
      · simp [Cells.get, h2, ih]
    · rw [if_neg hb] at ih ⊢
      split_ifs with h1 h2
      · simp [Cells.get, Ne.symm hb]
      · subst h2
        simp [Cells.get, Ne.symm hb]
      · simp [Cells.get, ih]

/-- A read after a write. -/
theorem Cells.get_set {w : Nat} (m : Cells w) (a b : Nat) (v : BitVec w) :
    (m.set a v).get b = if b = a then v else m.get b := by
  unfold Cells.set
  split_ifs with h1 h2 h3
  · simp [Cells.get_drop, h1, h2]
  · simp [Cells.get_drop, h2]
  · simp [Cells.get_put, h3]
  · simp [Cells.get_put, h3]

@[simp] theorem Cells.get_set_same {w : Nat} (m : Cells w) (a : Nat) (v : BitVec w) : (m.set a v).get a = v := by
  simp [Cells.get_set]

theorem Cells.get_set_ne {w : Nat} (m : Cells w) {a b : Nat} (v : BitVec w) (h : b ≠ a) :
    (m.set a v).get b = m.get b := by
  simp [Cells.get_set, h]

/-- Bytes written outside a span leave it alone. -/
theorem Cells.get_setBytes_out (bs : List Byte) (m : Cells 8) (a b : Nat) (h : b < a ∨ a + bs.length ≤ b) :
    (m.setBytes a bs).get b = m.get b := by
  induction bs generalizing m a with
  | nil => rfl
  | cons x bs ih =>
    simp only [List.length_cons] at h
    simp only [Cells.setBytes]
    rw [ih _ _ (by omega), Cells.get_set_ne _ _ (by omega)]

/-- Bytes written read back. -/
theorem Cells.get_setBytes_in (bs : List Byte) (m : Cells 8) (a j : Nat) (h : j < bs.length) :
    (m.setBytes a bs).get (a + j) = bs.getD j 0 := by
  induction bs generalizing m a j with
  | nil => simp at h
  | cons x bs ih =>
    simp only [Cells.setBytes]
    cases j with
    | zero => rw [Cells.get_setBytes_out _ _ _ _ (by omega)]; simp
    | succ j =>
      have := ih (m.set a x) (a + 1) j (by simpa using h)
      rw [show a + (j + 1) = a + 1 + j by omega, this]; simp

theorem Cells.bytes_setBytes (bs : List Byte) (m : Cells 8) (a : Nat) : (m.setBytes a bs).bytes a bs.length = bs := by
  induction bs generalizing m a with
  | nil => rfl
  | cons x bs ih =>
    simp only [Cells.setBytes, List.length_cons, Cells.bytes]
    rw [ih, Cells.get_setBytes_out _ _ _ _ (by omega)]
    simp

theorem Cells.get_fill {w : Nat} (n : Nat) (m : Cells w) (a b : Nat) (v : BitVec w) :
    (m.fill a v n).get b = if a ≤ b ∧ b < a + n then v else m.get b := by
  induction n generalizing m a with
  | zero => rw [if_neg (by omega)]; rfl
  | succ n ih =>
    simp only [Cells.fill, ih, Cells.get_set]
    split_ifs <;> first | rfl | omega

theorem Cells.get_clearRange {w : Nat} (m : Cells w) (lo hi b : Nat) :
    (m.clearRange lo hi).get b = if lo ≤ b ∧ b < hi then 0 else m.get b := by
  induction m with
  | nil => simp [Cells.clearRange, Cells.get]
  | cons p m ih =>
    obtain ⟨k, x⟩ := p
    simp only [Cells.clearRange, List.filter_cons] at ih ⊢
    split_ifs with h1 h2 h2
    · simp only [Cells.get]
      rw [if_neg (by simp at h1; omega)]
      simpa [h2] using ih
    · simp only [Cells.get]
      split_ifs
      · rfl
      · simpa [h2] using ih
    · simpa [h2] using ih
    · simp only [Cells.get]
      rw [if_neg (by simp at h1; omega)]
      simpa [h2] using ih

/-! ### The canonical form -/

/-- The canonical form, said of every entry. -/
theorem Cells.wf_cons {w : Nat} (k : Nat) (x : BitVec w) (m : Cells w) :
    Cells.wf ((k, x) :: m) = true ↔ x ≠ 0 ∧ Cells.above m k ∧ Cells.wf m = true := by
  induction m generalizing k x with
  | nil => simp [Cells.wf, Cells.above]
  | cons p m ih =>
    obtain ⟨k', x'⟩ := p
    rw [Cells.wf, Bool.and_eq_true, Bool.and_eq_true]
    constructor
    · rintro ⟨⟨h1, h2⟩, h3⟩
      have h4 := (ih k' x').1 h3
      refine ⟨by simpa using h1, ?_, h3⟩
      intro q hq
      rcases List.mem_cons.1 hq with rfl | hq
      · simpa using h2
      · exact lt_trans (by simpa using h2) (h4.2.1 q hq)
    · rintro ⟨h1, h2, h3⟩
      exact ⟨⟨by simpa using h1, by simpa using h2 (k', x') (List.mem_cons_self ..)⟩, h3⟩

@[simp] theorem Cells.wf_nil {w : Nat} : Cells.wf ([] : Cells w) = true := rfl

/-- What is left of a canonical map is canonical. -/
theorem Cells.wf_filter {w : Nat} (m : Cells w) (p : Nat × BitVec w → Bool) (h : Cells.wf m = true) :
    Cells.wf (List.filter p m) = true := by
  induction m with
  | nil => rfl
  | cons q m ih =>
    obtain ⟨k, x⟩ := q
    obtain ⟨h1, h2, h3⟩ := (Cells.wf_cons k x m).1 h
    simp only [List.filter_cons]
    split_ifs
    · exact (Cells.wf_cons ..).2 ⟨h1, fun q hq => h2 q (List.mem_of_mem_filter hq), ih h3⟩
    · exact ih h3

theorem Cells.drop_eq_filter {w : Nat} (m : Cells w) (a : Nat) :
    m.drop a = List.filter (fun p => decide (p.1 ≠ a)) m := by
  induction m with
  | nil => rfl
  | cons q m ih =>
    obtain ⟨k, x⟩ := q
    simp only [Cells.drop, List.filter_cons, ih]
    by_cases h : k = a <;> simp [h]

theorem Cells.wf_drop {w : Nat} (m : Cells w) (a : Nat) (h : Cells.wf m = true) : Cells.wf (m.drop a) = true := by
  rw [Cells.drop_eq_filter]
  exact Cells.wf_filter m _ h

theorem Cells.mem_put {w : Nat} (m : Cells w) (a : Nat) (v : BitVec w) (q : Nat × BitVec w) (h : q ∈ m.put a v) :
    q = (a, v) ∨ q ∈ m := by
  induction m with
  | nil => simpa [Cells.put] using h
  | cons p m ih =>
    obtain ⟨k, x⟩ := p
    simp only [Cells.put] at h
    split_ifs at h
    · simpa using h
    · simp only [List.mem_cons] at h ⊢
      tauto
    · simp only [List.mem_cons] at h ⊢
      rcases h with h | h
      · exact .inr (.inl h)
      · rcases ih h with h | h
        · exact .inl h
        · exact .inr (.inr h)

theorem Cells.wf_put {w : Nat} (m : Cells w) (a : Nat) (v : BitVec w) (hv : v ≠ 0) (h : Cells.wf m = true) :
    Cells.wf (m.put a v) = true := by
  induction m with
  | nil => exact (Cells.wf_cons a v []).2 ⟨hv, by simp [Cells.above], rfl⟩
  | cons p m ih =>
    obtain ⟨k, x⟩ := p
    obtain ⟨h1, h2, h3⟩ := (Cells.wf_cons k x m).1 h
    simp only [Cells.put]
    split_ifs with hk ha
    · refine (Cells.wf_cons ..).2 ⟨hv, ?_, h⟩
      intro q hq
      rcases List.mem_cons.1 hq with rfl | hq
      · exact hk
      · exact lt_trans hk (h2 q hq)
    · subst ha
      exact (Cells.wf_cons ..).2 ⟨hv, h2, h3⟩
    · refine (Cells.wf_cons ..).2 ⟨h1, ?_, ih h3⟩
      intro q hq
      rcases Cells.mem_put m a v q hq with rfl | hq
      · show k < a
        omega
      · exact h2 q hq

/-- A write keeps the canonical form. -/
theorem Cells.wf_set {w : Nat} (m : Cells w) (a : Nat) (v : BitVec w) (h : Cells.wf m = true) :
    Cells.wf (m.set a v) = true := by
  unfold Cells.set
  split_ifs with hv
  · exact Cells.wf_drop m a h
  · exact Cells.wf_put m a v hv h

theorem Cells.wf_setBytes (bs : List Byte) (m : Cells 8) (a : Nat) (h : Cells.wf m = true) :
    Cells.wf (m.setBytes a bs) = true := by
  induction bs generalizing m a with
  | nil => exact h
  | cons x bs ih => exact ih _ _ (Cells.wf_set m a x h)

theorem Cells.wf_fill {w : Nat} (n : Nat) (m : Cells w) (a : Nat) (v : BitVec w) (h : Cells.wf m = true) :
    Cells.wf (m.fill a v n) = true := by
  induction n generalizing m a with
  | zero => exact h
  | succ n ih => exact ih _ _ (Cells.wf_set m a v h)

theorem Cells.wf_clearRange {w : Nat} (m : Cells w) (lo hi : Nat) (h : Cells.wf m = true) :
    Cells.wf (m.clearRange lo hi) = true := Cells.wf_filter m _ h

/-- A map built by writes from a canonical one is canonical. -/
theorem Cells.wf_foldl {w : Nat} {α : Type} (f : Cells w → α → Cells w)
    (hf : ∀ m x, Cells.wf m = true → Cells.wf (f m x) = true) (l : List α) (m : Cells w) (h : Cells.wf m = true) :
    Cells.wf (l.foldl f m) = true := by
  induction l generalizing m with
  | nil => exact h
  | cons x l ih => exact ih _ (hf m x h)

/-! ### Tables -/

variable {κ α : Type} [DecidableEq κ]

@[simp] theorem Tbl.find_nil (k : κ) : Tbl.find ([] : Tbl κ α) k = none := rfl

theorem Tbl.find_set (t : Tbl κ α) (k k' : κ) (x : α) :
    Tbl.find (Tbl.set t k x) k' = if k' = k then some x else Tbl.find t k' := by
  induction t with
  | nil => simp [Tbl.set, Tbl.find, eq_comm]
  | cons p t ih =>
    obtain ⟨j, y⟩ := p
    simp only [Tbl.set]
    by_cases hk : k' = k
    · subst hk
      rw [if_pos rfl] at ih ⊢
      split_ifs with h
      · simp [Tbl.find]
      · simp [Tbl.find, h, ih]
    · rw [if_neg hk] at ih ⊢
      split_ifs with h
      · subst h
        simp [Tbl.find, Ne.symm hk]
      · simp [Tbl.find, ih]

@[simp] theorem Tbl.find_set_same (t : Tbl κ α) (k : κ) (x : α) : Tbl.find (Tbl.set t k x) k = some x := by
  simp [Tbl.find_set]

theorem Tbl.find_set_ne (t : Tbl κ α) {k k' : κ} (x : α) (h : k' ≠ k) :
    Tbl.find (Tbl.set t k x) k' = Tbl.find t k' := by
  simp [Tbl.find_set, h]

theorem Tbl.find_erase (t : Tbl κ α) (k k' : κ) :
    Tbl.find (Tbl.erase t k) k' = if k' = k then none else Tbl.find t k' := by
  induction t with
  | nil => simp [Tbl.erase, Tbl.find]
  | cons p t ih =>
    obtain ⟨j, y⟩ := p
    simp only [Tbl.erase, Tbl.find]
    split_ifs <;> simp_all [Tbl.find]

theorem Tbl.find_upd (t : Tbl κ α) (k k' : κ) (f : α → α) :
    Tbl.find (Tbl.upd t k f) k' = if k' = k then (Tbl.find t k').map f else Tbl.find t k' := by
  induction t with
  | nil => simp [Tbl.upd, Tbl.find]
  | cons p t ih =>
    obtain ⟨j, y⟩ := p
    simp only [Tbl.upd]
    by_cases hj : j = k
    · subst hj
      by_cases hk : k' = j
      · subst hk; simp [Tbl.find]
      · simp [Tbl.find, hk, Ne.symm hk]
    · by_cases hk : k' = k
      · subst hk; simp [Tbl.find, hj, ih]
      · simp [Tbl.find, hj, hk, ih]

theorem Tbl.find_mapAll (t : Tbl κ α) (f : κ → α → α) (k : κ) :
    Tbl.find (Tbl.mapAll t f) k = (Tbl.find t k).map (f k) := by
  induction t with
  | nil => rfl
  | cons p t ih =>
    obtain ⟨j, y⟩ := p
    simp only [Tbl.mapAll, Tbl.find]
    split_ifs with h
    · subst h; rfl
    · exact ih

/-- What a table lists after a record is put. -/
theorem Tbl.mem_set (t : Tbl κ α) (k : κ) (x : α) (p : κ × α) (h : p ∈ Tbl.set t k x) : p = (k, x) ∨ p ∈ t := by
  induction t with
  | nil => simpa [Tbl.set] using h
  | cons q t ih =>
    obtain ⟨j, y⟩ := q
    simp only [Tbl.set] at h
    split_ifs at h
    · simp only [List.mem_cons] at h ⊢
      tauto
    · simp only [List.mem_cons] at h ⊢
      rcases h with h | h
      · exact .inr (.inl h)
      · rcases ih h with h | h
        · exact .inl h
        · exact .inr (.inr h)

/-- A record found is listed. -/
theorem Tbl.find_mem {t : Tbl κ α} {k : κ} {x : α} (h : Tbl.find t k = some x) : (k, x) ∈ t := by
  induction t with
  | nil => simp at h
  | cons q t ih =>
    obtain ⟨j, y⟩ := q
    simp only [Tbl.find] at h
    split_ifs at h with hj
    · subst hj
      obtain rfl := Option.some.inj h
      exact List.mem_cons_self ..
    · exact List.mem_cons_of_mem _ (ih h)

theorem Tbl.get_of_find {t : Tbl κ α} {k : κ} {x : α} (d : α) (h : Tbl.find t k = some x) : Tbl.get t k d = x := by
  simp [Tbl.get, h]

@[simp] theorem Tbl.get_set_same (t : Tbl κ α) (k : κ) (x d : α) : Tbl.get (Tbl.set t k x) k d = x := by
  simp [Tbl.get]

theorem Tbl.get_set_ne (t : Tbl κ α) {k k' : κ} (x d : α) (h : k' ≠ k) :
    Tbl.get (Tbl.set t k x) k' d = Tbl.get t k' d := by
  simp [Tbl.get, Tbl.find_set_ne t x h]

end Sys2Proof.Machine
end

