-- ==== Sys2Proof/Laws/State.lean ====
section
/-!
SUPPORT. One law for each field of the state under each of its updates: what the update writes, and that every other
field stays.
-/

namespace Sys2Proof.Machine

/-! ### `setThread` -/

@[simp] theorem State.setThread_mem (s : State) (k : TKey) (t : Thread) : (s.setThread k t).mem = s.mem := rfl
@[simp] theorem State.setThread_poison (s : State) (k : TKey) (t : Thread) : (s.setThread k t).poison = s.poison := rfl
@[simp] theorem State.setThread_fieldOff (s : State) (k : TKey) (t : Thread) : (s.setThread k t).fieldOff = s.fieldOff := rfl
@[simp] theorem State.setThread_l2 (s : State) (k : TKey) (t : Thread) : (s.setThread k t).l2 = s.l2 := rfl
@[simp] theorem State.setThread_l2dirty (s : State) (k : TKey) (t : Thread) : (s.setThread k t).l2dirty = s.l2dirty := rfl
@[simp] theorem State.setThread_replicas (s : State) (k : TKey) (t : Thread) : (s.setThread k t).replicas = s.replicas := rfl
@[simp] theorem State.setThread_hostMem (s : State) (k : TKey) (t : Thread) : (s.setThread k t).hostMem = s.hostMem := rfl
@[simp] theorem State.setThread_reloading (s : State) (k : TKey) (t : Thread) : (s.setThread k t).reloading = s.reloading := rfl
@[simp] theorem State.setThread_threads (s : State) (k : TKey) (t : Thread) : (s.setThread k t).threads = s.threads.set k t := rfl
@[simp] theorem State.setThread_crews (s : State) (k : TKey) (t : Thread) : (s.setThread k t).crews = s.crews := rfl
@[simp] theorem State.setThread_blocks (s : State) (k : TKey) (t : Thread) : (s.setThread k t).blocks = s.blocks := rfl
@[simp] theorem State.setThread_gangs (s : State) (k : TKey) (t : Thread) : (s.setThread k t).gangs = s.gangs := rfl
@[simp] theorem State.setThread_launches (s : State) (k : TKey) (t : Thread) : (s.setThread k t).launches = s.launches := rfl
@[simp] theorem State.setThread_barriers (s : State) (k : TKey) (t : Thread) : (s.setThread k t).barriers = s.barriers := rfl
@[simp] theorem State.setThread_loads (s : State) (k : TKey) (t : Thread) : (s.setThread k t).loads = s.loads := rfl
@[simp] theorem State.setThread_log (s : State) (k : TKey) (t : Thread) : (s.setThread k t).log = s.log := rfl
@[simp] theorem State.setThread_faults (s : State) (k : TKey) (t : Thread) : (s.setThread k t).faults = s.faults := rfl
@[simp] theorem State.setThread_acqs (s : State) (k : TKey) (t : Thread) : (s.setThread k t).acqs = s.acqs := rfl
@[simp] theorem State.setThread_peerReads (s : State) (k : TKey) (t : Thread) : (s.setThread k t).peerReads = s.peerReads := rfl
@[simp] theorem State.setThread_lqueues (s : State) (k : TKey) (t : Thread) : (s.setThread k t).lqueues = s.lqueues := rfl
@[simp] theorem State.setThread_queues (s : State) (k : TKey) (t : Thread) : (s.setThread k t).queues = s.queues := rfl
@[simp] theorem State.setThread_deqs (s : State) (k : TKey) (t : Thread) : (s.setThread k t).deqs = s.deqs := rfl
@[simp] theorem State.setThread_rings (s : State) (k : TKey) (t : Thread) : (s.setThread k t).rings = s.rings := rfl
@[simp] theorem State.setThread_held (s : State) (k : TKey) (t : Thread) : (s.setThread k t).held = s.held := rfl
@[simp] theorem State.setThread_clusters (s : State) (k : TKey) (t : Thread) : (s.setThread k t).clusters = s.clusters := rfl
@[simp] theorem State.setThread_dieNs (s : State) (k : TKey) (t : Thread) : (s.setThread k t).dieNs = s.dieNs := rfl
@[simp] theorem State.setThread_saved (s : State) (k : TKey) (t : Thread) : (s.setThread k t).saved = s.saved := rfl
@[simp] theorem State.setThread_hbm (s : State) (k : TKey) (t : Thread) : (s.setThread k t).hbm = s.hbm := rfl
@[simp] theorem State.setThread_ports (s : State) (k : TKey) (t : Thread) : (s.setThread k t).ports = s.ports := rfl
@[simp] theorem State.setThread_tlb (s : State) (k : TKey) (t : Thread) : (s.setThread k t).tlb = s.tlb := rfl
@[simp] theorem State.setThread_ctxs (s : State) (k : TKey) (t : Thread) : (s.setThread k t).ctxs = s.ctxs := rfl
@[simp] theorem State.setThread_windows (s : State) (k : TKey) (t : Thread) : (s.setThread k t).windows = s.windows := rfl
@[simp] theorem State.setThread_wctr (s : State) (k : TKey) (t : Thread) : (s.setThread k t).wctr = s.wctr := rfl
@[simp] theorem State.setThread_rctr (s : State) (k : TKey) (t : Thread) : (s.setThread k t).rctr = s.rctr := rfl
@[simp] theorem State.setThread_parts (s : State) (k : TKey) (t : Thread) : (s.setThread k t).parts = s.parts := rfl
@[simp] theorem State.setThread_mgmt (s : State) (k : TKey) (t : Thread) : (s.setThread k t).mgmt = s.mgmt := rfl
@[simp] theorem State.setThread_gov (s : State) (k : TKey) (t : Thread) : (s.setThread k t).gov = s.gov := rfl
@[simp] theorem State.setThread_usage (s : State) (k : TKey) (t : Thread) : (s.setThread k t).usage = s.usage := rfl
@[simp] theorem State.setThread_thermal (s : State) (k : TKey) (t : Thread) : (s.setThread k t).thermal = s.thermal := rfl
@[simp] theorem State.setThread_l2gran (s : State) (k : TKey) (t : Thread) : (s.setThread k t).l2gran = s.l2gran := rfl
@[simp] theorem State.setThread_evicting (s : State) (k : TKey) (t : Thread) : (s.setThread k t).evicting = s.evicting := rfl
@[simp] theorem State.setThread_consumed (s : State) (k : TKey) (t : Thread) : (s.setThread k t).consumed = s.consumed := rfl
@[simp] theorem State.setThread_orphans (s : State) (k : TKey) (t : Thread) : (s.setThread k t).orphans = s.orphans := rfl
@[simp] theorem State.setThread_roots (s : State) (k : TKey) (t : Thread) : (s.setThread k t).roots = s.roots := rfl
@[simp] theorem State.setThread_barRead (s : State) (k : TKey) (t : Thread) : (s.setThread k t).barRead = s.barRead := rfl
@[simp] theorem State.setThread_hostRead (s : State) (k : TKey) (t : Thread) : (s.setThread k t).hostRead = s.hostRead := rfl
@[simp] theorem State.setThread_agenda (s : State) (k : TKey) (t : Thread) : (s.setThread k t).agenda = s.agenda := rfl
@[simp] theorem State.setThread_run (s : State) (k : TKey) (t : Thread) : (s.setThread k t).run = s.run := rfl
@[simp] theorem State.setThread_oracle (s : State) (k : TKey) (t : Thread) : (s.setThread k t).oracle = s.oracle := rfl
@[simp] theorem State.setThread_free (s : State) (k : TKey) (t : Thread) : (s.setThread k t).free = s.free := rfl
@[simp] theorem State.setThread_serial (s : State) (k : TKey) (t : Thread) : (s.setThread k t).serial = s.serial := rfl
@[simp] theorem State.setThread_placeNo (s : State) (k : TKey) (t : Thread) : (s.setThread k t).placeNo = s.placeNo := rfl
@[simp] theorem State.setThread_turn (s : State) (k : TKey) (t : Thread) : (s.setThread k t).turn = s.turn := rfl

/-! ### `setCluster` -/

@[simp] theorem State.setCluster_mem (s : State) (c : Nat) (x : Cluster) : (s.setCluster c x).mem = s.mem := rfl
@[simp] theorem State.setCluster_poison (s : State) (c : Nat) (x : Cluster) : (s.setCluster c x).poison = s.poison := rfl
@[simp] theorem State.setCluster_fieldOff (s : State) (c : Nat) (x : Cluster) : (s.setCluster c x).fieldOff = s.fieldOff := rfl
@[simp] theorem State.setCluster_l2 (s : State) (c : Nat) (x : Cluster) : (s.setCluster c x).l2 = s.l2 := rfl
@[simp] theorem State.setCluster_l2dirty (s : State) (c : Nat) (x : Cluster) : (s.setCluster c x).l2dirty = s.l2dirty := rfl
@[simp] theorem State.setCluster_replicas (s : State) (c : Nat) (x : Cluster) : (s.setCluster c x).replicas = s.replicas := rfl
@[simp] theorem State.setCluster_hostMem (s : State) (c : Nat) (x : Cluster) : (s.setCluster c x).hostMem = s.hostMem := rfl
@[simp] theorem State.setCluster_reloading (s : State) (c : Nat) (x : Cluster) : (s.setCluster c x).reloading = s.reloading := rfl
@[simp] theorem State.setCluster_threads (s : State) (c : Nat) (x : Cluster) : (s.setCluster c x).threads = s.threads := rfl
@[simp] theorem State.setCluster_crews (s : State) (c : Nat) (x : Cluster) : (s.setCluster c x).crews = s.crews := rfl
@[simp] theorem State.setCluster_blocks (s : State) (c : Nat) (x : Cluster) : (s.setCluster c x).blocks = s.blocks := rfl
@[simp] theorem State.setCluster_gangs (s : State) (c : Nat) (x : Cluster) : (s.setCluster c x).gangs = s.gangs := rfl
@[simp] theorem State.setCluster_launches (s : State) (c : Nat) (x : Cluster) : (s.setCluster c x).launches = s.launches := rfl
@[simp] theorem State.setCluster_barriers (s : State) (c : Nat) (x : Cluster) : (s.setCluster c x).barriers = s.barriers := rfl
@[simp] theorem State.setCluster_loads (s : State) (c : Nat) (x : Cluster) : (s.setCluster c x).loads = s.loads := rfl
@[simp] theorem State.setCluster_log (s : State) (c : Nat) (x : Cluster) : (s.setCluster c x).log = s.log := rfl
@[simp] theorem State.setCluster_faults (s : State) (c : Nat) (x : Cluster) : (s.setCluster c x).faults = s.faults := rfl
@[simp] theorem State.setCluster_acqs (s : State) (c : Nat) (x : Cluster) : (s.setCluster c x).acqs = s.acqs := rfl
@[simp] theorem State.setCluster_peerReads (s : State) (c : Nat) (x : Cluster) : (s.setCluster c x).peerReads = s.peerReads := rfl
@[simp] theorem State.setCluster_lqueues (s : State) (c : Nat) (x : Cluster) : (s.setCluster c x).lqueues = s.lqueues := rfl
@[simp] theorem State.setCluster_queues (s : State) (c : Nat) (x : Cluster) : (s.setCluster c x).queues = s.queues := rfl
@[simp] theorem State.setCluster_deqs (s : State) (c : Nat) (x : Cluster) : (s.setCluster c x).deqs = s.deqs := rfl
@[simp] theorem State.setCluster_rings (s : State) (c : Nat) (x : Cluster) : (s.setCluster c x).rings = s.rings := rfl
@[simp] theorem State.setCluster_held (s : State) (c : Nat) (x : Cluster) : (s.setCluster c x).held = s.held := rfl
@[simp] theorem State.setCluster_clusters (s : State) (c : Nat) (x : Cluster) : (s.setCluster c x).clusters = s.clusters.set c x := rfl
@[simp] theorem State.setCluster_dieNs (s : State) (c : Nat) (x : Cluster) : (s.setCluster c x).dieNs = s.dieNs := rfl
@[simp] theorem State.setCluster_saved (s : State) (c : Nat) (x : Cluster) : (s.setCluster c x).saved = s.saved := rfl
@[simp] theorem State.setCluster_hbm (s : State) (c : Nat) (x : Cluster) : (s.setCluster c x).hbm = s.hbm := rfl
@[simp] theorem State.setCluster_ports (s : State) (c : Nat) (x : Cluster) : (s.setCluster c x).ports = s.ports := rfl
@[simp] theorem State.setCluster_tlb (s : State) (c : Nat) (x : Cluster) : (s.setCluster c x).tlb = s.tlb := rfl
@[simp] theorem State.setCluster_ctxs (s : State) (c : Nat) (x : Cluster) : (s.setCluster c x).ctxs = s.ctxs := rfl
@[simp] theorem State.setCluster_windows (s : State) (c : Nat) (x : Cluster) : (s.setCluster c x).windows = s.windows := rfl
@[simp] theorem State.setCluster_wctr (s : State) (c : Nat) (x : Cluster) : (s.setCluster c x).wctr = s.wctr := rfl
@[simp] theorem State.setCluster_rctr (s : State) (c : Nat) (x : Cluster) : (s.setCluster c x).rctr = s.rctr := rfl
@[simp] theorem State.setCluster_parts (s : State) (c : Nat) (x : Cluster) : (s.setCluster c x).parts = s.parts := rfl
@[simp] theorem State.setCluster_mgmt (s : State) (c : Nat) (x : Cluster) : (s.setCluster c x).mgmt = s.mgmt := rfl
@[simp] theorem State.setCluster_gov (s : State) (c : Nat) (x : Cluster) : (s.setCluster c x).gov = s.gov := rfl
@[simp] theorem State.setCluster_usage (s : State) (c : Nat) (x : Cluster) : (s.setCluster c x).usage = s.usage := rfl
@[simp] theorem State.setCluster_thermal (s : State) (c : Nat) (x : Cluster) : (s.setCluster c x).thermal = s.thermal := rfl
@[simp] theorem State.setCluster_l2gran (s : State) (c : Nat) (x : Cluster) : (s.setCluster c x).l2gran = s.l2gran := rfl
@[simp] theorem State.setCluster_evicting (s : State) (c : Nat) (x : Cluster) : (s.setCluster c x).evicting = s.evicting := rfl
@[simp] theorem State.setCluster_consumed (s : State) (c : Nat) (x : Cluster) : (s.setCluster c x).consumed = s.consumed := rfl
@[simp] theorem State.setCluster_orphans (s : State) (c : Nat) (x : Cluster) : (s.setCluster c x).orphans = s.orphans := rfl
@[simp] theorem State.setCluster_roots (s : State) (c : Nat) (x : Cluster) : (s.setCluster c x).roots = s.roots := rfl
@[simp] theorem State.setCluster_barRead (s : State) (c : Nat) (x : Cluster) : (s.setCluster c x).barRead = s.barRead := rfl
@[simp] theorem State.setCluster_hostRead (s : State) (c : Nat) (x : Cluster) : (s.setCluster c x).hostRead = s.hostRead := rfl
@[simp] theorem State.setCluster_agenda (s : State) (c : Nat) (x : Cluster) : (s.setCluster c x).agenda = s.agenda := rfl
@[simp] theorem State.setCluster_run (s : State) (c : Nat) (x : Cluster) : (s.setCluster c x).run = s.run := rfl
@[simp] theorem State.setCluster_oracle (s : State) (c : Nat) (x : Cluster) : (s.setCluster c x).oracle = s.oracle := rfl
@[simp] theorem State.setCluster_free (s : State) (c : Nat) (x : Cluster) : (s.setCluster c x).free = s.free := rfl
@[simp] theorem State.setCluster_serial (s : State) (c : Nat) (x : Cluster) : (s.setCluster c x).serial = s.serial := rfl
@[simp] theorem State.setCluster_placeNo (s : State) (c : Nat) (x : Cluster) : (s.setCluster c x).placeNo = s.placeNo := rfl
@[simp] theorem State.setCluster_turn (s : State) (c : Nat) (x : Cluster) : (s.setCluster c x).turn = s.turn := rfl

/-! ### `setPort` -/

@[simp] theorem State.setPort_mem (s : State) (p : Nat) (x : Port) : (s.setPort p x).mem = s.mem := rfl
@[simp] theorem State.setPort_poison (s : State) (p : Nat) (x : Port) : (s.setPort p x).poison = s.poison := rfl
@[simp] theorem State.setPort_fieldOff (s : State) (p : Nat) (x : Port) : (s.setPort p x).fieldOff = s.fieldOff := rfl
@[simp] theorem State.setPort_l2 (s : State) (p : Nat) (x : Port) : (s.setPort p x).l2 = s.l2 := rfl
@[simp] theorem State.setPort_l2dirty (s : State) (p : Nat) (x : Port) : (s.setPort p x).l2dirty = s.l2dirty := rfl
@[simp] theorem State.setPort_replicas (s : State) (p : Nat) (x : Port) : (s.setPort p x).replicas = s.replicas := rfl
@[simp] theorem State.setPort_hostMem (s : State) (p : Nat) (x : Port) : (s.setPort p x).hostMem = s.hostMem := rfl
@[simp] theorem State.setPort_reloading (s : State) (p : Nat) (x : Port) : (s.setPort p x).reloading = s.reloading := rfl
@[simp] theorem State.setPort_threads (s : State) (p : Nat) (x : Port) : (s.setPort p x).threads = s.threads := rfl
@[simp] theorem State.setPort_crews (s : State) (p : Nat) (x : Port) : (s.setPort p x).crews = s.crews := rfl
@[simp] theorem State.setPort_blocks (s : State) (p : Nat) (x : Port) : (s.setPort p x).blocks = s.blocks := rfl
@[simp] theorem State.setPort_gangs (s : State) (p : Nat) (x : Port) : (s.setPort p x).gangs = s.gangs := rfl
@[simp] theorem State.setPort_launches (s : State) (p : Nat) (x : Port) : (s.setPort p x).launches = s.launches := rfl
@[simp] theorem State.setPort_barriers (s : State) (p : Nat) (x : Port) : (s.setPort p x).barriers = s.barriers := rfl
@[simp] theorem State.setPort_loads (s : State) (p : Nat) (x : Port) : (s.setPort p x).loads = s.loads := rfl
@[simp] theorem State.setPort_log (s : State) (p : Nat) (x : Port) : (s.setPort p x).log = s.log := rfl
@[simp] theorem State.setPort_faults (s : State) (p : Nat) (x : Port) : (s.setPort p x).faults = s.faults := rfl
@[simp] theorem State.setPort_acqs (s : State) (p : Nat) (x : Port) : (s.setPort p x).acqs = s.acqs := rfl
@[simp] theorem State.setPort_peerReads (s : State) (p : Nat) (x : Port) : (s.setPort p x).peerReads = s.peerReads := rfl
@[simp] theorem State.setPort_lqueues (s : State) (p : Nat) (x : Port) : (s.setPort p x).lqueues = s.lqueues := rfl
@[simp] theorem State.setPort_queues (s : State) (p : Nat) (x : Port) : (s.setPort p x).queues = s.queues := rfl
@[simp] theorem State.setPort_deqs (s : State) (p : Nat) (x : Port) : (s.setPort p x).deqs = s.deqs := rfl
@[simp] theorem State.setPort_rings (s : State) (p : Nat) (x : Port) : (s.setPort p x).rings = s.rings := rfl
@[simp] theorem State.setPort_held (s : State) (p : Nat) (x : Port) : (s.setPort p x).held = s.held := rfl
@[simp] theorem State.setPort_clusters (s : State) (p : Nat) (x : Port) : (s.setPort p x).clusters = s.clusters := rfl
@[simp] theorem State.setPort_dieNs (s : State) (p : Nat) (x : Port) : (s.setPort p x).dieNs = s.dieNs := rfl
@[simp] theorem State.setPort_saved (s : State) (p : Nat) (x : Port) : (s.setPort p x).saved = s.saved := rfl
@[simp] theorem State.setPort_hbm (s : State) (p : Nat) (x : Port) : (s.setPort p x).hbm = s.hbm := rfl
@[simp] theorem State.setPort_ports (s : State) (p : Nat) (x : Port) : (s.setPort p x).ports = s.ports.set p x := rfl
@[simp] theorem State.setPort_tlb (s : State) (p : Nat) (x : Port) : (s.setPort p x).tlb = s.tlb := rfl
@[simp] theorem State.setPort_ctxs (s : State) (p : Nat) (x : Port) : (s.setPort p x).ctxs = s.ctxs := rfl
@[simp] theorem State.setPort_windows (s : State) (p : Nat) (x : Port) : (s.setPort p x).windows = s.windows := rfl
@[simp] theorem State.setPort_wctr (s : State) (p : Nat) (x : Port) : (s.setPort p x).wctr = s.wctr := rfl
@[simp] theorem State.setPort_rctr (s : State) (p : Nat) (x : Port) : (s.setPort p x).rctr = s.rctr := rfl
@[simp] theorem State.setPort_parts (s : State) (p : Nat) (x : Port) : (s.setPort p x).parts = s.parts := rfl
@[simp] theorem State.setPort_mgmt (s : State) (p : Nat) (x : Port) : (s.setPort p x).mgmt = s.mgmt := rfl
@[simp] theorem State.setPort_gov (s : State) (p : Nat) (x : Port) : (s.setPort p x).gov = s.gov := rfl
@[simp] theorem State.setPort_usage (s : State) (p : Nat) (x : Port) : (s.setPort p x).usage = s.usage := rfl
@[simp] theorem State.setPort_thermal (s : State) (p : Nat) (x : Port) : (s.setPort p x).thermal = s.thermal := rfl
@[simp] theorem State.setPort_l2gran (s : State) (p : Nat) (x : Port) : (s.setPort p x).l2gran = s.l2gran := rfl
@[simp] theorem State.setPort_evicting (s : State) (p : Nat) (x : Port) : (s.setPort p x).evicting = s.evicting := rfl
@[simp] theorem State.setPort_consumed (s : State) (p : Nat) (x : Port) : (s.setPort p x).consumed = s.consumed := rfl
@[simp] theorem State.setPort_orphans (s : State) (p : Nat) (x : Port) : (s.setPort p x).orphans = s.orphans := rfl
@[simp] theorem State.setPort_roots (s : State) (p : Nat) (x : Port) : (s.setPort p x).roots = s.roots := rfl
@[simp] theorem State.setPort_barRead (s : State) (p : Nat) (x : Port) : (s.setPort p x).barRead = s.barRead := rfl
@[simp] theorem State.setPort_hostRead (s : State) (p : Nat) (x : Port) : (s.setPort p x).hostRead = s.hostRead := rfl
@[simp] theorem State.setPort_agenda (s : State) (p : Nat) (x : Port) : (s.setPort p x).agenda = s.agenda := rfl
@[simp] theorem State.setPort_run (s : State) (p : Nat) (x : Port) : (s.setPort p x).run = s.run := rfl
@[simp] theorem State.setPort_oracle (s : State) (p : Nat) (x : Port) : (s.setPort p x).oracle = s.oracle := rfl
@[simp] theorem State.setPort_free (s : State) (p : Nat) (x : Port) : (s.setPort p x).free = s.free := rfl
@[simp] theorem State.setPort_serial (s : State) (p : Nat) (x : Port) : (s.setPort p x).serial = s.serial := rfl
@[simp] theorem State.setPort_placeNo (s : State) (p : Nat) (x : Port) : (s.setPort p x).placeNo = s.placeNo := rfl
@[simp] theorem State.setPort_turn (s : State) (p : Nat) (x : Port) : (s.setPort p x).turn = s.turn := rfl

/-! ### `bump` -/

@[simp] theorem State.bump_mem (s : State) : (s.bump).mem = s.mem := rfl
@[simp] theorem State.bump_poison (s : State) : (s.bump).poison = s.poison := rfl
@[simp] theorem State.bump_fieldOff (s : State) : (s.bump).fieldOff = s.fieldOff := rfl
@[simp] theorem State.bump_l2 (s : State) : (s.bump).l2 = s.l2 := rfl
@[simp] theorem State.bump_l2dirty (s : State) : (s.bump).l2dirty = s.l2dirty := rfl
@[simp] theorem State.bump_replicas (s : State) : (s.bump).replicas = s.replicas := rfl
@[simp] theorem State.bump_hostMem (s : State) : (s.bump).hostMem = s.hostMem := rfl
@[simp] theorem State.bump_reloading (s : State) : (s.bump).reloading = s.reloading := rfl
@[simp] theorem State.bump_threads (s : State) : (s.bump).threads = s.threads := rfl
@[simp] theorem State.bump_crews (s : State) : (s.bump).crews = s.crews := rfl
@[simp] theorem State.bump_blocks (s : State) : (s.bump).blocks = s.blocks := rfl
@[simp] theorem State.bump_gangs (s : State) : (s.bump).gangs = s.gangs := rfl
@[simp] theorem State.bump_launches (s : State) : (s.bump).launches = s.launches := rfl
@[simp] theorem State.bump_barriers (s : State) : (s.bump).barriers = s.barriers := rfl
@[simp] theorem State.bump_loads (s : State) : (s.bump).loads = s.loads := rfl
@[simp] theorem State.bump_log (s : State) : (s.bump).log = s.log := rfl
@[simp] theorem State.bump_faults (s : State) : (s.bump).faults = s.faults := rfl
@[simp] theorem State.bump_acqs (s : State) : (s.bump).acqs = s.acqs := rfl
@[simp] theorem State.bump_peerReads (s : State) : (s.bump).peerReads = s.peerReads := rfl
@[simp] theorem State.bump_lqueues (s : State) : (s.bump).lqueues = s.lqueues := rfl
@[simp] theorem State.bump_queues (s : State) : (s.bump).queues = s.queues := rfl
@[simp] theorem State.bump_deqs (s : State) : (s.bump).deqs = s.deqs := rfl
@[simp] theorem State.bump_rings (s : State) : (s.bump).rings = s.rings := rfl
@[simp] theorem State.bump_held (s : State) : (s.bump).held = s.held := rfl
@[simp] theorem State.bump_clusters (s : State) : (s.bump).clusters = s.clusters := rfl
@[simp] theorem State.bump_dieNs (s : State) : (s.bump).dieNs = s.dieNs := rfl
@[simp] theorem State.bump_saved (s : State) : (s.bump).saved = s.saved := rfl
@[simp] theorem State.bump_hbm (s : State) : (s.bump).hbm = s.hbm := rfl
@[simp] theorem State.bump_ports (s : State) : (s.bump).ports = s.ports := rfl
@[simp] theorem State.bump_tlb (s : State) : (s.bump).tlb = s.tlb := rfl
@[simp] theorem State.bump_ctxs (s : State) : (s.bump).ctxs = s.ctxs := rfl
@[simp] theorem State.bump_windows (s : State) : (s.bump).windows = s.windows := rfl
@[simp] theorem State.bump_wctr (s : State) : (s.bump).wctr = s.wctr := rfl
@[simp] theorem State.bump_rctr (s : State) : (s.bump).rctr = s.rctr := rfl
@[simp] theorem State.bump_parts (s : State) : (s.bump).parts = s.parts := rfl
@[simp] theorem State.bump_mgmt (s : State) : (s.bump).mgmt = s.mgmt := rfl
@[simp] theorem State.bump_gov (s : State) : (s.bump).gov = s.gov := rfl
@[simp] theorem State.bump_usage (s : State) : (s.bump).usage = s.usage := rfl
@[simp] theorem State.bump_thermal (s : State) : (s.bump).thermal = s.thermal := rfl
@[simp] theorem State.bump_l2gran (s : State) : (s.bump).l2gran = s.l2gran := rfl
@[simp] theorem State.bump_evicting (s : State) : (s.bump).evicting = s.evicting := rfl
@[simp] theorem State.bump_consumed (s : State) : (s.bump).consumed = s.consumed := rfl
@[simp] theorem State.bump_orphans (s : State) : (s.bump).orphans = s.orphans := rfl
@[simp] theorem State.bump_roots (s : State) : (s.bump).roots = s.roots := rfl
@[simp] theorem State.bump_barRead (s : State) : (s.bump).barRead = s.barRead := rfl
@[simp] theorem State.bump_hostRead (s : State) : (s.bump).hostRead = s.hostRead := rfl
@[simp] theorem State.bump_agenda (s : State) : (s.bump).agenda = s.agenda := rfl
@[simp] theorem State.bump_run (s : State) : (s.bump).run = s.run := rfl
@[simp] theorem State.bump_oracle (s : State) : (s.bump).oracle = s.oracle := rfl
@[simp] theorem State.bump_free (s : State) : (s.bump).free = s.free := rfl
@[simp] theorem State.bump_serial (s : State) : (s.bump).serial = s.serial + 1 := rfl
@[simp] theorem State.bump_placeNo (s : State) : (s.bump).placeNo = s.placeNo := rfl
@[simp] theorem State.bump_turn (s : State) : (s.bump).turn = s.turn := rfl

end Sys2Proof.Machine
end

