-- ==== Sys2Proof/Laws/Stores.lean ====
section
/-!
SUPPORT. What the shared operations do to the three memories of the machine (device memory, host memory, poison marks):
most leave them as they are (`State.stores`), and those that write keep the canonical form (`State.MemOk`). An issue keeps
whatever its own effect on one thread, the setting of a thread and the killing of gangs keep.
-/

namespace Sys2Proof.Machine

/-- The device memory, the host's memory and the poison marks. -/
def State.stores (s : State) : Cells 8 × Cells 8 × Cells 2 := (s.mem, s.hostMem, s.poison)

/-- The canonical form depends on the three memories alone. -/
theorem State.memOk_of_stores {s u : State} (h : u.stores = s.stores) (hs : s.MemOk) : u.MemOk := by
  simp only [State.stores, Prod.mk.injEq] at h
  obtain ⟨h1, h2, h3⟩ := h
  simpa only [State.MemOk, h1, h2, h3] using hs

/-- What every step of a fold leaves as it is, the fold leaves. -/
theorem State.foldl_stores {α : Type} (f : State → α → State) (h : ∀ s x, (f s x).stores = s.stores) (l : List α) (s : State) :
    (l.foldl f s).stores = s.stores := by
  induction l generalizing s with
  | nil => rfl
  | cons x l ih => rw [List.foldl_cons, ih, h]

/-- What every step of a fold keeps, the fold keeps. -/
theorem State.foldl_keeps {α : Type} (P : State → Prop) (f : State → α → State) (h : ∀ s x, P s → P (f s x)) (l : List α)
    (s : State) (hs : P s) : P (l.foldl f s) := by
  induction l generalizing s with
  | nil => exact hs
  | cons x l ih => exact ih _ (h s x hs)

/-! ### Operations that leave the memories as they are -/

@[simp] theorem State.setThread_stores (s : State) (k : TKey) (t : Thread) : (s.setThread k t).stores = s.stores := rfl
@[simp] theorem State.setCluster_stores (s : State) (c : Nat) (x : Cluster) : (s.setCluster c x).stores = s.stores := rfl
@[simp] theorem State.onCluster_stores (s : State) (c : Nat) (f : Cluster → Cluster) : (s.onCluster c f).stores = s.stores := rfl
@[simp] theorem State.bump_stores (s : State) : s.bump.stores = s.stores := rfl
@[simp] theorem State.setPort_stores (s : State) (n : Nat) (p : Port) : (s.setPort n p).stores = s.stores := rfl
@[simp] theorem State.charge_stores (s : State) (o : Nat) (f : Usage → Usage) : (s.charge o f).stores = s.stores := rfl
@[simp] theorem State.energy_stores (s : State) (o : Nat) : (s.energy o).stores = s.stores := rfl
@[simp] theorem State.onBlock_stores (s : State) (b : BKey) (f : Block → Block) : (s.onBlock b f).stores = s.stores := rfl
@[simp] theorem State.forget_stores (s : State) (c : Client) : (s.forget c).stores = s.stores := rfl
@[simp] theorem State.startBlock_stores (s : State) (l : Nat) (rcd : Rec) (b c p : Nat) (w : Word128) :
    (s.startBlock l rcd b c p w).stores = s.stores := rfl
@[simp] theorem State.reportKill_stores (s : State) (p o : Nat) (k : Kill) : (s.reportKill p o k).stores = s.stores := rfl
@[simp] theorem State.dropGangWork_stores (s : State) (g : GKey) : (s.dropGangWork g).stores = s.stores := rfl
@[simp] theorem State.dropGang_stores (s : State) (g : GKey) : (s.dropGang g).stores = s.stores := rfl

@[simp] theorem State.onThread_stores (s : State) (k : TKey) (f : Env → Thread → Thread) : (s.onThread k f).stores = s.stores := by
  unfold State.onThread; split <;> rfl

@[simp] theorem State.choose_stores (s : State) : s.choose.2.stores = s.stores := by
  unfold State.choose; split <;> rfl

@[simp] theorem State.endLaunch_stores (s : State) (l : Nat) (st : Byte) : (s.endLaunch l st).stores = s.stores := by
  unfold State.endLaunch
  split
  · rfl
  · exact State.foldl_stores _ State.dropGang_stores _ _

@[simp] theorem State.relaunchGang_stores (s : State) (g : GKey) (x : Launch) (gg : Gang) :
    (s.relaunchGang g x gg).stores = s.stores := by
  unfold State.relaunchGang
  exact (State.foldl_stores _ (fun st b => by dsimp only; split <;> rfl) _ _).trans (State.dropGangWork_stores s g)

@[simp] theorem State.noteUe_stores (s : State) : s.noteUe.stores = s.stores := rfl

@[simp] theorem State.killGang_stores (s : State) (g : GKey) (k : Kill) : (s.killGang g k).stores = s.stores := by
  unfold State.killGang
  split
  · dsimp only; split <;> simp
  · rfl

@[simp] theorem State.reap_stores (s : State) : s.reap.stores = s.stores := by
  unfold State.reap
  refine State.foldl_stores _ (fun st p => ?_) _ _
  split
  · split <;> simp
  · rfl

/-- Keeping a root entry changes the root entries alone. -/
theorem State.keepRoot_rest (s : State) (p c : Nat) : s.keepRoot p c = { s with roots := (s.keepRoot p c).roots } := by
  unfold State.keepRoot
  split
  · split <;> rfl
  · rfl

theorem State.choose_rest (s : State) : s.choose.2 = { s with oracle := s.choose.2.oracle } := by
  unfold State.choose; split <;> rfl

/-- `u` is `s` but for the translation caches, the cached root entries and the choices consumed. -/
def State.TlbOnly (s u : State) : Prop := u = { s with tlb := u.tlb, roots := u.roots, oracle := u.oracle }

theorem State.TlbOnly.refl (s : State) : s.TlbOnly s := rfl

theorem State.TlbOnly.trans {s u v : State} (h1 : s.TlbOnly u) (h2 : u.TlbOnly v) : s.TlbOnly v := by
  unfold State.TlbOnly at *
  rw [h1] at h2
  exact h2

theorem State.TlbOnly.stores {s u : State} (h : s.TlbOnly u) : u.stores = s.stores := by
  unfold State.TlbOnly at h
  rw [h]; rfl

theorem State.tlbOnly_of_choose {s u : State} {c : Nat} (h : s.choose = (c, u)) (tlb : List TlbEntry) :
    s.TlbOnly { u with tlb := tlb } := by
  have h1 : s.TlbOnly s.choose.2 := by
    unfold State.TlbOnly State.choose; split <;> rfl
  rw [h] at h1
  exact h1.trans rfl

theorem State.keepRoot_tlbOnly (s : State) (p c : Nat) : s.TlbOnly (s.keepRoot p c) := by
  unfold State.TlbOnly
  unfold State.keepRoot
  split
  · split <;> rfl
  · rfl

/-- A translation changes the caches and consumes choices. -/
theorem State.translate_rest (s : State) (w : Who) (va : Nat) : s.TlbOnly (s.translate w va).2 := by
  have hw : ∀ u : State, s.TlbOnly u → s.TlbOnly (match u.walk w.part w.ctx va with
      | .leaf l => (Walk.leaf l, { u.keepRoot w.part w.ctx with tlb := w.caches.foldl (tlbPut l w) u.tlb })
      | r => (r, u.keepRoot w.part w.ctx)).2 := by
    intro u hu
    have hk := hu.trans (State.keepRoot_tlbOnly u w.part w.ctx)
    split
    · exact hk.trans rfl
    · exact hk
  unfold State.translate
  extract_lets walked
  split
  · exact hw s rfl
  · split
    · rename_i h
      split
      · exact hw _ (State.tlbOnly_of_choose h _)
      · exact State.tlbOnly_of_choose h _

@[simp] theorem State.translate_stores (s : State) (w : Who) (va : Nat) : (s.translate w va).2.stores = s.stores :=
  (State.translate_rest s w va).stores

@[simp] theorem State.translateAll_stores (as : List Nat) (s : State) (w : Who) : (s.translateAll w as).2.stores = s.stores := by
  induction as generalizing s with
  | nil => rfl
  | cons a as ih => simp only [State.translateAll, ih, State.translate_stores]

@[simp] theorem State.checkRest_stores (s : State) (w : Who) (a n : Nat) (wr fetch : Bool) :
    (s.checkRest w a n wr fetch).2.stores = s.stores := by
  unfold State.checkRest
  dsimp only
  repeat' split
  all_goals first | rfl | exact State.translateAll_stores _ s w

/-- The checks of an access write no memory. -/
@[simp] theorem State.check_stores (s : State) (w : Who) (a : Int) (n : Nat) (wr fetch : Bool) :
    (s.check w a n wr fetch).2.stores = s.stores := by
  unfold State.check
  repeat' split
  all_goals first | rfl | exact State.checkRest_stores s w _ n wr fetch

@[simp] theorem State.checkRead_stores (s : State) (c : Client) (w : Who) (a : Int) (n : Nat) (fetch : Bool) :
    (s.checkRead c w a n fetch).2.stores = s.stores := by
  unfold State.checkRead; split <;> simp

theorem State.ask_stores {s u : State} {port : Nat} {use : TagUse} {a k sub len : Nat} {data : List Byte}
    (h : s.ask port use a k sub len data = some u) : u.stores = s.stores := by
  unfold State.ask at h
  simp only [Option.map_eq_some_iff] at h
  obtain ⟨_, _, rfl⟩ := h
  rfl

theorem State.request_stores {s u : State} {port owner : Nat} {use : TagUse} {a k sub len : Nat} {data : List Byte}
    (h : s.request port owner use a k sub len data = some u) : u.stores = s.stores := by
  unfold State.request at h
  simp only [Option.map_eq_some_iff] at h
  obtain ⟨w, hw, rfl⟩ := h
  show w.stores = s.stores
  exact State.ask_stores hw

@[simp] theorem State.respond_stores (s : State) (port a tag kind sub : Nat) (data : List Byte) :
    (s.respond port a tag kind sub data).stores = s.stores := rfl

@[simp] theorem State.copyUses_stores (s : State) (cl id port : Nat) : (s.copyUses cl id port).stores = s.stores := by
  unfold State.copyUses; split <;> rfl

@[simp] theorem State.askPeer_stores (c : Client) (o : Nat) (s : State) (p : Piece0) : (State.askPeer c o s p).stores = s.stores := by
  unfold State.askPeer
  split
  · split
    · rfl
    · dsimp only
      split
      · rename_i h
        have h1 := State.request_stores h
        split
        · exact (State.copyUses_stores _ _ _ _).trans h1
        · exact h1
      · rfl
  · rfl

@[simp] theorem State.gather_stores (s : State) (c : Client) (o : Nat) (ps : List Piece0) : (s.gather c o ps).2.stores = s.stores :=
  State.foldl_stores _ (State.askPeer_stores c o) _ _

@[simp] theorem State.makeCharge_stores (s : State) (wr : Bool) (p b o : Nat) (cs : List (Nat × Nat)) :
    (s.makeCharge wr p b o cs).stores = s.stores := by
  unfold State.makeCharge
  dsimp only
  split <;> split <;> rfl

@[simp] theorem State.touchL2_stores (s : State) (pa prio : Nat) (d : Bool) (gs : List Nat) :
    (s.touchL2 pa prio d gs).stores = s.stores := by
  unfold State.touchL2; split <;> rfl

@[simp] theorem State.enqueue_stores (s : State) (cl : Nat) (x : SqEntry) : (s.enqueue cl x).stores = s.stores := by
  unfold State.enqueue; dsimp only; split <;> rfl

@[simp] theorem State.acknowledge_stores (s : State) (cl : Nat) (x : SqEntry) : (s.acknowledge cl x).stores = s.stores := by
  unfold State.acknowledge; dsimp only; split <;> rfl

@[simp] theorem State.withdrawPeer_stores (s : State) (k : TKey) (tag : Nat) : (s.withdrawPeer k tag).stores = s.stores := by
  unfold State.withdrawPeer; split <;> rfl

@[simp] theorem State.rewindRng_stores (s : State) : s.rewindRng.stores = s.stores := by
  unfold State.rewindRng
  refine State.foldl_stores _ (fun st k => ?_) _ _
  split
  · split <;> rfl
  · rfl

@[simp] theorem State.switchChain_stores (s : State) (ks : List TKey) : (s.switchChain ks).stores = s.stores := by
  unfold State.switchChain
  rw [State.foldl_stores _ (fun st k => State.onThread_stores _ _ _)]
  exact State.rewindRng_stores { s with run := ks }

@[simp] theorem State.takeTrap_stores (s : State) (k : TKey) (d : Due) : (s.takeTrap k d).stores = s.stores := by
  unfold State.takeTrap
  split
  · rfl
  · split
    · rfl
    · exact (State.onThread_stores _ _ _).trans (State.switchChain_stores _ _)

@[simp] theorem State.strike_stores (s : State) (k : TKey) (d : Due) : (s.strike k d).stores = s.stores := by
  unfold State.strike
  split
  · rfl
  · dsimp only
    split
    · split
      · exact State.withdrawPeer_stores _ _ _
      · rfl
    · exact State.takeTrap_stores _ _ _
    · exact State.takeTrap_stores _ _ _
    · split <;> exact State.takeTrap_stores _ _ _
    · exact State.takeTrap_stores _ _ _
    · rfl
    · exact State.takeTrap_stores _ _ _

@[simp] theorem State.deferTrap_stores (s : State) (k : TKey) (pc : Word64) (tr : Trap) : (s.deferTrap k pc tr).stores = s.stores :=
  State.strike_stores _ _ _

@[simp] theorem State.deferPoison_stores (s : State) (k : TKey) (pc : Word64) (m : BitVec 2) (a : Nat)
    (l : Option UsedLeaf) : (s.deferPoison k pc m a l).stores = s.stores := by
  unfold State.deferPoison; split <;> simp

@[simp] theorem State.finishLoad_stores (s : State) (l : PendLoad) : (s.finishLoad l).stores = s.stores := by
  unfold State.finishLoad
  split
  · dsimp only
    split
    · exact State.deferPoison_stores _ _ _ _ _ _
    · exact State.onThread_stores _ _ _
  · rfl

@[simp] theorem State.askPiece_stores (s : State) (l : PendLoad) (k : Nat) (p : Piece) : (s.askPiece l k p).stores = s.stores := by
  unfold State.askPiece
  split
  · dsimp only
    split
    · rfl
    · split
      · rename_i h; have := State.request_stores h; exact this
      · rfl
  · rfl

@[simp] theorem State.testWaiters_stores (s : State) (a n : Nat) : (s.testWaiters a n).stores = s.stores := by
  unfold State.testWaiters
  refine State.foldl_stores _ (fun st r => ?_) _ _
  dsimp only
  split
  · exact State.onThread_stores _ _ _
  · rfl

@[simp] theorem State.atomDone_stores (s : State) (l : Nat) (bs : List Byte) (m : BitVec 2) : (s.atomDone l bs m).stores = s.stores := by
  unfold State.atomDone; split <;> simp

@[simp] theorem State.sendEntry_stores (s : State) (cl : Nat) (x : SqEntry) (pa : Nat) : (s.sendEntry cl x pa).stores = s.stores := by
  unfold State.sendEntry
  dsimp only
  split
  · rename_i u h
    have hu : u.stores = s.stores := by
      split at h
      · exact State.request_stores h
      · exact State.request_stores h
      · cases h
    split
    · exact (State.copyUses_stores _ _ _ _).trans hu
    · exact hu
  · rfl

/-! ### Operations that write memory -/

/-- A write at a home keeps the canonical form. -/
theorem State.homeWrite_memOk (s : State) (a : Nat) (bs : List Byte) (m : BitVec 2) (prio : Nat) (h : s.MemOk) :
    (s.homeWrite a bs m prio).MemOk := by
  unfold State.homeWrite
  split
  · exact h
  · refine State.memOk_of_stores (State.touchL2_stores _ _ _ _ _) ⟨Cells.wf_setBytes _ _ _ h.1, h.2.1, ?_⟩
    dsimp only
    split
    · exact Cells.wf_set _ _ _ (Cells.wf_set _ _ _ h.2.2)
    · exact Cells.wf_set _ _ _ h.2.2

/-- So does a write of one piece at its place. -/
theorem State.writeAt_memOk (s : State) (l : Loc) (bs : List Byte) (m : BitVec 2) (prio : Nat) (h : s.MemOk) :
    (s.writeAt l bs m prio).MemOk := by
  cases l with
  | home a => exact State.homeWrite_memOk s a bs m prio h
  | host a => exact ⟨h.1, Cells.wf_setBytes _ _ _ h.2.1, h.2.2⟩
  | peer a => exact h
  | spad b off => exact h

theorem State.atomAt_memOk (s : State) (l : Loc) (op : AtomOp) (w : Bool) (b c prio : Nat) (h : s.MemOk) :
    (s.atomAt l op w b c prio).2.2.MemOk := by
  unfold State.atomAt
  dsimp only
  split
  · exact State.writeAt_memOk _ _ _ _ _ h
  · exact h

/-! ### Issues -/

/-- What a thread's setting and its effect keep, one thread of an issue keeps. -/
theorem State.issueOne_keeps (P : State → Prop) (i : Instr) (act : State → Env → Thread → State)
    (hset : ∀ s k t, P s → P (s.setThread k t)) (hact : ∀ s e t, P s → P (act s e t)) (s : State) (k : TKey) (hs : P s) :
    P (State.issueOne i act s k) := by
  unfold State.issueOne
  dsimp only
  split
  · exact hs
  · split
    · exact hset _ _ _ hs
    · split
      · exact hact _ _ _ hs
      · exact hset _ _ _ hs

/-- An issue keeps what a thread's setting, its effect and the killing of gangs keep. -/
theorem State.issueEach_keeps (P : State → Prop) (i : Instr) (act : State → Env → Thread → State)
    (hset : ∀ s k t, P s → P (s.setThread k t)) (hact : ∀ s e t, P s → P (act s e t)) (hreap : ∀ s, P s → P s.reap)
    (s : State) (hs : P s) : P (s.issueEach i act) := by
  unfold State.issueEach
  exact hreap _ (State.foldl_keeps P _ (fun st k h => State.issueOne_keeps P i act hset hact st k h) _ _ hs)

theorem State.issueLocal_stores (s : State) (i : Instr) (act : Env → Thread → Thread) : (s.issueLocal i act).stores = s.stores :=
  State.issueEach_keeps (fun u => u.stores = s.stores) i (fun st e t => st.setThread e.key (act e t)) (fun _ _ _ h => h) (fun _ _ _ h => h)
    (fun u h => (State.reap_stores u).trans h) s rfl

/-- A short instruction changes no memory (04 R88). -/
theorem State.issueShort_stores (s : State) (i : Instr) (eff off : Env → Thread → Thread × Word128) :
    (s.issueShort i eff off).stores = s.stores := by
  unfold State.issueShort State.runShort
  rw [State.reap_stores]
  dsimp only
  rw [State.foldl_stores _ (fun st k => State.onThread_stores _ _ _)]
  split
  · exact State.rewindRng_stores s
  · rfl

/-- An issue per crew keeps what a thread's setting, a crew's effect and the killing of gangs keep. -/
theorem State.issueCrews_keeps (P : State → Prop) (rd : Reader) (i : Instr) (act : State → CKey → List TKey → State)
    (hset : ∀ s k t, P s → P (s.setThread k t)) (hact : ∀ s c ks, P s → P (act s c ks)) (hreap : ∀ s, P s → P s.reap)
    (s : State) (hs : P s) : P (s.issueCrews rd i act) := by
  have hon : ∀ (u : State) k f, P u → P (u.onThread k f) := fun u k f hu => by
    unfold State.onThread; split
    · exact hset _ _ _ hu
    · exact hu
  unfold State.issueCrews
  refine hreap _ (State.foldl_keeps P _ (fun st p h => ?_) _ _ (State.foldl_keeps P _ (fun st k h => ?_) _ _ hs))
  · split
    · exact h
    · split
      · exact hact _ _ _ h
      · exact State.foldl_keeps P _ (fun u k hu => hon u k _ hu) _ _ h
  · split
    · exact h
    · dsimp only
      split
      · exact hset _ _ _ h
      · split
        · exact h
        · exact hset _ _ _ h

end Sys2Proof.Machine
end

