-- ==== Sys2Proof/Laws/Access.lean ====
section
/-!
SUPPORT. What issuing an access, the hardware queues, the barriers and fetching an instruction leave as it is: none of them
writes device memory, the host's memory or a poison mark; a write of a thread lands when its entry is applied.
-/

namespace Sys2Proof.Machine

/-! ### Canonical addresses (06 R127, R128) -/

theorem addrTop_zero (a : Int) : addrTop a = 0 ↔ 0 ≤ a ∧ a < 2 ^ 56 := by
  cases a with
  | ofNat n => simp only [addrTop, Int.ofNat_eq_natCast]; omega
  | negSucc n => simp only [addrTop]; omega

theorem addrTop_high (a : Int) : addrTop a = 255 ↔ 2 ^ 64 - 2 ^ 56 ≤ a ∧ a < 2 ^ 64 := by
  cases a with
  | ofNat n => simp only [addrTop, Int.ofNat_eq_natCast]; omega
  | negSucc n => simp only [addrTop]; omega

/-- An access is canonical when it lies in the low or in the high canonical range. -/
theorem accessCanonical_iff (a : Int) (n : Nat) (hn : 0 < n) :
    accessCanonical a n = true ↔ (0 ≤ a ∧ a + n ≤ 2 ^ 56) ∨ (2 ^ 64 - 2 ^ 56 ≤ a ∧ a + n ≤ 2 ^ 64) := by
  simp only [accessCanonical, Bool.or_eq_true, Bool.and_eq_true, beq_iff_eq, addrTop_zero, addrTop_high]
  omega

/-! ### Hardware queues (02 R49 to R51) -/

theorem State.popQueue_stores {s u : State} {q : Nat} {x : Word128} (h : s.popQueue q = some (x, u)) : u.stores = s.stores := by
  unfold State.popQueue at h
  split at h
  · cases h
  · cases h; rfl

theorem State.takeItem_stores {s u : State} {x : QSel} {v : Word128} (h : s.takeItem x = some (v, u)) : u.stores = s.stores := by
  unfold State.takeItem at h
  split at h
  · exact State.popQueue_stores h
  · dsimp only at h
    split at h
    · have := State.popQueue_stores h; exact this
    · cases h
  · cases h

@[simp] theorem State.completeDeq_stores (s : State) (r : DeqReq) (x : Word128) : (s.completeDeq r x).stores = s.stores :=
  State.onThread_stores _ _ _

@[simp] theorem State.serveDeqs_stores (s : State) : s.serveDeqs.stores = s.stores := by
  unfold State.serveDeqs
  refine State.foldl_stores _ (fun st r => ?_) _ _
  split
  · rename_i h
    rw [State.completeDeq_stores, State.takeItem_stores h]
  · rfl

@[simp] theorem State.enterQueue_stores (s : State) (q : Nat) (x : Word128) : (s.enterQueue q x).stores = s.stores :=
  State.serveDeqs_stores _

@[simp] theorem State.post_stores (s : State) (src q : Nat) (x : Word128) : (s.post src q x).stores = s.stores := by
  unfold State.post
  split
  · exact State.enterQueue_stores _ _ _
  · rfl

@[simp] theorem State.reoffer_stores (s : State) : s.reoffer.stores = s.stores := by
  unfold State.reoffer
  refine State.foldl_stores _ (fun st h => ?_) _ _
  split
  · exact State.enterQueue_stores _ _ _
  · rfl

/-! ### Fault requests and the operand log (06 R142, R144) -/

@[simp] theorem State.requestPage_stores (s : State) (src : Nat) (w : Who) (ts : List Nat) (va : Nat) (wr f i : Bool) :
    (s.requestPage src w ts va wr f i).2.stores = s.stores := by
  unfold State.requestPage
  split
  · rfl
  · dsimp only
    split
    · exact State.post_stores _ _ _ _
    · rfl

/-- The requests that are made later write no memory. -/
@[simp] theorem State.offerRest_stores (s : State) : s.offerRest.stores = s.stores := by
  unfold State.offerRest
  refine State.foldl_stores _ (fun st f => ?_) _ _
  split
  · split
    · rfl
    · exact State.post_stores _ _ _ _
  · rfl

@[simp] theorem State.reofferAll_stores (s : State) : s.reofferAll.stores = s.stores :=
  (State.offerRest_stores _).trans (State.reoffer_stores s)

@[simp] theorem State.requestPages_stores (src : Nat) (w : Who) (wr : Bool) (ts : List Nat) (ps : List (Nat × Bool)) (s : State) :
    (s.requestPages src w wr ts ps).2.stores = s.stores := by
  induction ps generalizing s ts with
  | nil => rfl
  | cons p ps ih => simp only [State.requestPages, ih, State.requestPage_stores]

@[simp] theorem State.logAccess_stores (s : State) (e : Env) (iss : Nat) (r : MemReq) (pc : Word64) (ps : List (Nat × Bool)) :
    (s.logAccess e iss r pc ps).stores = s.stores := by
  unfold State.logAccess
  dsimp only
  split
  · exact State.requestPages_stores _ _ _ _ _ _
  · exact State.requestPages_stores _ _ _ _ _ _

/-! ### Issuing an access (09 R216, R220) -/

@[simp] theorem State.checkReq_stores (s : State) (e : Env) (r : MemReq) : (s.checkReq e r).2.stores = s.stores := by
  have h := State.check_stores s e.who r.addr r.ty.bytes r.kind.writes false
  unfold State.checkReq
  extract_lets odd
  split
  · rfl
  split
  · rename_i h1; rw [h1] at h; split <;> exact h
  · exact h

theorem foldl_fst_stores {α β : Type} (f : State × β → α → State × β) (h : ∀ a x, (f a x).1.stores = a.1.stores) (l : List α)
    (a : State × β) : (l.foldl f a).1.stores = a.1.stores := by
  induction l generalizing a with
  | nil => rfl
  | cons x l ih => rw [List.foldl_cons, ih, h]

@[simp] theorem State.queueStore_stores (s : State) (e : Env) (pc : Word64) (ps : List Piece0) (bs : List Byte) (m : BitVec 2)
    (p : Nat) : (s.queueStore e pc ps bs m p).stores = s.stores := by
  unfold State.queueStore
  refine foldl_fst_stores _ ?_ _ _
  intro a q
  exact State.enqueue_stores _ _ _

@[simp] theorem State.queueWrite_stores (s : State) (e : Env) (r : MemReq) (pc : Word64) (ps : List Piece0) :
    (s.queueWrite e r pc ps).stores = s.stores := by
  unfold State.queueWrite
  extract_lets s1
  have h : s1.stores = s.stores := State.makeCharge_stores _ _ _ _ _ _
  clear_value s1
  split
  · split
    · exact h
    · rw [State.enqueue_stores]; exact h
  · rw [State.queueStore_stores]; exact h

@[simp] theorem State.startLoad_stores (s : State) (k : TKey) (pc : Word64) (ty : MemTy) (h : LdHint) (prio : Nat)
    (d : Option Nat) (ps : List Piece0) : (s.startLoad k pc ty h prio d ps).stores = s.stores := rfl

@[simp] theorem issueWrite_stores (s : State) (i : Instr) (e : Env) (t : Thread) (r : MemReq) (ps : List Piece0) :
    (issueWrite s i e t r ps).stores = s.stores := by
  unfold issueWrite
  split
  · exact State.queueWrite_stores _ _ _ _ _
  · rfl
  · rfl

@[simp] theorem issueChecked_stores (s : State) (i : Instr) (e : Env) (t : Thread) (r : MemReq) (ps : List Piece0) :
    (issueChecked s i e t r ps).stores = s.stores := by
  unfold issueChecked
  split
  · split <;> rfl
  · exact issueWrite_stores _ _ _ _ _ _

@[simp] theorem issueAccess_stores (s : State) (i : Instr) (iss : Nat) (e : Env) (t : Thread) (r : MemReq) :
    (issueAccess s i iss e t r).stores = s.stores := by
  have h := State.checkReq_stores s e r
  unfold issueAccess
  split
  · rfl
  · split <;> (rename_i h1; rw [h1] at h)
    · exact h
    · exact h
    · exact (State.logAccess_stores _ _ _ _ _ _).trans h
    · exact (issueChecked_stores _ _ _ _ _ _).trans h

@[simp] theorem doPlan_stores (i : Instr) (iss : Nat) (s : State) (e : Env) (t : Thread) (d : MemDo) :
    (doPlan i iss s e t d).stores = s.stores := by
  unfold doPlan
  split
  · rfl
  · rfl
  · exact issueAccess_stores _ _ _ _ _ _

@[simp] theorem State.stallAll_stores (s : State) (ks : List TKey) (c : Bool) : (s.stallAll ks c).stores = s.stores :=
  State.foldl_stores _ (fun _ _ => State.onThread_stores _ _ _) _ _

/-- An issue for a crew writes no memory where the issue that it may keep writes none. -/
theorem State.unlessFull_stores (s : State) (c : CKey) (ks : List TKey) (u : State) (h : u.stores = s.stores) :
    (s.unlessFull c ks u).stores = s.stores := by
  unfold State.unlessFull
  split
  · exact h
  · split
    · exact State.stallAll_stores _ _ _
    · exact h

/-- A memory instruction of a thread writes no memory when it issues. -/
theorem State.issueMem_stores (s : State) (i : Instr) (plan : State → Env → Thread → MemDo) :
    (s.issueMem i plan).stores = s.stores := by
  unfold State.issueMem
  rw [State.reap_stores]
  refine State.foldl_stores _ (fun st c => ?_) _ _
  exact State.unlessFull_stores _ _ _ _ (State.foldl_keeps (fun u => u.stores = st.stores) _ (fun u k h =>
    State.issueOne_keeps (fun v => v.stores = st.stores) i _ (fun _ _ _ h => h)
      (fun _ _ _ h => (doPlan_stores _ _ _ _ _ _).trans h) u k h) _ _ rfl)

/-! ### Barriers (10 R247, R249, R250) -/

@[simp] theorem State.release_stores (s : State) (w : Bool) (ks : List TKey) : (s.release w ks).stores = s.stores := by
  unfold State.release
  exact State.foldl_stores _ (fun st cl => State.foldl_stores _ (fun u k => State.onThread_stores _ _ _) _ _) _ _

@[simp] theorem State.park_stores (s : State) (ks : List TKey) : (s.park ks).stores = s.stores :=
  State.foldl_stores _ (fun _ _ => State.onThread_stores _ _ _) _ _

@[simp] theorem State.settleBarrier_stores (s : State) (b : BarKey) : (s.settleBarrier b).stores = s.stores := by
  unfold State.settleBarrier
  dsimp only
  split
  · split
    · exact State.park_stores _ _
    · exact State.release_stores _ _ _
  · rfl

@[simp] theorem State.settleExits_stores (s : State) (l : Nat) : (s.settleExits l).stores = s.stores :=
  State.foldl_stores _ State.settleBarrier_stores _ _

/-! ### Fetching (04 R76) -/

theorem State.readHome_stores {s u : State} {p b o a k : Nat} (h : s.readHome p b o a k = some u) : u.stores = s.stores := by
  unfold State.readHome at h
  split at h
  · cases h; exact State.touchL2_stores _ _ _ _ _
  · dsimp only at h
    split at h
    · cases h
    · cases h
      rw [State.touchL2_stores]
      exact State.makeCharge_stores _ _ _ _ _ _

@[simp] theorem State.readPieces_stores (s : State) (part sub owner prio : Nat) (ps : List Piece0) :
    (s.readPieces part sub owner prio ps).2.stores = s.stores := by
  unfold State.readPieces
  refine List.foldlRecOn (motive := fun r : Bool × State => r.2.stores = s.stores) ps _ rfl ?_
  intro r h p _
  split
  · split
    · rename_i g; exact (State.readHome_stores g).trans h
    · exact h
  · exact h

@[simp] theorem State.fetchWord_stores (s : State) (e : Env) (a : Nat) : (s.fetchWord e a).2.stores = s.stores := by
  unfold State.fetchWord
  extract_lets u w
  have h := State.checkRead_stores s (.thread e.key) w a 4 true
  generalize s.checkRead (.thread e.key) w a 4 true = r at h ⊢
  obtain ⟨x, s1⟩ := r
  cases x with
  | ok ps =>
    have hp := State.readPieces_stores s1 e.part e.sub e.rcd.owner 3 ps
    dsimp only at h ⊢
    generalize s1.readPieces e.part e.sub e.rcd.owner 3 ps = q at hp ⊢
    have g := State.gather_stores q.2 (.thread e.key) e.rcd.owner ps
    split
    · exact hp.trans h
    · split <;> (rename_i hg; rw [hg] at g; exact g.trans (hp.trans h))
  | absent ps => cases ps <;> exact h
  | fault tr => exact h
  | wait => exact h

@[simp] theorem State.fetchWords_stores (e : Env) (n : Nat) (s : State) (a : Nat) : (s.fetchWords e a n).2.2.stores = s.stores := by
  induction n generalizing s a with
  | zero => rfl
  | succ n ih =>
    have h := State.fetchWord_stores s e a
    unfold State.fetchWords
    split <;> (rename_i h1; rw [h1] at h)
    · exact (ih _ _).trans h
    · exact h

/-- Fetching an instruction writes no memory. -/
@[simp] theorem State.fetchInstr_stores (s : State) (e : Env) (pc : Word64) : (s.fetchInstr e pc).2.stores = s.stores := by
  have h := State.fetchWord_stores s e pc.toNat
  unfold State.fetchInstr
  split
  · rfl
  · split <;> (rename_i h1; rw [h1] at h)
    · rename_i w s1
      have g := State.fetchWords_stores e (lengthOf w - 1) s1 (pc.toNat + 4)
      split <;> (rename_i h2; rw [h2] at g)
      · split <;> exact g.trans h
      · exact g.trans h
    · exact h

/-! ### The memory path's events (05 R108, R111; 06 R424) -/

theorem ite_stores (c : Prop) [Decidable c] {a b s : State} (ha : a.stores = s.stores) (hb : b.stores = s.stores) :
    (if c then a else b).stores = s.stores := by
  split
  · exact ha
  · exact hb

@[simp] theorem State.sawFill_stores (s : State) (k : TKey) (x : Nat) : (s.sawFill k x).stores = s.stores :=
  State.onThread_stores _ _ _

@[simp] theorem State.sawHome_stores (s : State) (k : TKey) (x : Nat) : (s.sawHome k x).stores = s.stores :=
  State.onThread_stores _ _ _

/-- A returning piece writes no memory. -/
theorem State.loadPiece_stores {s u : State} {l : PendLoad} {p : Piece} {bs : List Byte} {m : BitVec 2}
    (h : s.loadPiece l p = some (bs, m, u)) : u.stores = s.stores := by
  unfold State.loadPiece at h
  extract_lets e c fills at h
  split at h
  · cases h
  · split at h
    · split at h
      · cases h; rfl
      · cases h
    · cases h; rfl
    · cases h
    · have hc : s.choose.2.stores = s.stores := State.choose_stores s
      split at h
      rename_i heq
      rw [heq] at hc
      extract_lets sec hit rep r at h
      clear_value hit rep
      split at h
      · cases h; exact hc
      · split at h
        · cases h
        · split at h
          · cases h; exact (State.sawHome_stores _ _ _).trans hc
          · split at h
            · cases h
            · rename_i g
              have hg := (State.readHome_stores g).trans hc
              extract_lets s2 s3 at h
              have h2 : s2.stores = s.stores :=
                ite_stores _ ((State.sawFill_stores _ _ _).trans hg) ((State.sawHome_stores _ _ _).trans hg)
              clear_value s2
              have h3 : s3.stores = s.stores := ite_stores _ h2 h2
              clear_value s3
              cases h
              exact h3

/-- LOAD_DATA_RETURN writes no memory. -/
theorem execLoadDataReturn_stores {id piece : Nat} {s u : State} (h : execLoadDataReturn id piece s = .next u) :
    u.stores = s.stores := by
  unfold execLoadDataReturn at h
  injection h with h
  subst h
  split
  · rfl
  · split
    · rfl
    · split
      · rfl
      · split
        · exact State.askPiece_stores _ _ _ _
        · split
          · rename_i g
            rw [State.reap_stores, State.finishLoad_stores, State.loadPiece_stores g]
          · rfl

/-- After a write, testing the waiters of sync objects and killing gangs keep the canonical form. -/
theorem State.landed_memOk (u : State) (hu : u.MemOk) (l : Loc) (n : Nat) :
    (match l with | .home a => u.testWaiters a n | _ => u).reap.MemOk := by
  refine State.memOk_of_stores ?_ hu
  split <;> simp

theorem State.formRead_stores {s u : State} {x : SqEntry} (h : s.formRead x = some u) : u.stores = s.stores := by
  unfold State.formRead at h
  split at h
  · exact State.readHome_stores h
  · cases h; rfl

/-- HOME_ITEM_APPLY keeps the canonical form. -/
theorem execHomeItemApply_memOk {cl id : Nat} {s u : State} (h : execHomeItemApply cl id s = .next u) (hs : s.MemOk) :
    u.MemOk := by
  unfold execHomeItemApply at h
  injection h with h
  subst h
  split
  · exact hs
  · split
    · exact hs
    · split
      · exact hs
      · rename_i s0 hf
        have h0 : s0.MemOk := State.memOk_of_stores (State.formRead_stores hf) hs
        split
        · exact State.memOk_of_stores (State.sendEntry_stores _ _ _ _) h0
        · exact hs
        · exact State.landed_memOk _ (State.memOk_of_stores (State.acknowledge_stores _ _ _) (State.writeAt_memOk s0 _ _ _ _ h0)) _ _
        · exact State.landed_memOk _ (State.memOk_of_stores
            ((State.atomDone_stores _ _ _ _).trans (State.acknowledge_stores _ _ _)) (State.atomAt_memOk s0 _ _ _ _ _ _ h0)) _ _

end Sys2Proof.Machine
end

