-- ==== Sys2Proof/Laws/Effects.lean ====
section
/-!
SUPPORT. The whole effect of the shared operations on the state, said once each: the checks of an access change the
translation caches and consume choices; a write at a home changes its bytes and marks; a store-queue entry joins and leaves
its cluster's queue.
-/

namespace Sys2Proof.Machine

/-! ### Checks (06 R128 to R133, R141) -/

theorem State.translateAll_rest (w : Who) (as : List Nat) (s : State) : s.TlbOnly (s.translateAll w as).2 := by
  induction as generalizing s with
  | nil => rfl
  | cons a as ih => exact (State.translate_rest s w a).trans (ih _)

theorem State.checkRest_rest (s : State) (w : Who) (a n : Nat) (wr fetch : Bool) : s.TlbOnly (s.checkRest w a n wr fetch).2 := by
  have h := State.translateAll_rest w (pageStarts a n) s
  unfold State.checkRest
  split
  · split <;> rfl
  · extract_lets r bad gone
    clear_value bad gone
    split
    · exact h
    · split
      · exact h
      · split <;> exact h

/-- The checks of an access change nothing but the caches and the choices consumed. -/
theorem State.check_rest (s : State) (w : Who) (a : Int) (n : Nat) (wr fetch : Bool) : s.TlbOnly (s.check w a n wr fetch).2 := by
  unfold State.check
  repeat' split
  all_goals first | rfl | exact State.checkRest_rest s w _ n wr fetch

/-- So do those of a read that may have been admitted before. -/
theorem State.checkRead_rest (s : State) (c : Client) (w : Who) (a : Int) (n : Nat) (fetch : Bool) :
    s.TlbOnly (s.checkRead c w a n fetch).2 := by
  unfold State.checkRead
  split
  · exact State.checkRest_rest s w _ n false fetch
  · exact State.check_rest s w a n false fetch

/-! ### Check fields (22 R409) -/

/-- A sector is bad exactly when the field it carries is not the CRC-32C of its data. -/
theorem State.fieldBad_iff (s : State) (k : Nat) :
    s.fieldBad k = true ↔ s.checkField k ≠ crc32c (s.mem.bytes (64 * k) 64) := by
  unfold State.fieldBad State.checkField
  generalize crc32c (s.mem.bytes (64 * k) 64) = c
  generalize s.fieldOff.get k = d
  simp only [bne_iff_ne]
  constructor
  · intro h1 h2
    exact h1 (by simpa using congrArg (c ^^^ ·) h2)
  · rintro h1 rfl
    exact h1 (by simp)

/-! ### Writes at a home (01 R15; 21 R392) -/

@[simp] theorem State.touchL2_mem (s : State) (pa prio : Nat) (d : Bool) (gs : List Nat) : (s.touchL2 pa prio d gs).mem = s.mem := by
  unfold State.touchL2; split <;> rfl

@[simp] theorem State.touchL2_poison (s : State) (pa prio : Nat) (d : Bool) (gs : List Nat) : (s.touchL2 pa prio d gs).poison = s.poison := by
  unfold State.touchL2; split <;> rfl

/-- The bytes after a write at a home that is up. -/
theorem State.homeWrite_mem (s : State) (a : Nat) (bs : List Byte) (m : BitVec 2) (prio : Nat) (h : s.homeFailed a = false) :
    (s.homeWrite a bs m prio).mem = s.mem.setBytes a bs := by
  unfold State.homeWrite
  rw [if_neg (by simp [h]), State.touchL2_mem]

theorem State.touchL2_rest (s : State) (pa prio : Nat) (d : Bool) (gs : List Nat) :
    ∃ l2 l2d l2g, s.touchL2 pa prio d gs = { s with l2 := l2, l2dirty := l2d, l2gran := l2g } := by
  unfold State.touchL2; split <;> exact ⟨_, _, _, rfl⟩

/-- A write at a home changes device memory, its marks and check fields, and what L2 holds. -/
theorem State.homeWrite_rest (s : State) (a : Nat) (bs : List Byte) (m : BitVec 2) (prio : Nat) :
    ∃ mem poison fieldOff l2 l2d l2g, s.homeWrite a bs m prio =
      { s with mem := mem, poison := poison, fieldOff := fieldOff, l2 := l2, l2dirty := l2d, l2gran := l2g } := by
  unfold State.homeWrite
  split
  · exact ⟨_, _, _, _, _, _, rfl⟩
  · extract_lets g old other p1 p2
    obtain ⟨x, y, z, h⟩ := State.touchL2_rest
      { s with mem := s.mem.setBytes a bs, poison := p2, fieldOff := s.fieldOff.drop (a / 64) } a prio true
      (if bs.length = 32 then [g] else [])
    exact ⟨_, _, _, x, y, z, h⟩

/-- No other byte of memory changes. -/
theorem State.homeWrite_outside (s : State) (a : Nat) (bs : List Byte) (m : BitVec 2) (prio b : Nat)
    (hb : b < a ∨ a + bs.length ≤ b) : (s.homeWrite a bs m prio).mem.get b = s.mem.get b := by
  rcases Bool.eq_false_or_eq_true (s.homeFailed a) with h | h
  · unfold State.homeWrite; rw [if_pos h]
  · rw [State.homeWrite_mem s a bs m prio h]
    exact Cells.get_setBytes_out bs s.mem a b hb

/-! ### The store queue (05 R110) -/

@[simp] theorem Cluster.l1Write_sq (c : Cluster) (l : Loc) (bs : List Byte) (m : BitVec 2) : (c.l1Write l bs m).sq = c.sq := by
  unfold Cluster.l1Write; split <;> rfl

@[simp] theorem Cluster.l1Drop_sq (c : Cluster) (l : Loc) (n : Nat) : (c.l1Drop l n).sq = c.sq := by
  unfold Cluster.l1Drop; split <;> rfl

@[simp] theorem State.cluster_setCluster_same (s : State) (c : Nat) (x : Cluster) : (s.setCluster c x).cluster c = x := by
  simp [State.cluster, State.setCluster]

theorem State.cluster_setCluster_ne (s : State) {c d : Nat} (x : Cluster) (h : d ≠ c) : (s.setCluster c x).cluster d = s.cluster d := by
  simp only [State.cluster, State.setCluster]
  exact Tbl.get_set_ne _ _ _ h

/-- An entry joins the end of its cluster's queue under a fresh number. -/
theorem State.enqueue_sq (s : State) (cl : Nat) (x : SqEntry) :
    ((s.enqueue cl x).cluster cl).sq = (s.cluster cl).sq ++ [{ x with id := s.serial }] := by
  unfold State.enqueue
  extract_lets y c c1 s1
  have h : s1.cluster cl = { c1 with sq := c.sq ++ [y] } := State.cluster_setCluster_same _ _ _
  split
  · exact congrArg Cluster.sq h
  · exact congrArg Cluster.sq h

/-- Its other effects: the L1 of that cluster, the crew's counter, the next number. -/
theorem State.enqueue_rest (s : State) (cl : Nat) (x : SqEntry) :
    ∃ clusters crews, s.enqueue cl x = { s with serial := s.serial + 1, clusters := clusters, crews := crews } := by
  unfold State.enqueue
  extract_lets y c c1 s1
  split <;> exact ⟨_, _, rfl⟩

theorem State.enqueue_other (s : State) (cl d : Nat) (x : SqEntry) (h : d ≠ cl) : (s.enqueue cl x).cluster d = s.cluster d := by
  unfold State.enqueue
  extract_lets y c c1 s1
  have h1 : s1.cluster d = s.cluster d := State.cluster_setCluster_ne _ _ h
  split <;> exact h1

/-- An acknowledged entry has left the queue. -/
theorem State.acknowledge_sq (s : State) (cl : Nat) (x : SqEntry) :
    ((s.acknowledge cl x).cluster cl).sq = (s.cluster cl).sq.filter fun y => y.id != x.id := by
  unfold State.acknowledge
  extract_lets s1
  have h : s1.cluster cl = { s.cluster cl with sq := (s.cluster cl).sq.filter fun y => y.id != x.id } :=
    State.cluster_setCluster_same _ _ _
  split <;> exact congrArg Cluster.sq h

theorem State.acknowledge_rest (s : State) (cl : Nat) (x : SqEntry) :
    ∃ clusters crews, s.acknowledge cl x = { s with clusters := clusters, crews := crews } := by
  unfold State.acknowledge
  extract_lets s1
  split <;> exact ⟨_, _, rfl⟩

end Sys2Proof.Machine
end

