-- ==== Sys2Proof/Laws/Issue.lean ====
section
/-!
SUPPORT. What the shared operations of an issue can do, said once each: an environment does not see the threads, nobody
is killed while nobody dies, and an issue changes the threads of its run, each by its own effect.
-/

namespace Sys2Proof.Machine

/-! ### Environments -/

/-- A thread's environment depends on no thread. -/
@[simp] theorem State.env_setThread (s : State) (k k' : TKey) (t : Thread) : (s.setThread k t).env k' = s.env k' := rfl

theorem State.env_threads (s : State) (ts : Tbl TKey Thread) (k : TKey) :
    ({ s with threads := ts } : State).env k = s.env k := rfl

@[simp] theorem State.env_key (s : State) (k : TKey) : (s.env k).key = k := rfl

/-! ### Nobody dies -/

/-- While no thread is to be killed, no mark has been consumed. -/
theorem State.noteUe_of_calm (s : State) (h : s.Calm) : s.noteUe = s := by
  have : (s.threads.filterMap fun p => p.2.dying.bind (·.leaf)) = [] := by
    rw [List.filterMap_eq_nil_iff]
    intro p hp
    simp [h p hp]
  simp [State.noteUe, this]

/-- While no thread is to be killed, nothing is reaped. -/
theorem State.reap_of_calm (s : State) (h : s.Calm) : s.reap = s := by
  unfold State.reap
  rw [s.noteUe_of_calm h]
  have : (s.threads.filter fun p => p.2.dying.isSome) = [] := by
    rw [List.filter_eq_nil_iff]
    intro p hp
    simp [h p hp]
  rw [this]
  rfl

/-! ### Changing the threads of a run -/

theorem State.onThread_of_find (s : State) (k : TKey) (t : Thread) (f : Env → Thread → Thread)
    (h : s.threads.find k = some t) : s.onThread k f = s.setThread k (f (s.env k) t) := by
  simp [State.onThread, h]

theorem State.onThread_of_none (s : State) (k : TKey) (f : Env → Thread → Thread) (h : s.threads.find k = none) :
    s.onThread k f = s := by
  simp [State.onThread, h]

/-- `onThread` touches the table of threads only. -/
theorem State.onThread_rest (s : State) (k : TKey) (f : Env → Thread → Thread) :
    s.onThread k f = { s with threads := (s.onThread k f).threads } := by
  unfold State.onThread
  split <;> rfl

/-- Two changes of threads are one. -/
theorem State.only_trans {s a b : State} (h1 : a = { s with threads := a.threads })
    (h2 : b = { a with threads := b.threads }) : b = { s with threads := b.threads } := by
  generalize a.threads = x at h1
  generalize hy : b.threads = y at h2
  subst h1
  exact h2

theorem State.onThread_find (s : State) (k k' : TKey) (f : Env → Thread → Thread) :
    (s.onThread k f).threads.find k' =
      if k' = k then (s.threads.find k).map (f (s.env k)) else s.threads.find k' := by
  unfold State.onThread
  cases h : s.threads.find k with
  | none =>
    by_cases hk : k' = k
    · subst hk; simp [h]
    · simp [hk]
  | some t =>
    by_cases hk : k' = k
    · subst hk; simp
    · simp [hk, Tbl.find_set_ne _ _ hk]

@[simp] theorem State.onThread_env (s : State) (k k' : TKey) (f : Env → Thread → Thread) :
    (s.onThread k f).env k' = s.env k' := by
  unfold State.onThread
  split <;> rfl

theorem State.onThread_calm (s : State) (k : TKey) (f : Env → Thread → Thread) (h : s.Calm)
    (hf : ∀ t, s.threads.find k = some t → (f (s.env k) t).dying = none) : (s.onThread k f).Calm := by
  unfold State.onThread
  cases hk : s.threads.find k with
  | none => exact h
  | some t =>
    intro p hp
    rcases Tbl.mem_set _ _ _ _ hp with rfl | hp
    · exact hf t hk
    · exact h p hp

/-- The threads of a run, each changed once by an effect of its own: what becomes of every thread, and that nothing else
changes. -/
theorem State.foldThreads (f : Env → Thread → Thread) (ks : List TKey) (hn : ks.Nodup) (s : State) :
    (ks.foldl (fun st k => st.onThread k f) s =
        { s with threads := (ks.foldl (fun st k => st.onThread k f) s).threads })
      ∧ (∀ k, (ks.foldl (fun st k => st.onThread k f) s).threads.find k =
          if k ∈ ks then (s.threads.find k).map (f (s.env k)) else s.threads.find k)
      ∧ (s.Calm → (∀ k ∈ ks, ∀ t, s.threads.find k = some t → (f (s.env k) t).dying = none) →
          (ks.foldl (fun st k => st.onThread k f) s).Calm) := by
  induction ks generalizing s with
  | nil => exact ⟨rfl, fun k => by simp, fun h _ => h⟩
  | cons k0 ks ih =>
    obtain ⟨h0, hks⟩ := List.nodup_cons.1 hn
    obtain ⟨i1, i2, i3⟩ := ih hks (s.onThread k0 f)
    simp only [List.foldl_cons]
    refine ⟨?_, ?_, ?_⟩
    · exact State.only_trans (State.onThread_rest s k0 f) i1
    · intro k
      rw [i2 k, State.onThread_find, State.onThread_env]
      by_cases hk : k = k0
      · subst hk; simp [h0]
      · simp [hk]
    · intro hc hf
      refine i3 (State.onThread_calm s k0 f hc (hf k0 (List.mem_cons_self ..))) ?_
      intro k hk t ht
      rw [State.onThread_find, if_neg (by rintro rfl; exact h0 hk)] at ht
      simpa using hf k (List.mem_cons_of_mem _ hk) t ht

/-- A run whose threads each do `f`, nobody dying. -/
theorem State.runBecomes (s : State) (f : Env → Thread → Thread) (hn : s.run.Nodup) (hc : s.Calm)
    (hf : ∀ k ∈ s.run, ∀ t, s.threads.find k = some t → (f (s.env k) t).dying = none)
    (r : Env → Thread → Thread → Prop)
    (hr : ∀ k ∈ s.run, ∀ t, s.threads.find k = some t → r (s.env k) t (f (s.env k) t)) :
    RunBecomes s (s.run.foldl (fun st k => st.onThread k f) s).reap r := by
  obtain ⟨h1, h2, h3⟩ := State.foldThreads f s.run hn s
  rw [State.reap_of_calm _ (h3 hc hf)]
  refine ⟨h1, fun k hk => by rw [h2, if_neg hk], fun k hk t ht => ?_⟩
  exact ⟨_, by rw [h2, if_pos hk, ht]; rfl, hr k hk t ht⟩

/-! ### Instructions that are not short -/

/-- One thread of an issue whose effect is its own. -/
def localOne (i : Instr) (act : Env → Thread → Thread) (e : Env) (t : Thread) : Thread :=
  match precheck e t i with
  | some tr => t.raise e i tr
  | none => if t.guard (guardOf i) then act e t else t.advance i

/-- `issueLocal` is `localOne` for each thread of the run, then the kills. -/
theorem State.issueLocal_eq (s : State) (i : Instr) (act : Env → Thread → Thread) :
    s.issueLocal i act = (s.run.foldl (fun st k => st.onThread k (localOne i act)) s).reap := by
  unfold State.issueLocal State.issueEach
  congr 2
  funext st k
  unfold State.onThread State.issueOne
  cases st.threads.find k with
  | none => rfl
  | some t =>
    unfold localOne
    dsimp only
    cases precheck (st.env k) t i with
    | some tr => rfl
    | none => dsimp only; split <;> rfl

/-- What an issue whose effect on a thread is its own does: the guard-true threads of the run become what `act` makes of
them, the guard-false ones go on, nothing else changes. -/
theorem State.issueLocal_spec (s : State) (i : Instr) (act : Env → Thread → Thread) (h : Issues s i)
    (r : Env → Thread → Thread → Prop)
    (hd : ∀ k ∈ s.run, ∀ t, s.threads.find k = some t → (act (s.env k) t).dying = none)
    (hr : ∀ k ∈ s.run, ∀ t, s.threads.find k = some t →
      r (s.env k) t (if t.guard (guardOf i) then act (s.env k) t else t.advance i)) :
    RunBecomes s (s.issueLocal i act) r := by
  rw [State.issueLocal_eq]
  have one : ∀ k ∈ s.run, ∀ t, s.threads.find k = some t →
      localOne i act (s.env k) t = if t.guard (guardOf i) then act (s.env k) t else t.advance i := by
    intro k hk t ht
    obtain ⟨t', h1, h2⟩ := h.pass k hk
    obtain rfl : t = t' := by rw [ht] at h1; exact Option.some.inj h1
    simp [localOne, h2]
  refine State.runBecomes s _ h.once h.calm ?_ r ?_
  · intro k hk t ht
    rw [one k hk t ht]
    split
    · exact hd k hk t ht
    · exact h.calm _ (Tbl.find_mem ht)
  · intro k hk t ht
    rw [one k hk t ht]
    exact hr k hk t ht

/-! ### Short instructions -/

/-- What an issue of a short instruction does when no thread of the run is switched by a trap inside a chain. -/
theorem State.issueShort_spec (s : State) (i : Instr) (eff off : Env → Thread → Thread × Word128) (h : Issues s i)
    (hs : s.chainTrap i = false) (r : Env → Thread → Thread → Prop)
    (hd : ∀ e t, (Thread.advanceShort e t (eff e t).1 i (eff e t).2).dying = t.dying)
    (ho : ∀ e t, (Thread.advanceShort e t (off e t).1 i (off e t).2).dying = t.dying)
    (hr : ∀ k ∈ s.run, ∀ t, s.threads.find k = some t →
      r (s.env k) t
        (if t.guard (guardOf i) then Thread.advanceShort (s.env k) t (eff (s.env k) t).1 i (eff (s.env k) t).2
         else Thread.advanceShort (s.env k) t (off (s.env k) t).1 i (off (s.env k) t).2)) :
    RunBecomes s (s.issueShort i eff off) r := by
  unfold State.issueShort State.runShort
  simp only [hs, Bool.false_eq_true, if_false]
  have one : ∀ k ∈ s.run, ∀ t, s.threads.find k = some t →
      shortOne i false eff off (s.env k) t =
        (if t.guard (guardOf i) then Thread.advanceShort (s.env k) t (eff (s.env k) t).1 i (eff (s.env k) t).2
         else Thread.advanceShort (s.env k) t (off (s.env k) t).1 i (off (s.env k) t).2) := by
    intro k hk t ht
    obtain ⟨t', h1, h2⟩ := h.pass k hk
    obtain rfl : t = t' := by rw [ht] at h1; exact Option.some.inj h1
    simp only [shortOne, h2, Bool.false_eq_true, if_false]
    split <;> rfl
  refine State.runBecomes s _ h.once h.calm ?_ r ?_
  · intro k hk t ht
    have := h.calm _ (Tbl.find_mem ht)
    rw [one k hk t ht]
    split
    · rw [hd]; exact this
    · rw [ho]; exact this
  · intro k hk t ht
    rw [one k hk t ht]
    exact hr k hk t ht

/-- Going on past a short instruction: what becomes of a thread. -/
theorem Thread.advanceShort_eq (e : Env) (t0 t : Thread) (i : Instr) (v : Word128) (sh : Shape) (h : i.shape = some sh) :
    Thread.advanceShort e t0 t i v =
      { t with pc := t0.pc + BitVec.ofNat 64 i.bytes, latches := (v :: t0.latches).take 8,
               chain := some (nextChain e t0 i sh), wait := Wait.idle, blockCtr := 0 } := by
  simp [Thread.advanceShort, h, Thread.nextPc]

/-! ### One thread alone -/

/-- One thread alone: an issue is its effect, and then the kills. -/
theorem State.issueEach_alone (s : State) (k : TKey) (t : Thread) (i : Instr) (act : State → Env → Thread → State)
    (h : Alone s k t i) : s.issueEach i act = (act s (s.env k) t).reap := by
  unfold State.issueEach
  simp [State.issueOne, h.run, h.here, h.pass, h.guard]

/-- One thread alone at an instruction that executes per crew, its uniform operands agreeing with themselves. -/
theorem State.uniform_alone (rd : Reader) (s : State) (i : Instr) (k : TKey) : s.uniform rd i [k] = true := by
  unfold State.uniform
  cases i.shape with
  | none => rfl
  | some sh => simp

theorem State.issueCrews_alone (rd : Reader) (s : State) (k : TKey) (t : Thread) (i : Instr)
    (act : State → CKey → List TKey → State) (h : Alone s k t i) :
    s.issueCrews rd i act = (act s (s.env k).ckey [k]).reap := by
  have hp : s.participants i (s.env k).ckey = [k] := by
    simp [State.participants, h.run, h.here, h.pass, h.guard]
  have hc : s.runCrews = [(s.env k).ckey] := by
    simp [State.runCrews, h.run, dedup]
  unfold State.issueCrews
  simp only [hc, List.map_cons, List.map_nil, hp, h.run, List.foldl_cons, List.foldl_nil, h.here, h.pass, h.guard,
    if_true, List.isEmpty_cons, Bool.false_eq_true, if_false, State.uniform_alone]

/-- A thread that is put back changes no calm. -/
theorem State.setThread_calm (s : State) (k : TKey) (t : Thread) (h : s.Calm) (ht : t.dying = none) :
    (s.setThread k t).Calm := by
  intro p hp
  rcases Tbl.mem_set _ _ _ _ hp with rfl | hp
  · exact ht
  · exact h p hp

end Sys2Proof.Machine
end

