-- ==== Sys2Proof/Laws/Link.lean ====
section
/-!
SUPPORT. Bytes as numbers and back, and what each field of a built Scrim flit reads as.
-/

namespace Sys2Proof.Machine

@[simp] theorem length_toBytes (n v : Nat) : (toBytes n v).length = n := by
  induction n generalizing v with
  | zero => rfl
  | succ n ih => simp [toBytes, ih]

theorem ofBytes_lt (bs : List Byte) : ofBytes bs < 256 ^ bs.length := by
  induction bs with
  | nil => simp [ofBytes]
  | cons b bs ih =>
    have := b.isLt
    simp only [ofBytes, List.length_cons, pow_succ]
    omega

/-- Reading the bytes of a number back gives the bytes. -/
theorem toBytes_ofBytes (bs : List Byte) : toBytes bs.length (ofBytes bs) = bs := by
  induction bs with
  | nil => rfl
  | cons b bs ih =>
    have := b.isLt
    have h : (b.toNat + 256 * ofBytes bs) / 256 = ofBytes bs := by omega
    simp only [ofBytes, List.length_cons, toBytes, h, ih, List.cons.injEq, and_true]
    apply BitVec.eq_of_toNat_eq
    simp only [BitVec.toNat_ofNat]
    omega

theorem toBytes_take (n m v : Nat) (h : n ≤ m) : toBytes n v = (toBytes m v).take n := by
  induction n generalizing m v with
  | zero => simp [toBytes]
  | succ n ih =>
    cases m with
    | zero => omega
    | succ m => simp [toBytes, ih m _ (by omega)]

/-- The 240 bytes of payload that a flit carries. -/
abbrev flitPad (payload : List Byte) : List Byte := (payload ++ rep 240 (0 : Byte)).take 240

theorem length_flitPad (payload : List Byte) : (flitPad payload).length = 240 := by
  unfold flitPad rep
  rw [List.length_take, List.length_append, List.length_replicate]
  omega

/-- The fields of a flit made of its low bits, a CRC and a payload. -/
theorem flit_parts (low : BitVec 96) (crc : Word32) (v : BitVec 1920) :
    ((v ++ crc ++ low : BitVec 2048)).extractLsb' 0 96 = low
    ∧ ((v ++ crc ++ low : BitVec 2048)).extractLsb' 96 32 = crc
    ∧ ((v ++ crc ++ low : BitVec 2048)).extractLsb' 128 1920 = v := by
  refine ⟨?_, ?_, ?_⟩ <;> apply BitVec.eq_of_getLsbD_eq <;> intro i hi <;>
    simp only [BitVec.getLsbD_extractLsb', BitVec.getLsbD_append, hi, decide_true, Bool.true_and]
  · simp [hi]
  · have h : ¬ (96 + i < 96) := by omega
    have h2 : 96 + i - 96 = i := by omega
    simp [h2, hi]
  · have h : ¬ (128 + i < 96) := by omega
    have h2 : 128 + i - 96 = 32 + i := by omega
    have h3 : ¬ (32 + i < 32) := by omega
    have h4 : 32 + i - 32 = i := by omega
    simp [h, h2, h4]

/-- The low bits of a built flit are those given. -/
theorem flitOf_low (low : BitVec 96) (payload : List Byte) : (flitOf low payload).extractLsb' 0 96 = low :=
  (flit_parts low _ _).1

theorem flitOf_pad (low : BitVec 96) (payload : List Byte) :
    toBytes 240 ((flitOf low payload).extractLsb' 128 1920).toNat = flitPad payload := by
  have h := (flit_parts low (crc32c (toBytes 12 low.toNat ++ flitPad payload))
    (BitVec.ofNat 1920 (ofBytes (flitPad payload)))).2.2
  have hl := length_flitPad payload
  have hb := ofBytes_lt (flitPad payload)
  have ht := toBytes_ofBytes (flitPad payload)
  rw [hl] at hb ht
  unfold flitOf
  have hp : (2 : Nat) ^ 1920 = 256 ^ 240 := by rw [show (256 : Nat) = 2 ^ 8 from rfl, ← pow_mul]
  rw [h, BitVec.toNat_ofNat, hp, Nat.mod_eq_of_lt hb]
  exact ht

/-- The CRC of a built flit matches. -/
@[simp] theorem flitGood_flitOf (low : BitVec 96) (payload : List Byte) : flitGood (flitOf low payload) = true := by
  have h2 : (flitOf low payload).extractLsb' 96 32 = crc32c (toBytes 12 low.toNat ++ flitPad payload) :=
    (flit_parts low _ _).2.1
  unfold flitGood
  rw [flitOf_low, flitOf_pad, h2]
  simp

/-- A flit whose CRC differs in its lowest bit from the one due does not match. -/
theorem flitGood_flip (low : BitVec 96) (v : BitVec 1920) :
    flitGood (v ++ (crc32c (toBytes 12 low.toNat ++ toBytes 240 v.toNat) ^^^ 1) ++ low) = false := by
  obtain ⟨h0, h1, h2⟩ := flit_parts low (crc32c (toBytes 12 low.toNat ++ toBytes 240 v.toNat) ^^^ 1) v
  unfold flitGood
  rw [h0, h1, h2]
  generalize crc32c (toBytes 12 low.toNat ++ toBytes 240 v.toNat) = c
  simp only [beq_eq_false_iff_ne, ne_eq]
  intro h
  have := congrArg (fun x => x ^^^ c) h
  simp [BitVec.xor_comm c] at this

theorem extract_low (f : BitVec 2048) (a n : Nat) (h : a + n ≤ 96) :
    f.extractLsb' a n = (f.extractLsb' 0 96).extractLsb' a n := by
  apply BitVec.eq_of_getLsbD_eq
  intro i hi
  have : a + i < 96 := by omega
  simp [hi, this]

theorem getLsbD_low (f : BitVec 2048) (a : Nat) (h : a < 96) : f.getLsbD a = (f.extractLsb' 0 96).getLsbD a := by
  simp [h]

section
variable (low : BitVec 96) (payload : List Byte)

/-- The fields of a built flit, as bits of its low 96 (17 R337). -/
theorem flitSeq_flitOf : flitSeq (flitOf low payload) = low.extractLsb' 84 12 := by
  unfold flitSeq; rw [extract_low _ _ _ (by decide), flitOf_low]
theorem flitAck_flitOf : flitAck (flitOf low payload) = low.extractLsb' 72 12 := by
  unfold flitAck; rw [extract_low _ _ _ (by decide), flitOf_low]
theorem flitAv_flitOf : flitAv (flitOf low payload) = low.getLsbD 71 := by
  unfold flitAv; rw [getLsbD_low _ _ (by decide), flitOf_low]
theorem flitNak_flitOf : flitNak (flitOf low payload) = low.getLsbD 70 := by
  unfold flitNak; rw [getLsbD_low _ _ (by decide), flitOf_low]
theorem flitFill_flitOf : flitFill (flitOf low payload) = (low.extractLsb' 62 8).toNat := by
  unfold flitFill; rw [extract_low _ _ _ (by decide), flitOf_low]
theorem flitKind_flitOf : flitKind (flitOf low payload) = (low.extractLsb' 60 2).toNat := by
  unfold flitKind; rw [extract_low _ _ _ (by decide), flitOf_low]

/-- The payload of a built flit is as many of the bytes given as its fill counts, padded with zeros. -/
theorem flitPayload_flitOf (h : flitFill (flitOf low payload) ≤ 240) :
    flitPayload (flitOf low payload) = (flitPad payload).take (flitFill (flitOf low payload)) := by
  unfold flitPayload
  rw [toBytes_take _ _ _ h, flitOf_pad]
end

end Sys2Proof.Machine
end

