-- ==== Sys2Proof/Laws/Results.lean ====
section
/-!
SUPPORT. What the shapes of results do: an aligned destination covers distinct registers, a write of several registers
reads back, and a short instruction with a 32-, 64-, 128-bit or predicate result gives `ShortResult` or `ShortPred`.
-/

namespace Sys2Proof.Machine

/-! ### Destinations -/

/-- The operands of an instruction that passes the checks are legal (04 R96). -/
theorem precheck_ok {e : Env} {t : Thread} {i : Instr} {sh : Shape} (h : precheck e t i = none)
    (hs : i.shape = some sh) : sh.ok = true := by
  unfold precheck at h
  simp only [hs] at h
  split_ifs at h with h1 h2
  simp only [Bool.or_eq_true, Bool.not_eq_true', not_or] at h2
  simpa using h2.1

/-- An aligned destination (04 R82). -/
theorem dest_aligned {e : Env} {t : Thread} {i : Instr} {sh : Shape} {d : BitVec 7} {n : Nat}
    (h : precheck e t i = none) (hs : i.shape = some sh) (hd : sh.dest = .reg d n ∨ sh.dest = .both d n)
    (hw : sh.w = false) : d.toNat % n = 0 := by
  have := precheck_ok h hs
  simp only [Shape.ok, Bool.and_eq_true] at this
  have h1 := this.1
  unfold Shape.destOk at h1
  rcases hd with hd | hd <;> simp [hd, hw] at h1 <;> exact h1.2

/-- Registers of an aligned group of 1, 2 or 4 lie at distinct places, outside a handler and in one. -/
theorem phys_ne (e : Env) (t : Thread) (d n i j : Nat) (ha : d % n = 0) (hn : n = 1 ∨ n = 2 ∨ n = 4) (hi : i < n)
    (hj : j < n) (hij : i ≠ j) : t.phys e (d + i) ≠ t.phys e (d + j) := by
  unfold Thread.phys
  rcases hn with rfl | rfl | rfl <;> split_ifs <;> omega

theorem setRegs_one (e : Env) (t : Thread) (r v : Nat) :
    t.setRegs e r 1 v = { t with regs := t.regs.set (t.phys e r) (BitVec.ofNat 32 v) } := rfl

/-- A group of registers after a write: only registers change, each takes its part of the value, the others stay. -/
theorem setRegs_spec (e : Env) (n : Nat) (t : Thread) (r v : Nat) :
    (t.setRegs e r n v = { t with regs := (t.setRegs e r n v).regs })
    ∧ (∀ p, (∀ j, j < n → p ≠ t.phys e (r + j)) → (t.setRegs e r n v).regs.get p = t.regs.get p)
    ∧ ((∀ i j, i < n → j < n → i ≠ j → t.phys e (r + i) ≠ t.phys e (r + j)) →
        ∀ j, j < n → (t.setRegs e r n v).regs.get (t.phys e (r + j)) = BitVec.ofNat 32 (v / 2 ^ (32 * j))) := by
  induction n generalizing t r v with
  | zero => exact ⟨rfl, fun _ _ => rfl, fun _ j hj => absurd hj (by omega)⟩
  | succ n ih =>
    have hp : ∀ x, Thread.phys e { t with regs := t.regs.set (t.phys e r) (BitVec.ofNat 32 v) } x = t.phys e x :=
      fun x => rfl
    obtain ⟨h1, h2, h3⟩ := ih { t with regs := t.regs.set (t.phys e r) (BitVec.ofNat 32 v) } (r + 1) (v / 2 ^ 32)
    simp only [Thread.setRegs]
    refine ⟨?_, ?_, ?_⟩
    · rw [h1]
    · intro p hpj
      rw [h2 p (fun j hj => by rw [hp, show r + 1 + j = r + (j + 1) by omega]; exact hpj (j + 1) (by omega))]
      exact Cells.get_set_ne _ _ (by simpa using hpj 0 (by omega))
    · intro hd j hj
      cases j with
      | zero =>
        rw [h2 _ (fun j hj' => by
          rw [hp, show r + 1 + j = r + (j + 1) by omega]
          exact hd 0 (j + 1) (by omega) (by omega) (by omega))]
        simp
      | succ j =>
        have := h3 (fun a b ha hb hab => by
          rw [hp, hp, show r + 1 + a = r + (a + 1) by omega, show r + 1 + b = r + (b + 1) by omega]
          exact hd _ _ (by omega) (by omega) (by omega)) j (by omega)
        rw [hp] at this
        rw [show r + (j + 1) = r + 1 + j by omega, this]
        rw [Nat.div_div_eq_div_mul, show 32 * (j + 1) = 32 + 32 * j by ring, pow_add]

/-- A destination write is `WritesRegs`. -/
theorem writesRegs (e : Env) (t : Thread) (w : Bool) (d : BitVec 7) (n v : Nat) (hn : n = 1 ∨ n = 2 ∨ n = 4)
    (ha : w = false → d.toNat % n = 0) (u : Thread)
    (hu : u.regs = if w then t.regs else (t.setRegs e d.toNat n v).regs) : WritesRegs e t u w d n v := by
  unfold WritesRegs
  cases w with
  | true => simpa using hu
  | false =>
    simp only [Bool.false_eq_true, if_false] at hu ⊢
    obtain ⟨-, h2, h3⟩ := setRegs_spec e n t d.toNat v
    rw [hu]
    exact ⟨fun j hj => h3 (fun a b ha' hb hab => phys_ne e t d.toNat n a b (ha rfl) hn ha' hb hab) j hj, h2⟩

/-! ### Short results -/

/-- A short instruction that writes `n` registers with `v` and puts `v` in bl0. -/
theorem shortResult_of (i : Instr) (hi : i.shape.isSome = true) (w : Bool) (g : BitVec 3)
    (hw : (i.shape.get hi).w = w) (hg : (i.shape.get hi).g = g) (n : Nat) (d : BitVec 7)
    (hd : (i.shape.get hi).dest = .reg d n ∨ (i.shape.get hi).dest = .both d n) (hn : n = 1 ∨ n = 2 ∨ n = 4)
    (eff : Env → Thread → Thread × Word128) (v : Env → Thread → Nat)
    (he : ∀ s, exec i s = .next (s.issueShort i eff shortOff))
    (h1 : ∀ e t, (eff e t).1 = if w then t else t.setRegs e d.toNat n (v e t))
    (h2 : ∀ e t, (eff e t).2 = BitVec.ofNat 128 (v e t)) : ShortResult i w g d n v := by
  obtain ⟨sh, hs⟩ := Option.isSome_iff_exists.1 hi
  simp only [hs, Option.get_some] at hw hg hd
  subst hw hg
  have hreg : ∀ e t, (eff e t).1 = { t with regs := (eff e t).1.regs } := by
    intro e t
    rw [h1]
    split
    · rfl
    · exact (setRegs_spec e n t d.toNat (v e t)).1
  intro s hr hc
  refine ⟨_, he s, ?_⟩
  apply State.issueShort_spec s i eff shortOff hr hc
  · intro e t
    rw [Thread.advanceShort_eq e t _ i _ sh hs]
    have hd := congrArg Thread.dying (hreg e t)
    exact hd
  · intro e t
    rw [Thread.advanceShort_eq e t _ i _ sh hs]; rfl
  · intro k hk t ht
    obtain ⟨t', h3, h4⟩ := hr.pass k hk
    obtain rfl : t = t' := by rw [ht] at h3; exact Option.some.inj h3
    have hg : guardOf i = sh.g := by simp [guardOf, hs]
    rw [hg]
    by_cases hgd : t.guard sh.g = true
    · simp only [hgd, if_true]
      rw [Thread.advanceShort_eq _ _ _ i _ sh hs, h2, hreg]
      refine ⟨⟨rfl, rfl, rfl⟩, rfl, ?_⟩
      apply writesRegs _ _ _ _ _ _ hn
      · intro hw
        exact dest_aligned h4 hs hd hw
      · show (eff (s.env k) t).1.regs = _
        rw [h1]
        split <;> rfl
    · simp only [Bool.not_eq_true] at hgd
      simp only [hgd, Bool.false_eq_true, if_false]
      rw [Thread.advanceShort_eq _ _ _ i _ sh hs]
      exact ⟨⟨rfl, rfl, rfl⟩, rfl, rfl⟩

theorem ofNat_setWidth (n : Nat) (v : BitVec n) : v.setWidth 128 = BitVec.ofNat 128 v.toNat := by
  apply BitVec.eq_of_toNat_eq
  simp [BitVec.toNat_setWidth]

/-- A short instruction with a 32-bit result. -/
theorem shortResult32 (i : Instr) (hi : i.shape.isSome = true) (w : Bool) (g : BitVec 3)
    (hw : (i.shape.get hi).w = w) (hg : (i.shape.get hi).g = g) (d : BitVec 7)
    (hd : (i.shape.get hi).dest = .reg d 1 ∨ (i.shape.get hi).dest = .both d 1) (val : Env → Thread → Word32)
    (he : ∀ s, exec i s = .next (s.issueShort i (eff32 w d val) shortOff)) :
    ShortResult i w g d 1 fun e t => (val e t).toNat :=
  shortResult_of i hi w g hw hg 1 d hd (.inl rfl) _ _ he (fun _ _ => rfl) fun _ _ => ofNat_setWidth 32 _

/-- A short instruction with a 64-bit result. -/
theorem shortResult64 (i : Instr) (hi : i.shape.isSome = true) (w : Bool) (g : BitVec 3)
    (hw : (i.shape.get hi).w = w) (hg : (i.shape.get hi).g = g) (d : BitVec 7)
    (hd : (i.shape.get hi).dest = .reg d 2 ∨ (i.shape.get hi).dest = .both d 2) (val : Env → Thread → Word64)
    (he : ∀ s, exec i s = .next (s.issueShort i (eff64 w d val) shortOff)) :
    ShortResult i w g d 2 fun e t => (val e t).toNat :=
  shortResult_of i hi w g hw hg 2 d hd (.inr (.inl rfl)) _ _ he (fun _ _ => rfl) fun _ _ => ofNat_setWidth 64 _

/-- A short instruction with a 128-bit result. -/
theorem shortResult128 (i : Instr) (hi : i.shape.isSome = true) (w : Bool) (g : BitVec 3)
    (hw : (i.shape.get hi).w = w) (hg : (i.shape.get hi).g = g) (d : BitVec 7)
    (hd : (i.shape.get hi).dest = .reg d 4 ∨ (i.shape.get hi).dest = .both d 4) (val : Env → Thread → Word128)
    (he : ∀ s, exec i s = .next (s.issueShort i (eff128 w d val) shortOff)) :
    ShortResult i w g d 4 fun e t => (val e t).toNat :=
  shortResult_of i hi w g hw hg 4 d hd (.inr (.inr rfl)) _ _ he (fun _ _ => rfl) fun e t =>
    show val e t = BitVec.ofNat 128 (val e t).toNat by simp

/-! ### Predicates -/

/-- Reading a predicate after one is written; p0 stays true. -/
theorem Thread.pred_setPred (t : Thread) (n k : Nat) (b : Bool) (hn : n < 8) (hk : k < 8) :
    (t.setPred n b).pred k = if k ≠ 0 ∧ k = n then b else t.pred k := by
  unfold Thread.setPred Thread.pred
  by_cases h0 : n = 0
  · subst h0
    simp only [if_true]
    by_cases hk0 : k = 0 <;> simp [hk0]
  · simp only [h0, if_false]
    by_cases hk0 : k = 0
    · simp [hk0]
    · have hbk : (k == 0) = false := by simpa using hk0
      simp only [hbk, Bool.false_or]
      interval_cases n <;> interval_cases k <;> simp_all <;> cases b <;> simp

/-- What a descriptor write leaves (04 R86). -/
theorem Thread.pred_setPredD (t : Thread) (p : PredD) (w r : Bool) (n : Nat) (hn : n < 8) :
    (t.setPredD p w r).pred n =
      (if w = false ∧ n ≠ 0 ∧ n = p.n.toNat then r
       else if w = false ∧ p.c = true ∧ n ≠ 0 ∧ n = p.n.toNat ^^^ 1 then !r else t.pred n) := by
  have h8 : p.n.toNat < 8 := p.n.isLt
  have h9 : p.n.toNat ^^^ 1 < 8 := Nat.xor_lt_two_pow (n := 3) h8 (by omega)
  have hne : p.n.toNat ≠ p.n.toNat ^^^ 1 := by
    intro h
    have := congrArg (fun x => x.testBit 0) h
    simp at this
    omega
  unfold Thread.setPredD
  cases w with
  | true => simp
  | false =>
    simp only [Bool.false_eq_true, if_false, true_and]
    cases hc : p.c with
    | false => simp [Thread.pred_setPred _ _ _ _ h8 hn]
    | true =>
      simp only [if_true, true_and]
      rw [Thread.pred_setPred _ _ _ _ h9 hn, Thread.pred_setPred _ _ _ _ h8 hn]
      split_ifs <;> simp_all

theorem Thread.setPredD_same (t : Thread) (p : PredD) (w r : Bool) :
    t.setPredD p w r = { t with preds := (t.setPredD p w r).preds } := by
  unfold Thread.setPredD Thread.setPred
  split_ifs <;> rfl

/-- A short instruction with a predicate result. -/
theorem shortPred_of (i : Instr) (hi : i.shape.isSome = true) (w : Bool) (g : BitVec 3)
    (hw : (i.shape.get hi).w = w) (hg : (i.shape.get hi).g = g) (p : PredD) (val : Env → Thread → Bool)
    (he : ∀ s, exec i s = .next (s.issueShort i (effPred w p val) shortOff)) : ShortPred i w g p val := by
  obtain ⟨sh, hs⟩ := Option.isSome_iff_exists.1 hi
  simp only [hs, Option.get_some] at hw hg
  subst hw hg
  intro s hr hc
  refine ⟨_, he s, ?_⟩
  apply State.issueShort_spec s i _ shortOff hr hc
  · intro e t
    rw [Thread.advanceShort_eq e t _ i _ sh hs]
    show (t.setPredD p sh.w (val e t)).dying = _
    rw [Thread.setPredD_same]
  · intro e t
    rw [Thread.advanceShort_eq e t _ i _ sh hs]; rfl
  · intro k hk t ht
    have hg : guardOf i = sh.g := by simp [guardOf, hs]
    rw [hg]
    by_cases hgd : t.guard sh.g = true
    · simp only [hgd, if_true]
      rw [Thread.advanceShort_eq _ _ _ i _ sh hs]
      refine ⟨⟨?_, rfl, rfl⟩, ?_, fun n hn => Thread.pred_setPredD t p sh.w _ n hn⟩
      · show _ = _
        dsimp only [effPred]
        rw [Thread.setPredD_same]
      · show (t.setPredD p sh.w (val (s.env k) t)).regs = _
        rw [Thread.setPredD_same]
    · simp only [Bool.not_eq_true] at hgd
      simp only [hgd, Bool.false_eq_true, if_false]
      rw [Thread.advanceShort_eq _ _ _ i _ sh hs]
      exact ⟨⟨rfl, rfl, rfl⟩, rfl, rfl⟩

/-! ### Results that are not short -/

/-- An instruction that is not short and writes `n` registers with `v`. -/
theorem longResult_of (i : Instr) (hi : i.shape.isSome = true) (w : Bool) (g : BitVec 3)
    (hw : (i.shape.get hi).w = w) (hg : (i.shape.get hi).g = g) (n : Nat) (d : BitVec 7)
    (hd : (i.shape.get hi).dest = .reg d n ∨ (i.shape.get hi).dest = .both d n) (hn : n = 1 ∨ n = 2 ∨ n = 4) (v : Env → Thread → Nat)
    (he : ∀ s, exec i s = .next (s.issueLocal i fun (e : Env) (t : Thread) =>
      (if w then t else t.setRegs e d.toNat n (v e t)).advance i)) : LongResult i w g d n v := by
  obtain ⟨sh, hs⟩ := Option.isSome_iff_exists.1 hi
  simp only [hs, Option.get_some] at hw hg hd
  subst hw hg
  have hreg : ∀ (e : Env) (t : Thread), (if sh.w then t else t.setRegs e d.toNat n (v e t)) =
      { t with regs := (if sh.w then t else t.setRegs e d.toNat n (v e t)).regs } := by
    intro e t
    split
    · rfl
    · exact (setRegs_spec e n t d.toNat (v e t)).1
  intro s hr
  refine ⟨_, he s, ?_⟩
  apply State.issueLocal_spec s i _ hr
  · intro k hk t ht
    rw [hreg]
    exact hr.calm _ (Tbl.find_mem ht)
  · intro k hk t ht
    obtain ⟨t', h3, h4⟩ := hr.pass k hk
    obtain rfl : t = t' := by rw [ht] at h3; exact Option.some.inj h3
    have hg : guardOf i = sh.g := by simp [guardOf, hs]
    rw [hg]
    by_cases hgd : t.guard sh.g = true
    · simp only [hgd, if_true]
      rw [hreg]
      refine ⟨rfl, ?_⟩
      apply writesRegs _ _ _ _ _ _ hn (fun hw => dest_aligned h4 hs hd hw)
      show (if sh.w then t else _).regs = _
      split <;> rfl
    · simp only [Bool.not_eq_true] at hgd
      simp only [hgd, Bool.false_eq_true, if_false]
      exact ⟨rfl, rfl⟩

end Sys2Proof.Machine
end

