-- ==== Sys2Proof/Tests/Slice0.lean ====
section
/-!
SUPPORT. The author's own tests. First, words and numbers that the spec works out: decoding (DecodeWords' kin), the checks
of `Instr.wf`, arithmetic, a crew at work, and single steps. Then, for every obligation with hypotheses, one theorem
`witness_<obligation>` with concrete states that meet all of them, clause by clause.
-/

namespace Sys2Proof.Tests

open Machine

-- Each proof here is an evaluation by the kernel: one after another, so that the memory they need does not add up.
set_option Elab.async false

/-- The one thread of the placed program. -/
def K : TKey := { launch := 0, wid := 0 }
/-- A second thread beside it. -/
def K1 : TKey := { launch := 0, wid := 1 }

/-- The placed program's record with `n` bits of thread ranks and `kib` KiB of scratchpad. -/
def recOf (n kib : Nat) : Rec := placedRecord ||| BitVec.ofNat 2048 (n * 2 ^ 256 + kib * 2 ^ 336)

/-- An instruction about to be executed by the threads `run` of a block of 2^n threads with `kib` KiB of scratchpad. -/
def place (n kib : Nat) (run : List TKey) (i : Instr) : State :=
  let s := State.reset.placeWords (encode i)
  let s1 : State := { s with
    launches := s.launches.set 0 { record := recOf n kib, detail := 0, atCpl := true, part := 0, sub := 0, queue := 0,
                                   status := .running, pending := [], retired := 0, relaunches := 0, token := none }
    agenda := []
    run := run }
  s1.startBlock 0 (recOf n kib) 0 0 0 0

/-- The same by the one thread of a block. -/
def one (i : Instr) : State := place 0 1 [K] i

/-- The same by two threads. -/
def two (i : Instr) : State := place 1 1 [K, K1] i

/-- A thread's registers set from a list of numbers and values. -/
def State.put (s : State) (k : TKey) (vs : List (Nat × Word32)) : State :=
  s.onThread k fun _ t => { t with regs := vs.foldl (fun m p => m.set p.1 p.2) t.regs }

/-- The thread K of a state. -/
def thr (s : State) : Thread := s.threads.get K (Thread.start 0)

/-- The state after an instruction. -/
def after (i : Instr) (s : State) : State := match exec i s with | .next u => u | _ => s

/-- One thread alone issues an instruction that no check refuses, its guard true. -/
abbrev aloneP (s : State) (k : TKey) (t : Thread) (i : Instr) : Prop :=
  s.run = [k] ∧ s.threads.find k = some t ∧ s.Calm ∧ precheck (s.env k) t i = none ∧ t.guard (guardOf i) = true

theorem alone_ok {s k t i} (h : aloneP s k t i) : Alone s k t i := ⟨h.1, h.2.1, h.2.2.1, h.2.2.2.1, h.2.2.2.2⟩
theorem alone_and {s k t i} {p : Prop} (h : aloneP s k t i ∧ p) : Alone s k t i ∧ p := ⟨alone_ok h.1, h.2⟩

def passB (s : State) (i : Instr) (k : TKey) : Bool :=
  match s.threads.find k with | some t => (precheck (s.env k) t i).isNone | none => false

abbrev issuesP (s : State) (i : Instr) : Prop := s.run.Nodup ∧ s.Calm ∧ s.run.all (passB s i) = true

theorem issues_ok {s i} (h : issuesP s i) : Issues s i := by
  refine ⟨h.1, h.2.1, fun k hk => ?_⟩
  have hp := List.all_eq_true.mp h.2.2 k hk
  unfold passB at hp
  split at hp
  · exact ⟨_, by assumption, Option.isNone_iff_eq_none.mp hp⟩
  · cases hp
theorem issues_and {s i} {p : Prop} (h : issuesP s i ∧ p) : Issues s i ∧ p := ⟨issues_ok h.1, h.2⟩

abbrev crewP (s : State) (i : Instr) (c : CKey) : Prop :=
  issuesP s i ∧ (∀ k ∈ s.run, (s.env k).ckey = c) ∧ (s.run.map fun k => (s.env k).crank).Nodup

theorem crew_ok {s i c} (h : crewP s i c) : CrewIssues s i c := ⟨issues_ok h.1, h.2.1, h.2.2⟩
theorem crew_and {s i c} {p : Prop} (h : crewP s i c ∧ p) : CrewIssues s i c ∧ p := ⟨crew_ok h.1, h.2⟩

/-- A proposition from a decision of it that the kernel evaluates. -/
theorem by_dec {p : Prop} (d : Decidable p) (h : @decide p d = true) : p := @of_decide_eq_true p d h

/-- What every value an option holds meets can be decided. -/
def someDec {α : Type} (x : Option α) (p : α → Prop) [∀ a, Decidable (p a)] : Decidable (∀ a, x = some a → p a) :=
  match x with
  | none => isTrue fun _ h => by cases h
  | some a => if h : p a then isTrue fun b hb => by cases hb; exact h else isFalse fun f => h (f a rfl)

/-- Whether a wait is that of a flush with nothing more to send can be decided. -/
def flushDec (w : WaitKind) : Decidable (∀ snap, w ≠ .flush false snap) :=
  if h : (match w with | .flush false _ => true | _ => false) = true then
    isFalse fun f => by
      revert h; split
      · exact fun _ => f _ rfl
      · simp
  else isTrue fun snap e => by subst e; simp at h

/-- The same of a fence's wait. -/
def fenceDec (w : WaitKind) : Decidable (∀ snap, w ≠ .fence snap) :=
  if h : (match w with | .fence _ => true | _ => false) = true then
    isFalse fun f => by
      revert h; split
      · exact fun _ => f _ rfl
      · simp
  else isTrue fun snap e => by subst e; simp at h

/-- Whether a place is no peer's can be decided. -/
def peerDec (l : Loc) : Decidable (∀ a, l ≠ .peer a) :=
  if h : (match l with | .peer _ => true | _ => false) = true then
    isFalse fun f => by
      revert h; split
      · exact fun _ => f _ rfl
      · simp
  else isTrue fun a e => by subst e; simp at h

/-- Whether a thread issues alone can be decided. -/
def aloneDec (s : State) (k : TKey) (t : Thread) (i : Instr) : Decidable (Alone s k t i) :=
  decidable_of_iff (aloneP s k t i) ⟨alone_ok, fun h => ⟨h.run, h.here, h.calm, h.pass, h.guard⟩⟩

/-- What the patch of an entry meets can be decided. -/
def patchDec (o : SqOp) (p : Patch → Prop) [∀ a, Decidable (p a)] : Decidable (∃ a, o = .patch a ∧ p a) :=
  match o with
  | .patch a => if h : p a then isTrue ⟨a, rfl, h⟩ else isFalse fun ⟨_, e, g⟩ => by cases e; exact h g
  | .write .. | .atomic .. => isFalse fun ⟨_, e, _⟩ => by cases e

def patchAllDec (o : SqOp) (p : Patch → Prop) [∀ a, Decidable (p a)] : Decidable (∀ a, o = .patch a → p a) :=
  match o with
  | .patch a => if h : p a then isTrue fun _ e => by cases e; exact h else isFalse fun g => h (g a rfl)
  | .write .. | .atomic .. => isTrue fun _ e => by cases e

/-- What the home address of a place meets can be decided. -/
def homeDec (l : Loc) (p : Nat → Prop) [∀ a, Decidable (p a)] : Decidable (∀ a, l = .home a → p a) :=
  match l with
  | .home a => if h : p a then isTrue fun _ e => by cases e; exact h else isFalse fun g => h (g a rfl)
  | .host _ | .peer _ | .spad .. => isTrue fun _ e => by cases e

theorem pair_of {α β : Type} {x : α × β} {a : α} (h : x.1 = a) : x = (a, x.2) := by cases x; cases h; rfl
theorem triple_of {α β γ : Type} {x : α × β × γ} {a : α} {b : β} (h : x.1 = a) (g : x.2.1 = b) : x = (a, b, x.2.2) := by
  obtain ⟨x, y, z⟩ := x; cases h; cases g; rfl
theorem some_getD {α : Type} {x : Option α} {d : α} (h : x.isSome = true) : x = some (x.getD d) := by
  cases x <;> simp_all

/-! ### Decoding: the words the spec works out for its own assembly lines (02, 04, 07 to 12, 15, 16, 18, 19, 20) -/

/-- The words of control flow, barriers, queues and specials decode to what their lines say. -/
theorem test_decode_control : List.map decode
    [[0x6, 0x5],
     [0x5],
     [0x7],
     [0xB],
     [0x50000001, 0x000FFFFE],
     [0x00C00189],
     [0xD, 0x01D00000],
     [0x00E0000E, 0x00200040],
     [0xD, 0x0],
     [0x00050C12, 0x0],
     [0x01860010, 0x00300000],
     [0x00060011, 0x0],
     [0x01003F15, 0x00100000, 0x1],
     [0x01003F15, 0x01600000, 0x2],
     [0x00033F16, 0x0, 0x2],
     [0x0100001D],
     [0x00A0411B],
     [0x00DE801C],
     [0x0086841E]]
  = List.map (fun i => Except.ok (i, [])) [
    -- trap #5
    .trap { g := 0, imm := 5 },
    -- exit
    .exit { g := 0 },
    -- rti
    .rti,
    -- yield
    .yield { g := 0 },
    -- ?p5 bra spin
    .bra { g := 5, hint := .none, imm := 0xFFFFE },
    -- sreg v6, %gang
    .sreg { w := false, g := 0, d := 6, r := .gang },
    -- bar.block.pub #3, #0
    .bar { g := 0, id := 3, pub := true, scope := .block, count := 0 },
    -- arrive.gang v7, #0, #64
    .arrive { w := false, g := 0, d := 7, id := 0, pub := false, scope := .gang, count := 0x40 },
    -- bar.crew
    .bar { g := 0, id := 0, pub := false, scope := .crew, count := 0 },
    -- bind v20, v24, #0
    .bind { g := 0, a := .reg 20, b := .reg 24, e := 0 },
    -- acq.x.try p4~p5, [v24]
    .acqXTry { w := false, g := 0, p := { c := true, n := 4 }, a := .reg 24, imm := 0 },
    -- rel [v24]
    .rel { g := 0, a := .reg 24, imm := 0 },
    -- deq.g v8, #1
    .deq { w := false, g := 0, d := 8, b := .lit32 1, grp := true },
    -- deq.try.p5 v8, #2
    .deqTry { w := false, g := 0, d := 8, b := .lit32 2, grp := false, pr := 5 },
    -- enq v12, #2
    .enq { g := 0, a := .reg 12, b := .lit32 2 },
    -- cact v8
    .cact { w := false, g := 0, d := 8 },
    -- match.f32 v5, v1
    .mtch { w := false, g := 0, d := 5, a := .reg 1, kind := .f32 },
    -- red.add v6, crank
    .red { w := false, g := 0, d := 6, a := .crank, pre := false, op := .add },
    -- pset.and p4, p2, p3
    .pset { w := false, g := 0, p := { c := false, n := 4 }, pa := 2, pb := 3, t := 8 }] := by decide +kernel

/-- The words of integer and predicate instructions decode to what their lines say. -/
theorem test_decode_integer : List.map decode
    [[0x017C3F20, 0x3E8],
     [0x30804120],
     [0x0101FF22, 0x01010101],
     [0x80023F2A, 0xF],
     [0x019C38AC],
     [0x00FE7F2E, 0x2],
     [0x00C0BF30, 0x4],
     [0x0221BC36],
     [0x04620CB6],
     [0x343FBC37, 0x1],
     [0x03DF8038, 0x1],
     [0x01C23C39],
     [0x01C53840]]
  = List.map (fun i => Except.ok (i, [])) [
    -- add v11, bl0, #1000
    .add { w := false, g := 0, d := 11, a := .latch 0, b := .lit32 0x3E8 },
    -- ?p3 add v4, v1, v2
    .add { w := false, g := 3, d := 4, a := .reg 1, b := .reg 2 },
    -- mul v8, v7, #0x01010101
    .mul { w := false, g := 0, d := 8, a := .reg 7, b := .lit32 0x1010101 },
    -- and _, v8, #15
    .and { w := true, g := 0, d := 0, a := .reg 8, b := .lit32 0xF },
    -- xor v12, bl0, bl1
    .xor { w := false, g := 0, d := 12, a := .latch 0, b := .latch 1 },
    -- shl v7, rank, #2
    .shl { w := false, g := 0, d := 7, a := .rank, b := .lit32 2 },
    -- shrz v6, v2, #4
    .shrz { w := false, g := 0, d := 6, a := .reg 2, b := .lit32 4 },
    -- cmpz.ne p1, v6, zero
    .cmpz { w := false, g := 0, cond := 1, p := { c := false, n := 1 }, a := .reg 6, b := .zero },
    -- cmpz.lt p3, v8, v25
    .cmpz { w := false, g := 0, cond := 2, p := { c := false, n := 3 }, a := .reg 8, b := .reg 25 },
    -- ?p3 sel v33, #1, zero
    .sel { w := false, g := 3, d := 33, a := .lit32 1, b := .zero },
    -- mov v30, #1
    .mov { w := false, g := 0, d := 30, a := .lit32 1 },
    -- add64 v14, v8, zero
    .add64 { w := false, g := 0, d := 14, a := .reg 8, b := .zero },
    -- lea v14, v20, bl0
    .lea { w := false, g := 0, d := 14, a := .reg 20, b := .latch 0 }] := by decide +kernel

/-- The words of number formats decode to what their lines say. -/
theorem test_decode_numbers : List.map decode
    [[0x01428C43],
     [0x00A0415F, 0x0],
     [0x018206E0, 0x0250000A],
     [0x02818064]]
  = List.map (fun i => Except.ok (i, [])) [
    -- fadd.f32 v10, v10, v24
    .faddF32 { w := false, g := 0, d := 10, a := .reg 10, b := .reg 24 },
    -- pack.e4m3 v5, v1, v2, #0
    .pack { w := false, g := 0, d := 5, a := .reg 1, b := .reg 2, fmt := .e4m3, k := 0 },
    -- rqnt.s8.hu v12, v8, v13, #37, #10
    .rqnt { w := false, g := 0, d := 12, a := .reg 8, b := .reg 13, he := false, s4 := false, sh := 37, zp := 10 },
    -- fcbk.bf16 v20, v6
    .fcbk { w := false, g := 0, d := 20, a := .reg 6, half := false, fmt := .bf16 }] := by decide +kernel

/-- The words of loads, stores and coded arrays decode to what their lines say. -/
theorem test_decode_memory : List.map decode
    [[0x02808065, 0x6C000018],
     [0x00008466, 0x60400018],
     [0x00C14067, 0x40001000],
     [0x015E7C6A, 0x40000000],
     [0x015E7C69, 0x40000000],
     [0x201E7C73, 0x0],
     [0x201E7C73, 0x00400000]]
  = List.map (fun i => Except.ok (i, [])) [
    -- ld.fresh.b128 v20, [v2 + 24]
    .ld { w := false, g := 0, d := 20, a := .reg 2, ty := .b128, hint := .fresh, imm := 0x18 },
    -- st.b128 [v2 + 24], v8, s1
    .st { g := 0, a := .reg 2, b := .reg 8, ty := .b128, hint := .none, strm := 1, imm := 0x18 },
    -- lds.b32 v6, [v5 + 0x1000]
    .lds { w := false, g := 0, d := 6, a := .reg 5, ty := .b32, imm := 0x1000 },
    -- stt.b32 v10, rank, zero
    .stt { g := 0, d := 10, a := .rank, b := .zero, ty := .b32, hint := .none, clip := false, strm := 0, nc := 0 },
    -- ldt.b32 v10, rank, zero
    .ldt { w := false, g := 0, d := 10, a := .rank, b := .zero, ty := .b32, hint := .none, clip := false, nc := 0 },
    -- ?p2 bflush.blk rank, zero
    .bflushBlk { g := 2, a := .rank, b := .zero, nc := 0 },
    -- ?p2 bflush.force rank, zero
    .bflushForce { g := 2, a := .rank, b := .zero, nc := 0 }] := by decide +kernel

/-- The words of the Hawk and the matrix engines decode to what their lines say. -/
theorem test_decode_engines : List.map decode
    [[0x01C63C75, 0x64000000],
     [0x04200076, 0x0],
     [0x04484077, 0x0],
     [0x0042007B, 0x00300000],
     [0x04053C7C, 0x0],
     [0x0488007D, 0x00100000],
     [0x031E007E, 0x0]]
  = List.map (fun i => Except.ok (i, [])) [
    -- hcpy.tofifo.dz v14, v24, zero
    .hcpy { g := 0, d := 14, a := .reg 24, b := .zero, dk := .fifo, sk := .mem, dz := true, lc := 0, ldef := false, et := .raw, awe := false, awoff := 0 },
    -- hseal v33
    .hseal { w := false, g := 0, d := 33 },
    -- hwait v34, v33
    .hwait { w := false, g := 0, d := 34, a := .reg 33 },
    -- xcpy.p2k v2, v8
    .xcpy { g := 0, d := 2, a := .reg 8, psel := false, port := 0, pkt := 3 },
    -- mtask v32, v20, zero
    .mtask { w := false, g := 0, d := 32, a := .reg 20, b := .zero },
    -- mwait.st v36, v32
    .mwaitSt { w := false, g := 0, d := 36, a := .reg 32 },
    -- macc.reg.acc32 v24, zero, #0, #0
    .maccReg { w := false, g := 0, d := 24, a := .zero, clr := false, cvt := .acc32, slot := 0, k := 0 }] := by decide +kernel

/-! ### Ill-formed instructions: each check of `Instr.wf` refuses one (04 R77 to R82, R86, R91, R100) -/

/-- An event has no encoding. -/
theorem test_wf_event : Instr.wf .refreshInterval = false := by decide +kernel
/-- Fields that no encoding admits: a read-only register written, `fsfu.f64` of a function that has only f32, an exponent
of `pack` and of `macc` outside −127 to 127, a zero point outside 16 bits, `atom` naming the compare-and-swap, a barrier
and an arrival whose scope has no identifiers, a negative count, p0 as the predicate of a try form, and a layout default
without a tensor source. -/
theorem test_wf_fields : List.map Instr.wf [
    .sset { g := 0, r := .wid, a := .zero },
    .fsfu { w := false, g := 0, d := 4, a := .reg 2, fn := .tanh, wide := true },
    .pack { w := false, g := 0, d := 5, a := .reg 1, b := .reg 2, fmt := .e4m3, k := 128 },
    .maccReg { w := false, g := 0, d := 24, a := .zero, clr := false, cvt := .acc32, slot := 0, k := 0xFFF80 },
    .rqnt { w := false, g := 0, d := 12, a := .reg 8, b := .reg 13, he := false, s4 := false, sh := 0, zp := 0x08000 },
    .atom { w := false, g := 0, d := 4, a := .reg 2, b := .reg 6, wide := false, op := .cas, strm := 0, imm := 0 },
    .bar { g := 0, id := 1, pub := false, scope := .launch, count := 0 },
    .bar { g := 0, id := 0, pub := false, scope := .crew, count := 1 },
    .arrive { w := false, g := 0, d := 7, id := 0, pub := false, scope := .gang, count := 0x80000 },
    .deqTry { w := false, g := 0, d := 8, b := .lit32 2, grp := false, pr := 0 },
    .hcpy { g := 0, d := 14, a := .reg 24, b := .zero, dk := .fifo, sk := .mem, dz := true, lc := 0, ldef := true,
            et := .raw, awe := false, awoff := 0 }] = List.replicate 11 false := by decide +kernel
/-- Operands illegal by their text: a pair at an odd register, D at 0x70, a reserved code, latch 7, a latch in a long
instruction, `widhi` as 64 bits, p0 as a written predicate, a complementary pair at p1. -/
theorem test_wf_operands : List.map Instr.wf [
    .add64 { w := false, g := 0, d := 14, a := .reg 9, b := .zero },
    .add { w := false, g := 0, d := 0x70, a := .reg 2, b := .reg 6 },
    .add { w := false, g := 0, d := 4, a := .reserved, b := .reg 6 },
    .add { w := false, g := 0, d := 4, a := .latch 7, b := .reg 6 },
    .ld { w := false, g := 0, d := 4, a := .latch 0, ty := .b32, hint := .none, imm := 0 },
    .add64 { w := false, g := 0, d := 4, a := .widHi, b := .reg 6 },
    .cmpz { w := false, g := 0, cond := 1, p := { c := false, n := 0 }, a := .reg 6, b := .zero },
    .cmpz { w := false, g := 0, cond := 1, p := { c := true, n := 1 }, a := .reg 6, b := .zero }]
  = List.replicate 8 false := by decide +kernel

/-! ### Numbers the spec works out -/

/-- 07 R175's example: SX 1, LEN 12, POS 8, and the same with SX 0. -/
theorem test_bfx : bfxOp 0xDEADBEEF 0x00010C08 = 0xFFFFFDBE ∧ bfxOp 0xDEADBEEF 0x00000C08 = 0x00000DBE := by decide
/-- 08 R208's example: 1.5 and −0.5 as E4M3, and 500 without and with NSAT. -/
theorem test_pack : packByte (Fpm.of 0) .e4m3 0 0x3FC00000 = 0x3C ∧ packByte (Fpm.of 0) .e4m3 0 0xBF000000 = 0xB0
    ∧ packByte (Fpm.of 0) .e4m3 0 0x43FA0000 = 0x7F ∧ packByte (Fpm.of 0x100) .e4m3 0 0x43FA0000 = 0x7E := by decide +kernel
/-- 08 R209's example, half up and half to even. -/
theorem test_rqnt :
    let a := 1000 + (2 ^ 32 - 3000) * 2 ^ 32 + 70000 * 2 ^ 64 + 320 * 2 ^ 96
    rqntWord { w := false, g := 0, d := 12, a := .reg 8, b := .reg 13, he := false, s4 := false, sh := 37, zp := 10 } a 0x40000000
      = 0x0D7FF312
    ∧ rqntWord { w := false, g := 0, d := 12, a := .reg 8, b := .reg 13, he := true, s4 := false, sh := 37, zp := 10 } a 0x40000000
      = 0x0C7FF312 := by decide +kernel
/-- 08 R189's and R212's example of CB16: x = 0x0F2A. -/
theorem test_fcbk : cbkPack Fmt.bf16 0x0F2A = 0xBF003F003F00BF003FC0BFC03FC0BFC0 ∧ cbkPack Fmt.e4m3 0x0F2A = 0xB03030B03CBC3CBC := by
  decide +kernel
/-- 13's block: 1.0, 1.5, 2.0 and 2.5 at rate 8 encode to 0xFFFC3881, and a forced re-encode of the decoded values gives it
again. -/
theorem test_coded_encode :
    encodeBlock false 1 1 [0x3F800000, 0x3FC00000, 0x40000000, 0x40200000] none = [0x81, 0x38, 0xFC, 0xFF]
    ∧ encodeBlock false 1 1 [0x3F9A0000, 0x3FBA0000, 0x40050000, 0x40150000] (some 0x81) = [0x81, 0x38, 0xFC, 0xFF] := by
  decide +kernel
/-- It decodes to 1.203125, 1.453125, 2.078125 and 2.328125. -/
theorem test_coded_decode : (decodeBlock false 1 1 [0x81, 0x38, 0xFC, 0xFF]).map Decoded.vals =
    some [0x3F9A0000, 0x3FBA0000, 0x40050000, 0x40150000] := by decide +kernel
/-- 01's example: 0x4800123A00 lies in stack 3. -/
theorem test_stack : stackOf 0x4800123A00 = 3 ∧ stackOf 0x47FFFFFFFF = 2 ∧ stackOf 0x6000000000 = 4 := by decide

/-! ### A crew at work (10): eight participants holding 1.0, −0.0, NaN, 1.0, +0.0, NaN, 2.0 and 1.0 -/

def crewAtWork : List Part :=
  ([0x3F800000, 0x80000000, 0x7FC00000, 0x3F800000, 0, 0x7FC00000, 0x40000000, 0x3F800000] : List Word32).zipIdx.map fun q =>
    { key := { launch := 0, wid := BitVec.ofNat 64 q.2 }, rank := q.2, a := q.1, b := 0, wide := 0, p := false }

theorem test_match_f32 : crewAtWork.map (matchMask .f32 crewAtWork) = [0x89, 0x12, 0x04, 0x89, 0x12, 0x20, 0x40, 0x89] := by decide +kernel
theorem test_match_b32 : crewAtWork.map (matchMask .b32 crewAtWork) = [0x89, 0x02, 0x24, 0x89, 0x10, 0x24, 0x40, 0x89] := by decide +kernel
theorem test_red_fmax : crewAtWork.map (redVal { w := false, g := 0, d := 9, a := .reg 1, pre := false, op := .fmax } crewAtWork)
    = List.replicate 8 0x40000000 := by decide +kernel

/-! ### One step -/

/-- The thread's window register `n` after an instruction from a state. -/
def regAfter (i : Instr) (s : State) (n : Nat) : Word32 := (thr (after i s)).regs.get n

/-- `add` wraps, and moves past its word (07 R174; 04 R74). -/
theorem test_add_wraps :
    let i : Instr := .add { w := false, g := 0, d := 4, a := .reg 2, b := .reg 6 }
    let s := State.put (one i) K [(2, 0xFFFFFFFF), (6, 2)]
    regAfter i s 4 = 1 ∧ (thr (after i s)).pc = (thr s).pc + 4 := by decide +kernel
/-- A source that is also the destination is read first (07 R174: `mad` reads D). -/
theorem test_mad_reads_d :
    let i : Instr := .mad { w := false, g := 0, d := 2, a := .reg 2, b := .reg 2 }
    regAfter i (State.put (one i) K [(2, 5)]) 2 = 30 := by decide +kernel
/-- W = 1 writes the latch and no register (04 R81). -/
theorem test_w_latch_only :
    let i : Instr := .add { w := true, g := 0, d := 4, a := .reg 2, b := .reg 6 }
    let s := State.put (one i) K [(2, 7), (6, 2), (4, 1)]
    regAfter i s 4 = 1 ∧ (thr (after i s)).latches = [9] := by decide +kernel
/-- A pair result is written low word first (04 R82; 07 R179). -/
theorem test_add64_pair :
    let i : Instr := .add64 { w := false, g := 0, d := 14, a := .reg 8, b := .reg 2 }
    let s := State.put (one i) K [(8, 0xFFFFFFFF), (9, 0), (2, 1), (3, 4)]
    regAfter i s 14 = 0 ∧ regAfter i s 15 = 5 := by decide +kernel
/-- A taken branch goes 4 times IMM on from its own PC (07 R161, R162). -/
theorem test_bra_back :
    let i : Instr := .bra { g := 0, hint := .none, imm := 0xFFFFC }
    (thr (after i (one i))).pc = (thr (one i)).pc - 16 := by decide +kernel
/-- A shift by 32 or more gives 0, or the sign (07 R174). -/
theorem test_shifts : shlOp (0xFFFFFFFF : Word32) 32 = 0 ∧ shrzOp (0xFFFFFFFF : Word32) 0x80000000 = 0
    ∧ shrsOp (0x80000000 : Word32) 40 = 0xFFFFFFFF := by decide
/-- `cmpz.lt` to a complementary pair (07 R177; 04 R86). -/
theorem test_cmp_pair :
    let i : Instr := .cmpz { w := false, g := 0, cond := 2, p := { c := true, n := 4 }, a := .reg 2, b := .reg 6 }
    let t := thr (after i (State.put (one i) K [(2, 1), (6, 0x80000000)]))
    t.pred 4 = true ∧ t.pred 5 = false := by decide +kernel
/-- A load of device memory ends the step with a load in flight; a store waits in the store queue (05 R108; 09 R214). -/
theorem test_ld_in_flight :
    let i : Instr := .ld { w := false, g := 0, d := 6, a := .reg 4, ty := .b32, hint := .none, imm := 0 }
    (after i (State.put (one i) K [(4, 0x4000), (5, 0)])).loads.map (fun l => (l.dst, l.pieces.map fun p => (p.loc, p.n)))
      = [(some 6, [(.home 0x4000, 4)])] := by decide +kernel
theorem test_st_queued :
    let i : Instr := .st { g := 0, a := .reg 4, b := .reg 6, ty := .b32, hint := .none, strm := 1, imm := 8 }
    ((after i (State.put (one i) K [(4, 0x4000), (5, 0), (6, 0x04030201)])).cluster 0).sq.map (fun x => (x.loc, x.n, x.strm, x.op))
      = [(.home 0x4008, 4, some 1, .write [1, 2, 3, 4] 0)] := by decide +kernel
/-- `trap` enters the handler with VALUE = IMM, and its saved PC lies past it (07 R167; 06 R151). -/
theorem test_trap_enters :
    let i : Instr := .trap { g := 0, imm := 5 }
    let t := thr (after i (one i))
    t.inHandler = true ∧ t.tpc = (thr (one i)).pc + 8 ∧ (t.tinfo.extractLsb' 64 64).toNat = 5 := by decide +kernel

/-! ### Results (07, 08) -/

namespace Results

def fA : FDAB := { w := false, g := 0, d := 4, a := .reg 2, b := .reg 6 }
/-- Guarded, with a literal, marked W. -/
def fL : FDAB := { fA with w := true, g := 1, b := .lit32 0x80000021 }
def fC (c : BitVec 3) : FCmp := { w := false, g := 0, cond := c, p := { c := true, n := 2 }, a := .reg 2, b := .reg 6 }
def fP : FPset := { w := false, g := 0, p := { c := true, n := 4 }, pa := 1, pb := 2, t := 0x9 }

/-- Two threads with some registers. -/
def s0 : State :=
  State.put (State.put (two (.nop { g := 0 })) K [(2, 0x80000007), (3, 0x40100000), (6, 0x23), (7, 0x7F800001), (4, 0x12345678), (5, 0xFFF00000)])
    K1 [(2, 0x7FC00001), (6, 0xFFFFFFFE), (3, 0x3FF00000), (4, 0x00000001)]

/-- The hypotheses of a result statement hold at `s0`. -/
def Ready (l : List Instr) : Prop := ∀ i ∈ l, Issues s0 i ∧ s0.chainTrap i = false

theorem ready_of {l : List Instr} (h : ∀ i ∈ l, issuesP s0 i ∧ s0.chainTrap i = false) : Ready l :=
  fun i hi => issues_and (h i hi)

/-- States that meet the hypotheses of `IntegerResults`. -/
theorem witness_IntegerResults : Ready ([fA].flatMap (fun f => ([.add fL, .add f, .sub f, .mul f, .mad f, .mulhs f, .mulhz f, .and f,
      .or f, .xor f, .andn f, .mins f, .minz f, .maxs f, .maxz f, .shl f, .shrs f, .shrz f, .rot f, .bfx f, .bfi f, .add64 f,
      .sub64 f, .mul64 f, .shl64 f, .shrz64 f, .shrs64 f, .lea f] : List Instr))
    ++ [BitcOp.clz, .ctz, .popc, .brev, .bswap, .clz64, .ctz64, .popc64, .brev64, .bswap64].map
      (fun op => Instr.bitc { w := false, g := 0, d := 4, a := .reg 2, op := op })
    ++ [.mov { w := false, g := 0, d := 4, a := .crank }]) := ready_of (by decide +kernel)

/-- Values at the edges of what `IntegerOperations` tells apart. -/
theorem witness_IntegerOperations : (0x80000000 : Word32) ≠ 0 ∧ clzOp (0x80000000 : Word32) = 0 ∧ ctzOp (0x80000000 : Word32) = 31
    ∧ 32 ≤ (0x20 : Word32).toNat ∧ ¬ 32 ≤ (0x1F : Word32).toNat ∧ fieldLen (0x10F00 : Word32) = 15
    ∧ fieldLen (0 : Word32) = 0 := by decide

/-- States that meet the hypotheses of `CompareResults`. -/
theorem witness_CompareResults : Ready ((List.range 8).flatMap fun n =>
    let f := fC (BitVec.ofNat 3 n)
    ([.cmps f, .cmpz f, .cmp64 f, .fcmpF32 f, .fcmpF64 f] : List Instr)) := ready_of (by decide +kernel)

/-- Values that meet the hypotheses of `ConditionMeanings`' last clause. -/
theorem witness_ConditionMeanings : ∃ (x y : FVal) (c : BitVec 3), (x = .nan ∨ y = .nan) ∧ c ≠ 1 ∧ c ≠ 6 :=
  ⟨.nan, .nan, 0, .inl rfl, by decide, by decide⟩

/-- States that meet the hypotheses of `PredicateResults`. -/
theorem witness_PredicateResults : Ready [.pset fP, .sel fA, .sel fL, .pmov fA, .pmov fL] := ready_of (by decide +kernel)

/-- States that meet the hypotheses of `FloatResults`' short results. -/
theorem witness_FloatResults : Ready ([fA].flatMap fun f => ([.fmaF64 fL, .faddF64 f, .fsubF64 f, .fmulF64 f, .fminF64 f, .fmaxF64 f,
    .faddF32 f, .fsubF32 f, .fmulF32 f, .fminF32 f, .fmaxF32 f, .faddF16x2 f, .faddBf16x2 f, .fmulF16x2 f, .fmulBf16x2 f,
    .fscaleF32 f, .fscaleF64 f, .fmaF64 f, .fmaF32 f, .fmaF16x2 f, .fmaBf16x2 f] : List Instr)) := ready_of (by decide +kernel)

/-- States that meet the hypotheses of `FloatResults`' other results. -/
theorem witness_FloatResults_long :
    ∀ i ∈ ([.fdivF32 fA, .fdivF64 fA, .fsfu { w := false, g := 0, d := 4, a := .reg 2, fn := .rcp, wide := true },
      .fsfu { w := false, g := 0, d := 4, a := .reg 2, fn := .rcp, wide := false }] : List Instr), Issues s0 i :=
  fun i hi => issues_ok ((by decide +kernel : ∀ i ∈ ([.fdivF32 fA, .fdivF64 fA,
    .fsfu { w := false, g := 0, d := 4, a := .reg 2, fn := .rcp, wide := true },
    .fsfu { w := false, g := 0, d := 4, a := .reg 2, fn := .rcp, wide := false }] : List Instr), issuesP s0 i) i hi)

/-- States that meet the hypotheses of `NarrowResults`. -/
theorem witness_NarrowResults : Ready (
    ([FType.f64, .f32, .f16x2, .bf16x2].flatMap fun ty =>
      ([.fsgn { w := false, g := 0, d := 4, a := .reg 2, op := .nabs, ty := ty },
        .fround { w := false, g := 0, d := 4, a := .reg 2, ty := ty, mode := .rna }] : List Instr))
    ++ ([ClassType.f64, .f32, .f16, .bf16, .e4m3, .e5m2].map fun ty => Instr.fclass { w := false, g := 0, d := 4, a := .reg 2, ty := ty })
    ++ ([CvtCode.f32_f64, .f64_f32, .f32_f16h, .bf16x2_f32, .f32_e8m0, .s32_f64, .z64_f32, .f64_z64].map fun c =>
      Instr.cvt { w := false, g := 0, d := 4, a := .reg 2, trunc := true, code := c })
    ++ ([.pack { w := false, g := 0, d := 4, a := .reg 2, b := .reg 6, fmt := .s8, k := 3 },
      .rqnt { w := false, g := 0, d := 4, a := .reg 8, b := .reg 6, he := true, s4 := false, sh := 5, zp := 10 },
      .rqnt { w := false, g := 0, d := 4, a := .reg 8, b := .reg 6, he := true, s4 := true, sh := 5, zp := 10 },
      .dp4 fA, .dp8 fA, .fdp2 fA, .fcbk { w := false, g := 0, d := 4, a := .reg 2, half := true, fmt := .bf16 },
      .fcbk { w := false, g := 0, d := 4, a := .reg 2, half := false, fmt := .e5m2 }] : List Instr)) := ready_of (by decide +kernel)

/-- Values that meet the hypotheses of `FloatSpecials`. -/
theorem witness_FloatSpecials :
    (isNanBits Fmt.f64 0xFFF0000000000001 = true ∧ isNanBits Fmt.f32 0xFFC00001 = true ∧ isNanBits Fmt.f16 0x7C01 = true
      ∧ isNanBits Fmt.bf16 0xFF81 = true)
    ∧ (isNanBits Fmt.f64 0xFFF0000000000000 = false ∧ isNanBits Fmt.f32 0x7F800000 = false ∧ isNanBits Fmt.f16 0x7C00 = false
      ∧ isNanBits Fmt.bf16 0xFF80 = false)
    ∧ 0xFFFF < 2 ^ 16 ∧ 0x80000001 < 2 ^ 32 ∧ 0x8000000000000000 < 2 ^ 64 := by decide +kernel

/-- An instruction and words that meet the hypotheses of `EncodeDecode`. -/
theorem witness_EncodeDecode : Instr.wf (.add fL) = true ∧ decode [0x017C3F20, 0x3E8, 7] =
    .ok (.add { w := false, g := 0, d := 11, a := .latch 0, b := .lit32 1000 }, [7]) := by decide +kernel

def nextB {σ φ ρ : Type} (o : Host.Outcome σ φ ρ) : Bool := match o with | .next _ => true | _ => false
theorem next_of {σ φ ρ : Type} {o : Host.Outcome σ φ ρ} (h : nextB o = true) : ∃ t, o = .next t := by
  cases o with
  | next t => exact ⟨t, rfl⟩
  | _ => cases h

/-- A step that stores to a canonical memory meets the hypotheses of `MemoriesStayCanonical`. -/
theorem witness_MemoriesStayCanonical : ∃ s t, State.MemOk s ∧ step s = .next t ∧ s.mem ≠ [] := by
  obtain ⟨t, h⟩ := next_of (o := step { one (.add fA) with agenda := [.issue 0 0], run := [] }) (by decide +kernel)
  exact ⟨_, t, by decide +kernel, h, by decide +kernel⟩

/-- The state after reset meets the hypotheses of `ResetState`'s last clause. -/
theorem witness_ResetState : State.reset.homeFailed 0x4000 = false ∧ State.reset.MemOk := by decide +kernel

/-- The one fault of `EveryInstructionAnswers` is met, by both instructions it names. -/
theorem witness_EveryInstructionAnswers : exec (.hostMemRead deviceTop 1) State.reset = .fault .outsideDeviceMemory
    ∧ exec (.hostMemWrite (deviceTop - 1) [1, 2]) State.reset = .fault .outsideDeviceMemory := ⟨rfl, rfl⟩

end Results

/-! ### States for the witnesses: control flow, traps, special registers and crews -/

namespace Control

def fSf (w : Bool) : FSfu := {w:=false,g:=0,d:=4,a:=.reg 2,fn:=.rcp,wide:=w}
def vals (s : State) : State :=
  State.put (State.put s K [(2, 0x4000), (3,0), (6, 0x23), (7,0x7F800001),(4, 0x12345678),(5,0xFFF00000)]) K1 [(2, 0x4004), (6, 0xFFFFFFFE), (3, 0),(4,0x00000001)]
def sA (i : Instr) : State := vals (two i)
def sO (i : Instr) : State := vals (one i)
def preds (s : State) (b : BitVec 8) : State := s.onThread K fun _ t => { t with preds := b, tcause := 0xFF804001, tpc := 0x9000, twb := 32, fpm := 5, resume := 0xA000, inHandler := true }
def mod (s : State) (f : Thread → Thread) : State := s.onThread K fun _ t => f t
def fB : FBra := {g:=0,hint:=.none,imm:=16}
def fCl : FCall := {g:=0,d:=4,imm:=16}
def fX : FDA := {w:=false,g:=0,d:=4,a:=.reg 2}
def fR : FA := {g:=0,a:=.reg 2}
def fW : FA := {g:=0,a:=.lit32 48}
def G0 : FG := {g:=0}
def z1 : State := sA (.fsfu (fSf true))
def z2 : State := sA (.fsfu (fSf false))
def z3 : State := sA (.bra fB)
def z5 : State := sA (.call fCl)
def z6 : State := sA (.brx fX)
def z8 : State := sA (.ret fR)
def z9 : State := sA (.nop G0)
def z10 : State := sA (.yield G0)
def z12 : State := sA (.wbase fW)
def z13 : State := mod (sA (.nop G0)) fun t => {t with wait := {kind := .yield 16, counts := false}}
def z15 : State := State.put (sO (.brx fX)) K [(2,0x4002)]
def fAw : FDAB := {w:=false,g:=0,d:=96,a:=.reg 2,b:=.reg 3}
def z17 : State := mod (sO (.add fAw)) fun t => {t with base := 496, preds := 0xA}
def trz := (precheck (z17.env K) (thr z17) (.add fAw)).getD (Trap.window 0 0)
def fT : FTrap := {g:=0,imm:=0xFFFFF}
def z18 : State := mod (sO (.trap fT)) fun t => {t with base := 32, preds := 0xA, fpm := 0x1F}
def fSr : FSreg := {w:=false,g:=0,d:=4,r:=.tpc}
def z19 : State := mod (sO (.sreg fSr)) fun t => {t with base := 32, preds := 0xA, fpm := 0x1F}
def z20 : State := sO (.exit G0)
def noRes : State := let s := sO (.trap fT); match s.launches.find 0 with | some x => { s with launches := s.launches.set 0 { x with record := x.record &&& ~~~ (BitVec.ofNat 2048 (2^322)) } } | none => s
def lx : Launch := match noRes.launches.find 0 with | some x => x | none => (default : Option Launch).getD (match noRes.launches with | p :: _ => p.2 | [] => { record := 0, detail := 0, atCpl := true, part := 0, sub := 0, queue := 0, status := .running, pending := [], retired := 0, relaunches := 0, token := none })
def gx : Gang := match noRes.gangs.find {launch:=0,gang:=0} with | some x => x | none => { status := .running, kills := 0, frozen := false, shedAt := none, quantumAt := 0, die := 0 }
def z23 : State := preds (one .rti) 0xA4
def z25 : State := mod (one .rti) fun t => {t with preds := 0xA4, fpm := 0x155, base := 64}
def z26 : State := sA (.sreg ({w:=false,g:=0,d:=4,r:=.rank}:FSreg))
def z52 : State := sA (.nop G0)
def z53 : State := sA (.sset ({g:=0,r:=.fpm,a:=.lit32 0xFFF}:FSset))
def z57 : State := one (.sset ({g:=0,r:=.rngkey,a:=.lit32 0xFFFFFFFF}:FSset))
def z59 : State := one (.rng ({w:=false,g:=0,d:=4}:FD))
def z61 : State := sA (.bal fX)
def z62 : State := sA (.cact ({w:=false,g:=0,d:=4}:FD))
def z63 : State := sA (.shfi ({w:=false,g:=0,d:=4,a:=.reg 2,b:=.lit32 1}:FDAB))
def z64 : State := sA (.shfx ({w:=false,g:=0,d:=4,a:=.reg 2,b:=.lit32 1}:FDAB))
def z66 : State := sA (.mtch ({w:=false,g:=0,d:=4,a:=.reg 2,kind:=.b32}:FMatch))
def z70 : State := sA (.red ({w:=false,g:=0,d:=4,a:=.reg 2,pre:=true,op:=.add}:FRed))
def z81 : State := mod (sA (.vote ({w:=false,g:=0,p:={c:=true,n:=2},pa:=3,op:=.any}:FVote))) fun t => {t with preds := 8}

/-- States that meet the hypotheses of `FloatResults`, clause by clause. -/
theorem witness_FloatResults :
    (∃ (f : FSfu) (s : State),
        f.wide = true ∧ Issues s (Instr.fsfu f))
    ∧ (∃ (f : FSfu) (s : State),
        f.wide = false ∧ Issues s (Instr.fsfu f)) :=
  ⟨⟨(fSf true), z1, ⟨by decide, issues_ok (by decide +kernel)⟩⟩,
    ⟨(fSf false), z2, ⟨by decide, issues_ok (by decide +kernel)⟩⟩⟩

/-- States that meet the hypotheses of `ControlFlow`, clause by clause. -/
theorem witness_ControlFlow :
    (∃ (f : FBra) (s : State),
        Issues s (Instr.bra f) ∧
        (∀ k ∈ s.run, ∀ (t : Thread), s.threads.find k = some t → canonical (↑(BitVec.toNat t.pc) + 4 * f.imm.toInt) = true) ∧
          ∀ k ∈ s.run, ∀ (t : Thread), s.threads.find k = some t → BitVec.toNat t.pc % 4 = 0)
    ∧ (∃ (f : FCall) (s : State),
        Issues s (Instr.call f) ∧
        (∀ k ∈ s.run, ∀ (t : Thread), s.threads.find k = some t → canonical (↑(BitVec.toNat t.pc) + 4 * f.imm.toInt) = true) ∧
          ∀ k ∈ s.run, ∀ (t : Thread), s.threads.find k = some t → BitVec.toNat t.pc % 4 = 0)
    ∧ (∃ (f : FDA) (s : State),
        Issues s (Instr.brx f) ∧
        ∀ k ∈ s.run,
          ∀ (t : Thread),
            s.threads.find k = some t →
              canonical ↑(BitVec.toNat (src64 (s.env k) t f.a)) = true ∧ BitVec.toNat (src64 (s.env k) t f.a) % 4 = 0)
    ∧ (∃ (f : FA) (s : State),
        Issues s (Instr.ret f) ∧
        ∀ k ∈ s.run,
          ∀ (t : Thread),
            s.threads.find k = some t →
              canonical ↑(BitVec.toNat (src64 (s.env k) t f.a)) = true ∧ BitVec.toNat (src64 (s.env k) t f.a) % 4 = 0)
    ∧ (∃ (f : FG) (s : State),
        Issues s (Instr.nop f))
    ∧ (∃ (f : FG) (s : State),
        Issues s (Instr.yield f))
    ∧ (∃ (f : FA) (s : State),
        Issues s (Instr.wbase f) ∧
        ∀ k ∈ s.run,
          ∀ (t : Thread),
            s.threads.find k = some t →
              t.inHandler = false ∧
                BitVec.toNat (src32 (s.env k) t f.a) % 16 = 0 ∧ BitVec.toNat (src32 (s.env k) t f.a) < (s.env k).U)
    ∧ (∃ (s : State) (k : TKey) (t : Thread) (n : ℕ),
        s.threads.find k = some t ∧ t.wait.kind = WaitKind.yield n) :=
  ⟨⟨fB, z3, issues_and (by_dec (letI := @someDec; inferInstance) (by decide +kernel))⟩,
    ⟨fCl, z5, issues_and (by_dec (letI := @someDec; inferInstance) (by decide +kernel))⟩,
    ⟨fX, z6, issues_and (by_dec (letI := @someDec; inferInstance) (by decide +kernel))⟩,
    ⟨fR, z8, issues_and (by_dec (letI := @someDec; inferInstance) (by decide +kernel))⟩,
    ⟨G0, z9, issues_ok (by decide +kernel)⟩,
    ⟨G0, z10, issues_ok (by decide +kernel)⟩,
    ⟨fW, z12, issues_and (by_dec (letI := @someDec; inferInstance) (by decide +kernel))⟩,
    ⟨z13, K, (thr z13), 16, by decide +kernel⟩⟩

/-- States that meet the hypotheses of `TrapEntries`, clause by clause. -/
theorem witness_TrapEntries :
    (∃ (f : FDA) (s : State) (k : TKey) (t : Thread),
        Alone s k t (Instr.brx f) ∧
        Traps (s.env k) t ∧
          (canonical ↑(BitVec.toNat (src64 (s.env k) t f.a)) = false ∨ BitVec.toNat (src64 (s.env k) t f.a) % 4 ≠ 0))
    ∧ (∃ (f : FDAB) (s : State) (k : TKey) (t : Thread) (tr : Trap),
        s.run = [k] ∧
        s.Calm ∧
          s.threads.find k = some t ∧ Traps (s.env k) t ∧ precheck (s.env k) t (Instr.add f) = some tr ∧ t.chain = none)
    ∧ (∃ (f : FTrap) (s : State) (k : TKey) (t : Thread),
        Alone s k t (Instr.trap f) ∧ Traps (s.env k) t)
    ∧ (∃ (f : FSreg) (s : State) (k : TKey) (t : Thread),
        s.run = [k] ∧
        s.Calm ∧ s.threads.find k = some t ∧ Traps (s.env k) t ∧ f.r.handlerOnly = true ∧ t.chain = none) :=
  ⟨⟨fX, z15, K, (thr z15), alone_and (by decide +kernel)⟩,
    ⟨fAw, z17, K, (thr z17), trz, by decide +kernel⟩,
    ⟨fT, z18, K, (thr z18), alone_and (by decide +kernel)⟩,
    ⟨fSr, z19, K, (thr z19), by decide +kernel⟩⟩

/-- A state that meets the hypotheses of `ControlFlow`'s clauses about a slot. -/
theorem witness_ControlFlow_slot : ∃ (s : State) (k : TKey) (t : Thread) (n : Nat) (ks : List TKey),
    s.threads.find k = some t ∧ t.wait.kind = .yield n ∧ k ∉ ks ∧ s.isResident k = true ∧ ks ≠ [] :=
  ⟨z13, K, thr z13, 16, [K1], by decide +kernel⟩

def farB : State := mod (sO (.bra fB)) fun t => { t with pc := 0x00FFFFFFFFFFFFF0 }
def farC : State := mod (sO (.call fCl)) fun t => { t with pc := 0x00FFFFFFFFFFFFF0 }
def oddR : State := State.put (sO (.ret fR)) K [(2,0x4002)]

/-- States that meet the hypotheses of `TrapEntries`'s clauses about `bra`, `call` and `ret`. -/
theorem witness_TrapEntries_branches :
    (∃ (f : FBra) (s : State) (k : TKey) (t : Thread), Alone s k t (.bra f) ∧ Traps (s.env k) t
      ∧ (canonical ((t.pc.toNat : Int) + 4 * f.imm.toInt) = false ∨ ((t.pc.toNat : Int) + 4 * f.imm.toInt) % 4 ≠ 0))
    ∧ (∃ (f : FCall) (s : State) (k : TKey) (t : Thread), Alone s k t (.call f) ∧ Traps (s.env k) t
      ∧ (canonical ((t.pc.toNat : Int) + 4 * f.imm.toInt) = false ∨ ((t.pc.toNat : Int) + 4 * f.imm.toInt) % 4 ≠ 0))
    ∧ (∃ (f : FA) (s : State) (k : TKey) (t : Thread), Alone s k t (.ret f) ∧ Traps (s.env k) t
      ∧ (canonical (src64 (s.env k) t f.a).toNat = false ∨ (src64 (s.env k) t f.a).toNat % 4 ≠ 0)) :=
  ⟨⟨fB, farB, K, thr farB, alone_and (by decide +kernel)⟩, ⟨fCl, farC, K, thr farC, alone_and (by decide +kernel)⟩,
    ⟨fR, oddR, K, thr oddR, alone_and (by decide +kernel)⟩⟩

/-- States that meet the hypotheses of `EndsOfThreads`, clause by clause. -/
theorem witness_EndsOfThreads :
    (∃ (f : FG) (s : State) (k : TKey) (t : Thread),
        Alone s k t (Instr.exit f) ∧
        (s.log.all fun l => l.accs.all fun a => a.key != k) = true ∧ ∀ b ∈ s.barriers, b.1.launch ≠ k.launch)
    ∧ (∃ (f : FG) (s : State),
        Issues s (Instr.exit f) ∧
        (∀ k ∈ s.run, ∀ l ∈ s.log, ∀ a ∈ l.accs, a.key ≠ k) ∧ ∀ k ∈ s.run, ∀ b ∈ s.barriers, b.1.launch ≠ k.launch)
    ∧ (∃ (f : FG) (s : State) (k : TKey) (t : Thread),
        Alone s k t (Instr.exit f) ∧ ∀ l ∈ s.log, ∀ a ∈ l.accs, a.key ≠ k)
    ∧ (∃ (f : FTrap) (s : State) (k : TKey) (t : Thread) (x : Launch) (g : Gang),
        Alone s k t (Instr.trap f) ∧
        (s.env k).rcd.trsv = false ∧
          (s.env k).drain = false ∧ s.launches.find k.launch = some x ∧ s.gangs.find (s.env k).gkey = some g) :=
  ⟨⟨G0, z20, K, (thr z20), alone_and (by decide +kernel)⟩,
    ⟨G0, z20, issues_and (by decide +kernel)⟩,
    ⟨G0, z20, K, (thr z20), alone_and (by decide +kernel)⟩,
    ⟨fT, noRes, K, (thr noRes), lx, gx, alone_and (by decide +kernel)⟩⟩

/-- States that meet the hypotheses of `TrapReturns`, clause by clause. -/
theorem witness_TrapReturns :
    (∃ (s : State),
        Issues s Instr.rti)
    ∧ (∃ (e : Env) (t : Thread) (w : TrapAt),
        Traps e t ∧
        w.defer = false ∧ t.base < 2 ^ 32 ∧ BitVec.toNat t.fpm < 2 ^ 9 ∧ t.preds.getLsbD 0 = false) :=
  ⟨⟨z23, issues_ok (by decide +kernel)⟩,
    ⟨(z25.env K), (thr z25), { tpc := 0x1004, ipc := 0x1008, defer := false, chain := true, resume := 0 }, by decide +kernel⟩⟩

/-- States that meet the hypotheses of `ReadSpecial`, clause by clause. -/
theorem witness_ReadSpecial :
    (∃ (f : FSreg) (s : State),
        Issues s (Instr.sreg f))
    ∧ (∃ (e : Env),
        e.rcd.bw ≤ 10 ∧ e.rcd.gw ≤ 2 ∧ ∀ k, k < 6 → e.rcd.width k ≤ 32)
    ∧ (∃ (e : Env),
        e.cl < 192) :=
  ⟨⟨({w:=false,g:=0,d:=4,r:=.rank}:FSreg), z26, issues_ok (by decide +kernel)⟩,
    ⟨(z52.env K1), by decide +kernel⟩,
    ⟨(z52.env K1), by decide +kernel⟩⟩

/-- States that meet the hypotheses of `WriteSpecial`, clause by clause. -/
theorem witness_WriteSpecial :
    (∃ (f : FSset) (s : State),
        Issues s (Instr.sset f) ∧
        (f.r = SReg.fpm ∨ f.r = SReg.tcause ∨ f.r = SReg.tpc ∨ f.r = SReg.twb) ∧
          (f.r = SReg.twb →
            ∀ k ∈ s.run,
              ∀ (t : Thread),
                s.threads.find k = some t →
                  BitVec.toNat (src32 (s.env k) t f.a) % 16 = 0 ∧ BitVec.toNat (src32 (s.env k) t f.a) < (s.env k).U))
    ∧ (∃ (f : FSset) (s : State) (k : TKey) (t : Thread) (c : Crew),
        Alone s k t (Instr.sset f) ∧
        (f.r = SReg.rngkey ∨ f.r = SReg.rngctr) ∧ s.crews.find (s.env k).ckey = some c)
    ∧ (∃ (f : FD) (s : State) (k : TKey) (t : Thread) (c : Crew),
        s.run = [k] ∧
        s.threads.find k = some t ∧
          s.Calm ∧ precheck (s.env k) t (Instr.rng f) = none ∧ s.crews.find (s.env k).ckey = some c) :=
  ⟨⟨({g:=0,r:=.fpm,a:=.lit32 0xFFF}:FSset), z53, issues_and (by_dec (letI := @someDec; inferInstance) (by decide +kernel))⟩,
    ⟨({g:=0,r:=.rngkey,a:=.lit32 0xFFFFFFFF}:FSset), z57, K, (thr z57), Crew.start, alone_and (by decide +kernel)⟩,
    ⟨({w:=false,g:=0,d:=4}:FD), z59, K, (thr z59), Crew.start, by decide +kernel⟩⟩

/-- States that meet the hypotheses of `CrewMasks`, clause by clause. -/
theorem witness_CrewMasks :
    (∃ (f : FDA) (s : State) (c : CKey),
        CrewIssues s (Instr.bal f) c)
    ∧ (∃ (f : FD) (s : State) (c : CKey),
        CrewIssues s (Instr.cact f) c)
    ∧ (∃ (f : FDAB) (s : State) (c : CKey),
        CrewIssues s (Instr.shfi f) c)
    ∧ (∃ (f : FDAB) (s : State) (c : CKey),
        CrewIssues s (Instr.shfx f) c) :=
  ⟨⟨fX, z61, {launch:=0,block:=0,crew:=0}, crew_ok (by decide +kernel)⟩,
    ⟨({w:=false,g:=0,d:=4}:FD), z62, {launch:=0,block:=0,crew:=0}, crew_ok (by decide +kernel)⟩,
    ⟨({w:=false,g:=0,d:=4,a:=.reg 2,b:=.lit32 1}:FDAB), z63, {launch:=0,block:=0,crew:=0}, crew_ok (by decide +kernel)⟩,
    ⟨({w:=false,g:=0,d:=4,a:=.reg 2,b:=.lit32 1}:FDAB), z64, {launch:=0,block:=0,crew:=0}, crew_ok (by decide +kernel)⟩⟩

/-- States that meet the hypotheses of `CrewResults`, clause by clause. -/
theorem witness_CrewResults :
    (∃ (f : FMatch) (s : State) (c : CKey),
        CrewIssues s (Instr.mtch f) c)
    ∧ (∃ (f : FRed) (s : State) (c : CKey),
        CrewIssues s (Instr.red f) c)
    ∧ (∃ (f : FVote) (s : State) (c : CKey),
        CrewIssues s (Instr.vote f) c) :=
  ⟨⟨({w:=false,g:=0,d:=4,a:=.reg 2,kind:=.b32}:FMatch), z66, {launch:=0,block:=0,crew:=0}, crew_ok (by decide +kernel)⟩,
    ⟨({w:=false,g:=0,d:=4,a:=.reg 2,pre:=true,op:=.add}:FRed), z70, {launch:=0,block:=0,crew:=0}, crew_ok (by decide +kernel)⟩,
    ⟨({w:=false,g:=0,p:={c:=true,n:=2},pa:=3,op:=.any}:FVote), z81, {launch:=0,block:=0,crew:=0}, crew_ok (by decide +kernel)⟩⟩

end Control

/-! ### States for the witnesses: fences, barriers, waits, objects, bindings and queues -/

namespace Ordering

def vals (s : State) : State :=
  State.put (State.put s K [(2, 0x4000), (3,0), (6, 0x23), (7,0),(4, 0x4040),(5,0)]) K1 [(2, 0x4000), (6, 0xFFFFFFFE), (3, 0),(4,0x00000001)]
def mod (s : State) (f : Thread → Thread) : State := s.onThread K fun _ t => f t
def okPs {β} (x : Acc × β) : List Piece0 := match x.1 with | .ok p => p | _ => []
def sq1 (id : Nat) (a : Loc) : SqEntry := { id := id, key := K, who := some (1, 0), counted := true, bill := { part := 0, sub := 0, owner := 0, ctx := 0 }, port := none, copy := none, strm := some 0, prio := 3, loc := a, va := 0x5000, n := 4, op := .write [1,2,3,4] 0, tag := none }
def withSq (s : State) (l : List SqEntry) : State := s.onCluster 0 fun c => { c with sq := l }
def bsb : BsBlock := { part := 0, sub := 0, owner := 0, ctx := 0, tid := 5, index := 0, va := 0x8000, f64 := false, dim := 1, rate := 8, ext := [16], res := 0, hdr := 0, vals := [1,2,3,4], dirty := 0, clamp := false, special := false, zero := false, refresh := false, low := false, lru := 0 }
def l1s : L1Sector := { sector := 5, bytes := [], marks := 0 }
def fFb : FFence := {g:=0,scope:=.block}
def fFg : FFence := {g:=0,scope:=.gang}
def z1 : State := one (.fence fFb)
def z2 : State := withSq (one (.fence fFg)) [sq1 3 (.host 5), sq1 4 (.home 9)] |>.onCluster 0 fun c => { c with l1 := [l1s], store := [bsb, {bsb with dirty := 2}] }
def z3 : State := mod (withSq (one (.fence fFg)) [sq1 3 (.host 5), sq1 4 (.home 9)] |>.onCluster 0 fun c => { c with l1 := [l1s], store := [bsb, {bsb with dirty := 2, va := 0x9000}, {bsb with ctx := 4}] }) fun t => { t with wait := {kind := .fence [1,2], counts := true}}
def z6 : State := two (.fence fFb)
def z7 : State := two (.fence {g:=2,scope:=.gang})
def fBar (c : BitVec 20) : FBar := {g:=0,id:=3,pub:=false,scope:=.block,count:=c}
def bk : BarKey := barKey ((one (.nop {g:=0})).env K) .block 3
def fBarL : FBar := {g:=0,id:=0,pub:=false,scope:=.launch,count:=0}
def duo (i : Instr) : State := { two i with run := [K] }
def z8 : State := duo (.bar (fBar 0))
def z9 : State := { duo (.bar (fBar 0)) with barriers := [(bk, { phase := 4, arrivals := 1, expected := some 0, arrived := [K1] })] }.onThread K1 fun _ t => { t with wait := {kind := .bar bk 4, counts := true}}
def fArr (c : BitVec 20) : FArrive := {w:=false,g:=0,d:=4,id:=3,pub:=false,scope:=.block,count:=c}
def z14 : State := duo (.arrive (fArr 2))
def z15 : State := { duo (.arrive (fArr 2)) with barriers := [(bk, { phase := 4, arrivals := 1, expected := some 2, arrived := [K1] })] }.onThread K1 fun _ t => { t with wait := {kind := .bar bk 4, counts := true}}
def z17 : State := { duo (.bar (fBar 2)) with barriers := [(bk, { phase := 4, arrivals := 1, expected := some 3, arrived := [K1] })] }
def z18 : State := { duo (.bar (fBar 0)) with barriers := [(bk, { phase := 4, arrivals := 1, expected := some 0, arrived := [K] })] }
def z17a : State := { duo (.arrive (fArr 2)) with barriers := [(bk, { phase := 4, arrivals := 1, expected := some 3, arrived := [K1] })] }
def z18a : State := { duo (.arrive (fArr 0)) with barriers := [(bk, { phase := 4, arrivals := 1, expected := some 0, arrived := [K] })] }
def z19 : State := let s := duo (.bar fBarL); { s with launches := s.launches.map fun p => (p.1, { p.2 with record := (p.2.record &&& ~~~(BitVec.ofNat 2048 (0xFFF * 2^298))) ||| BitVec.ofNat 2048 (2 * 2^ (256+6*3) + 2^(512+32*3)) }) }
def fWt : FWait := {w:=false,g:=0,d:=8,a:=.reg 2,b:=.reg 6,wide:=false,cond:=0,imm:=0}
def fPc : FPchk := {w:=false,g:=0,p:={c:=true,n:=2},a:=.reg 2,b:=.reg 6,wide:=true,cond:=0,imm:=0}
def fSw : FSwait := {w:=false,g:=0,d:=8,a:=.lit32 32,b:=.reg 6,imm:=0}
def mb (s : State) (a : Nat) (bs : List Byte) : State := { s with mem := s.mem.setBytes a bs }
def sv (i : Instr) : State := vals (one i)
def chk1 (s : State) (a : Int) (n : Nat) (w : Bool := false) := s.check (s.env K).who a n w false
def gotB (x : Gather × State) : List Byte := match x.1 with | .ready b _ => b | _ => []
def z23 : State := mb (sv (.wait fWt)) 0x4000 [0x23,0,0,0]
def z24 : List Piece0 := okPs (chk1 z23 0x4000 4)
def z25 : State := (chk1 z23 0x4000 4).2
def z26 : Gather × State := z25.readFresh (z25.env K) z24
def z31 : State := sv (.pchk fPc)
def z32 : List Piece0 := okPs (chk1 z31 0x4000 8)
def z33 : State := (chk1 z31 0x4000 8).2
def z34 : State := State.put (sv (.pchk fPc)) K [(2, 0x5000), (3, 0x40)]
def z35 : State := (chk1 z34 0x4000005000 8).2
def pgz : List (Nat × Bool) := match (chk1 z34 0x4000005000 8).1 with | .absent p => p | _ => []
def spadOf (s : State) (a n : Nat) : Spad := match spadAt (s.env K).rcd (s.env K).bkey a n with | .ok p => p | .error _ => { block := {launch:=9,block:=9}, off := 0, own := false }
def blk (s : State) : Block := match s.blocks.find {launch:=0,block:=0} with | some b => b | none => (match s.blocks with | p :: _ => p.2 | [] => { cluster := 0, place := 0, resident := true, scratch := [], poison := [], arrivals := [], starve := 0 })
def setBlk (s : State) (f : Block → Block) : State := s.onBlock {launch:=0,block:=0} f
def z36 : State := setBlk (sv (.swait fSw)) fun b => {b with arrivals := [32], scratch := b.scratch.setBytes 32 [0x23,0,0,0]}
def fM : FMem := {g:=0,a:=.reg 2,imm:=0}
def fMt : FAcqTry := {w:=false,g:=0,p:={c:=false,n:=2},a:=.reg 2,imm:=0}
def at1 (i : Instr) (s : State) (b : Bool := true) := s.choose.2.syncAt i (s.env K) (thr s) 0x4000 b b
def z38 : State := (sv (.acqX fM)).onCluster 0 fun c => { c with l1 := [l1s] }
def z39 : State := match at1 (.acqX fM) z38 true with | .here _ s => s | _ => z38
def z40 : State := (sv (.acqXTry fMt)).onCluster 0 fun c => { c with l1 := [l1s] }
def z41 : State := match at1 (.acqXTry fMt) z40 false with | .here _ s => s | _ => z40
def z42 : State := mb ((sv (.acqX fM)).onCluster 0 fun c => { c with l1 := [l1s] }) 0x4007 [0x80]
def z43 : State := match at1 (.acqX fM) z42 true with | .here _ s => s | _ => z42
def z44 : State := mb ((sv (.acqXTry fMt)).onCluster 0 fun c => { c with l1 := [l1s] }) 0x4007 [0x80]
def z45 : State := match at1 (.acqXTry fMt) z44 false with | .here _ s => s | _ => z44
def rq (s : State) (ex : Bool) : AcqReq := { obj := 0x4000, va := 0x4000, excl := ex, who := .thread K 5 0x1008 }
def mtt : Thread → Thread := fun t => { t with wait := {kind := .acq 5, counts := true}}
def z54 : State := let s := mod ((sv (.acqX fM)).onCluster 0 fun c => { c with l1 := [l1s] }) mtt; { s with acqs := [rq s true] }
def z55 : State := let s := mb (mod (sv (.acqX fM)) mtt) 0x4007 [0x80]; { s with acqs := [rq s true] }
def z58 : State := mb (sv (.rel fM)) 0x4000 [1,0,0,0]
def z59 : State := match z58.syncAt (.rel fM) (z58.env K) (thr z58) 0x4000 false true with | .here _ s => s | _ => z58
def z60 : State := (z59.relBefore (.rel fM) (z58.env K) (thr z58) (.home 0x4000)).2
def z61 : Nat := (objReleased (z60.obj 0x4000) 0).getD 0
def z62 : State := sv (.rel fM)
def z63 : State := match z62.syncAt (.rel fM) (z62.env K) (thr z62) 0x4000 false true with | .here _ s => s | _ => z62
def z64 : State := (z63.relBefore (.rel fM) (z62.env K) (thr z62) (.home 0x4000)).2
def fBd : FBind := {g:=0,a:=.reg 8,b:=.reg 4,e:=3}
def fBc : FBindClr := {g:=0,e:=3}
def z65 : State := State.put (sv (.bind fBd)) K [(8,0x8000),(10,64)]
def z66 : State := State.put (sv (.bind fBd)) K [(8,0x8001),(10,64)]
def z67 : State := { sv (.bindClr fBc) with ctxs := [((0,0), { Ctx.empty with binds := [(3,{base:=64,size:=64,obj:=0}),(4,{base:=640,size:=64,obj:=0})]})] }
def fDq : FDeq := {w:=false,g:=0,d:=8,b:=.lit32 2,grp:=false}
def fDt : FDeqTry := {w:=false,g:=0,d:=8,b:=.lit32 2,grp:=false,pr:=2}
def fEq : FEnq := {g:=0,a:=.reg 8,b:=.lit32 2}
def fEt : FEnqTry := {g:=0,a:=.reg 8,b:=.lit32 2,pr:=2}
def qs (items : List Word128) (s : State) : State := { s with
  launches := s.launches.map fun p => (p.1, { p.2 with record := p.2.record ||| BitVec.ofNat 2048 ((2^15 + 2*2^12 + 9) * 2^(768+32)) })
  mgmt := { s.mgmt with queues := s.mgmt.queues.set 9 (0x80000000 + 2 * 2^16), owners := s.mgmt.owners.set 0 0x80000000 }
  queues := [(9, { items := items, refused := 3 })] }
def z68 : State := qs [7,8] (sv (.deq fDq))
def z69 : State := qs [] (sv (.deq fDq))
def z70 : State := qs [7,8] (sv (.deqTry fDt))
def z71 : State := qs [] (sv (.deqTry fDt))
def z72 : State := qs [7] (sv (.enq fEq))
def dr : DeqReq := { id := 4, key := K1, grp := false, sel := 2, dst := some 12, next := 0x1008 }
def z73 : State := let s := qs [] (vals (duo (.enq fEq))); { s.onThread K1 fun _ t => { t with wait := {kind := .deq 4, counts := false}} with deqs := [dr] }
def z74 : State := qs (List.replicate 70000 9) (sv (.enq fEq))
def z75 : State := qs [7] (sv (.enqTry fEt))
def z76 : State := qs (List.replicate 70000 9) (sv (.enqTry fEt))

/-- States that meet the hypotheses of `Fences`, clause by clause. -/
theorem witness_Fences :
    (∃ (f : FFence) (s : State) (k : TKey) (t : Thread),
        Alone s k t (Instr.fence f) ∧
        (s.env k).drain = false ∧ (f.scope = FenceScope.crew ∨ f.scope = FenceScope.block))
    ∧ (∃ (f : FFence) (s : State) (k : TKey) (t : Thread) (snap : List ℕ),
        Alone s k t (Instr.fence f) ∧
        (s.env k).drain = false ∧
          let e := s.env k;
          let c := s.cluster e.cl;
          f.scope ≠ FenceScope.crew ∧
            f.scope ≠ FenceScope.block ∧
              (t.wait.kind = WaitKind.fence snap ∨
                  (∀ (l : List ℕ), t.wait.kind ≠ WaitKind.fence l) ∧
                    snap =
                      List.map (fun x => x.id) (List.filter (fun x => f.scope == FenceScope.system || !x.loc.outside) c.sq)) ∧
                ∃ x ∈ c.sq, x.id ∈ snap)
    ∧ (∃ (f : FFence) (s : State) (k : TKey) (t : Thread) (snap : List ℕ),
        Alone s k t (Instr.fence f) ∧
        (s.env k).drain = false ∧
          let e := s.env k;
          let c := s.cluster e.cl;
          f.scope ≠ FenceScope.crew ∧
            f.scope ≠ FenceScope.block ∧
              (t.wait.kind = WaitKind.fence snap ∨
                  (∀ (l : List ℕ), t.wait.kind ≠ WaitKind.fence l) ∧
                    snap =
                      List.map (fun x => x.id) (List.filter (fun x => f.scope == FenceScope.system || !x.loc.outside) c.sq)) ∧
                ∀ x ∈ c.sq, x.id ∉ snap)
    ∧ (∃ (f : FFence) (s : State),
        Issues s (Instr.fence f) ∧
        (f.scope = FenceScope.crew ∨ f.scope = FenceScope.block) ∧ ∀ k ∈ s.run, (s.env k).drain = false)
    ∧ (∃ (f : FFence) (s : State),
        Issues s (Instr.fence f) ∧
        ∀ k ∈ s.run, ∀ (t : Thread), s.threads.find k = some t → t.guard f.g = false) :=
  ⟨⟨fFb, z1, K, (thr z1), alone_and (by decide +kernel)⟩,
    ⟨fFg, z2, K, (thr z2), [4], alone_and (by_dec (letI := @someDec; letI := @fenceDec; inferInstance) (by decide +kernel))⟩,
    ⟨fFg, z3, K, (thr z3), [1,2], alone_and (by_dec (letI := @someDec; letI := @fenceDec; inferInstance) (by decide +kernel))⟩,
    ⟨fFb, z6, issues_and (by decide +kernel)⟩,
    ⟨{g:=2,scope:=.gang}, z7, issues_and (by_dec (letI := @someDec; inferInstance) (by decide +kernel))⟩⟩

/-- States that meet the hypotheses of `Barriers`, clause by clause. -/
theorem witness_Barriers :
    (∃ (f : FBar) (s s1 : State) (k : TKey) (t : Thread),
        Alone s k t (Instr.bar f) ∧
        (∀ p ∈ s.threads, p.1 = k → p.2.wait.kind = WaitKind.none) ∧
          (f.scope = BarScope.launch → (s.env k).rcd.launchBarOk = true) ∧
            (f.pub = false ∧ s1 = s ∨ f.pub = true ∧ s.fence (s.env k) t (barFence f.scope) = (true, s1)) ∧
              let b := barKey (s.env k) f.scope f.id;
              let x := s.barrier b;
              let n := f.count.toNat;
              (x.expected = none ∨ x.expected = some n ∧ (n = 0 → k ∉ x.arrived)) ∧ ¬Completes s b x k n)
    ∧ (∃ (f : FBar) (s s1 : State) (k : TKey) (t : Thread),
        Alone s k t (Instr.bar f) ∧
        (∀ p ∈ s.threads, p.1 = k → p.2.wait.kind = WaitKind.none) ∧
          (f.scope = BarScope.launch → (s.env k).rcd.launchBarOk = true) ∧
            (f.pub = false ∧ s1 = s ∨ f.pub = true ∧ s.fence (s.env k) t (barFence f.scope) = (true, s1)) ∧
              let b := barKey (s.env k) f.scope f.id;
              let x := s.barrier b;
              let n := f.count.toNat;
              (x.expected = none ∨ x.expected = some n ∧ (n = 0 → k ∉ x.arrived)) ∧ Completes s b x k n)
    ∧ (∃ (f : FArrive) (s s1 : State) (k : TKey) (t : Thread),
        Alone s k t (Instr.arrive f) ∧
        (∀ p ∈ s.threads, p.1 = k → p.2.wait.kind = WaitKind.none) ∧
          (f.pub = false ∧ s1 = s ∨ f.pub = true ∧ s.fence (s.env k) t (barFence f.scope) = (true, s1)) ∧
            let e := s.env k;
            let b := barKey e f.scope f.id;
            let x := s.barrier b;
            let n := f.count.toNat;
            (x.expected = none ∨ x.expected = some n ∧ (n = 0 → k ∉ x.arrived)) ∧ ¬Completes s b x k n)
    ∧ (∃ (f : FArrive) (s s1 : State) (k : TKey) (t : Thread),
        Alone s k t (Instr.arrive f) ∧
        (∀ p ∈ s.threads, p.1 = k → p.2.wait.kind = WaitKind.none) ∧
          (f.pub = false ∧ s1 = s ∨ f.pub = true ∧ s.fence (s.env k) t (barFence f.scope) = (true, s1)) ∧
            let e := s.env k;
            let b := barKey e f.scope f.id;
            let x := s.barrier b;
            let n := f.count.toNat;
            (x.expected = none ∨ x.expected = some n ∧ (n = 0 → k ∉ x.arrived)) ∧ Completes s b x k n)
    ∧ (∃ (f : FBar) (s : State) (k : TKey) (t : Thread) (m : ℕ),
        Alone s k t (Instr.bar f) ∧
        Traps (s.env k) t ∧
          t.wait.kind = WaitKind.none ∧
            let x := s.barrier (barKey (s.env k) f.scope f.id);
            let n := f.count.toNat;
            (f.scope = BarScope.launch → (s.env k).rcd.launchBarOk = true) ∧ x.expected = some m ∧ m ≠ n)
    ∧ (∃ (f : FBar) (s : State) (k : TKey) (t : Thread),
        Alone s k t (Instr.bar f) ∧
        Traps (s.env k) t ∧
          t.wait.kind = WaitKind.none ∧
            let x := s.barrier (barKey (s.env k) f.scope f.id);
            let n := f.count.toNat;
            (f.scope = BarScope.launch → (s.env k).rcd.launchBarOk = true) ∧ x.expected = some 0 ∧ n = 0 ∧ k ∈ x.arrived)
    ∧ (∃ (f : FBar) (s : State) (k : TKey) (t : Thread),
        Alone s k t (Instr.bar f) ∧
        Traps (s.env k) t ∧ t.wait.kind = WaitKind.none ∧ f.scope = BarScope.launch ∧ (s.env k).rcd.launchBarOk = false)
    ∧ (∃ (f : FArrive) (s : State) (k : TKey) (t : Thread) (m : ℕ),
        Alone s k t (Instr.arrive f) ∧
        Traps (s.env k) t ∧
          let x := s.barrier (barKey (s.env k) f.scope f.id);
          let n := f.count.toNat;
          x.expected = some m ∧ m ≠ n)
    ∧ (∃ (f : FArrive) (s : State) (k : TKey) (t : Thread),
        Alone s k t (Instr.arrive f) ∧
        Traps (s.env k) t ∧
          let x := s.barrier (barKey (s.env k) f.scope f.id);
          let n := f.count.toNat;
          x.expected = some 0 ∧ n = 0 ∧ k ∈ x.arrived) :=
  ⟨⟨(fBar 0), z8, z8, K, (thr z8), alone_and (by decide +kernel)⟩,
    ⟨(fBar 0), z9, z9, K, (thr z9), alone_and (by decide +kernel)⟩,
    ⟨(fArr 2), z14, z14, K, (thr z14), alone_and (by decide +kernel)⟩,
    ⟨(fArr 2), z15, z15, K, (thr z15), alone_and (by decide +kernel)⟩,
    ⟨(fBar 2), z17, K, (thr z17), 3, alone_and (by decide +kernel)⟩,
    ⟨(fBar 0), z18, K, (thr z18), alone_and (by decide +kernel)⟩,
    ⟨fBarL, z19, K, (thr z19), alone_and (by decide +kernel)⟩,
    ⟨(fArr 2), z17a, K, (thr z17a), 3, alone_and (by decide +kernel)⟩,
    ⟨(fArr 0), z18a, K, (thr z18a), alone_and (by decide +kernel)⟩⟩

def waveAt (n : Nat) : State := mod (one (.bar (fBar 0))) fun t => { t with wait := { kind := .wave n true, counts := true } }

/-- States that meet the hypotheses of `Barriers`'s clauses about a release in waves: one due, one not due. -/
theorem witness_Barriers_wave :
    (∃ (s : State) (cl due : Nat) (wide : Bool) (k : TKey) (t : Thread) (g : Gang) (b : Block), s.threads.find k = some t
      ∧ (s.env k).cl = cl ∧ t.wait.kind = .wave due wide ∧ due ≤ (s.cluster cl).cyc ∧ s.gangs.find (s.env k).gkey = some g
      ∧ g.frozen = false ∧ g.status = .running ∧ s.blocks.find (s.env k).bkey = some b ∧ b.resident = true
      ∧ s.crewParked (s.env k).ckey = false)
    ∧ (∃ (s : State) (cl due : Nat) (wide : Bool) (k : TKey) (t : Thread), s.threads.find k = some t ∧ (s.env k).cl = cl
      ∧ t.wait.kind = .wave due wide ∧ (s.cluster cl).cyc < due) :=
  ⟨⟨waveAt 0, 0, 0, true, K, thr (waveAt 0), { status := .running, kills := 0, frozen := false, shedAt := none, quantumAt := 0, die := 0 },
      blk (waveAt 0), by decide +kernel⟩,
    ⟨waveAt 1, 0, 1, true, K, thr (waveAt 1), by decide +kernel⟩⟩

/-- States that meet the hypotheses of `MemoryWaits`, clause by clause. -/
theorem witness_MemoryWaits :
    (∃ (f : FWait) (s s1 s2 : State) (k : TKey) (t : Thread) (ps : List Piece0) (bs : List Byte),
        Alone s k t (Instr.wait f) ∧
        let e := s.env k;
        let n := if f.wide = true then 8 else 4;
        let addr := memAddr e t f.a f.imm;
        e.rcd.blockClass ≠ 0 ∧
          s.logMeets k addr.toNat n = false ∧
            s.checkRead (Client.thread k) e.who addr n false = (Acc.ok ps, s1) ∧
              watchRefused addr.toNat n ps = false ∧ s1.readFresh e ps = (Gather.ready bs none, s2))
    ∧ (∃ (f : FPchk) (s s1 : State) (k : TKey) (t : Thread) (ps : List Piece0),
        Alone s k t (Instr.pchk f) ∧
        let e := s.env k;
        let n := if f.wide = true then 8 else 4;
        let addr := memAddr e t f.a f.imm;
        s.logMeets k addr.toNat n = false ∧
          s.check e.who addr n false false = (Acc.ok ps, s1) ∧
            watchRefused addr.toNat n ps = false ∧ (s1.cluster e.cl).unread ps = false)
    ∧ (∃ (f : FPchk) (s s1 : State) (k : TKey) (t : Thread) (pages : List (ℕ × Bool)),
        Alone s k t (Instr.pchk f) ∧
        let e := s.env k;
        let n := if f.wide = true then 8 else 4;
        let addr := memAddr e t f.a f.imm;
        s.logMeets k addr.toNat n = false ∧ s.check e.who addr n false false = (Acc.absent pages, s1))
    ∧ (∃ (f : FSwait) (s : State) (k : TKey) (t : Thread) (b : Block) (p : Spad),
        Alone s k t (Instr.swait f) ∧
        let e := s.env k;
        let addr := BitVec.toNat (spadAddr e t f.a f.imm);
        e.rcd.blockClass ≠ 0 ∧
          spadAt e.rcd e.bkey addr 16 = Except.ok p ∧
            p.own = true ∧ addr % 16 = 0 ∧ s.blocks.find e.bkey = some b ∧ p.off ∈ b.arrivals) :=
  ⟨⟨fWt, z23, z25, (z25.readFresh (z23.env K) z24).2, K, (thr z23), z24, (gotB z26), alone_and (by and_intros <;> first | decide +kernel | exact pair_of (by decide +kernel))⟩,
    ⟨fPc, z31, z33, K, (thr z31), z32, alone_and (by decide +kernel)⟩,
    ⟨fPc, z34, z35, K, (thr z34), pgz, alone_and (by decide +kernel)⟩,
    ⟨fSw, z36, K, (thr z36), (blk z36), (spadOf z36 32 16), alone_and (by decide +kernel)⟩⟩

/-- States that meet the hypotheses of `Acquires`, clause by clause. -/
theorem witness_Acquires :
    (∃ (f : FMem) (excl : Bool) (s s1 : State) (k : TKey) (t : Thread) (a : ℕ),
        let i := if excl = true then Instr.acqX f else Instr.acqS f;
      let e := s.env k;
      s1.homeFailed a = false ∧
        s1.homeFailed (a + 32) = false ∧
          Alone s k t i ∧
            e.rcd.blockClass ≠ 0 ∧
              s.choose.2.syncAt i e t (memAddr e t f.a f.imm) true true = SyncAt.here a s1 ∧
                objGrants (s1.obj a) excl = true ∧ ∀ r ∈ s1.acqs, r.obj ≠ a)
    ∧ (∃ (g : FAcqTry) (excl : Bool) (s s1 : State) (k : TKey) (t : Thread) (a : ℕ),
        let j := if excl = true then Instr.acqXTry g else Instr.acqSTry g;
      let e := s.env k;
      s1.homeFailed a = false ∧
        s1.homeFailed (a + 32) = false ∧
          Alone s k t j ∧
            s.choose.2.syncAt j e t (memAddr e t g.a g.imm) false false = SyncAt.here a s1 ∧
              objGrants (s1.obj a) excl = true ∧ ∀ r ∈ s1.acqs, r.obj ≠ a)
    ∧ (∃ (f : FMem) (excl : Bool) (s s1 : State) (k : TKey) (t : Thread) (a : ℕ),
        let i := if excl = true then Instr.acqX f else Instr.acqS f;
      let e := s.env k;
      s1.homeFailed a = false ∧
        s1.homeFailed (a + 32) = false ∧
          Alone s k t i ∧
            e.rcd.blockClass ≠ 0 ∧
              s.choose.2.syncAt i e t (memAddr e t f.a f.imm) true true = SyncAt.here a s1 ∧
                (objGrants (s1.obj a) excl = false ∨ ∃ r ∈ s1.acqs, r.obj = a))
    ∧ (∃ (g : FAcqTry) (excl : Bool) (s s1 : State) (k : TKey) (t : Thread) (a : ℕ),
        let j := if excl = true then Instr.acqXTry g else Instr.acqSTry g;
      let e := s.env k;
      s1.homeFailed a = false ∧
        s1.homeFailed (a + 32) = false ∧
          Alone s k t j ∧
            s.choose.2.syncAt j e t (memAddr e t g.a g.imm) false false = SyncAt.here a s1 ∧
              (objGrants (s1.obj a) excl = false ∨ ∃ r ∈ s1.acqs, r.obj = a))
    ∧ (∃ (s : State) (r : AcqReq) (rest : List AcqReq) (k : TKey) (n : ℕ) (next : Word64) (t : Thread),
        s.acqs = r :: rest ∧
        r.who = AcqFrom.thread k n next ∧
          s.homeWaits r.obj = false ∧
            objGrants (s.obj r.obj) r.excl = true ∧
              objClean (s.obj r.obj) = true ∧
                s.objMark r.obj = 0 ∧
                  s.homeFailed r.obj = false ∧
                    s.homeFailed (r.obj + 32) = false ∧ (∀ x ∈ rest, x.obj ≠ r.obj) ∧ s.threads.find k = some t)
    ∧ (∃ (s : State) (r : AcqReq) (rest : List AcqReq) (k : TKey) (n : ℕ) (next : Word64),
        s.acqs = r :: rest ∧
        r.who = AcqFrom.thread k n next ∧ s.homeWaits r.obj = false ∧ objGrants (s.obj r.obj) r.excl = false) :=
  ⟨⟨fM, true, z38, z39, K, (thr z38), 0x4000, by_dec (letI := @aloneDec; inferInstance) (by decide +kernel)⟩,
    ⟨fMt, true, z40, z41, K, (thr z40), 0x4000, by_dec (letI := @aloneDec; inferInstance) (by decide +kernel)⟩,
    ⟨fM, true, z42, z43, K, (thr z42), 0x4000, by_dec (letI := @aloneDec; inferInstance) (by decide +kernel)⟩,
    ⟨fMt, true, z44, z45, K, (thr z44), 0x4000, by_dec (letI := @aloneDec; inferInstance) (by decide +kernel)⟩,
    ⟨z54, (rq z54 true), [], K, 5, 0x1008, (thr z54), by decide +kernel⟩,
    ⟨z55, (rq z55 true), [], K, 5, 0x1008, by decide +kernel⟩⟩

/-- States that meet the hypotheses of `Releases`, clause by clause. -/
theorem witness_Releases :
    (∃ (o : ℕ),
        o < 2 ^ 512)
    ∧ (∃ (o : ℕ) (w : Word64),
        o < 2 ^ 512 ∧ objX o = true ∧ objHolder o = BitVec.toNat w)
    ∧ (∃ (o : ℕ),
        o < 2 ^ 512 ∧ objGrants o false = true)
    ∧ (∃ (f : FMem) (s s1 s2 : State) (k : TKey) (t : Thread) (a o : ℕ),
        Alone s k t (Instr.rel f) ∧
        let e := s.env k;
        let addr := memAddr e t f.a f.imm;
        s.syncAt (Instr.rel f) e t addr false true = SyncAt.here a s1 ∧
          s1.relBefore (Instr.rel f) e t (Loc.home a) = (none, s2) ∧
            s2.Calm ∧ s2.homeFailed a = false ∧ s2.homeFailed (a + 32) = false ∧ objReleased (s2.obj a) k.wid = some o)
    ∧ (∃ (f : FMem) (s s1 s2 : State) (k : TKey) (t : Thread) (a : ℕ),
        Alone s k t (Instr.rel f) ∧
        let e := s.env k;
        let addr := memAddr e t f.a f.imm;
        s.syncAt (Instr.rel f) e t addr false true = SyncAt.here a s1 ∧
          s1.relBefore (Instr.rel f) e t (Loc.home a) = (none, s2) ∧
            s2.Calm ∧
              s2.homeFailed a = false ∧ s2.homeFailed (a + 32) = false ∧ objReleased (s2.obj a) k.wid = none ∧ Traps e t) :=
  ⟨⟨(2^63), by decide +kernel⟩,
    ⟨(2^63), 0, by decide +kernel⟩,
    ⟨7, by decide +kernel⟩,
    ⟨fM, z58, z59, z60, K, (thr z58), 0x4000, z61, alone_and (by decide +kernel)⟩,
    ⟨fM, z62, z63, z64, K, (thr z62), 0x4000, alone_and (by decide +kernel)⟩⟩

/-- States that meet the hypotheses of `Bindings`, clause by clause. -/
theorem witness_Bindings :
    (∃ (f : FBind) (s : State) (k : TKey) (t : Thread),
        Alone s k t (Instr.bind f) ∧
        let e := s.env k;
        let base := BitVec.toNat (src128 e t f.a) % 2 ^ 64;
        let size := BitVec.toNat (src128 e t f.a) / 2 ^ 64;
        let obj := src64 e t f.b;
        s.bindFault e f.e.toNat base size (BitVec.toNat obj) = none)
    ∧ (∃ (f : FBind) (s : State) (k : TKey) (t : Thread) (sub : ℕ),
        Alone s k t (Instr.bind f) ∧
        let e := s.env k;
        let base := BitVec.toNat (src128 e t f.a) % 2 ^ 64;
        let size := BitVec.toNat (src128 e t f.a) / 2 ^ 64;
        let obj := src64 e t f.b;
        s.bindFault e f.e.toNat base size (BitVec.toNat obj) = some sub ∧ Traps e t)
    ∧ (∃ (f : FBind) (s : State) (k : TKey) (t : Thread),
        Alone s k t (Instr.bind f) ∧
        let e := s.env k;
        let base := BitVec.toNat (src128 e t f.a) % 2 ^ 64;
        let size := BitVec.toNat (src128 e t f.a) / 2 ^ 64;
        base % 64 ≠ 0 ∨ size % 64 ≠ 0 ∨ size = 0)
    ∧ (∃ (f : FBindClr) (s : State) (k : TKey) (t : Thread),
        Alone s k t (Instr.bindClr f)) :=
  ⟨⟨fBd, z65, K, (thr z65), alone_and (by decide +kernel)⟩,
    ⟨fBd, z66, K, (thr z66), 1, alone_and (by decide +kernel)⟩,
    ⟨fBd, z66, K, (thr z66), alone_and (by decide +kernel)⟩,
    ⟨fBc, z67, K, (thr z67), alone_ok (by decide +kernel)⟩⟩

/-- States that meet the hypotheses of `QueueInstructions`, clause by clause. -/
theorem witness_QueueInstructions :
    (∃ (f : FDeq) (s : State) (k : TKey) (t : Thread) (q : ℕ) (item : Word128) (rest : List Word128),
        Alone s k t (Instr.deq f) ∧
        let e := s.env k;
        let sel := BitVec.toNat (src32 e t f.b) % 16;
        s.qsel k.launch f.grp sel = QSel.one q ∧ (s.queue q).items = item :: rest)
    ∧ (∃ (f : FDeq) (s : State) (k : TKey) (t : Thread) (q : ℕ),
        Alone s k t (Instr.deq f) ∧
        let e := s.env k;
        let sel := BitVec.toNat (src32 e t f.b) % 16;
        s.qsel k.launch f.grp sel = QSel.one q ∧ (s.queue q).items = [])
    ∧ (∃ (f : FDeqTry) (s : State) (k : TKey) (t : Thread) (q : ℕ) (item : Word128) (rest : List Word128),
        Alone s k t (Instr.deqTry f) ∧
        let e := s.env k;
        s.qsel k.launch f.grp (BitVec.toNat (src32 e t f.b) % 16) = QSel.one q ∧ (s.queue q).items = item :: rest)
    ∧ (∃ (f : FDeqTry) (s : State) (k : TKey) (t : Thread) (q : ℕ),
        Alone s k t (Instr.deqTry f) ∧
        let e := s.env k;
        s.qsel k.launch f.grp (BitVec.toNat (src32 e t f.b) % 16) = QSel.one q ∧ (s.queue q).items = [])
    ∧ (∃ (f : FEnq) (s : State) (k : TKey) (t : Thread) (q : ℕ),
        Alone s k t (Instr.enq f) ∧
        let e := s.env k;
        s.qsel k.launch false (BitVec.toNat (src32 e t f.b) % 16) = QSel.one q ∧ s.queueRoom q = true ∧ s.deqs = [])
    ∧ (∃ (f : FEnq) (s : State) (k : TKey) (t : Thread) (q : ℕ) (r : DeqReq) (t2 : Thread),
        Alone s k t (Instr.enq f) ∧
        let e := s.env k;
        s.qsel k.launch false (BitVec.toNat (src32 e t f.b) % 16) = QSel.one q ∧
          s.queueRoom q = true ∧
            s.deqs = [r] ∧
              r.key ≠ k ∧
                r.grp = false ∧
                  (s.queue q).items = [] ∧ s.qsel r.key.launch false r.sel = QSel.one q ∧ s.threads.find r.key = some t2)
    ∧ (∃ (f : FEnq) (s : State) (k : TKey) (t : Thread) (q : ℕ),
        Alone s k t (Instr.enq f) ∧
        let e := s.env k;
        s.qsel k.launch false (BitVec.toNat (src32 e t f.b) % 16) = QSel.one q ∧ s.queueRoom q = false)
    ∧ (∃ (f : FEnqTry) (s : State) (k : TKey) (t : Thread) (q : ℕ),
        Alone s k t (Instr.enqTry f) ∧
        let e := s.env k;
        s.qsel k.launch false (BitVec.toNat (src32 e t f.b) % 16) = QSel.one q ∧ s.queueRoom q = true ∧ s.deqs = [])
    ∧ (∃ (f : FEnqTry) (s : State) (k : TKey) (t : Thread) (q : ℕ),
        Alone s k t (Instr.enqTry f) ∧
        let e := s.env k;
        s.qsel k.launch false (BitVec.toNat (src32 e t f.b) % 16) = QSel.one q ∧ s.queueRoom q = false) :=
  ⟨⟨fDq, z68, K, (thr z68), 9, 7, [8], alone_and (by decide +kernel)⟩,
    ⟨fDq, z69, K, (thr z69), 9, alone_and (by decide +kernel)⟩,
    ⟨fDt, z70, K, (thr z70), 9, 7, [8], alone_and (by decide +kernel)⟩,
    ⟨fDt, z71, K, (thr z71), 9, alone_and (by decide +kernel)⟩,
    ⟨fEq, z72, K, (thr z72), 9, alone_and (by decide +kernel)⟩,
    ⟨fEq, z73, K, (thr z73), 9, dr, (z73.threads.get K1 (Thread.start 0)), alone_and (by decide +kernel)⟩,
    ⟨fEq, z74, K, (thr z74), 9, alone_and (by decide +kernel)⟩,
    ⟨fEt, z75, K, (thr z75), 9, alone_and (by decide +kernel)⟩,
    ⟨fEt, z76, K, (thr z76), 9, alone_and (by decide +kernel)⟩⟩

/-- Objects that meet the hypotheses of `Releases`' first clauses. -/
theorem witness_Releases_objects :
    (∃ o, o < 2 ^ 512 ∧ objGrants o false = true) ∧ (∃ o w, o < 2 ^ 512 ∧ objX o = true ∧ objHolder o = BitVec.toNat (w : Word64))
    ∧ (∃ o w, o < 2 ^ 512 ∧ objX o = true ∧ objHolder o ≠ BitVec.toNat (w : Word64))
    ∧ (∃ o, o < 2 ^ 512 ∧ objX o = false ∧ 0 < objCount o) ∧ ∃ o, o < 2 ^ 512 ∧ objX o = false ∧ objCount o = 0 :=
  ⟨⟨0xFFFFFFFE, by decide +kernel⟩, ⟨2 ^ 63 + 7 * 2 ^ 64, 7, by decide +kernel⟩, ⟨2 ^ 63 + 7 * 2 ^ 64, 8, by decide +kernel⟩,
    ⟨1, by decide +kernel⟩, ⟨0, by decide +kernel⟩⟩

end Ordering

/-! ### States for the witnesses: loads, stores and atomics -/

namespace Memory

def okPs {β} (x : Acc × β) : List Piece0 := match x.1 with | .ok p => p | _ => []
def sq1 (id : Nat) (a : Loc) : SqEntry := { id := id, key := K, who := some (1, 0), counted := true, bill := { part := 0, sub := 0, owner := 0, ctx := 0 }, port := none, copy := none, strm := some 0, prio := 3, loc := a, va := 0x5000, n := 4, op := .write [1,2,3,4] 0, tag := none }
def withSq (s : State) (l : List SqEntry) : State := s.onCluster 0 fun c => { c with sq := l }
def onBlk (s : State) (f : Block → Block) : State := s.onBlock {launch:=0,block:=0} f
def blk (s : State) : Block := match s.blocks.find {launch:=0,block:=0} with | some b => b | none => { cluster := 0, place := 0, resident := true, scratch := [], poison := [], arrivals := [], starve := 0 }
def spadOf (s : State) (a n : Nat) : Spad := match spadAt (s.env K).rcd (s.env K).bkey a n with | .ok p => p | .error _ => { block := {launch:=9,block:=9}, off := 0, own := false }
def regs (vs : List (Nat × Word32)) (s : State) : State := State.put s K vs
def rec0 (b : Nat) (s : State) : State := { s with launches := s.launches.map fun p => (p.1, { p.2 with record := p.2.record ||| BitVec.ofNat 2048 b }) }
def sv (i : Instr) : State := regs [(2, 0x4000), (3,0), (6, 0x23), (7,0x9),(4, 0x12345678),(5,0)] (one i)
def fLd (ty : MemTy) : FLd := {w:=false,g:=0,d:=8,a:=.reg 2,ty:=ty,hint:=.none,imm:=0x1C}
def fSt : FSt := {g:=0,a:=.reg 2,b:=.reg 6,ty:=.b64,hint:=.none,strm:=2,imm:=0x18}
def fSy : FStTry := {w:=false,g:=0,p:={c:=true,n:=2},a:=.reg 2,b:=.reg 6,ty:=.b32,hint:=.none,strm:=1,imm:=0}
def fAt : FAtom := {w:=false,g:=0,d:=8,a:=.reg 2,b:=.reg 6,wide:=true,op:=.maxs,strm:=1,imm:=8}
def fCa : FCas := {w:=false,g:=0,d:=8,a:=.reg 2,b:=.reg 6,wide:=true,strm:=1,imm:=8}
def ck (s : State) (r : MemReq) := s.checkReq (s.env K) r
def budget (b : Nat) (s : State) : State := { s with wctr := [((0,0,0), 10^9)] }
def z1 : State := sv (.ld (fLd .s8))
def z2 : MemReq := planLd (fLd .s8) (z1.env K) (thr z1)
def z3 : Acc × State := ck z1.bump z2
def z1q : State := withSq (sv (.ld (fLd .s8))) [{ sq1 10 (.home 0x4020) with op := .atomic .add false 5 0 99 }]
def z3q : Acc × State := ck z1q.bump (planLd (fLd .s8) (z1q.env K) (thr z1q))
def z10 : State := sv (.st fSt)
def z11 : MemReq := planSt fSt (z10.env K) (thr z10)
def z12 : Acc × State := ck z10.bump z11
def z13 : State := withSq (sv (.st fSt)) ((List.range 64).map fun k => sq1 (k+10) (.home (0x8000+64*k)))
def z14 : MemReq := planSt fSt (z13.env K) (thr z13)
def z15 : Acc × State := ck z13.bump z14
def z16 : State := budget 0 (sv (.st fSt))
def z17 : MemReq := planSt fSt (z16.env K) (thr z16)
def z18 : Acc × State := ck z16.bump z17
def z19 : State := rec0 (2^324) (budget 0 (sv (.st fSt)))
def z20 : MemReq := planSt fSt (z19.env K) (thr z19)
def z21 : Acc × State := ck z19.bump z20
def z22 : State := sv (.stTry fSy)
def z23 : MemReq := planStTry fSy (z22.env K) (thr z22)
def z24 : Acc × State := ck z22 z23
def z25 : State := budget 0 (sv (.stTry fSy))
def z26 : MemReq := planStTry fSy (z25.env K) (thr z25)
def z27 : Acc × State := ck z25 z26
def z32 : State := sv (.atom fAt)
def z33 : MemReq := planAtom fAt (z32.env K) (thr z32)
def z34 : Acc × State := ck z32.bump z33
def z35 : State := sv (.cas fCa)
def z36 : MemReq := planCas fCa (z35.env K) (thr z35)
def z37 : Acc × State := ck z35.bump z36
def z38 : State := withSq (sv (.atom fAt)) ((List.range 64).map fun k => sq1 (k+10) (.home (0x8000+64*k)))
def z39 : MemReq := planAtom fAt (z38.env K) (thr z38)
def z40 : Acc × State := ck z38.bump z39
def z41 : State := budget 0 (sv (.atom fAt))
def z42 : MemReq := planAtom fAt (z41.env K) (thr z41)
def z43 : Acc × State := ck z41.bump z42
def z44 : State := withSq (sv (.cas fCa)) ((List.range 64).map fun k => sq1 (k+10) (.home (0x8000+64*k)))
def z45 : MemReq := planCas fCa (z44.env K) (thr z44)
def z46 : Acc × State := ck z44.bump z45
def z47 : State := budget 0 (sv (.cas fCa))
def z48 : MemReq := planCas fCa (z47.env K) (thr z47)
def z49 : Acc × State := ck z47.bump z48
def z41b : State := rec0 (2^324) z41
def z43b : Acc × State := ck z41b.bump (planAtom fAt (z41b.env K) (thr z41b))
def z47b : State := rec0 (2^324) z47
def z49b : Acc × State := ck z47b.bump (planCas fCa (z47b.env K) (thr z47b))
def fLs (ty : MemTy) : FLds := {w:=false,g:=0,d:=8,a:=.lit32 0x40,ty:=ty,imm:=2}
def fSs : FSts := {g:=0,a:=.lit32 0x40,b:=.reg 6,ty:=.b64,strm:=0,imm:=8}
def fAs : FAtom := {w:=false,g:=0,d:=8,a:=.lit32 0x40,b:=.reg 6,wide:=false,op:=.cas,strm:=0,imm:=8}
def scr (s : State) : State := onBlk s fun b => { b with scratch := b.scratch.setBytes 0x40 [1,2,0xFF,0x80,5,6,7,8,9,10,11,12,13,14,15,16] }
def z50 : State := scr (sv (.lds (fLs .s16)))
def z52 : State := scr (sv (.sts fSs))
def z53 : State := scr (sv (.atoms fAs))

/-- States that meet the hypotheses of `LoadsAndStores`, clause by clause. -/
theorem witness_LoadsAndStores :
    (∃ (f : FLd) (s s1 : State) (k : TKey) (t : Thread) (ps : List Piece0),
        Alone s k t (Instr.ld f) ∧
        let e := s.env k;
        let r := planLd f e t;
        s.logBlocks k r = false ∧ s.bump.checkReq e r = (Acc.ok ps, s1) ∧ (s1.cluster e.cl).unreadFor f.hint ps = false)
    ∧ (∃ (f : FLd) (s s1 : State) (k : TKey) (t : Thread) (ps : List Piece0),
        Alone s k t (Instr.ld f) ∧
        let e := s.env k;
        let r := planLd f e t;
        s.logBlocks k r = false ∧ s.bump.checkReq e r = (Acc.ok ps, s1) ∧ (s1.cluster e.cl).unreadFor f.hint ps = true)
    ∧ (∃ (f : FSt) (s s1 : State) (k : TKey) (t : Thread) (ps : List Piece0),
        Alone s k t (Instr.st f) ∧
        let e := s.env k;
        let r := planSt f e t;
        s.logBlocks k r = false ∧ s.bump.checkReq e r = (Acc.ok ps, s1) ∧ s1.admission e ps = Admit.yes)
    ∧ (∃ (f : FSt) (s s1 : State) (k : TKey) (t : Thread) (ps : List Piece0),
        Alone s k t (Instr.st f) ∧
        let e := s.env k;
        let r := planSt f e t;
        s.logBlocks k r = false ∧ s.bump.checkReq e r = (Acc.ok ps, s1) ∧ s1.admission e ps = Admit.full)
    ∧ (∃ (f : FSt) (s s1 : State) (k : TKey) (t : Thread) (ps : List Piece0) (st : ℕ),
        Alone s k t (Instr.st f) ∧
        let e := s.env k;
        let r := planSt f e t;
        s.logBlocks k r = false ∧
          s.bump.checkReq e r = (Acc.ok ps, s1) ∧ s1.admission e ps = Admit.budget st ∧ e.rcd.bmode = false)
    ∧ (∃ (f : FSt) (s s1 : State) (k : TKey) (t : Thread) (ps : List Piece0) (st : ℕ),
        Alone s k t (Instr.st f) ∧
        let e := s.env k;
        let r := planSt f e t;
        s.logBlocks k r = false ∧
          s.bump.checkReq e r = (Acc.ok ps, s1) ∧ s1.admission e ps = Admit.budget st ∧ e.rcd.bmode = true ∧ Traps e t)
    ∧ (∃ (f : FStTry) (s s1 : State) (k : TKey) (t : Thread) (ps : List Piece0),
        Alone s k t (Instr.stTry f) ∧
        let e := s.env k;
        let r := planStTry f e t;
        s.logBlocks k r = false ∧ s.checkReq e r = (Acc.ok ps, s1) ∧ s1.admission e ps = Admit.yes)
    ∧ (∃ (f : FStTry) (s s1 : State) (k : TKey) (t : Thread) (ps : List Piece0),
        Alone s k t (Instr.stTry f) ∧
        let e := s.env k;
        let r := planStTry f e t;
        s.logBlocks k r = false ∧ s.checkReq e r = (Acc.ok ps, s1) ∧ s1.admission e ps ≠ Admit.yes) :=
  ⟨⟨(fLd .s8), z1, z3.2, K, (thr z1), (okPs z3), alone_and (by decide +kernel)⟩,
    ⟨(fLd .s8), z1q, z3q.2, K, (thr z1q), (okPs z3q), alone_and (by decide +kernel)⟩,
    ⟨fSt, z10, z12.2, K, (thr z10), (okPs z12), alone_and (by decide +kernel)⟩,
    ⟨fSt, z13, z15.2, K, (thr z13), (okPs z15), alone_and (by decide +kernel)⟩,
    ⟨fSt, z16, z18.2, K, (thr z16), (okPs z18), 0, alone_and (by decide +kernel)⟩,
    ⟨fSt, z19, z21.2, K, (thr z19), (okPs z21), 0, alone_and (by decide +kernel)⟩,
    ⟨fSy, z22, z24.2, K, (thr z22), (okPs z24), alone_and (by decide +kernel)⟩,
    ⟨fSy, z25, z27.2, K, (thr z25), (okPs z27), alone_and (by decide +kernel)⟩⟩

/-- States that meet the hypotheses of `Atomics`, clause by clause. -/
theorem witness_Atomics :
    (∃ (f : FAtom) (s s1 : State) (k : TKey) (t : Thread) (p : Piece0) (ps : List Piece0),
        Alone s k t (Instr.atom f) ∧
        let e := s.env k;
        let r := planAtom f e t;
        s.logBlocks k r = false ∧ s.bump.checkReq e r = (Acc.ok (p :: ps), s1) ∧ s1.admission e (p :: ps) = Admit.yes)
    ∧ (∃ (f : FCas) (s s1 : State) (k : TKey) (t : Thread) (p : Piece0) (ps : List Piece0),
        Alone s k t (Instr.cas f) ∧
        let e := s.env k;
        let r := planCas f e t;
        s.logBlocks k r = false ∧ s.bump.checkReq e r = (Acc.ok (p :: ps), s1) ∧ s1.admission e (p :: ps) = Admit.yes)
    ∧ (∃ (f : FAtom) (s s1 : State) (k : TKey) (t : Thread) (p : Piece0) (ps : List Piece0),
        Alone s k t (Instr.atom f) ∧
        let e := s.env k;
        let r := planAtom f e t;
        s.logBlocks k r = false ∧ s.bump.checkReq e r = (Acc.ok (p :: ps), s1) ∧ s1.admission e (p :: ps) = Admit.full)
    ∧ (∃ (f : FAtom) (s s1 : State) (k : TKey) (t : Thread) (p : Piece0) (ps : List Piece0) (st : ℕ),
        Alone s k t (Instr.atom f) ∧
        let e := s.env k;
        let r := planAtom f e t;
        s.logBlocks k r = false ∧
          s.bump.checkReq e r = (Acc.ok (p :: ps), s1) ∧ s1.admission e (p :: ps) = Admit.budget st ∧ e.rcd.bmode = false)
    ∧ (∃ (f : FCas) (s s1 : State) (k : TKey) (t : Thread) (p : Piece0) (ps : List Piece0),
        Alone s k t (Instr.cas f) ∧
        let e := s.env k;
        let r := planCas f e t;
        s.logBlocks k r = false ∧ s.bump.checkReq e r = (Acc.ok (p :: ps), s1) ∧ s1.admission e (p :: ps) = Admit.full)
    ∧ (∃ (f : FCas) (s s1 : State) (k : TKey) (t : Thread) (p : Piece0) (ps : List Piece0) (st : ℕ),
        Alone s k t (Instr.cas f) ∧
        let e := s.env k;
        let r := planCas f e t;
        s.logBlocks k r = false ∧
          s.bump.checkReq e r = (Acc.ok (p :: ps), s1) ∧ s1.admission e (p :: ps) = Admit.budget st ∧ e.rcd.bmode = false)
    ∧ (∃ (f : FAtom) (s s1 : State) (k : TKey) (t : Thread) (p : Piece0) (ps : List Piece0) (st : ℕ),
        Alone s k t (Instr.atom f) ∧
        let e := s.env k;
        let r := planAtom f e t;
        s.logBlocks k r = false ∧ s.bump.checkReq e r = (Acc.ok (p :: ps), s1) ∧ s1.admission e (p :: ps) = Admit.budget st
          ∧ e.rcd.bmode = true ∧ Traps e t)
    ∧ (∃ (f : FCas) (s s1 : State) (k : TKey) (t : Thread) (p : Piece0) (ps : List Piece0) (st : ℕ),
        Alone s k t (Instr.cas f) ∧
        let e := s.env k;
        let r := planCas f e t;
        s.logBlocks k r = false ∧ s.bump.checkReq e r = (Acc.ok (p :: ps), s1) ∧ s1.admission e (p :: ps) = Admit.budget st
          ∧ e.rcd.bmode = true ∧ Traps e t) :=
  ⟨⟨fAt, z32, z34.2, K, (thr z32), (.home 0x4008, 0x4008, 8), [], alone_and (by decide +kernel)⟩,
    ⟨fCa, z35, z37.2, K, (thr z35), (.home 0x4008, 0x4008, 8), [], alone_and (by decide +kernel)⟩,
    ⟨fAt, z38, z40.2, K, (thr z38), (.home 0x4008, 0x4008, 8), [], alone_and (by decide +kernel)⟩,
    ⟨fAt, z41, z43.2, K, (thr z41), (.home 0x4008, 0x4008, 8), [], 0, alone_and (by decide +kernel)⟩,
    ⟨fCa, z44, z46.2, K, (thr z44), (.home 0x4008, 0x4008, 8), [], alone_and (by decide +kernel)⟩,
    ⟨fCa, z47, z49.2, K, (thr z47), (.home 0x4008, 0x4008, 8), [], 0, alone_and (by decide +kernel)⟩,
    ⟨fAt, z41b, z43b.2, K, (thr z41b), (.home 0x4008, 0x4008, 8), [], 0, alone_and (by decide +kernel)⟩,
    ⟨fCa, z47b, z49b.2, K, (thr z47b), (.home 0x4008, 0x4008, 8), [], 0, alone_and (by decide +kernel)⟩⟩

/-- States that meet the hypotheses of `Scratchpads`, clause by clause. -/
theorem witness_Scratchpads :
    (∃ (f : FLds) (s : State) (k : TKey) (t : Thread) (p : Spad) (b : Block),
        Alone s k t (Instr.lds f) ∧
        let e := s.env k;
        spadAt e.rcd e.bkey (BitVec.toNat (spadAddr e t f.a f.imm)) f.ty.bytes = Except.ok p ∧
          p.own = true ∧
            s.blocks.find e.bkey = some b ∧
              ∀ (g : ℕ), p.off / 32 ≤ g → g ≤ (p.off + f.ty.bytes - 1) / 32 → b.poison.get g = 0)
    ∧ (∃ (f : FSts) (s : State) (k : TKey) (t : Thread) (p : Spad) (b : Block),
        Alone s k t (Instr.sts f) ∧
        let e := s.env k;
        spadAt e.rcd e.bkey (BitVec.toNat (spadAddr e t f.a f.imm)) f.ty.bytes = Except.ok p ∧
          p.own = true ∧ s.blocks.find p.block = some b ∧ ∀ w ∈ b.arrivals, meets w 16 p.off f.ty.bytes = false)
    ∧ (∃ (f : FAtom) (s : State) (k : TKey) (t : Thread) (p : Spad) (b : Block),
        Alone s k t (Instr.atoms f) ∧
        let e := s.env k;
        let n := if f.wide = true then 8 else 4;
        BitVec.toNat (spadAddr e t f.a f.imm) % n = 0 ∧
          spadAt e.rcd e.bkey (BitVec.toNat (spadAddr e t f.a f.imm)) n = Except.ok p ∧
            p.own = true ∧
              s.blocks.find p.block = some b ∧
                b.poison.get (p.off / 32) = 0 ∧ ∀ w ∈ b.arrivals, meets w 16 p.off n = false) :=
  ⟨⟨(fLs .s16), z50, K, (thr z50), (spadOf z50 0x42 2), (blk z50), alone_and (by_dec (letI := @someDec; inferInstance) (by decide +kernel))⟩,
    ⟨fSs, z52, K, (thr z52), (spadOf z52 0x48 8), (blk z52), alone_and (by decide +kernel)⟩,
    ⟨fAs, z53, K, (thr z53), (spadOf z53 0x48 4), (blk z53), alone_and (by decide +kernel)⟩⟩

end Memory

/-! ### States for the witnesses: tensors, residency and the L1 -/

namespace Tensors

def okPs {β} (x : Acc × β) : List Piece0 := match x.1 with | .ok p => p | _ => []
def mb (s : State) (a : Nat) (bs : List Byte) : State := { s with mem := s.mem.setBytes a bs }
def regs (vs : List (Nat × Word32)) (s : State) : State := State.put s K vs
def cl0 (f : Cluster → Cluster) (s : State) : State := s.onCluster 0 f
def ent (etype fmt rank rate ext0 ext1 stride1 base : Nat) : TEntry := BitVec.ofNat 512
  (2^511 + etype*2^400 + fmt*2^404 + (rank-1)*2^408 + rate*2^410 + ext0*2^128 + ext1*2^160 + stride1*2^256 + base)
def ten (id : Nat) (x : TEntry) (s : State) : State := s.setTensor 0 0 id x
def rv (i : Instr) : State := regs [(2, 0x4000), (3,0), (4, 3), (5,1), (6, 0x23), (7,0x9),(10,7)] (one i)
def ck (s : State) (r : MemReq) := s.checkReq (s.env K) r
def chk1 (s : State) (a : Int) (n : Nat) (w : Bool := false) := s.check (s.env K).who a n w false
def gotB (x : Gather × State) : List Byte := match x.1 with | .ready b _ => b | _ => []
def store0 (bs : List BsBlock) (s : State) : State := cl0 (fun c => { c with store := bs }) s
def tagOf (s : State) (a : Operand) (nc : BitVec 2) (id : Nat) : BsBlock :=
  let e := s.env K
  let x := s.tensor 0 0 id
  blockTag e x id (coords e (thr s) a nc)
def blkOf (t : BsBlock) (d : Nat) : BsBlock := { t with vals := (List.range 16).map fun n => BitVec.ofNat 64 (0x100 + n), dirty := BitVec.ofNat 64 d }
def fL (c : Bool) (h : LdHint := .none): FLdt := {w:=false,g:=0,d:=20,a:=.reg 4,b:=.reg 10,ty:=.b32,hint:=h,clip:=c,nc:=1}
def fS (c : Bool) : FStt := {g:=0,d:=6,a:=.reg 4,b:=.reg 10,ty:=.b32,hint:=.none,clip:=c,strm:=1,nc:=1}
def plain := ent 4 0 2 0 16 8 16 0x4000
def small := ent 4 0 2 0 3 8 16 0x4000
def coded := ent 0xA 1 2 3 16 8 0 0x8000
def z1 : State := ten 7 plain (rv (.ldt (fL true)))
def z2 : MemReq := let e := z1.env K; let x := z1.tensor 0 0 7; { kind := .load (fL true).hint, ty := (fL true).ty, addr := x.elemAddr (coords e (thr z1) (fL true).a (fL true).nc), data := 0, cmp := 0, dst := (thr z1).dstOf e (fL true).w (fL true).d, strm := 0, prio := x.res }
def z3 : Acc × State := ck z1.bump z2
def z7 : State := ten 7 plain (rv (.stt (fS true)))
def z8 : MemReq := let e := z7.env K; let x := z7.tensor 0 0 7; { kind := .store, ty := (fS true).ty, addr := x.elemAddr (coords e (thr z7) (fS true).a (fS true).nc), data := (thr z7).regsAt e (fS true).d.toNat (fS true).ty.regs, cmp := 0, dst := none, strm := (fS true).strm, prio := if (fS true).hint == .st then 0 else x.res }
def z9 : Acc × State := ck z7.bump z8
def z13 : State := ten 7 small (rv (.ldt (fL true)))
def z19 : State := ten 7 small (rv (.stt (fS true)))
def z37 : State := ten 7 coded (rv (.ldt (fL true)))
def z38 : State := store0 [blkOf (tagOf z37 (.reg 4) 1 7) 4] z37
def z45 : State := ten 7 coded (rv (.stt (fS true)))
def z46 : State := store0 [blkOf (tagOf z45 (.reg 4) 1 7) 4] z45
def z48 : Acc × State := z46.bump.blockWritable (z46.env K) (tagOf z46 (.reg 4) 1 7).va
def fTl : FTdescLd := {g:=0,a:=.reg 2,b:=.reg 10,imm:=0}
def fTs : FTdescSt := {g:=0,a:=.reg 2,b:=.reg 10,strm:=1,imm:=0}
def fTc : FB := {g:=0,b:=.reg 10}
def fpr : FPrf := {g:=0,a:=.reg 2,level:=.l1,imm:=0}
def fRp : FResPrio := {g:=0,b:=.reg 10,prio:=5}
def fCi : FMem := {g:=0,a:=.reg 2,imm:=4}
def z53 : State := ten 7 plain (ten 8 small (mb (rv (.tdescLoad fTl)) 0x4000 (toBytes 64 (BitVec.toNat (plain : TEntry)))))
def z54 : Acc × State := chk1 z53 0x4000 64
def z55 : Gather × State := z54.2.readFresh (z53.env K) (okPs z54)
def z59 : State := ten 7 plain (ten 8 small (mb (rv (.tdescLoad fTl)) 0x4000 (toBytes 64 (BitVec.toNat ((ent 4 1 2 0 16 8 16 0x4000) : TEntry)))))
def z60 : Acc × State := chk1 z59 0x4000 64
def z61 : Gather × State := z60.2.readFresh (z59.env K) (okPs z60)
def z62 : State := ten 7 plain (rv (.tdescStore fTs))
def z63 : Acc × State := chk1 z62 0x4000 64 true
def z64 : State := ten 7 plain (ten 8 small (rv (.tdescClear fTc)))
def z65 : State := rv (.prf fpr)
def z66 : State := ten 7 plain (ten 8 small (rv (.resPrio fRp)))
def l2s (s : State) : State := { s with l2 := [(0x80,3),(0x81,3),(0x200,3)] }
def z67 : State := l2s (ten 7 plain (rv (.resDemote fTc)))
def z68 : State := l2s (ten 7 plain (rv (.resEvict fTc)))
def l1s (n : Nat) : L1Sector := { sector := n, bytes := [], marks := 0 }
def z69 : State := cl0 (fun c => { c with l1 := [l1s 5, l1s 0x100] }) (rv (.cinvLine fCi))
def z70 : Walk × State := z69.translate (z69.env K).who 0x4004
def lf (x : Walk × State) : Leaf := match x.1 with | .leaf l => l | _ => { base := 0, size := 0, pa := 0, wr := false, ex := false, rld := false }
def fg : FG := {g:=0}
def z71 : State := cl0 (fun c => { c with l1 := [l1s 5, l1s 0x100] }) (rv (.cinvAll fg))

/-- States that meet the hypotheses of `TensorElements`, clause by clause. -/
theorem witness_TensorElements :
    (∃ (f : FLdt) (s s1 : State) (k : TKey) (t : Thread) (ps : List Piece0),
        Alone s k t (Instr.ldt f) ∧
        let e := s.env k;
        let id := BitVec.toNat (src32 e t f.b) % 1024;
        let x := s.entryFor e t id;
        let is := coords e t f.a f.nc;
        x.v = true ∧
          x.rank = f.nc.toNat + 1 ∧
            accessFits e x f.ty (f.hint == LdHint.ro) = true ∧
              x.outside is = false ∧
                x.fmt ≠ 1 ∧
                  let r :=
                    { kind := AccKind.load f.hint, ty := f.ty, addr := x.elemAddr is, data := 0, cmp := 0,
                      dst := Thread.dstOf e t f.w f.d, strm := 0, prio := if (f.hint == LdHint.st) = true then 0 else x.res };
                  s.logBlocks k r = false ∧ s.bump.checkReq e r = (Acc.ok ps, s1) ∧ (s1.cluster e.cl).unreadFor f.hint ps = false)
    ∧ (∃ (f : FStt) (s s1 : State) (k : TKey) (t : Thread) (ps : List Piece0),
        Alone s k t (Instr.stt f) ∧
        let e := s.env k;
        let id := BitVec.toNat (src32 e t f.b) % 1024;
        let x := s.entryFor e t id;
        let is := coords e t f.a f.nc;
        let v := Thread.regsAt e t f.d.toNat f.ty.regs;
        x.v = true ∧
          x.rank = f.nc.toNat + 1 ∧
            accessFits e x f.ty false = true ∧
              x.outside is = false ∧
                x.fmt ≠ 1 ∧
                  let r :=
                    { kind := AccKind.store, ty := f.ty, addr := x.elemAddr is, data := v, cmp := 0, dst := none,
                      strm := f.strm, prio := if (f.hint == StHint.st) = true then 0 else x.res };
                  s.logBlocks k r = false ∧ s.bump.checkReq e r = (Acc.ok ps, s1) ∧ s1.admission e ps = Admit.yes)
    ∧ (∃ (f : FLdt) (s : State) (k : TKey) (t : Thread),
        Alone s k t (Instr.ldt f) ∧
        let e := s.env k;
        let id := BitVec.toNat (src32 e t f.b) % 1024;
        let x := s.entryFor e t id;
        let is := coords e t f.a f.nc;
        x.v = true ∧
          x.rank = f.nc.toNat + 1 ∧ accessFits e x f.ty (f.hint == LdHint.ro) = true ∧ x.outside is = true ∧ f.clip = true)
    ∧ (∃ (f : FStt) (s : State) (k : TKey) (t : Thread),
        Alone s k t (Instr.stt f) ∧
        let e := s.env k;
        let id := BitVec.toNat (src32 e t f.b) % 1024;
        let x := s.entryFor e t id;
        let is := coords e t f.a f.nc;
        x.v = true ∧ x.rank = f.nc.toNat + 1 ∧ accessFits e x f.ty false = true ∧ x.outside is = true ∧ f.clip = true)
    ∧ (∃ (f : FLdt) (s : State) (k : TKey) (t : Thread) (b : BsBlock) (v : Word64),
        Alone s k t (Instr.ldt f) ∧
        let e := s.env k;
        let id := BitVec.toNat (src32 e t f.b) % 1024;
        let x := s.entryFor e t id;
        let is := coords e t f.a f.nc;
        x.v = true ∧
          x.rank = f.nc.toNat + 1 ∧
            accessFits e x f.ty (f.hint == LdHint.ro) = true ∧
              x.outside is = false ∧
                x.fmt = 1 ∧
                  s.logMeets k (blockTag e x id is).va (blockTag e x id is).coded = false ∧
                    (s.cluster e.cl).usable t (blockTag e x id is) (ldtUse f x is) = some b ∧ b.vals[x.position is]? = some v)
    ∧ (∃ (f : FStt) (s s1 : State) (k : TKey) (t : Thread) (b : BsBlock),
        Alone s k t (Instr.stt f) ∧
        let e := s.env k;
        let id := BitVec.toNat (src32 e t f.b) % 1024;
        let x := s.entryFor e t id;
        let is := coords e t f.a f.nc;
        x.v = true ∧
          x.rank = f.nc.toNat + 1 ∧
            accessFits e x f.ty false = true ∧
              x.outside is = false ∧
                x.fmt = 1 ∧
                  s.logMeets k (blockTag e x id is).va (blockTag e x id is).coded = false ∧
                    accessCanonical (↑(blockTag e x id is).va) (blockTag e x id is).coded = true ∧
                      s.bump.blockWritable e (blockTag e x id is).va = (Acc.ok [], s1) ∧
                        (s1.cluster e.cl).usable t (blockTag e x id is) (sttUse x is) = some b ∧ x.position is < b.vals.length) :=
  ⟨⟨(fL true), z1, z3.2, K, (thr z1), (okPs z3), alone_and (by decide +kernel)⟩,
    ⟨(fS true), z7, z9.2, K, (thr z7), (okPs z9), alone_and (by decide +kernel)⟩,
    ⟨(fL true), z13, K, (thr z13), alone_and (by decide +kernel)⟩,
    ⟨(fS true), z19, K, (thr z19), alone_and (by decide +kernel)⟩,
    ⟨(fL true), z38, K, (thr z38), (blkOf (tagOf z38 (.reg 4) 1 7) 4), BitVec.ofNat 64 (0x100 + TEntry.position coded (coords (z38.env K) (thr z38) (.reg 4) 1)), alone_and (by decide +kernel)⟩,
    ⟨(fS true), z46, z48.2, K, (thr z46), (blkOf (tagOf z46 (.reg 4) 1 7) 4), alone_and (by decide +kernel)⟩⟩

/-- States that meet the hypotheses of `TensorTable`, clause by clause. -/
theorem witness_TensorTable :
    (∃ (f : FTdescLd) (s s1 s2 : State) (k : TKey) (t : Thread) (ps : List Piece0) (bs : List Byte),
        Alone s k t (Instr.tdescLoad f) ∧
        let e := s.env k;
        let addr := memAddr e t f.a f.imm;
        let x : TEntry := BitVec.ofNat 512 (ofBytes bs);
        s.logMeets k addr.toNat 64 = false ∧
          s.checkRead (Client.thread k) e.who addr 64 false = (Acc.ok ps, s1) ∧
            addr % 64 = 0 ∧ s1.readFresh e ps = (Gather.ready bs none, s2) ∧ (x.v = false ∨ x.wellFormed = true))
    ∧ (∃ (f : FTdescLd) (s s1 s2 : State) (k : TKey) (t : Thread) (ps : List Piece0) (bs : List Byte),
        Alone s k t (Instr.tdescLoad f) ∧
        let e := s.env k;
        let addr := memAddr e t f.a f.imm;
        let x : TEntry := BitVec.ofNat 512 (ofBytes bs);
        s.logMeets k addr.toNat 64 = false ∧
          s.checkRead (Client.thread k) e.who addr 64 false = (Acc.ok ps, s1) ∧
            addr % 64 = 0 ∧ s1.readFresh e ps = (Gather.ready bs none, s2) ∧ x.v = true ∧ x.wellFormed = false ∧ Traps e t)
    ∧ (∃ (f : FTdescSt) (s s1 : State) (k : TKey) (t : Thread) (ps : List Piece0),
        Alone s k t (Instr.tdescStore f) ∧
        let e := s.env k;
        let addr := memAddr e t f.a f.imm;
        s.logHolds k addr.toNat 64 true f.strm = false ∧
          s.check e.who addr 64 true false = (Acc.ok ps, s1) ∧ addr % 64 = 0 ∧ s1.admission e ps = Admit.yes)
    ∧ (∃ (f : FB) (s : State) (k : TKey) (t : Thread),
        Alone s k t (Instr.tdescClear f)) :=
  ⟨⟨fTl, z53, z54.2, z55.2, K, (thr z53), (okPs z54), (gotB z55), alone_and (by and_intros <;> first | decide +kernel | exact pair_of (by decide +kernel))⟩,
    ⟨fTl, z59, z60.2, z61.2, K, (thr z59), (okPs z60), (gotB z61), alone_and (by and_intros <;> first | decide +kernel | exact pair_of (by decide +kernel))⟩,
    ⟨fTs, z62, z63.2, K, (thr z62), (okPs z63), alone_and (by decide +kernel)⟩,
    ⟨fTc, z64, K, (thr z64), alone_ok (by decide +kernel)⟩⟩

/-- States that meet the hypotheses of `ResidencyAndInvalidation`, clause by clause. -/
theorem witness_ResidencyAndInvalidation :
    (∃ (i : Instr) (b : Operand) (s : State) (k : TKey) (t : Thread),
        ((∃ f, i = .resPrio f ∧ b = f.b) ∨ (∃ f, i = .resDemote f ∧ b = f.b) ∨ (∃ f, i = .resEvict f ∧ b = f.b)) ∧
        Alone s k t i ∧ Traps (s.env k) t ∧
        let e := s.env k;
        (s.tensor e.part e.ctx (BitVec.toNat (src32 e t b) % 1024)).v = false)
    ∧ (∃ (f : FPrf) (s : State) (k : TKey) (t : Thread),
        Alone s k t (Instr.prf f))
    ∧ (∃ (f : FResPrio) (s : State) (k : TKey) (t : Thread),
        Alone s k t (Instr.resPrio f) ∧
        let e := s.env k;
        let id := BitVec.toNat (src32 e t f.b) % 1024;
        (s.tensor e.part e.ctx id).v = true)
    ∧ (∃ (f : FB) (s : State) (k : TKey) (t : Thread),
        Alone s k t (Instr.resDemote f) ∧
        let e := s.env k;
        let x := s.tensor e.part e.ctx (BitVec.toNat (src32 e t f.b) % 1024);
        x.v = true)
    ∧ (∃ (f : FB) (s : State) (k : TKey) (t : Thread),
        Alone s k t (Instr.resEvict f) ∧
        let e := s.env k;
        let x := s.tensor e.part e.ctx (BitVec.toNat (src32 e t f.b) % 1024);
        x.v = true)
    ∧ (∃ (f : FMem) (s s1 : State) (k : TKey) (t : Thread) (l : Leaf) (h : ℕ),
        Alone s k t (Instr.cinvLine f) ∧
        let e := s.env k;
        let addr := memAddr e t f.a f.imm;
        accessCanonical addr 1 = true ∧
          ¬(dadoVa ≤ addr.toNat ∧ addr.toNat < dadoVa + dadoSpan) ∧
            s.translate e.who addr.toNat = (Walk.leaf l, s1) ∧ s1.locOf (l.pa + (addr.toNat - l.base)) = some (Loc.home h))
    ∧ (∃ (f : FG) (s : State) (k : TKey) (t : Thread),
        Alone s k t (Instr.cinvAll f)) :=
  ⟨⟨.resPrio fRp, fRp.b, rv (.resPrio fRp), K, thr (rv (.resPrio fRp)), .inl ⟨fRp, rfl, rfl⟩, alone_and (by decide +kernel)⟩,
    ⟨fpr, z65, K, (thr z65), alone_ok (by decide +kernel)⟩,
    ⟨fRp, z66, K, (thr z66), alone_and (by decide +kernel)⟩,
    ⟨fTc, z67, K, (thr z67), alone_and (by decide +kernel)⟩,
    ⟨fTc, z68, K, (thr z68), alone_and (by decide +kernel)⟩,
    ⟨fCi, z69, z70.2, K, (thr z69), (lf z70), 0x4004, alone_and (by decide +kernel)⟩,
    ⟨fg, z71, K, (thr z71), alone_ok (by decide +kernel)⟩⟩

end Tensors

/-! ### States for the witnesses: the memory path's moves and the Trowel -/

namespace Paths

def mod (s : State) (f : Thread → Thread) : State := s.onThread K fun _ t => f t
def okPs {β} (x : Acc × β) : List Piece0 := match x.1 with | .ok p => p | _ => []
def sq1 (id : Nat) (a : Loc) : SqEntry := { id := id, key := K, who := some (1, 0), counted := true, bill := { part := 0, sub := 0, owner := 0, ctx := 0 }, port := none, copy := none, strm := some 0, prio := 3, loc := a, va := 0x5000, n := 4, op := .write [1,2,3,4] 0, tag := none }
def withSq (s : State) (l : List SqEntry) : State := s.onCluster 0 fun c => { c with sq := l }
def mb (s : State) (a : Nat) (bs : List Byte) : State := { s with mem := s.mem.setBytes a bs }
def blk (s : State) : Block := match s.blocks.find {launch:=0,block:=0} with | some b => b | none => { cluster := 0, place := 0, resident := true, scratch := [], poison := [], arrivals := [], starve := 0 }
def regs (vs : List (Nat × Word32)) (s : State) : State := State.put s K vs
def cl0 (f : Cluster → Cluster) (s : State) : State := s.onCluster 0 f
def ent (etype fmt rank rate ext0 ext1 stride1 base : Nat) : TEntry := BitVec.ofNat 512
  (2^511 + etype*2^400 + fmt*2^404 + (rank-1)*2^408 + rate*2^410 + ext0*2^128 + ext1*2^160 + stride1*2^256 + base)
def ten (id : Nat) (x : TEntry) (s : State) : State := s.setTensor 0 0 id x
def rv (i : Instr) : State := regs [(2, 0x4000), (3,0), (4, 3), (5,1), (6, 0x23), (7,0x9),(10,7)] (one i)
def store0 (bs : List BsBlock) (s : State) : State := cl0 (fun c => { c with store := bs }) s
def tagOf (s : State) (a : Operand) (nc : BitVec 2) (id : Nat) : BsBlock :=
  let e := s.env K
  let x := s.tensor 0 0 id
  blockTag e x id (coords e (thr s) a nc)
def blkOf (t : BsBlock) (d : Nat) : BsBlock := { t with vals := (List.range 16).map fun n => BitVec.ofNat 64 (0x100 + n), dirty := BitVec.ofNat 64 d }
def mdt (f : Thread → Thread) (s : State) : State := mod s f
def coded := ent 0xA 1 2 3 16 8 0 0x4000
def v16 : List Word64 := (List.range 16).map fun n => BitVec.ofNat 64 (0x3F800000 + n * 0x10000)
def enc : List Byte := encodeBlock false 2 3 v16 none
def okS {β} (s : State) (x : Except β State) : State := match x with | .ok a => a | _ => s
def sqOf (s : State) : SqEntry := (s.cluster 0).sq.headD (sq1 0 (.home 0))
def wEnt (id n : Nat) (a : Loc) : SqEntry := { sq1 id a with n := n, op := .write ((List.range n).map fun x => BitVec.ofNat 8 (x+1)) 0 }
def aEnt (id : Nat) (a : Loc) (w : Bool) : SqEntry := { sq1 id a with n := if w then 8 else 4, op := .atomic .add w 5 0 77 }
def newLoadA (id : Nat) (a : Loc) (n : Nat) (ty : MemTy) (at_ : Bool) : PendLoad := { (newLoad id K 0x1000 ty .none 3 (some 30) [(a, 0x5000, n)] []) with atomic := at_ }
def pl (id : Nat) (a : Loc) (n : Nat) (ty : MemTy) (at_ : Bool) : PendLoad := newLoadA id a n ty at_
def z1 : State := withSq (rv (.nop {g:=0})) [wEnt 3 6 (.home 0x701D), wEnt 4 4 (.home 9)]
def z2 : State := let s := withSq (rv (.nop {g:=0})) [aEnt 3 (.home 0x7018) false]; { mb s 0x7018 [1,2,3,4,255,255,255,255] with loads := [pl 77 (.home 0x7018) 4 .b32 true] }
def z4 : State := { mb (rv (.nop {g:=0})) 0x7018 [0x81,2,3,4,255,255,255,255] with loads := [pl 77 (.home 0x7018) 1 .s8 false] }
def z5 : List Byte × BitVec 2 × State := (z4.loadPiece (pl 77 (.home 0x7018) 1 .s8 false) ({ loc := .home 0x7018, va := 0x5000, n := 1, got := none, mark := 0, tag := none, taken := [] } : Piece)).getD ([],0,z4)
def la : LogAcc := { key := K, va := 0x4000, data := [1,2,3,4], cmp := 0, dst := some 30, tokens := [], failed := none }
def le_ (k : AccKind) : LogEntry := { id := 9, issue := 0, cl := 0, quarter := 0, crew := {launch:=0,block:=0,crew:=0}, pc := 0x1000, kind := k, ty := .b32, strm := 2, prio := 3, accs := [la] }
def z8 : State := { rv (.nop {g:=0}) with log := [le_ (.load .none), {le_ (.load .none) with id := 10}] }
def z9 : Acc × State := (({ z8 with log := [{le_ (.load .none) with id := 10}] } : State)).checkReq ((({ z8 with log := [{le_ (.load .none) with id := 10}] } : State)).env K) ((le_ (.load .none)).req la)
def z10 : State := { rv (.nop {g:=0}) with log := [le_ (.store), {le_ (.store) with id := 10}] }
def z11 : Acc × State := (({ z10 with log := [{le_ (.store) with id := 10}] } : State)).checkReq ((({ z10 with log := [{le_ (.store) with id := 10}] } : State)).env K) ((le_ (.store)).req la)
def fBd (fr : Bool) : FBdec := {g:=0,a:=.reg 4,b:=.reg 10,fresh:=fr,nc:=1}
def fBs : FBstat := {w:=false,g:=0,d:=20,a:=.reg 4,b:=.reg 10,nc:=1}
def fBk : FBlk := {g:=0,a:=.reg 4,b:=.reg 10,nc:=1}
def fTc : FB := {g:=0,b:=.reg 10}
def fg : FG := {g:=0}
def cval (i : Instr) : State := ten 7 coded (rv i)
def tg (s : State) : BsBlock := tagOf s (.reg 4) 1 7
def is_ (s : State) : List Nat := coords (s.env K) (thr s) (.reg 4) 1
def z12 : State := cval (.bdec (fBd false))
def z13 : Acc × State := ((z12.setThread K ((thr z12).advance (.bdec (fBd false))))).check (z12.env K).who ((tg z12).va : Int) (tg z12).coded false false
def z17 : State := cval (.bdec (fBd false))
def z18 : State := store0 [blkOf (tg z17) 0] z17
def z18f : State := cl0 (fun c => { c with fetches := [{ id := 3, tag := tg z17, pieces := none, leaves := [], waiters := [], stale := false, ahead := false, held := false }] }) z17
def z21 : State := cval (.bstat fBs)
def z24 : State := cval (.bstatDec fBs)
def z25 : State := store0 [blkOf (tg z24) 6] z24
def codedA := ent 0xA 1 2 3 16 8 0 0x4000004000
def z26 : State := ten 7 codedA (rv (.bdec (fBd false)))
def z27 : Acc × State := ((z26.setThread K ((thr z26).advance (.bdec (fBd false))))).check (z26.env K).who ((tg z26).va : Int) (tg z26).coded false false
def pgz : List (Nat × Bool) := match z27.1 with | .absent p => p | _ => []
def z28 : State := (mdt fun t => { t with wait := {kind := .flush false [40,41], counts := true}}) (withSq (cval (.bflushBlk fBk)) [sq1 3 (.home 5)])
def z29 : State := cval (.bflushBlk fBk)
def z30 : State := cval (.bflushBlk fBk)
def z31 : State := store0 [blkOf (tg z30) 0, {blkOf (tg z30) 0 with index := 7}] z30
def z32 : State := cval (.bflushBlk fBk)
def z33 : State := store0 [blkOf (tg z32) 6] z32
def z34 : State := okS z33 (z33.sendPatch 0 (blkOf (tg z33) 6) false)
def z39 : State := cval (.bflushForce fBk)
def z40 : State := store0 [blkOf (tg z39) 0] z39
def z41 : State := okS z40 (z40.sendPatch 0 (blkOf (tg z40) 0) true)
def z42 : State := (mdt fun t => { t with wait := {kind := .flush false [40,41], counts := true}}) (withSq (cval (.bflushTensor fTc)) [sq1 3 (.home 5)])
def z43 : State := cval (.bflushTensor fTc)
def z44 : State := store0 [blkOf (tg z43) 0, {blkOf (tg z43) 0 with index := 7}, {blkOf (tg z43) 0 with tid := 8}, {blkOf (tg z43) 0 with ctx := 3}] z43
def z44d : State := store0 [blkOf (tg z43) 6, {blkOf (tg z43) 0 with va := 0x9000}, {blkOf (tg z43) 0 with tid := 8}, {blkOf (tg z43) 0 with ctx := 3}] z43
def z45 : State := (mdt fun t => { t with wait := {kind := .flush false [40,41], counts := true}}) (withSq (cval (.bflushAll fg)) [sq1 3 (.home 5)])
def z46 : State := cval (.bflushAll fg)
def z47 : State := store0 [blkOf (tg z46) 0, {blkOf (tg z46) 0 with index := 7}, {blkOf (tg z46) 0 with tid := 8}, {blkOf (tg z46) 0 with ctx := 3}] z46
def z47d : State := store0 [blkOf (tg z46) 6, {blkOf (tg z46) 0 with va := 0x9000}, {blkOf (tg z46) 0 with tid := 8}, {blkOf (tg z46) 0 with ctx := 3}] z46
def z48 : State := mb (cval (.bdec (fBd false))) 0x8000 enc
def z49 : State := mb z48 ((tg z48).va) enc
def bf : BsFetch := { id := 3, tag := tg z49, pieces := none, leaves := [], waiters := [], stale := true, ahead := false, held := false }
def z50 : State := cl0 (fun c => { c with fetches := [bf] }) z49
def z51 : Acc × State := z50.fetchPieces 0 bf bf.tag
def z52 : Bool × State := (z51.2.countWaiters 0 bf false).readPieces bf.tag.part bf.tag.sub bf.tag.owner bf.tag.res (okPs z51)
def z53 : List Byte := match gatherAll ((okPs z51).map fun p => (z52.2.readPiece (.fetch 0 3) p, p.2.1)) with | .ready b _ => b | _ => []
def z54 : Decoded := (decodeBlock false 2 3 z53).getD { head := 0, vals := [], clamp := false, special := false, zero := false }
def z55 : State := cval (.bflushBlk fBk)
def z56 : State := mb (store0 [blkOf (tg z55) 6] z55) (tg z55).va enc
def z57 : State := okS z56 (z56.sendPatch 0 (blkOf (tg z56) 6) false)
def pt : Patch := match (sqOf z57).op with | .patch p => p | _ => {part:=0,ctx:=0,tid:=0,index:=0,va:=0,pieces:=[],f64:=false,dim:=0,rate:=0,ext:=[],mask:=0,forced:=none,vals:=[]}
def z58 : Decoded := (decodeBlock pt.f64 pt.dim pt.rate (pt.pieces.flatMap fun q => (z57.readLoc q.1 q.2).1)).getD { head := 0, vals := [], clamp := false, special := false, zero := false }
def z59 : Bool × State := z57.readPieces (sqOf z57).bill.part (sqOf z57).bill.sub (sqOf z57).bill.owner (sqOf z57).prio (pt.pieces.map fun q => (q.1, 0, q.2))
theorem sent {β : Type} {s : State} {x : Except β State} (h : (match x with | .ok _ => true | .error _ => false) = true) : x = .ok (okS s x) := by
  cases x <;> simp_all [okS]

theorem allSent {σ : Type} {x : Option Unsent × σ} (h : x.1 = none) : x = (none, x.2) := Prod.ext h rfl

theorem loaded {d : List Byte × BitVec 2 × State} {m : BitVec 2} {x : Option (List Byte × BitVec 2 × State)}
    (h : (x.map fun y => y.2.1) = some m) : x = some ((x.getD d).1, m, (x.getD d).2.2) := by
  cases x with
  | none => cases h
  | some y => obtain ⟨a, b, c⟩ := y; cases h; rfl

/-- States that meet the hypotheses of `MemoryPathMoves`, clause by clause. -/
theorem witness_MemoryPathMoves :
    (∃ (s : State) (cl : ℕ) (x : SqEntry) (a : ℕ) (bs : List Byte) (m : BitVec 2),
        List.find? (fun y => y.id == x.id) (s.cluster cl).sq = some x ∧
        x.loc = Loc.home a ∧
          s.entryWaits x = false ∧
            s.homeFailed a = false ∧
              mayLeave x (s.cluster cl).sq = true ∧
                s.Calm ∧ (∀ r ∈ s.acqs, meets r.obj 64 a x.n = false) ∧ x.op = SqOp.write bs m)
    ∧ (∃ (s : State) (cl : ℕ) (x : SqEntry) (a : ℕ) (op : AtomOp) (wide : Bool) (b cmp load : ℕ) (l : PendLoad) (p : Piece) (t : Thread) (r : ℕ),
        List.find? (fun y => y.id == x.id) (s.cluster cl).sq = some x ∧
        x.loc = Loc.home a ∧
          s.entryWaits x = false ∧
            s.homeFailed a = false ∧
              mayLeave x (s.cluster cl).sq = true ∧
                s.Calm ∧
                  (∀ r ∈ s.acqs, meets r.obj 64 a x.n = false) ∧
                    x.op = SqOp.atomic op wide b cmp load ∧
                      (x.n = if wide = true then 8 else 4) ∧
                        s.markAt a = 0 ∧
                          (s.formRead x).isSome = true ∧
                            List.find? (fun y => y.id == load) s.loads = some l ∧
                              l.pieces = [p] ∧
                                s.threads.find l.key = some t ∧
                                  l.dst = some r ∧ l.pred = none ∧ l.ty = if wide = true then MemTy.b64 else MemTy.b32)
    ∧ (∃ (s s1 : State) (l : PendLoad) (p : Piece) (bs : List Byte) (t : Thread) (r : ℕ),
        List.find? (fun y => y.id == l.id && !y.atomic) s.loads = some l ∧
        l.pieces = [p] ∧
          p.got = none ∧
            (∀ (a : ℕ), p.loc ≠ Loc.peer a) ∧
              s.loadPiece l p = some (bs, 0, s1) ∧ s.Calm ∧ s.threads.find l.key = some t ∧ l.dst = some r ∧ l.pred = none)
    ∧ (∃ (s s1 : State) (l : LogEntry) (x : LogAcc) (b : Block) (ps : List Piece0) (rest : List LogEntry) (h : LdHint),
        s.log = l :: rest ∧
        l.accs = [x] ∧
          x.tokens = [] ∧
            x.failed = none ∧
              s.blocks.find { launch := l.crew.launch, block := l.crew.block } = some b ∧
                b.resident = true ∧
                  s.Calm ∧
                    let s0 :=
                      ({ s with log := rest } : State);
                    s0.checkReq (s0.env x.key) (l.req x) = (Acc.ok ps, s1) ∧ l.kind = AccKind.load h)
    ∧ (∃ (s s1 : State) (l : LogEntry) (x : LogAcc) (b : Block) (ps : List Piece0) (rest : List LogEntry) (t : Thread),
        s.log = l :: rest ∧
        l.accs = [x] ∧
          x.tokens = [] ∧
            x.failed = none ∧
              s.blocks.find { launch := l.crew.launch, block := l.crew.block } = some b ∧
                b.resident = true ∧
                  s.Calm ∧
                    let s0 :=
                      ({ s with log := rest } : State);
                    s0.checkReq (s0.env x.key) (l.req x) = (Acc.ok ps, s1) ∧
                      l.kind = AccKind.store ∧ s1.admission (s0.env x.key) ps = Admit.yes ∧ s.threads.find x.key = some t) :=
  ⟨⟨z1, 0, (wEnt 3 6 (.home 0x701D)), 0x701D, ((List.range 6).map fun x => BitVec.ofNat 8 (x+1)), 0, by decide +kernel⟩,
    ⟨z2, 0, (aEnt 3 (.home 0x7018) false), 0x7018, .add, false, 5, 0, 77, (pl 77 (.home 0x7018) 4 .b32 true), { loc := .home 0x7018, va := 0x5000, n := 4, got := none, mark := 0, tag := none, taken := [] }, (thr z2), 30, by decide +kernel⟩,
    ⟨z4, _, (pl 77 (.home 0x7018) 1 .s8 false), ({ loc := .home 0x7018, va := 0x5000, n := 1, got := none, mark := 0, tag := none, taken := [] } : Piece), _, (thr z4), 30, ⟨by decide +kernel, by decide +kernel, by decide +kernel, by_dec (letI := @peerDec; inferInstance) (by decide +kernel), loaded (d := ([], 0, z4)) (by decide +kernel), by decide +kernel, by decide +kernel, by decide +kernel, by decide +kernel⟩⟩,
    ⟨z8, z9.2, (le_ (.load .none)), la, (blk z8), (okPs z9), [{le_ (.load .none) with id := 10}], .none, by decide +kernel⟩,
    ⟨z10, z11.2, (le_ (.store)), la, (blk z10), (okPs z11), [{le_ (.store) with id := 10}], (thr z10), by decide +kernel⟩⟩

/-- States that meet the hypotheses of `BlockInstructions`, clause by clause. -/
theorem witness_BlockInstructions :
    (∃ (f : FBdec) (s s1 : State) (k : TKey) (t : Thread) (x : TEntry) (id : ℕ) (is : List ℕ) (ps : List Piece0),
        Alone s k t (Instr.bdec f) ∧
        let e := s.env k;
        let c := s.cluster e.cl;
        let tag := blockTag e x id is;
        let s0 := s.setThread k (t.advance (Instr.bdec f));
        s.codedElem e t f.a f.b f.nc = Except.ok (x, id, is) ∧
          (c.block tag = none ∨ f.fresh = true) ∧
            (c.fetches.any fun y => y.tag.same tag) = false ∧
              (s0.check e.who (↑tag.va) tag.coded false false = (Acc.ok ps, s1) ∧ anyOutside ps = false ∨
                s0.check e.who (↑tag.va) tag.coded false false = (Acc.wait, s1)))
    ∧ (∃ (f : FBdec) (s : State) (k : TKey) (t : Thread) (x : TEntry) (id : ℕ) (is : List ℕ),
        Alone s k t (Instr.bdec f) ∧
        let e := s.env k;
        let c := s.cluster e.cl;
        let tag := blockTag e x id is;
        s.codedElem e t f.a f.b f.nc = Except.ok (x, id, is) ∧ (c.block tag).isSome = true ∧ f.fresh = false)
    ∧ (∃ (f : FBdec) (s : State) (k : TKey) (t : Thread) (x : TEntry) (id : ℕ) (is : List ℕ),
        Alone s k t (Instr.bdec f) ∧
        let e := s.env k;
        let c := s.cluster e.cl;
        let tag := blockTag e x id is;
        s.codedElem e t f.a f.b f.nc = Except.ok (x, id, is) ∧ (c.block tag = none ∨ f.fresh = true)
          ∧ (c.fetches.any fun y => y.tag.same tag) = true)
    ∧ (∃ (f : FBstat) (s : State) (k : TKey) (t : Thread) (x : TEntry) (id : ℕ) (is : List ℕ),
        let e := s.env k;
      s.codedElem e t f.a f.b f.nc = Except.ok (x, id, is) ∧ Alone s k t (Instr.bstat f))
    ∧ (∃ (f : FBstat) (s : State) (k : TKey) (t : Thread) (x : TEntry) (id : ℕ) (is : List ℕ) (b : BsBlock),
        let e := s.env k;
      let tag := blockTag e x id is;
      s.codedElem e t f.a f.b f.nc = Except.ok (x, id, is) ∧
        Alone s k t (Instr.bstatDec f) ∧ s.blockHeld e tag = false ∧ (s.cluster e.cl).usable t tag wholeUse = some b)
    ∧ (∃ (f : FBdec) (s s1 : State) (k : TKey) (t : Thread) (x : TEntry) (id : ℕ) (is : List ℕ) (ps : List Piece0),
        Alone s k t (Instr.bdec f) ∧
        let e := s.env k;
        let c := s.cluster e.cl;
        let tag := blockTag e x id is;
        let s0 := s.setThread k (t.advance (Instr.bdec f));
        s.codedElem e t f.a f.b f.nc = Except.ok (x, id, is) ∧
          (c.block tag = none ∨ f.fresh = true) ∧
            (c.fetches.any fun y => y.tag.same tag) = false ∧
              (s0.check e.who (↑tag.va) tag.coded false false = (Acc.ok ps, s1) ∧ anyOutside ps = true ∨
                (∃ tr, s0.check e.who (↑tag.va) tag.coded false false = (Acc.fault tr, s1)) ∨
                  ∃ pages, s0.check e.who (↑tag.va) tag.coded false false = (Acc.absent pages, s1))) :=
  ⟨⟨(fBd false), z12, z13.2, K, (thr z12), coded, 7, (is_ z12), (okPs z13), alone_and (by decide +kernel)⟩,
    ⟨(fBd false), z18, K, (thr z18), coded, 7, (is_ z18), alone_and (by decide +kernel)⟩,
    ⟨(fBd false), z18f, K, (thr z18f), coded, 7, (is_ z18f), alone_and (by decide +kernel)⟩,
    ⟨fBs, z21, K, (thr z21), coded, 7, (is_ z21), by_dec (letI := @aloneDec; inferInstance) (by decide +kernel)⟩,
    ⟨fBs, z25, K, (thr z25), coded, 7, (is_ z25), (blkOf (tg z25) 6), by_dec (letI := @aloneDec; inferInstance) (by decide +kernel)⟩,
    ⟨(fBd false), z26, z27.2, K, (thr z26), codedA, 7, (is_ z26), [], alone_and ⟨by decide +kernel, by decide +kernel, .inl (by decide +kernel), by decide +kernel, .inr (.inr ⟨pgz, by decide +kernel⟩)⟩⟩⟩

/-- States that meet the hypotheses of `Flushes`, clause by clause. -/
theorem witness_Flushes :
    (∃ (f : FBlk) (force : Bool) (s : State) (k : TKey) (t : Thread) (x : TEntry) (id : ℕ) (is snap : List ℕ),
        let i := if force = true then Instr.bflushForce f else Instr.bflushBlk f;
      let e := s.env k;
      let c := s.cluster e.cl;
      Alone s k t i ∧
        s.codedElem e t f.a f.b f.nc = Except.ok (x, id, is) ∧
          t.wait.kind = WaitKind.flush false snap ∧ (∀ y ∈ c.sq, y.id ∉ snap) ∧ c.mergeErr.find (e.part, e.ctx) = none)
    ∧ (∃ (f : FBlk) (force : Bool) (s : State) (k : TKey) (t : Thread) (x : TEntry) (id : ℕ) (is : List ℕ),
        let i := if force = true then Instr.bflushForce f else Instr.bflushBlk f;
      let e := s.env k;
      let c := s.cluster e.cl;
      let tag := blockTag e x id is;
      Alone s k t i ∧
        s.codedElem e t f.a f.b f.nc = Except.ok (x, id, is) ∧
          (∀ (snap : List ℕ), t.wait.kind ≠ WaitKind.flush false snap) ∧
            (c.patchIds s.serial fun p => p.ofTag tag) = [] ∧
              force = false ∧ c.block tag = none ∧ c.mergeErr.find (e.part, e.ctx) = none)
    ∧ (∃ (f : FBlk) (force : Bool) (s : State) (k : TKey) (t : Thread) (x : TEntry) (id : ℕ) (is : List ℕ) (b : BsBlock),
        let i := if force = true then Instr.bflushForce f else Instr.bflushBlk f;
      let e := s.env k;
      let c := s.cluster e.cl;
      let tag := blockTag e x id is;
      Alone s k t i ∧
        s.codedElem e t f.a f.b f.nc = Except.ok (x, id, is) ∧
          (∀ (snap : List ℕ), t.wait.kind ≠ WaitKind.flush false snap) ∧
            (c.patchIds s.serial fun p => p.ofTag tag) = [] ∧
              force = false ∧ c.block tag = some b ∧ b.dirty = 0 ∧ c.mergeErr.find (e.part, e.ctx) = none)
    ∧ (∃ (f : FBlk) (force : Bool) (s : State) (k : TKey) (t : Thread) (x : TEntry) (id : ℕ) (is : List ℕ) (b : BsBlock) (s1 : State),
        let i := if force = true then Instr.bflushForce f else Instr.bflushBlk f;
      let e := s.env k;
      let c := s.cluster e.cl;
      let tag := blockTag e x id is;
      Alone s k t i ∧
        s.codedElem e t f.a f.b f.nc = Except.ok (x, id, is) ∧
          (∀ (snap : List ℕ), t.wait.kind ≠ WaitKind.flush false snap) ∧
            (c.patchIds s.serial fun p => p.ofTag tag) = [] ∧
              c.block tag = some b ∧
                b.dirty ≠ 0 ∧ s.sendPatch e.cl b false = Except.ok s1)
    ∧ (∃ (f : FBlk) (force : Bool) (s : State) (k : TKey) (t : Thread) (x : TEntry) (id : ℕ) (is : List ℕ) (b : BsBlock) (s1 : State),
        let i := if force = true then Instr.bflushForce f else Instr.bflushBlk f;
      let e := s.env k;
      let c := s.cluster e.cl;
      let tag := blockTag e x id is;
      Alone s k t i ∧
        s.codedElem e t f.a f.b f.nc = Except.ok (x, id, is) ∧
          (∀ (snap : List ℕ), t.wait.kind ≠ WaitKind.flush false snap) ∧
            (c.patchIds s.serial fun p => p.ofTag tag) = [] ∧
              force = true ∧
                s.blockHeld e tag = false ∧ c.usable t tag wholeUse = some b ∧
                  b.dirty = 0 ∧ s.sendPatch e.cl b true = Except.ok s1)
    ∧ (∃ (f : FB) (s : State) (k : TKey) (t : Thread) (snap : List ℕ),
        Alone s k t (Instr.bflushTensor f) ∧
        let e := s.env k;
        let c := s.cluster e.cl;
        let id := BitVec.toNat (src32 e t f.b) % 1024;
        let x := s.entryFor e t id;
        x.v = true ∧
          codedOk e x = true ∧
            c.mergeErr.find (e.part, e.ctx) = none ∧ t.wait.kind = WaitKind.flush false snap ∧ ∀ y ∈ c.sq, y.id ∉ snap)
    ∧ (∃ (f : FB) (s : State) (k : TKey) (t : Thread),
        Alone s k t (Instr.bflushTensor f) ∧
        let e := s.env k;
        let c := s.cluster e.cl;
        let id := BitVec.toNat (src32 e t f.b) % 1024;
        let x := s.entryFor e t id;
        let named := fun b => BsBlock.ofCtx e.part e.ctx b && b.tid == id;
        x.v = true ∧
          codedOk e x = true ∧
            c.mergeErr.find (e.part, e.ctx) = none ∧
              t.wait.kind = WaitKind.none ∧
                (c.patchIds s.serial fun x => true) = [] ∧ ∀ b ∈ c.store, named b = true → b.dirty = 0)
    ∧ (∃ (f : FG) (s : State) (k : TKey) (t : Thread) (snap : List ℕ),
        Alone s k t (Instr.bflushAll f) ∧
        let e := s.env k;
        let c := s.cluster e.cl;
        c.mergeErr.find (e.part, e.ctx) = none ∧ t.wait.kind = WaitKind.flush false snap ∧ ∀ y ∈ c.sq, y.id ∉ snap)
    ∧ (∃ (f : FG) (s : State) (k : TKey) (t : Thread),
        Alone s k t (Instr.bflushAll f) ∧
        let e := s.env k;
        let c := s.cluster e.cl;
        c.mergeErr.find (e.part, e.ctx) = none ∧
          t.wait.kind = WaitKind.none ∧
            (c.patchIds s.serial fun x => true) = [] ∧ ∀ b ∈ c.store, BsBlock.ofCtx e.part e.ctx b = true → b.dirty = 0)
    ∧ (∃ (f : FB) (s s1 : State) (k : TKey) (t : Thread),
        Alone s k t (Instr.bflushTensor f) ∧
        let e := s.env k;
        let c := s.cluster e.cl;
        let id := BitVec.toNat (src32 e t f.b) % 1024;
        let x := s.entryFor e t id;
        let named := fun b => BsBlock.ofCtx e.part e.ctx b && b.tid == id;
        x.v = true ∧
          codedOk e x = true ∧
            c.mergeErr.find (e.part, e.ctx) = none ∧
              t.wait.kind = WaitKind.none ∧ (∃ b ∈ c.store, named b = true ∧ b.dirty ≠ 0) ∧
                State.sendAll e.cl (c.dirtyBlocks named) (s.setCluster e.cl (c.dropClean named)) = (none, s1))
    ∧ (∃ (f : FG) (s s1 : State) (k : TKey) (t : Thread),
        Alone s k t (Instr.bflushAll f) ∧
        let e := s.env k;
        let c := s.cluster e.cl;
        let named := BsBlock.ofCtx e.part e.ctx;
        c.mergeErr.find (e.part, e.ctx) = none ∧
          t.wait.kind = WaitKind.none ∧ (∃ b ∈ c.store, named b = true ∧ b.dirty ≠ 0) ∧
            State.sendAll e.cl (c.dirtyBlocks named) (s.setCluster e.cl (c.dropClean named)) = (none, s1)) :=
  ⟨⟨fBk, false, z28, K, (thr z28), coded, 7, (is_ z28), [40,41], alone_and (by decide +kernel)⟩,
    ⟨fBk, false, z29, K, (thr z29), coded, 7, (is_ z29), alone_and (by_dec (letI := @someDec; letI := @flushDec; inferInstance) (by decide +kernel))⟩,
    ⟨fBk, false, z31, K, (thr z31), coded, 7, (is_ z31), (blkOf (tg z31) 0), alone_and (by_dec (letI := @someDec; letI := @flushDec; inferInstance) (by decide +kernel))⟩,
    ⟨fBk, false, z33, K, (thr z33), coded, 7, (is_ z33), (blkOf (tg z33) 6), _, alone_and ⟨by decide +kernel, by decide +kernel, by_dec (letI := @flushDec; inferInstance) (by decide +kernel), by decide +kernel, by decide +kernel, by decide +kernel, sent (s := z33) (by decide +kernel)⟩⟩,
    ⟨fBk, true, z40, K, (thr z40), coded, 7, (is_ z40), (blkOf (tg z40) 0), _, alone_and ⟨by decide +kernel, by decide +kernel, by_dec (letI := @flushDec; inferInstance) (by decide +kernel), by decide +kernel, by decide +kernel, by decide +kernel, by decide +kernel, by decide +kernel, sent (s := z40) (by decide +kernel)⟩⟩,
    ⟨fTc, z42, K, (thr z42), [40,41], alone_and (by decide +kernel)⟩,
    ⟨fTc, z44, K, (thr z44), alone_and (by decide +kernel)⟩,
    ⟨fg, z45, K, (thr z45), [40,41], alone_and (by decide +kernel)⟩,
    ⟨fg, z47, K, (thr z47), alone_and (by decide +kernel)⟩,
    ⟨fTc, z44d, _, K, (thr z44d), alone_and ⟨by decide +kernel, by decide +kernel, by decide +kernel, by decide +kernel, by decide +kernel, by decide +kernel, allSent (by decide +kernel)⟩⟩,
    ⟨fg, z47d, _, K, (thr z47d), alone_and ⟨by decide +kernel, by decide +kernel, by decide +kernel, by decide +kernel, allSent (by decide +kernel)⟩⟩⟩

/-- States that meet the hypotheses of `TrowelMoves`, clause by clause. -/
theorem witness_TrowelMoves :
    (∃ (s s1 s2 : State) (cl : ℕ) (x : BsFetch) (ps : List Piece0) (bytes : List Byte) (d : Decoded),
        List.find? (fun y => y.id == x.id) (s.cluster cl).fetches = some x ∧
        s.fetchPieces cl x x.tag = (Acc.ok ps, s1) ∧
          anyOutside ps = false ∧
            (∀ p ∈ ps, ∀ y ∈ (s1.cluster cl).sq, ∀ (q : Patch), y.op = SqOp.patch q → y.meets p.1 p.2.2 = false) ∧
              (∀ p ∈ ps, ∀ (a : ℕ), p.1 = Loc.home a → s1.homeWaits a = false) ∧
                (s1.cluster cl).block x.tag = none ∧
                  (s1.cluster cl).storeRoom 1 x.tag.size = true ∧
                    x.waiters = [] ∧
                      (s1.countWaiters cl x false).readPieces x.tag.part x.tag.sub x.tag.owner x.tag.res ps = (true, s2) ∧
                        gatherAll (List.map (fun p => (s2.readPiece (Client.fetch cl x.id) p, p.2.1)) ps) =
                            Gather.ready bytes none ∧
                          decodeBlock x.tag.f64 x.tag.dim x.tag.rate bytes = some d)
    ∧ (∃ (s s1 : State) (cl : ℕ) (x : SqEntry) (p : Patch) (d : Decoded),
        List.find? (fun y => y.id == x.id) (s.cluster cl).sq = some x ∧
        x.op = SqOp.patch p ∧
          mayLeave x (s.cluster cl).sq = true ∧
            (∀ q ∈ p.pieces, ∀ (a : ℕ), q.1 = Loc.home a → s.homeWaits a = false) ∧
              s.readPieces x.bill.part x.bill.sub x.bill.owner x.prio (List.map (fun q => (q.1, 0, q.2)) p.pieces) =
                  (true, s1) ∧
                (∀ q ∈ p.pieces, (s.readLoc q.1 q.2).2 = 0) ∧
                  decodeBlock p.f64 p.dim p.rate (List.flatMap (fun q => (s.readLoc q.1 q.2).1) p.pieces) = some d ∧
                    s.Calm ∧ ∀ r ∈ s.acqs, ∀ q ∈ p.pieces, ∀ (a : ℕ), q.1 = Loc.home a → meets r.obj 64 a q.2 = false) :=
  ⟨⟨z50, z51.2, z52.2, 0, bf, (okPs z51), z53, z54, by and_intros <;> first | decide +kernel | exact pair_of (by decide +kernel) | exact by_dec (letI := @patchAllDec; letI := @homeDec; inferInstance) (by decide +kernel)⟩,
    ⟨z57, _, 0, (sqOf z57), pt, z58, ⟨by decide +kernel, by decide +kernel, by decide +kernel, by_dec (letI := @homeDec; inferInstance) (by decide +kernel), pair_of (by decide +kernel), by decide +kernel, by decide +kernel, by decide +kernel, by_dec (letI := @homeDec; inferInstance) (by decide +kernel)⟩⟩⟩

end Paths

/-! ### States for the witnesses: the Hawk and the matrix engines -/

namespace Engines

def mod (s : State) (f : Thread → Thread) : State := s.onThread K fun _ t => f t
def okPs {β} (x : Acc × β) : List Piece0 := match x.1 with | .ok p => p | _ => []
def mb (s : State) (a : Nat) (bs : List Byte) : State := { s with mem := s.mem.setBytes a bs }
def onBlk (s : State) (f : Block → Block) : State := s.onBlock {launch:=0,block:=0} f
def blk (s : State) : Block := match s.blocks.find {launch:=0,block:=0} with | some b => b | none => { cluster := 0, place := 0, resident := true, scratch := [], poison := [], arrivals := [], starve := 0 }
def spadOf (s : State) (a n : Nat) : Spad := match spadAt (s.env K).rcd (s.env K).bkey a n with | .ok p => p | .error _ => { block := {launch:=9,block:=9}, off := 0, own := false }
def regs (vs : List (Nat × Word32)) (s : State) : State := State.put s K vs
def cl0 (f : Cluster → Cluster) (s : State) : State := s.onCluster 0 f
def ent (etype fmt rank rate ext0 ext1 stride1 base : Nat) : TEntry := BitVec.ofNat 512
  (2^511 + etype*2^400 + fmt*2^404 + (rank-1)*2^408 + rate*2^410 + ext0*2^128 + ext1*2^160 + stride1*2^256 + base)
def ten (id : Nat) (x : TEntry) (s : State) : State := s.setTensor 0 0 id x
def rv (i : Instr) : State := regs [(2, 0x4000), (3,0), (4, 3), (5,1), (6, 0x23), (7,0x9),(10,7)] (one i)
def mdt (f : Thread → Thread) (s : State) : State := mod s f
def hk (f : Hawk → Hawk) (s : State) : State := cl0 (fun c => { c with hawk := f c.hawk }) s
def mx (f : Matrix → Matrix) (s : State) : State := cl0 (fun c => { c with matrix := f c.matrix }) s
def B0 : BKey := {launch:=0,block:=0}
def cp0 : Copy := { id := 50, kind := .one, launch := 0, block := B0, members := [(K, 1)], sk := .mem, src := 0x6000, dk := .spad, dst := 0x45, len := 64, dz := false, lc := 0, et := .raw, ops := 0, aw := none, pos := 0, zsrc := 0, raw := [], out := [], put := 0, dead := none, status := 0, stopped := false, tokens := [] }
def srcOf (x : Except Trap (Int × Nat)) : Int × Nat := match x with | .ok a => a | _ => (0,0)
def sEnt (n : Nat) : List HByte := (List.range n).map fun k => { b := BitVec.ofNat 8 (k+3), mark := 0, pa := 0 }
def fH (et : CopyEt) (dk : CopyDst) (awe : Bool := false) : FHcpy := {g:=0,d:=20,a:=.reg 24,b:=.reg 30,dk:=dk,sk:=.mem,dz:=false,lc:=0,ldef:=false,et:=et,awe:=awe,awoff:=2}
def hv (len src dst ops : Nat) (i : Instr) : State := regs [(20,BitVec.ofNat 32 len),(24,BitVec.ofNat 32 src),(25,0),(26,BitVec.ofNat 32 dst),(27,0),(30,BitVec.ofNat 32 ops),(31,BitVec.ofNat 32 (ops/2^32))] (one i)
def sv2 (s : State) (sk : CopySrc) (len : Nat) : Int × Nat := srcOf (s.copySource (s.env K) sk 0x6000 len 0 false false)
def z3 : State := hv 64 0x6000 0x7000 0xFF (.hcpy (fH .f32 .mem))
def z4 : State := hv 63 0x6000 0x7000 0 (.hcpy (fH .f32 .mem))
def z5 : State := hv 64 0x6000 0x40 0 (.hcpy (fH .raw .spad true))
def z6 : State := hv 0 0x6000 0x40 0 (.hcpy (fH .raw .spad true))
def z7 : State := hk (fun h => { h with copies := (List.range 64).map fun n => { cp0 with id := n } }) (hv 64 0x6000 0x40 0 (.hcpy (fH .raw .spad true)))
def fMc : FHmc := {g:=0,d:=20,a:=.reg 24,b:=.reg 30,lc:=0,awe:=true,awoff:=2}
def fX : FXcpy := {g:=0,d:=20,a:=.reg 24,psel:=true,port:=3,pkt:=2}
def fHr : FHrun := {g:=0,a:=.lit32 0x80,k:=5}
def desc (dk sk : Nat) : Nat := 0x6000 + 0x40*2^64 + 1*2^128 + 2*2^192+2^256+2^320+ dk*2^408 + sk*2^406 + 15*2^418
def wr (a : Nat) (bs : List Byte) (s : State) : State := onBlk s fun b => { b with scratch := b.scratch.setBytes a bs }
def z8 : State := wr 0x20 [0x01,0x80,0,0,0x02,0x83] (hv 64 0x6000 0x40 0x20 (.hmc fMc))
def z9 : State := hv 64 0x6000 0x7000 0 (.xcpy fX)
def z10 : State := wr 0x80 (toBytes 64 (desc 1 0)) (hv 64 0x6000 0x40 0x20 (.hrun fHr))
def z11 : BitVec 512 := (BitVec.ofNat 512 ((blk z10).scratch.le (spadOf z10 0x80 64).off 64))
def z12 : Int × Nat := srcOf (z10.copySource (z10.env K) ((Desc.sk z11).getD .mem) (Desc.src z11) (Desc.len z11) (Desc.lc z11) (Desc.ldef z11) (Desc.dz z11))
def fD1 : FD := {w:=false,g:=0,d:=20}
def fDA : FDA := {w:=false,g:=0,d:=20,a:=.reg 24}
def bt (cs : List Nat) (r : Bool) : Batch := { copies := cs, status := 0x5, reported := r }
def z20 : State := hv 0 3 0 0 (.hseal fD1)
def z21 : State := mdt (fun t => { t with batchNo := 2, batches := [(32771, bt [5] false)] }) (hv 0 3 0 0 (.hseal fD1))
def z23 : State := mdt (fun t => { t with batchNo := 3, batches := [(1, bt [] true),(2, bt [] false),(3, bt [] false),(4, bt [7] false)] }) (hv 0 3 0 0 (.hwait fDA))
def z24 : State := mdt (fun t => { t with batchNo := 3, batches := [(1, bt [] true),(2, bt [6] false),(3, bt [] false),(4, bt [7] false)] }) (hv 0 3 0 0 (.hwait fDA))
def z25 : State := mdt (fun t => { t with batchNo := 2, batches := [(1, bt [] true),(2, bt [6] false),(3, bt [] false),(4, bt [7] false)] }) (hv 0 3 0 0 (.hwait fDA))
def fQ : FQpop := {w:=false,g:=0,d:=20,q:=5}
def fQt : FQpopTry := {w:=false,g:=0,d:=20,q:=5,pr:=3}
def en (n : Nat) : Entry := { bytes := (List.range 256).map fun k => BitVec.ofNat 8 (k+n), mark := 0, paddr := 0 }
def z29 : State := hk (fun h => { h with copies := [], dqs := [((B0,5), en 3 :: []),((B0,4),[])] }) (one (.qpop fQ))
def z33 : State := hk (fun h => { h with copies := [{cp0 with dk := .dq, dst := 5}], dqs := [((B0,5), [])] }) (one (.qpop fQ))
def z34 : State := one (.qpop fQ)
def z35 : State := hk (fun h => { h with copies := [], dqs := [((B0,5), en 3 :: []),((B0,4),[])] }) (one (.qpopTry fQt))
def z39 : State := hk (fun h => { h with copies := [{cp0 with dk := .dq, dst := 5}], dqs := [((B0,5), [])] }) (one (.qpopTry fQt))
def z40 : State := hk (fun h => { h with copies := [{cp0 with out := sEnt 40, put := 3, pos := 43 }, {cp0 with id := 51}] }) (rv (.nop {g:=0}))
def z41 : State := mb (hk (fun h => { h with copies := [cp0, {cp0 with id := 51}] }) (rv (.nop {g:=0}))) 0x6000 [1,2,3,4,5,6,7,8]
def z42 : HGot × State := z41.readPlain 0 cp0
def hb (x : HGot × State) : List HByte := match x.1 with | .bytes b => b | _ => []
def z47 : State := mdt (fun t => { t with batchNo := 3, batches := [(3, {copies := [], status := 0, reported := false}),(4, {copies := [7,50], status := 1, reported := false})] }) (hk (fun h => { h with copies := [{cp0 with put := 64, pos := 64, status := 2, members := [(K, 4)]}, {cp0 with id := 51}], slots := [((B0,1),50),((B0,2),51)] }) (rv (.nop {g:=0})))
def es : List (Nat × BitVec 16) := [(2,0x8000),(5,0x8301)]
def z48 : State := onBlk (hk (fun h => { h with copies := [{cp0 with kind := .multi es [], aw := some 0x20}, {cp0 with id := 51}] }) (rv (.nop {g:=0}))) fun b => {b with scratch := b.scratch.setBytes 0x20 [5,0,0,0,64,0,0,0,0,0,0,0,1,0,0,0]}
def fMk : FDAB := {w:=false,g:=0,d:=20,a:=.reg 24,b:=.lit64 0x500000003}
def ea := ent 0xC 0 2 0 32 64 32 0x10000
def eb := ent 0xD 0 2 0 32 64 32 0x20000
def rec1 : Nat := 0 + 3*2^2 + 7*2^4 + 8*2^14 + 1*2^24 + 9*2^26 + 2*2^32 + 1*2^48 + 2^80
def mv (i : Instr) : State := ten 7 ea (ten 8 eb (regs [(24,BitVec.ofNat 32 rec1),(25,BitVec.ofNat 32 (rec1/2^32)),(26,BitVec.ofNat 32 (rec1/2^64)),(27,0)] (one i)))
def tk (n : Nat) : Task := newTask rec1 n 0 0 ea eb
def z50 : State := mx (fun m => { m with holder := some B0, ctr := 3, tasks := [tk 2] }) (mv (.mtask fMk))
def z53 : State := mx (fun m => { m with holder := some {launch:=0,block:=7} }) (regs [(24,3)] (one (.mwaitSt fDA)))
def z54 : State := mx (fun m => { m with holder := some B0, ctr := 2 }) (regs [(24,3)] (one (.mwaitSt fDA)))
def z56 : State := mx (fun m => { m with holder := some B0, ctr := 4, tasks := [tk 4, tk 3] }) (regs [(24,3)] (one (.mwaitSt fDA)))
def z57 : State := mx (fun m => { m with holder := some B0, ctr := 4, tasks := [tk 4] }) (regs [(24,3)] (one (.mwaitSt fDA)))
def z79 : State := mx (fun m => { m with holder := some B0, ctr := 4, tasks := [tk 4], done := [(3,(5,0x55))] }) (regs [(24,3)] (one (.mwait fDA)))
def fMr (c : AccCvt) (clr : Bool) : FMaccReg := {w:=false,g:=0,d:=20,a:=.reg 24,clr:=clr,cvt:=c,slot:=6,k:=0xFFFFE}
def fMs (c : AccCvt) (clr : Bool) : FMaccSpad := {g:=0,a:=.reg 24,b:=.lit32 0x100,clr:=clr,cvt:=c,slot:=6,k:=0xFFFFE}
def sl (k : SlotKind) : AccSlot := { kind := k, odd := false, tile := (List.range 40).map fun n => (n*2+1, BitVec.ofNat 64 (0x3F810000 + 0x30000 * n)) }
def z89 : State := mx (fun m => { m with holder := some B0, ctr := 4, slots := [(6, sl .fp32),(9, sl .s32)] }) (regs [(24,0x21)] (one (.maccReg (fMr .f32 true))))
def z90 : State := mx (fun m => { m with holder := some B0, ctr := 4, slots := [(6, sl .fp32),(9, sl .s32)] }) (regs [(24,0x41)] (one (.maccSpad (fMs .f32 true))))
def z105 : State := mx (fun m => { m with holder := some B0, ctr := 4, slots := [(6, sl .fp32)], tasks := [{tk 3 with slot := 6, running := true}] }) (regs [(24,0x21)] (one (.maccReg (fMr .f32 true))))
def z105w : State := mx (fun m => { m with holder := some B0, ctr := 4, slots := [(6, sl .fp32)], tasks := [{tk 3 with slot := 6}] }) (regs [(24,0x21)] (one (.maccReg (fMr .f32 true))))
def z106 : Trap := ((z105.cluster 0).matrix.accFault B0 0 6 .f32 true).getD {cause:=0,sub:=0,value:=0}
def fe (n : Nat) : Entry := { bytes := (List.range 1024).map fun k => BitVec.ofNat 8 ((k*n) % 120), mark := 0, paddr := 0 }
def nn : State := rv (.nop {g:=0})
def tr_ (n : Nat) : Task := { tk n with running := true, step := 1 }
def z107 : State := mx (fun m => { m with holder := some B0, ctr := 4, tasks := [{tk 3 with deps := []}, tk 4], fifos := [(2,[fe 3]),(1,[fe 5]),(0,[fe 3]),(3,[fe 3])], slots := [(9, sl .s32),(8,{sl .fp64 with odd := false})] }) nn
def z108 : State := mx (fun m => { m with holder := some B0, ctr := 4, tasks := [{tr_ 3 with deps := []}, tk 4], fifos := [(2,[fe 3]),(1,[fe 5, fe 6]),(0,[fe 3]),(3,[fe 3])], slots := [(9, sl .fp32)] }) nn
def z109 : State := mb (mx (fun m => { m with holder := some B0, ctr := 4, tasks := [{tr_ 3 with deps := [], aScaled := true, aSbase := 0x6000}, tk 4] }) nn) 0x6020 [1,2,3,4,5,6,7,8]
def z110 : Acc × State := z109.checkRead (.task 0 3) (z109.launchWho 0 0) (0x6020 : Int) 32 false
def z111 : HGot × State := z110.2.readFor 0 0 (.task 0 3) (z109.launchWho 0 0) (z109.recOf 0).owner (okPs z110)

/-- States that meet the hypotheses of `CopyInstructions`, clause by clause. -/
theorem witness_CopyInstructions :
    (∃ (f : FHcpy) (s : State) (k : TKey) (t : Thread),
        Alone s k t (Instr.hcpy f) ∧
        let e := s.env k;
        let ops := src64 e t f.b;
        chainBad f.et (BitVec.toNat ops) = true ∧ Traps e t)
    ∧ (∃ (f : FHcpy) (s : State) (k : TKey) (t : Thread),
        Alone s k t (Instr.hcpy f) ∧
        let e := s.env k;
        let len := BitVec.toNat (dst32 e t f.d);
        let ops := src64 e t f.b;
        let aw := f.awoff.toNat * 16;
        chainBad f.et (BitVec.toNat ops) = false ∧
          illFormedCopy e.rcd.scratchBytes len f.dk f.et (BitVec.toNat ops) f.awe aw = true ∧ Traps e t)
    ∧ (∃ (f : FHcpy) (s : State) (k : TKey) (t : Thread) (src : ℤ) (lc : ℕ),
        Alone s k t (Instr.hcpy f) ∧
        let e := s.env k;
        let len := BitVec.toNat (dst32 e t f.d);
        let ops := src64 e t f.b;
        let aw := f.awoff.toNat * 16;
        chainBad f.et (BitVec.toNat ops) = false ∧
          illFormedCopy e.rcd.scratchBytes len f.dk f.et (BitVec.toNat ops) f.awe aw = false ∧
            s.copySource e f.sk (quadLo e t f.a) len f.lc.toNat f.ldef f.dz = Except.ok (src, lc) ∧
              (s.cluster e.cl).hawk.copies.length < 64 ∧ len ≠ 0)
    ∧ (∃ (f : FHcpy) (s : State) (k : TKey) (t : Thread) (src : ℤ) (lc : ℕ),
        Alone s k t (Instr.hcpy f) ∧
        let e := s.env k;
        let len := BitVec.toNat (dst32 e t f.d);
        let ops := src64 e t f.b;
        let aw := f.awoff.toNat * 16;
        chainBad f.et (BitVec.toNat ops) = false ∧
          illFormedCopy e.rcd.scratchBytes len f.dk f.et (BitVec.toNat ops) f.awe aw = false ∧
            s.copySource e f.sk (quadLo e t f.a) len f.lc.toNat f.ldef f.dz = Except.ok (src, lc) ∧
              (s.cluster e.cl).hawk.copies.length < 64 ∧ len = 0)
    ∧ (∃ (f : FHcpy) (s : State) (k : TKey) (t : Thread) (src : ℤ) (lc : ℕ),
        Alone s k t (Instr.hcpy f) ∧
        let e := s.env k;
        let len := BitVec.toNat (dst32 e t f.d);
        let ops := src64 e t f.b;
        let aw := f.awoff.toNat * 16;
        chainBad f.et (BitVec.toNat ops) = false ∧
          illFormedCopy e.rcd.scratchBytes len f.dk f.et (BitVec.toNat ops) f.awe aw = false ∧
            s.copySource e f.sk (quadLo e t f.a) len f.lc.toNat f.ldef f.dz = Except.ok (src, lc) ∧
              64 ≤ (s.cluster e.cl).hawk.copies.length)
    ∧ (∃ (f : FHmc) (s : State) (k : TKey) (t : Thread) (src : ℤ) (lc : ℕ) (p : Spad) (b : Block),
        Alone s k t (Instr.hmc f) ∧
        let e := s.env k;
        let len := BitVec.toNat (dst32 e t f.d);
        let hi := quadHi e t f.a;
        let aw := f.awoff.toNat * 16;
        let list := BitVec.toNat (src32 e t f.b);
        fld hi 19 13 = 0 ∧
          fld hi 32 32 = 0 ∧
            f.awe = true ∧
              list % 32 = 0 ∧
                illFormedCopy e.rcd.scratchBytes len CopyDst.spad CopyEt.raw 0 true aw = false ∧
                  spadAt e.rcd e.bkey list 32 = Except.ok p ∧
                    p.own = true ∧
                      s.copySource e CopySrc.mem (quadLo e t f.a) len f.lc.toNat false false = Except.ok (src, lc) ∧
                        s.blocks.find e.bkey = some b ∧ (s.cluster e.cl).hawk.copies.length < 64 ∧ len ≠ 0)
    ∧ (∃ (f : FXcpy) (s : State) (k : TKey) (t : Thread),
        Alone s k t (Instr.xcpy f) ∧
        let e := s.env k;
        let len := BitVec.toNat (dst32 e t f.d);
        (s.cluster e.cl).hawk.copies.length < 64 ∧ len ≠ 0)
    ∧ (∃ (f : FHrun) (s : State) (k : TKey) (t : Thread) (p : Spad) (b : Block) (sk : CopySrc) (dk : CopyDst) (et : CopyEt) (src : ℤ) (lc : ℕ),
        Alone s k t (Instr.hrun f) ∧
        let e := s.env k;
        let addr := BitVec.toNat (src32 e t f.a);
        let d := BitVec.ofNat 512 (b.scratch.le p.off 64);
        let h := (s.cluster e.cl).hawk;
        t.prog = none ∧ spadAt e.rcd e.bkey addr 64 = Except.ok p ∧
          s.blocks.find e.bkey = some b ∧
            p.own = true ∧
              addr % 64 = 0 ∧
                Desc.bad d = false ∧
                  Desc.sk d = some sk ∧
                    Desc.dk d = some dk ∧
                      Desc.et d = some et ∧
                        chainBad et (BitVec.toNat (Desc.ops d)) = false ∧
                          illFormedCopy e.rcd.scratchBytes (Desc.len d) dk et (BitVec.toNat (Desc.ops d)) (Desc.awe d)
                                (Desc.aw d) =
                              false ∧
                            s.copySource e sk (Desc.src d) (Desc.len d) (Desc.lc d) (Desc.ldef d) (Desc.dz d) =
                                Except.ok (src, lc) ∧
                              h.slots.find (e.bkey, f.k.toNat) = none ∧
                                List.length h.slots < 8 ∧
                                  h.copies.length < 64 ∧
                                    (dk = CopyDst.dq → h.dqs.find (e.bkey, Desc.dst d % 8) ≠ none ∨ List.length h.dqs < 8)) :=
  ⟨⟨(fH .f32 .mem), z3, K, (thr z3), alone_and (by decide +kernel)⟩,
    ⟨(fH .f32 .mem), z4, K, (thr z4), alone_and (by decide +kernel)⟩,
    ⟨(fH .raw .spad true), z5, K, (thr z5), (sv2 z5 .mem 64).1, (sv2 z5 .mem 64).2, alone_and (by decide +kernel)⟩,
    ⟨(fH .raw .spad true), z6, K, (thr z6), (sv2 z6 .mem 0).1, (sv2 z6 .mem 0).2, alone_and (by decide +kernel)⟩,
    ⟨(fH .raw .spad true), z7, K, (thr z7), (sv2 z7 .mem 64).1, (sv2 z7 .mem 64).2, alone_and (by decide +kernel)⟩,
    ⟨fMc, z8, K, (thr z8), (sv2 z8 .mem 64).1, (sv2 z8 .mem 64).2, (spadOf z8 0x20 32), (blk z8), alone_and (by decide +kernel)⟩,
    ⟨fX, z9, K, (thr z9), alone_and (by decide +kernel)⟩,
    ⟨fHr, z10, K, (thr z10), (spadOf z10 0x80 64), (blk z10), ((Desc.sk z11).getD .mem), ((Desc.dk z11).getD .mem), ((Desc.et z11).getD .raw), z12.1, z12.2, alone_and (by decide +kernel)⟩⟩

def dzd : State :=
  let s := wr 0x80 (toBytes 64 (desc 1 0 + 2 ^ 414)) (hv 64 0x6000 0x40 0x20 (.hrun fHr))
  { s with mgmt := { s.mgmt with accept := 0x37 } }
def dzw : BitVec 512 := BitVec.ofNat 512 ((blk dzd).scratch.le (spadOf dzd 0x80 64).off 64)

/-- A state that meets the hypotheses of `CopyInstructions`'s clause about an `hrun` with DZ. -/
theorem witness_CopyInstructions_dz : ∃ (f : FHrun) (s : State) (k : TKey) (t : Thread) (p : Spad) (b : Block) (sk : CopySrc)
    (dk : CopyDst) (et : CopyEt), Alone s k t (.hrun f) ∧
    let e := s.env k
    let addr := (src32 e t f.a).toNat
    let d : BitVec 512 := BitVec.ofNat 512 (b.scratch.le p.off 64)
    t.prog = none ∧ spadAt e.rcd e.bkey addr 64 = .ok p ∧ s.blocks.find e.bkey = some b ∧ p.own = true ∧ addr % 64 = 0 ∧ Desc.bad d = false
      ∧ Desc.sk d = some sk ∧ Desc.dk d = some dk ∧ Desc.et d = some et ∧ Desc.dz d = true ∧ e.has 3 = false ∧ Traps e t :=
  ⟨fHr, dzd, K, thr dzd, spadOf dzd 0x80 64, blk dzd, (Desc.sk dzw).getD .mem, (Desc.dk dzw).getD .mem, (Desc.et dzw).getD .raw,
    alone_and (by decide +kernel)⟩

def z10w : State := hk (fun h => { h with slots := [((B0,5),50)] }) z10
def z10p : State := mdt (fun t => { t with prog := some { desc := z11, src := z12.1, lc := z12.2 } }) z10

/-- States that meet the hypotheses of `CopyInstructions`'s clauses about an `hrun` that waits. -/
theorem witness_CopyInstructions_wait : (∃ (f : FHrun) (s : State) (k : TKey) (t : Thread) (p : Spad) (b : Block) (sk : CopySrc)
    (dk : CopyDst) (et : CopyEt) (src : ℤ) (lc : ℕ), Alone s k t (.hrun f) ∧
    let e := s.env k
    let addr := (src32 e t f.a).toNat
    let d : BitVec 512 := BitVec.ofNat 512 (b.scratch.le p.off 64)
    let h := (s.cluster e.cl).hawk
    t.prog = none ∧ spadAt e.rcd e.bkey addr 64 = .ok p ∧ s.blocks.find e.bkey = some b ∧ p.own = true ∧ addr % 64 = 0 ∧ Desc.bad d = false
      ∧ Desc.sk d = some sk ∧ Desc.dk d = some dk ∧ Desc.et d = some et ∧ (Desc.dz d = true → e.has 3 = true)
      ∧ chainBad et (Desc.ops d).toNat = false
      ∧ illFormedCopy e.rcd.scratchBytes (Desc.len d) dk et (Desc.ops d).toNat (Desc.awe d) (Desc.aw d) = false
      ∧ s.copySource e sk (Desc.src d) (Desc.len d) (Desc.lc d) (Desc.ldef d) (Desc.dz d) = .ok (src, lc)
      ∧ (h.slots.find (e.bkey, f.k.toNat) ≠ none ∨ 8 ≤ List.length h.slots ∨ 64 ≤ h.copies.length
        ∨ dk = .dq ∧ h.dqs.find (e.bkey, Desc.dst d % 8) = none ∧ 8 ≤ List.length h.dqs))
    ∧ ∃ (f : FHrun) (s : State) (k : TKey) (t : Thread) (x : Program) (sk : CopySrc) (dk : CopyDst) (et : CopyEt), Alone s k t (.hrun f) ∧
    let e := s.env k
    let h := (s.cluster e.cl).hawk
    let d := x.desc
    t.prog = some x ∧ Desc.sk d = some sk ∧ Desc.dk d = some dk ∧ Desc.et d = some et
      ∧ h.slots.find (e.bkey, f.k.toNat) = none ∧ List.length h.slots < 8 ∧ h.copies.length < 64
      ∧ (dk = .dq → h.dqs.find (e.bkey, Desc.dst d % 8) ≠ none ∨ List.length h.dqs < 8) :=
  ⟨⟨fHr, z10w, K, (thr z10w), (spadOf z10w 0x80 64), (blk z10w), ((Desc.sk z11).getD .mem), ((Desc.dk z11).getD .mem), ((Desc.et z11).getD .raw), z12.1, z12.2, alone_and (by decide +kernel)⟩,
    ⟨fHr, z10p, K, (thr z10p), { desc := z11, src := z12.1, lc := z12.2 }, ((Desc.sk z11).getD .mem), ((Desc.dk z11).getD .mem), ((Desc.et z11).getD .raw), alone_and (by decide +kernel)⟩⟩

/-- States that meet the hypotheses of `Batches`, clause by clause. -/
theorem witness_Batches :
    (∃ (f : FD) (s : State) (k : TKey) (t : Thread),
        Alone s k t (Instr.hseal f) ∧ (t.batch ((t.batchNo + 1 + 32768) % 65536)).copies = [])
    ∧ (∃ (f : FD) (s : State) (k : TKey) (t : Thread),
        Alone s k t (Instr.hseal f) ∧ (t.batch ((t.batchNo + 1 + 32768) % 65536)).copies ≠ [])
    ∧ (∃ (f : FDA) (waits : Bool) (s : State) (k : TKey) (t : Thread),
        let i := if waits = true then Instr.hwait f else Instr.htest f;
      let e := s.env k;
      let n := BitVec.toNat (src32 e t f.a) % 65536;
      Alone s k t i ∧ (t.batchNo + 65536 - n) % 65536 < 32768 ∧ ∀ p ∈ t.covered n, p.2.copies = [])
    ∧ (∃ (f : FDA) (waits : Bool) (s : State) (k : TKey) (t : Thread),
        let i := if waits = true then Instr.hwait f else Instr.htest f;
      let e := s.env k;
      let n := BitVec.toNat (src32 e t f.a) % 65536;
      Alone s k t i ∧ (t.batchNo + 65536 - n) % 65536 < 32768 ∧ ∃ p ∈ t.covered n, p.2.copies ≠ [])
    ∧ (∃ (f : FDA) (waits : Bool) (s : State) (k : TKey) (t : Thread),
        let i := if waits = true then Instr.hwait f else Instr.htest f;
      let e := s.env k;
      let n := BitVec.toNat (src32 e t f.a) % 65536;
      Alone s k t i ∧ 32768 ≤ (t.batchNo + 65536 - n) % 65536 ∧ Traps e t) :=
  ⟨⟨fD1, z20, K, (thr z20), alone_and (by decide +kernel)⟩,
    ⟨fD1, z21, K, (thr z21), alone_and (by decide +kernel)⟩,
    ⟨fDA, true, z23, K, (thr z23), alone_and (by decide +kernel)⟩,
    ⟨fDA, true, z24, K, (thr z24), alone_and (by decide +kernel)⟩,
    ⟨fDA, true, z25, K, (thr z25), alone_and (by decide +kernel)⟩⟩

/-- States that meet the hypotheses of `DeliveryQueues`, clause by clause. -/
theorem witness_DeliveryQueues :
    (∃ (f : FQpop) (s : State) (k : TKey) (t : Thread) (x : Entry) (rest : List Entry),
        Alone s k t (Instr.qpop f) ∧
        let e := s.env k;
        let h := (s.cluster e.cl).hawk;
        let q := f.q.toNat;
        h.dqs.get (e.bkey, q) [] = x :: rest ∧ x.mark = 0 ∧ s.qpopAhead e.bkey q (t.qpopOrder s.serial) = false)
    ∧ (∃ (f : FQpop) (s : State) (k : TKey) (t : Thread),
        Alone s k t (Instr.qpop f) ∧
        let e := s.env k;
        let h := (s.cluster e.cl).hawk;
        let q := f.q.toNat;
        h.dqs.get (e.bkey, q) [] = [] ∧ (h.copies.any fun c => c.feeds e.bkey q) = true)
    ∧ (∃ (f : FQpop) (s : State) (k : TKey) (t : Thread),
        Alone s k t (Instr.qpop f) ∧
        let e := s.env k;
        let h := (s.cluster e.cl).hawk;
        let q := f.q.toNat;
        h.dqs.get (e.bkey, q) [] = [] ∧ (h.copies.any fun c => c.feeds e.bkey q) = false ∧ Traps e t)
    ∧ (∃ (f : FQpopTry) (s : State) (k : TKey) (t : Thread) (x : Entry) (rest : List Entry),
        Alone s k t (Instr.qpopTry f) ∧
        let e := s.env k;
        let h := (s.cluster e.cl).hawk;
        let q := f.q.toNat;
        h.dqs.get (e.bkey, q) [] = x :: rest ∧ x.mark = 0)
    ∧ (∃ (f : FQpopTry) (s : State) (k : TKey) (t : Thread),
        Alone s k t (Instr.qpopTry f) ∧
        let e := s.env k;
        let h := (s.cluster e.cl).hawk;
        let q := f.q.toNat;
        h.dqs.get (e.bkey, q) [] = []) :=
  ⟨⟨fQ, z29, K, (thr z29), (en 3), [], alone_and (by decide +kernel)⟩,
    ⟨fQ, z33, K, (thr z33), alone_and (by decide +kernel)⟩,
    ⟨fQ, z34, K, (thr z34), alone_and (by decide +kernel)⟩,
    ⟨fQt, z35, K, (thr z35), (en 3), [], alone_and (by decide +kernel)⟩,
    ⟨fQt, z39, K, (thr z39), alone_and (by decide +kernel)⟩⟩

/-- States that meet the hypotheses of `HawkMoves`, clause by clause. -/
theorem witness_HawkMoves :
    (∃ (s : State) (cl : ℕ) (c : Copy) (p : Spad) (b : Block),
        List.find? (fun y => y.id == c.id) (s.cluster cl).hawk.copies = some c ∧
        s.copyMoves c = true ∧
          c.tokens = [] ∧
            c.kind = CopyKind.one ∧
              c.dk = CopyDst.spad ∧
                c.out ≠ [] ∧
                  c.aw = none ∧
                    let a := (c.dst + c.put) % 2 ^ 32;
                    let n := min c.out.length (32 - a % 32);
                    spadAt (s.recOf c.launch) c.block a n = Except.ok p ∧ s.blocks.find p.block = some b ∧ b.arrivals = [])
    ∧ (∃ (s s1 : State) (cl : ℕ) (c : Copy) (bs : List HByte),
        List.find? (fun y => y.id == c.id) (s.cluster cl).hawk.copies = some c ∧
        s.copyMoves c = true ∧
          c.tokens = [] ∧
            c.ready = false ∧ c.dead = none ∧ c.pos < c.len ∧ c.dz = false ∧ s.readPlain cl c = (HGot.bytes bs, s1))
    ∧ (∃ (s : State) (cl : ℕ) (c : Copy) (m : TKey × ℕ) (t : Thread) (b : Batch),
        List.find? (fun y => y.id == c.id) (s.cluster cl).hawk.copies = some c ∧
        s.copyDone cl c = true ∧ c.members = [m] ∧ s.threads.find m.1 = some t ∧ t.batches.find m.2 = some b)
    ∧ (∃ (s : State) (cl entry : ℕ) (c : Copy) (es : List (ℕ × BitVec 16)) (acc : List BKey) (p : ℕ × BitVec 16) (b : BKey),
        List.find? (fun y => y.id == c.id) (s.cluster cl).hawk.copies = some c ∧
        c.kind = CopyKind.multi es acc ∧ List.find? (fun q => q.1 == entry) es = some p ∧ s.receiver cl c p.2 = some b)
    ∧ (∃ (s : State) (cl entry : ℕ) (c : Copy) (es : List (ℕ × BitVec 16)) (acc : List BKey) (p : ℕ × BitVec 16),
        List.find? (fun y => y.id == c.id) (s.cluster cl).hawk.copies = some c ∧
        c.kind = CopyKind.multi es acc ∧ List.find? (fun q => q.1 == entry) es = some p ∧ s.receiver cl c p.2 = none) :=
  ⟨⟨z40, 0, {cp0 with out := sEnt 40, put := 3, pos := 43 }, (spadOf z40 0x48 24), (blk z40), by decide +kernel⟩,
    ⟨z41, z42.2, 0, cp0, (hb z42), by and_intros <;> first | decide +kernel | exact pair_of (by decide +kernel)⟩,
    ⟨z47, 0, {cp0 with put := 64, pos := 64, status := 2, members := [(K, 4)]}, (K,4), (thr z47), {copies := [7,50], status := 1, reported := false}, by decide +kernel⟩,
    ⟨z48, 0, 2, {cp0 with kind := .multi es [], aw := some 0x20}, es, [], (2,0x8000), B0, by decide +kernel⟩,
    ⟨z48, 0, 5, {cp0 with kind := .multi es [], aw := some 0x20}, es, [], (5,0x8301), by decide +kernel⟩⟩

/-- States that meet the hypotheses of `MatrixInstructions`, clause by clause. -/
theorem witness_MatrixInstructions :
    (∃ (f : FDAB) (s : State) (k : TKey) (t : Thread),
        Alone s k t (Instr.mtask f) ∧
        let e := s.env k;
        let r := BitVec.toNat (src128 e t f.a);
        let x := s.tensor e.part e.ctx (fld r 4 10);
        let y := s.tensor e.part e.ctx (fld r 14 10);
        let m := (s.cluster e.cl).matrix;
        let no := (m.counter + 1) % 65536;
        x.v = true ∧
          y.v = true ∧
            operandFits x y = true ∧
              operandFits y x = true ∧
                recordBad r x y = false ∧
                  (∀ d ∈ recordDeps r, depBad no d = false) ∧ m.heldByOther e.bkey = false ∧ m.tasks.length < 16)
    ∧ (∃ (f : FDA) (quiet : Bool) (s : State) (k : TKey) (t : Thread),
        let i := if quiet = true then Instr.mwaitSt f else Instr.mwait f;
      let e := s.env k;
      let m := (s.cluster e.cl).matrix;
      Alone s k t i ∧ m.heldByOther e.bkey = true ∧ Traps e t)
    ∧ (∃ (f : FDA) (quiet : Bool) (s : State) (k : TKey) (t : Thread),
        let i := if quiet = true then Instr.mwaitSt f else Instr.mwait f;
      let e := s.env k;
      let n := BitVec.toNat (src32 e t f.a) % 65536;
      let m := (s.cluster e.cl).matrix;
      Alone s k t i ∧ m.heldByOther e.bkey = false ∧ 32768 ≤ (m.counter + 65536 - n) % 65536 ∧ Traps e t)
    ∧ (∃ (f : FDA) (quiet : Bool) (s : State) (k : TKey) (t : Thread),
        let i := if quiet = true then Instr.mwaitSt f else Instr.mwait f;
      let e := s.env k;
      let n := BitVec.toNat (src32 e t f.a) % 65536;
      let m := (s.cluster e.cl).matrix;
      Alone s k t i ∧
        m.holder = some e.bkey ∧ (m.ctr + 65536 - n) % 65536 < 32768 ∧ ∃ u ∈ m.tasks, (n + 65536 - u.no) % 65536 < 32768)
    ∧ (∃ (f : FDA) (quiet : Bool) (s : State) (k : TKey) (t : Thread) (st : Word32) (pa : Word64),
        let i := if quiet = true then Instr.mwaitSt f else Instr.mwait f;
      let e := s.env k;
      let n := BitVec.toNat (src32 e t f.a) % 65536;
      let m := (s.cluster e.cl).matrix;
      Alone s k t i ∧
        m.holder = some e.bkey ∧
          (m.ctr + 65536 - n) % 65536 < 32768 ∧
            (∀ u ∈ m.tasks, 32768 ≤ (n + 65536 - u.no) % 65536) ∧
              m.done.get n (1, 0) = (st, pa) ∧ (quiet = true ∨ statusFailed st = false))
    ∧ (∃ (f : FDA) (quiet : Bool) (s : State) (k : TKey) (t : Thread) (st : Word32) (pa : Word64) (sub : ℕ),
        let i := if quiet = true then Instr.mwaitSt f else Instr.mwait f;
      let e := s.env k;
      let n := BitVec.toNat (src32 e t f.a) % 65536;
      let m := (s.cluster e.cl).matrix;
      Alone s k t i ∧
        m.holder = some e.bkey ∧
          (m.ctr + 65536 - n) % 65536 < 32768 ∧
            (∀ u ∈ m.tasks, 32768 ≤ (n + 65536 - u.no) % 65536) ∧
              m.done.get n (1, 0) = (st, pa) ∧
                quiet = false ∧ BitVec.getLsbD st 4 = false ∧ Traps e t ∧ failSub st = some sub)
    ∧ (∃ (f : FMaccReg) (s : State) (k : TKey) (t : Thread),
        Alone s k t (Instr.maccReg f) ∧
        let e := s.env k;
        let m := (s.cluster e.cl).matrix;
        let n := f.slot.toNat;
        m.holder = some e.bkey ∧ m.accFault e.bkey e.cl n f.cvt f.clr = none)
    ∧ (∃ (f : FMaccSpad) (s : State) (k : TKey) (t : Thread) (p : Spad) (b : Block),
        Alone s k t (Instr.maccSpad f) ∧
        let e := s.env k;
        let m := (s.cluster e.cl).matrix;
        let d := BitVec.toNat (src32 e t f.a);
        let n := fld d 5 6;
        let w := accWidth f.cvt;
        let addr := BitVec.toNat (src32 e t f.b);
        m.holder = some e.bkey ∧
          m.accFault e.bkey e.cl f.slot.toNat f.cvt f.clr = none ∧
            fld d 11 21 = 0 ∧
              n ≠ 0 ∧
                fld d 0 5 + n ≤ 32 ∧
                  spadAt e.rcd e.bkey addr (32 * w * n) = Except.ok p ∧
                    p.own = true ∧ addr % w = 0 ∧ s.blocks.find e.bkey = some b ∧ b.arrivals = [])
    ∧ (∃ (f : FMaccReg) (s : State) (k : TKey) (t : Thread) (tr : Trap),
        Alone s k t (Instr.maccReg f) ∧
        let e := s.env k;
        let m := (s.cluster e.cl).matrix;
        let n := f.slot.toNat;
        m.holder = some e.bkey ∧ m.accFault e.bkey e.cl n f.cvt f.clr = some tr ∧ Traps e t)
    ∧ (∃ (f : FMaccReg) (s : State) (k : TKey) (t : Thread),
        Alone s k t (Instr.maccReg f) ∧
        let e := s.env k;
        let m := (s.cluster e.cl).matrix;
        let n := f.slot.toNat;
        m.holder = some e.bkey ∧ (m.slot n).odd = false ∧ (m.slot n).kind ≠ SlotKind.fp64 ∧ ∃ u ∈ m.tasks, u.slot = n ∧ (u.running = true ∨ f.clr = false))
    ∧ (∃ (f : FMaccReg) (s : State) (k : TKey) (t : Thread),
        Alone s k t (Instr.maccReg f) ∧
        let e := s.env k;
        let m := (s.cluster e.cl).matrix;
        let n := f.slot.toNat;
        m.holder = some e.bkey ∧ (m.slot n).odd = false ∧ (m.slot n).kind ≠ SlotKind.fp64 ∧ (∃ u ∈ m.tasks, u.slot = n)
          ∧ ∀ u ∈ m.tasks, u.slot = n → u.running = false ∧ f.clr = true) :=
  ⟨⟨fMk, z50, K, (thr z50), alone_and (by decide +kernel)⟩,
    ⟨fDA, true, z53, K, (thr z53), alone_and (by decide +kernel)⟩,
    ⟨fDA, true, z54, K, (thr z54), alone_and (by decide +kernel)⟩,
    ⟨fDA, true, z56, K, (thr z56), alone_and (by decide +kernel)⟩,
    ⟨fDA, true, z57, K, (thr z57), 1, 0, alone_and (by decide +kernel)⟩,
    ⟨fDA, false, z79, K, (thr z79), 5, 0x55, ((failSub 5).getD 0), alone_and (by decide +kernel)⟩,
    ⟨(fMr .f32 true), z89, K, (thr z89), alone_and (by decide +kernel)⟩,
    ⟨(fMs .f32 true), z90, K, (thr z90), (spadOf z90 0x100 (32*4*2)), (blk z90), alone_and (by decide +kernel)⟩,
    ⟨(fMr .f32 true), z105, K, (thr z105), z106, alone_and (by decide +kernel)⟩,
    ⟨(fMr .f32 true), z105, K, (thr z105), alone_and (by decide +kernel)⟩,
    ⟨(fMr .f32 true), z105w, K, (thr z105w), alone_and (by decide +kernel)⟩⟩

def start (t : Task) (k : SlotKind) : State := mx (fun m => { m with holder := some B0, ctr := 4, tasks := [t, tk 4], fifos := [(2,[fe 3]),(1,[fe 5]),(0,[fe 3]),(3,[fe 3])], slots := [(t.slot, sl k),(8,{sl .fp64 with odd := false})], done := [(1,(4,0x55))] }) nn
def tkOf (op : BitVec 2) (ty slot : Nat) (deps : List Nat) : Task := { tk 3 with op := op, aTy := ty, bTy := ty, slot := slot, deps := deps }

/-- States that meet the hypotheses of `MatrixMoves`'s clauses about a task that starts: its dependence failed, `.skip`, `.mac` on its
kind and on another, `.mul` of FP64 and on a slot of a pair. -/
theorem witness_MatrixMoves_start :
    let starts := fun (s : State) (t : Task) => (s.cluster 0).matrix.next 1 = some t ∧ t.fail = none ∧ (s.cluster 0).matrix.depFailed t = false
    (∃ s t, (State.cluster s 0).matrix.next 1 = some t ∧ t.fail = none ∧ (s.cluster 0).matrix.depFailed t = true)
    ∧ (∃ s t, starts s t ∧ t.op = 2)
    ∧ (∃ s t, starts s t ∧ t.op = 1 ∧ ((s.cluster 0).matrix.slot t.slot).kind = t.pair.2)
    ∧ (∃ s t, starts s t ∧ t.op = 1 ∧ ((s.cluster 0).matrix.slot t.slot).kind ≠ t.pair.2)
    ∧ (∃ s t, starts s t ∧ t.op = 0 ∧ t.pair.2 = .fp64 ∧ t.slot % 2 = 0)
    ∧ ∃ s t, starts s t ∧ t.op = 0 ∧ t.pair.2 ≠ .fp64 ∧ ((s.cluster 0).matrix.slot t.slot).kind = .fp64 :=
  ⟨⟨start (tkOf 0 12 9 [1]) .s32, tkOf 0 12 9 [1], by decide +kernel⟩, ⟨start (tkOf 2 12 9 []) .s32, tkOf 2 12 9 [], by decide +kernel⟩,
    ⟨start (tkOf 1 12 9 []) .fp32, tkOf 1 12 9 [], by decide +kernel⟩, ⟨start (tkOf 1 12 9 []) .s32, tkOf 1 12 9 [], by decide +kernel⟩,
    ⟨start (tkOf 0 11 8 []) .s32, tkOf 0 11 8 [], by decide +kernel⟩, ⟨start (tkOf 0 12 9 []) .fp64, tkOf 0 12 9 [], by decide +kernel⟩⟩

/-- States that meet the hypotheses of `MatrixMoves`, clause by clause. -/
theorem witness_MatrixMoves :
    (∃ (s : State) (cl eng : ℕ) (t : Machine.Task),
        let m := (s.cluster cl).matrix;
      m.next eng = some t ∧ t.fail = none ∧ m.depFailed t = false ∧ t.op = 0 ∧ t.pair.2 ≠ SlotKind.fp64 ∧ (m.slot t.slot).kind ≠ .fp64)
    ∧ (∃ (s : State) (cl eng : ℕ) (t : Machine.Task) (a b : Entry) (arest brest : List Entry),
        let m := (s.cluster cl).matrix;
      let n := t.pair.1;
      let rows := operandRows t.aTy n a.bytes [] (t.step % 4);
      let cols := operandRows t.bTy n b.bytes [] 0;
      let old := (m.slot t.slot).tile;
      m.onEngine eng = some t ∧
        (s.cluster cl).freeze = none ∧
          t.freshA = true ∧
            t.fail = none ∧
              t.op ≠ 2 ∧
                m.fifo t.fifoA = a :: arest ∧
                  m.fifo t.fifoB = b :: brest ∧
                    a.mark = 0 ∧
                      b.mark = 0 ∧
                        t.aScaled = false ∧
                          t.bScaled = false ∧
                            t.scales = none ∧
                              (t.tol = 3 ∨
                                stepBad t.pair.2 t.tol old (stepTile t.pair.2 old rows cols) rows cols n = false))
    ∧ (∃ (s s1 s2 : State) (cl eng : ℕ) (t : Machine.Task) (b : BKey) (ps : List Piece0) (hb : List HByte),
        let m := (s.cluster cl).matrix;
      let w := s.launchWho b.launch cl;
      m.onEngine eng = some t ∧
        m.holder = some b ∧
          t.tokens = [] ∧
            t.fail = none ∧
              t.op ≠ 2 ∧
                t.aScaled = true ∧
                  t.bScaled = false ∧
                    t.scales = none ∧
                      s.checkRead (Client.task cl t.no) w (↑(BitVec.toNat t.aSbase + t.asoff + 32 * t.step)) 32 false = (Acc.ok ps, s1) ∧
                        s1.readFor cl t.since (Client.task cl t.no) w (s.recOf b.launch).owner ps = (HGot.bytes hb, s2) ∧
                          ∀ x ∈ hb, x.mark = 0) :=
  ⟨⟨z107, 0, 1, {tk 3 with deps := []}, by decide +kernel⟩,
    ⟨z108, 0, 1, {tr_ 3 with deps := []}, (fe 3), (fe 5), [], [fe 6], by decide +kernel⟩,
    ⟨z109, z110.2, z111.2, 0, 1, {tr_ 3 with deps := [], aScaled := true, aSbase := 0x6000}, B0, (okPs z110), (hb z111), by and_intros <;> first | decide +kernel | exact pair_of (by decide +kernel)⟩⟩

end Engines

/-! ### States for the witnesses: Scrim -/

namespace Links

def sq1 (id : Nat) (a : Loc) : SqEntry := { id := id, key := K, who := some (1, 0), counted := true, bill := { part := 0, sub := 0, owner := 0, ctx := 0 }, port := none, copy := none, strm := some 0, prio := 3, loc := a, va := 0x5000, n := 4, op := .write [1,2,3,4] 0, tag := none }
def withSq (s : State) (l : List SqEntry) : State := s.onCluster 0 fun c => { c with sq := l }
def mb (s : State) (a : Nat) (bs : List Byte) : State := { s with mem := s.mem.setBytes a bs }
def regs (vs : List (Nat × Word32)) (s : State) : State := State.put s K vs
def cl0 (f : Cluster → Cluster) (s : State) : State := s.onCluster 0 f
def rv (i : Instr) : State := regs [(2, 0x4000), (3,0), (4, 3), (5,1), (6, 0x23), (7,0x9),(10,7)] (one i)
def img (f : Image → Image) (s : State) : State := { s with mgmt := { s.mgmt with image := f s.mgmt.image } }
def rangeE (base size kind dev : Nat) : RangeE := BitVec.ofNat 256 (base + size * 2^64 + kind * 2^192 + 3*2^202 + dev * 2^216)
def PP : Nat := 3
def net (s : State) : State := img (fun i => { i with accepted := true, dev := 9, ranges := [rangeE 0x4000 0x10000 2 7], ports := [0,0,0,1,0,0,0,0] }) s
def prt (f : Port → Port) (s : State) : State := (s.setPort PP (f (s.port PP))).setPort 4 Port.reset
def upP (p : Port) : Port := { p with state := 1, paused := false, nextSeq := 5, expect := 9, gotAny := true }
def hd (a kind sub len : Nat) : Word128 := txHeader a 7 0x33 kind sub len
def msg (kind a sub : Nat) (len : Nat) (d : List Byte) (s : State) : State := net (prt (fun p => { upP p with inbox := [{ hdr := hd a kind sub len, data := d }, { hdr := hd 1 0 0 4, data := [] }], tags := [(0x33, .posted), (0x44, .posted)] }) s)
def tagd (u : TagUse) (s : State) : State := prt (fun p => { p with tags := [(0x33, u), (0x44, .posted)] }) s
def X (kind a sub len : Nat) (d : List Byte) : ScrimTx := { hdr := hd a kind sub len, data := d }
def nn : State := rv (.nop {g:=0})
def z1 : State := msg 0 0x4010 0 8 [] (mb nn 0x4010 [1,2,3,4,5,6,7,8])
def z2 : State := msg 0 0x14010 0 8 [] nn
def z3 : State := { msg 0 0x4010 0 8 [] nn with reloading := [(0,0)] }
def z4 : State := msg 1 0x4020 0 64 ((List.range 64).map (BitVec.ofNat 8)) (mb nn 0x4010 [1,2,3,4,5,6,7,8])
def z6 : State := msg 1 0x14010 0 2 [1,2] nn
def z7 : State := { msg 1 0x4010 0 2 [1,2] nn with reloading := [(0,0)] }
def z8 : State := msg 2 0x4010 0 4 [1,2,3,4] (mb nn 0x4010 [1,2,3,4,5,6,7,8])
def z12 : State := msg 2 0x4012 0 4 [1,2,3,4] nn
def z13 : State := msg 3 0x4040 0 8 [5,0,0,0,0,0,0,0] nn
def z14 : State := mb (msg 3 0x4040 0 8 [5,0,0,0,0,0,0,0] nn) 0x4047 [0x80]
def z18 : State := mb (msg 3 0x4040 2 8 [5,0,0,0,0,0,0,0] nn) 0x4047 [0x80]
def z21 : State := msg 3 0x4041 0 8 [5,0,0,0,0,0,0,0] nn
def z24 : State := mb (msg 4 0x4040 0 8 [5,0,0,0,0,0,0,0] nn) 0x4040 [1]
def z25 : State := msg 4 0x4040 0 8 [5,0,0,0,0,0,0,0] nn
def z26 : State := msg 4 0x4041 0 8 [5,0,0,0,0,0,0,0] nn
def z27 : State := { msg 9 0x4040 0 0 [] nn with acqs := [{obj := 0x4040, va := 0x4040, excl := true, who := .peer 3 0x33 7 5},{obj := 0x4040, va := 0x4040, excl := true, who := .peer 3 0x34 7 5}] }
def z28 : State := { msg 9 0x4040 0 0 [] nn with acqs := [{obj := 0x4040, va := 0x4040, excl := true, who := .peer 3 0x34 7 5}] }
def z29 : State := msg 9 0x14040 0 0 [] nn
def pl (at_ : Bool) (ty : MemTy := .b32): PendLoad := { (newLoad 77 K 0x1000 ty .none 3 (some 30) [(.peer 0x900, 0x5000, ty.bytes)] []) with atomic := at_ }
def pc1 (n : Nat) : Piece := { loc := .peer 0x900, va := 0x5000, n := n, got := none, mark := 0, tag := none, taken := [] }
def z30 : State := { tagd (.load 77 0) (msg 5 0 0 1 [0x81] nn) with loads := [pl false .s8, {pl false with id := 78}] }
def z32 : State := { tagd (.read (.image 2) 5) (msg 5 0 1 2 [7,8] nn) with peerReads := [{client := .image 2, pa := 5, n := 2, answer := none},{client := .image 3, pa := 5, n := 2, answer := none}] }
def z33 : State := withSq (tagd (.store 0 3) (msg 6 0 0 0 [] nn)) [sq1 3 (.peer 5), sq1 4 (.peer 9)]
def z34 : State := withSq (tagd (.store 0 3) (msg 6 0 2 0 [] nn)) [sq1 3 (.peer 5), sq1 4 (.peer 9)]
def cp0 : Copy := { id := 50, kind := .packets true 3 512, launch := 0, block := {launch:=0,block:=0}, members := [(K, 1)], sk := .mem, src := 0x6000, dk := .mem, dst := 0x45, len := 64, dz := false, lc := 0, et := .raw, ops := 0, aw := none, pos := 0, zsrc := 0, raw := [], out := [], put := 0, dead := none, status := 0, stopped := false, tokens := [] }
def yc : SqEntry := { sq1 3 (.peer 5) with counted := false, copy := some 50 }
def bt1 : Batch := { copies := [50], status := 0, reported := false }
def z35 : State := (cl0 (fun c => {c with hawk := {c.hawk with copies := [cp0]}}) (withSq (tagd (.store 0 3) (msg 6 0 2 0 [] nn)) [yc, sq1 4 (.peer 9)])).onThread K fun _ t => { t with batches := [(1, bt1)] }
def z36 : State := { withSq (tagd (.atomic 0 3) (msg 7 0 0 4 [1,2,3,4] nn)) [{ sq1 3 (.peer 5) with op := .atomic .add false 5 0 77 }, sq1 4 (.peer 9)] with loads := [pl true] }
def l1s : L1Sector := { sector := 5, bytes := [], marks := 0 }
def z37 : State := cl0 (fun c => {c with l1 := [l1s]}) ((tagd (.sync K true 0x900 0x5000 none 0x1010 false) (msg 8 0 0 0 [] nn)).onThread K fun _ t => {t with wait := {kind := .peerSync 0x33, counts := true}})
def z39 : State := cl0 (fun c => {c with l1 := [l1s]}) ((tagd (.sync K true 0x900 0x5000 (some ({c:=true,n:=4},false)) 0x1010 false) (msg 8 0 3 0 [] nn)).onThread K fun _ t => {t with wait := {kind := .peerSync 0x33, counts := true}})
def kp (n : Nat) : BitVec 2048 := flitOf (flitLow (BitVec.ofNat 12 n) 3 true false 0 0) []
def pz (st : BitVec 2) (ps : Bool) : State := { net (prt (fun p => { upP p with state := st, paused := ps, kept := [kp 3, kp 4], failmask := 0x0100 }) nn) with mgmt := { (net nn).mgmt with ready := (net nn).mgmt.ready ||| BitVec.ofNat 128 (2^13) } }
def z43 : State := pz 1 false
def tx1 : List Byte := txBytes (hd 0x4010 1 0 4) [1,2,3,4]
def z44 : State := pz 1 false
def z45 : State := pz 1 true
def z46 : State := pz 2 false
/-- A flit whose CRC has its lowest bit wrong. -/
def badFlit : BitVec 2048 :=
  BitVec.ofNat 1920 0 ++ (crc32c (toBytes 12 (0 : BitVec 96).toNat ++ toBytes 240 (BitVec.ofNat 1920 0).toNat) ^^^ 1) ++ (0 : BitVec 96)

/-- States that meet the hypotheses of `ScrimRequests`, clause by clause. -/
theorem witness_ScrimRequests :
    (∃ (s : State) (port : ℕ) (x : ScrimTx),
        s.inboxHead port 0 = some x ∧
        let a := txAddr x.hdr;
        let n := txLen x.hdr;
        s.peerMay (txDev x.hdr) a n false = true ∧ s.peerWaits x.hdr n = false)
    ∧ (∃ (s : State) (port : ℕ) (x : ScrimTx),
        s.inboxHead port 0 = some x ∧
        let a := txAddr x.hdr;
        let n := txLen x.hdr;
        s.peerMay (txDev x.hdr) a n false = false)
    ∧ (∃ (s : State) (port : ℕ) (x : ScrimTx),
        s.inboxHead port 0 = some x ∧
        let a := txAddr x.hdr;
        let n := txLen x.hdr;
        s.peerMay (txDev x.hdr) a n false = true ∧ s.peerWaits x.hdr n = true)
    ∧ (∃ (s : State) (port : ℕ) (x : ScrimTx),
        s.inboxHead port 1 = some x ∧
        let a := txAddr x.hdr;
        let n := x.data.length;
        s.peerMay (txDev x.hdr) a n true = true ∧ s.peerWaits x.hdr n = false ∧ s.Calm ∧ s.acqs = [] ∧ s.homesUp a n)
    ∧ (∃ (s : State) (port : ℕ) (x : ScrimTx),
        s.inboxHead port 1 = some x ∧
        let a := txAddr x.hdr;
        let n := x.data.length;
        s.peerMay (txDev x.hdr) a n true = false)
    ∧ (∃ (s : State) (port : ℕ) (x : ScrimTx),
        s.inboxHead port 1 = some x ∧
        let a := txAddr x.hdr;
        let n := x.data.length;
        s.peerMay (txDev x.hdr) a n true = true ∧ s.peerWaits x.hdr n = true)
    ∧ (∃ (s : State) (port : ℕ) (x : ScrimTx),
        s.inboxHead port 2 = some x ∧
        let a := txAddr x.hdr;
        let op := aopOf (txSub x.hdr);
        let n := if op = AtomOp.cas then x.data.length / 2 else x.data.length;
        s.peerMay (txDev x.hdr) a n true = true ∧
          a % n = 0 ∧
            (n = 4 ∨ n = 8) ∧ s.peerWaits x.hdr n = false ∧ s.Calm ∧ s.acqs = [] ∧ s.homeFailed a = false ∧ s.markAt a = 0)
    ∧ (∃ (s : State) (port : ℕ) (x : ScrimTx),
        s.inboxHead port 2 = some x ∧
        let a := txAddr x.hdr;
        let op := aopOf (txSub x.hdr);
        let n := if op = AtomOp.cas then x.data.length / 2 else x.data.length;
        s.peerMay (txDev x.hdr) a n true = false ∨ a % n ≠ 0) :=
  ⟨⟨z1, 3, (X 0 0x4010 0 8 []), by decide +kernel⟩,
    ⟨z2, 3, (X 0 0x14010 0 8 []), by decide +kernel⟩,
    ⟨z3, 3, (X 0 0x4010 0 8 []), by decide +kernel⟩,
    ⟨z4, 3, (X 1 0x4020 0 64 ((List.range 64).map (BitVec.ofNat 8))), by decide +kernel⟩,
    ⟨z6, 3, (X 1 0x14010 0 2 [1,2]), by decide +kernel⟩,
    ⟨z7, 3, (X 1 0x4010 0 2 [1,2]), by decide +kernel⟩,
    ⟨z8, 3, (X 2 0x4010 0 4 [1,2,3,4]), by decide +kernel⟩,
    ⟨z12, 3, (X 2 0x4012 0 4 [1,2,3,4]), by decide +kernel⟩⟩

/-- States that meet the hypotheses of `ScrimSync`, clause by clause. -/
theorem witness_ScrimSync :
    (∃ (s : State) (port : ℕ) (x : ScrimTx),
        s.inboxHead port 3 = some x ∧
        let a := txAddr x.hdr;
        let excl := (txSub x.hdr).testBit 0;
        s.peerWaits x.hdr 64 = false ∧
          s.syncRefused x.hdr = none ∧
            objGrants (s.obj a) excl = true ∧
              (∀ r ∈ s.acqs, r.obj ≠ a) ∧ s.homeFailed a = false ∧ s.homeFailed (a + 32) = false)
    ∧ (∃ (s : State) (port : ℕ) (x : ScrimTx),
        s.inboxHead port 3 = some x ∧
        let a := txAddr x.hdr;
        let excl := (txSub x.hdr).testBit 0;
        s.peerWaits x.hdr 64 = false ∧
          s.syncRefused x.hdr = none ∧
            (objGrants (s.obj a) excl = false ∨ ∃ r ∈ s.acqs, r.obj = a) ∧ (txSub x.hdr).testBit 1 = false)
    ∧ (∃ (s : State) (port : ℕ) (x : ScrimTx),
        s.inboxHead port 3 = some x ∧
        let a := txAddr x.hdr;
        let excl := (txSub x.hdr).testBit 0;
        s.peerWaits x.hdr 64 = false ∧
          s.syncRefused x.hdr = none ∧
            (objGrants (s.obj a) excl = false ∨ ∃ r ∈ s.acqs, r.obj = a) ∧ (txSub x.hdr).testBit 1 = true)
    ∧ (∃ (s : State) (port : ℕ) (x : ScrimTx) (st : ℕ),
        s.inboxHead port 3 = some x ∧
        let a := txAddr x.hdr;
        (s.peerMay (txDev x.hdr) a 64 false = false ∨ s.peerWaits x.hdr 64 = false) ∧ s.syncRefused x.hdr = some st)
    ∧ (∃ (s : State) (port : ℕ) (x : ScrimTx) (o : ℕ),
        s.inboxHead port 4 = some x ∧
        s.peerWaits x.hdr 64 = false ∧
          let a := txAddr x.hdr;
          let wid := BitVec.ofNat 64 (ofBytes x.data);
          s.syncRefused x.hdr = none ∧
            objReleased (s.obj a) wid = some o ∧ s.homeFailed a = false ∧ s.homeFailed (a + 32) = false)
    ∧ (∃ (s : State) (port : ℕ) (x : ScrimTx),
        s.inboxHead port 4 = some x ∧
        s.peerWaits x.hdr 64 = false ∧
          let a := txAddr x.hdr;
          let wid := BitVec.ofNat 64 (ofBytes x.data);
          s.syncRefused x.hdr = none ∧ objReleased (s.obj a) wid = none)
    ∧ (∃ (s : State) (port : ℕ) (x : ScrimTx) (st : ℕ),
        s.inboxHead port 4 = some x ∧ s.peerWaits x.hdr 64 = false ∧ s.syncRefused x.hdr = some st)
    ∧ (∃ (s : State) (port : ℕ) (x : ScrimTx),
        s.inboxHead port 9 = some x ∧
        let a := txAddr x.hdr;
        let mine := fun r => r.withdrawn port (txTag x.hdr) (txDev x.hdr) a;
        s.peerMay (txDev x.hdr) a 64 false = true ∧ ∃ r ∈ s.acqs, mine r = true)
    ∧ (∃ (s : State) (port : ℕ) (x : ScrimTx),
        s.inboxHead port 9 = some x ∧
        let a := txAddr x.hdr;
        let mine := fun r => r.withdrawn port (txTag x.hdr) (txDev x.hdr) a;
        s.peerMay (txDev x.hdr) a 64 false = true ∧ ∀ r ∈ s.acqs, mine r = false)
    ∧ (∃ (s : State) (port : ℕ) (x : ScrimTx),
        s.inboxHead port 9 = some x ∧
        let a := txAddr x.hdr;
        s.peerMay (txDev x.hdr) a 64 false = false) :=
  ⟨⟨z13, 3, (X 3 0x4040 0 8 [5,0,0,0,0,0,0,0]), by decide +kernel⟩,
    ⟨z14, 3, (X 3 0x4040 0 8 [5,0,0,0,0,0,0,0]), by decide +kernel⟩,
    ⟨z18, 3, (X 3 0x4040 2 8 [5,0,0,0,0,0,0,0]), by decide +kernel⟩,
    ⟨z21, 3, (X 3 0x4041 0 8 [5,0,0,0,0,0,0,0]), 2, by decide +kernel⟩,
    ⟨z24, 3, (X 4 0x4040 0 8 [5,0,0,0,0,0,0,0]), ((objReleased (z24.obj 0x4040) 5).getD 0), by decide +kernel⟩,
    ⟨z25, 3, (X 4 0x4040 0 8 [5,0,0,0,0,0,0,0]), by decide +kernel⟩,
    ⟨z26, 3, (X 4 0x4041 0 8 [5,0,0,0,0,0,0,0]), 2, by decide +kernel⟩,
    ⟨z27, 3, (X 9 0x4040 0 0 []), by decide +kernel⟩,
    ⟨z28, 3, (X 9 0x4040 0 0 []), by decide +kernel⟩,
    ⟨z29, 3, (X 9 0x14040 0 0 []), by decide +kernel⟩⟩

/-- States that meet the hypotheses of `ScrimSync`'s clause about refusals: one not admitted, one misaligned, one at an object that is
not legal, one at a marked object, and one that nothing refuses. -/
theorem witness_ScrimSync_refusals :
    (∃ (s : State) (h : Word128), s.peerMay (txDev h) (txAddr h) 64 false = false)
    ∧ (∃ (s : State) (h : Word128), s.peerMay (txDev h) (txAddr h) 64 false = true ∧ txAddr h % 64 ≠ 0)
    ∧ (∃ (s : State) (h : Word128), s.peerMay (txDev h) (txAddr h) 64 false = true ∧ txAddr h % 64 = 0
      ∧ objClean (s.obj (txAddr h)) = false)
    ∧ (∃ (s : State) (h : Word128), s.peerMay (txDev h) (txAddr h) 64 false = true ∧ txAddr h % 64 = 0
      ∧ objClean (s.obj (txAddr h)) = true ∧ s.objMark (txAddr h) ≠ 0)
    ∧ (∃ (s : State) (h : Word128), s.peerMay (txDev h) (txAddr h) 64 false = true ∧ txAddr h % 64 = 0
      ∧ objClean (s.obj (txAddr h)) = true ∧ s.objMark (txAddr h) = 0) :=
  ⟨⟨net nn, hd 0x14040 3 0 8, by decide +kernel⟩, ⟨net nn, hd 0x4041 3 0 8, by decide +kernel⟩,
    ⟨mb (net nn) 0x4058 [1], hd 0x4040 3 0 8, by decide +kernel⟩,
    ⟨{ net nn with poison := [(0x4040 / 32, 1)] }, hd 0x4040 3 0 8, by decide +kernel⟩, ⟨net nn, hd 0x4040 3 0 8, by decide +kernel⟩⟩

/-- States that meet the hypotheses of `ScrimAnswers`, clause by clause. -/
theorem witness_ScrimAnswers :
    (∃ (s : State) (port : ℕ) (x : ScrimTx) (l : PendLoad) (p : Piece) (t : Thread) (r : ℕ),
        s.inboxHead port 5 = some x ∧
        s.tagUse port (txTag x.hdr) = some (TagUse.load l.id 0) ∧
          txSub x.hdr = 0 ∧
            List.find? (fun y => y.id == l.id) s.loads = some l ∧
              l.pieces = [p] ∧
                s.threads.find l.key = some t ∧
                  l.dst = some r ∧
                    l.pred = none ∧
                      s.Calm ∧
                        let got := takeOver p.taken p.loc x.data 0;
                        got.2 = 0)
    ∧ (∃ (s : State) (port : ℕ) (x : ScrimTx) (c : Client) (pa : ℕ),
        s.inboxHead port 5 = some x ∧ s.tagUse port (txTag x.hdr) = some (TagUse.read c pa))
    ∧ (∃ (s : State) (port cl : ℕ) (x : ScrimTx) (y : SqEntry),
        s.inboxHead port 6 = some x ∧
        s.tagUse port (txTag x.hdr) = some (TagUse.store cl y.id) ∧
          List.find? (fun z => z.id == y.id) (s.cluster cl).sq = some y ∧ s.Calm ∧ txSub x.hdr ≠ 2)
    ∧ (∃ (s : State) (port cl : ℕ) (x : ScrimTx) (y : SqEntry) (n : ℕ) (pc : Word64) (t : Thread),
        s.inboxHead port 6 = some x ∧
        s.tagUse port (txTag x.hdr) = some (TagUse.store cl y.id) ∧
          List.find? (fun z => z.id == y.id) (s.cluster cl).sq = some y ∧
            s.Calm ∧
              txSub x.hdr = 2 ∧
                y.copy = none ∧
                  y.who = some (n, pc) ∧
                    s.threads.find y.key = some t ∧
                      t.wait.kind = WaitKind.none ∧ t.chain = none ∧ (s.env y.key).rcd.trsv = true ∧ t.inHandler = false)
    ∧ (∃ (s : State) (port cl : ℕ) (x : ScrimTx) (y : SqEntry) (c : Copy) (m : TKey × ℕ) (t : Thread) (b : Batch),
        s.inboxHead port 6 = some x ∧
        s.tagUse port (txTag x.hdr) = some (TagUse.store cl y.id) ∧
          txSub x.hdr = 2 ∧
            List.find? (fun z => z.id == y.id) (s.cluster cl).sq = some y ∧
              y.copy = some c.id ∧
                y.counted = false ∧
                  List.find? (fun z => z.id == c.id) (s.cluster cl).hawk.copies = some c ∧
                    c.stopped = false ∧
                      c.members = [m] ∧ s.threads.find m.1 = some t ∧ t.batches.find m.2 = some b ∧ s.Calm)
    ∧ (∃ (s : State) (port cl : ℕ) (x : ScrimTx) (y : SqEntry) (op : AtomOp) (wide : Bool) (b cmp : ℕ) (l : PendLoad) (p : Piece) (t : Thread) (r : ℕ),
        s.inboxHead port 7 = some x ∧
        s.tagUse port (txTag x.hdr) = some (TagUse.atomic cl y.id) ∧
          txSub x.hdr = 0 ∧
            List.find? (fun z => z.id == y.id) (s.cluster cl).sq = some y ∧
              y.op = SqOp.atomic op wide b cmp l.id ∧
                List.find? (fun z => z.id == l.id) s.loads = some l ∧
                  l.pieces = [p] ∧ s.threads.find l.key = some t ∧ l.dst = some r ∧ l.pred = none ∧ s.Calm)
    ∧ (∃ (s : State) (port : ℕ) (x : ScrimTx) (k : TKey) (acq : Bool) (addr va : ℕ) (tryP : Option (PredD × Bool)) (next : Word64) (drawn : Bool) (t : Thread),
        s.inboxHead port 8 = some x ∧
        s.tagUse port (txTag x.hdr) = some (TagUse.sync k acq addr va tryP next drawn) ∧
          s.threads.find k = some t ∧
            t.wait.kind = WaitKind.peerSync (txTag x.hdr) ∧ s.isResident k = true ∧ t.due = [] ∧ s.Calm ∧ txSub x.hdr = 0)
    ∧ (∃ (s : State) (port : ℕ) (x : ScrimTx) (k : TKey) (acq : Bool) (addr va : ℕ) (tryP : Option (PredD × Bool)) (next : Word64) (drawn : Bool) (t : Thread) (p : PredD) (w : Bool),
        s.inboxHead port 8 = some x ∧
        s.tagUse port (txTag x.hdr) = some (TagUse.sync k acq addr va tryP next drawn) ∧
          s.threads.find k = some t ∧
            t.wait.kind = WaitKind.peerSync (txTag x.hdr) ∧
              s.isResident k = true ∧ t.due = [] ∧ s.Calm ∧ txSub x.hdr = 3 ∧ tryP = some (p, w)) :=
  ⟨⟨z30, 3, (X 5 0 0 1 [0x81]), (pl false .s8), (pc1 1), (thr z30), 30, by decide +kernel⟩,
    ⟨z32, 3, (X 5 0 1 2 [7,8]), (.image 2), 5, by decide +kernel⟩,
    ⟨z33, 3, 0, (X 6 0 0 0 []), (sq1 3 (.peer 5)), by decide +kernel⟩,
    ⟨z34, 3, 0, (X 6 0 2 0 []), (sq1 3 (.peer 5)), 1, 0, (thr z34), by decide +kernel⟩,
    ⟨z35, 3, 0, (X 6 0 2 0 []), yc, cp0, (K,1), (thr z35), bt1, by decide +kernel⟩,
    ⟨z36, 3, 0, (X 7 0 0 4 [1,2,3,4]), { sq1 3 (.peer 5) with op := .atomic .add false 5 0 77 }, .add, false, 5, 0, (pl true), (pc1 4), (thr z36), 30, by decide +kernel⟩,
    ⟨z37, 3, (X 8 0 0 0 []), K, true, 0x900, 0x5000, none, 0x1010, false, (thr z37), by decide +kernel⟩,
    ⟨z39, 3, (X 8 0 3 0 []), K, true, 0x900, 0x5000, (some ({c:=true,n:=4},false)), 0x1010, false, (thr z39), {c:=true,n:=4}, false, by decide +kernel⟩⟩

/-- States that meet the hypotheses of `ScrimPorts`, clause by clause. -/
theorem witness_ScrimPorts :
    (∃ (s : State) (port : ℕ),
        s.portConnected port = true ∧ (s.port port).state ≠ 0 ∧ (s.port port).paused = false)
    ∧ (∃ (s : State) (port : ℕ) (f : BitVec 2048),
        s.portConnected port = true ∧
        (s.port port).state ≠ 0 ∧ (s.port port).paused = false ∧ flitGood f = false)
    ∧ (∃ (s : State) (port : ℕ) (f : BitVec 2048) (h : Word128) (data : List Byte),
        s.portConnected port = true ∧
        (s.port port).state ≠ 0 ∧
          (s.port port).paused = false ∧
            let p := s.port port;
            flitGood f = true ∧
              flitAv f = false ∧
                flitNak f = false ∧
                  flitKind f = 0 ∧
                    flitSeq f = p.expect ∧
                      p.rx = [] ∧ p.stream = [] ∧ flitPayload f = txBytes h data ∧ data.length = txData h ∧ txOk h = true)
    ∧ (∃ (s : State) (port : ℕ) (f : BitVec 2048),
        s.portConnected port = true ∧
        (s.port port).state ≠ 0 ∧
          (s.port port).paused = false ∧
            let p := s.port port;
            flitGood f = true ∧ flitKind f = 1 ∧ p.stream = [] ∧ flitAv f = true ∧ flitNak f = false)
    ∧ (∃ (s : State) (port : ℕ) (f : BitVec 2048),
        s.portConnected port = true ∧
        (s.port port).state ≠ 0 ∧
          (s.port port).paused = false ∧
            let p := s.port port;
            flitGood f = true ∧ flitKind f = 1 ∧ p.stream = [] ∧ flitAv f = false ∧ flitNak f = true)
    ∧ (∃ (s : State) (port : ℕ) (lanes : BitVec 16),
        s.portConnected port = true ∧
        s.readyBit (10 + port) = true ∧
          let p := s.port port;
          lanes &&& p.lanes ≠ 0 ∧ p.retrain = none)
    ∧ (∃ (s : State) (port : ℕ),
        s.portConnected port = true ∧
        s.readyBit (10 + port) = true ∧
          let p := s.port port;
          p.state ≠ 0 ∧ p.paused = true ∧ p.stream = [] ∧ p.retrain = none)
    ∧ (∃ (s : State) (port : ℕ),
        s.portConnected port = true ∧
        s.readyBit (10 + port) = true ∧
          let p := s.port port;
          p.state = 0 ∨ p.paused = false)
    ∧ (∃ (s : State) (port : ℕ),
        s.portConnected port = true ∧
        s.readyBit (10 + port) = true ∧
          let p := s.port port;
          p.state ≠ 0 ∧ p.paused = true)
    ∧ (∃ (s : State) (port : ℕ) (lanes : BitVec 16),
        s.portConnected port = true ∧
        s.readyBit (10 + port) = true ∧
          let p := s.port port;
          lanes &&& p.lanes = 0) :=
  ⟨⟨z43, 3, by decide +kernel⟩,
    ⟨z43, 3, badFlit, ⟨by decide +kernel, by decide +kernel, by decide +kernel, flitGood_flip _ _⟩⟩,
    ⟨z43, 3, (flitOf (flitLow 9 0 false false 20 0) tx1), (hd 0x4010 1 0 4), [1,2,3,4], ⟨by decide +kernel, by decide +kernel, by decide +kernel, flitGood_flitOf _ _, by rw [flitAv_flitOf]; decide +kernel, by rw [flitNak_flitOf]; decide +kernel, by rw [flitKind_flitOf]; decide +kernel, by rw [flitSeq_flitOf]; decide +kernel, by decide +kernel, by decide +kernel, by rw [flitPayload_flitOf _ _ (by rw [flitFill_flitOf]; decide +kernel), flitFill_flitOf]; decide +kernel, by decide +kernel, by decide +kernel⟩⟩,
    ⟨z43, 3, (flitOf (flitLow 9 3 true false 0 1) []), ⟨by decide +kernel, by decide +kernel, by decide +kernel, flitGood_flitOf _ _, by rw [flitKind_flitOf]; decide +kernel, by decide +kernel, by rw [flitAv_flitOf]; decide +kernel, by rw [flitNak_flitOf]; decide +kernel⟩⟩,
    ⟨z43, 3, (flitOf (flitLow 9 3 false true 0 1) []), ⟨by decide +kernel, by decide +kernel, by decide +kernel, flitGood_flitOf _ _, by rw [flitKind_flitOf]; decide +kernel, by decide +kernel, by rw [flitAv_flitOf]; decide +kernel, by rw [flitNak_flitOf]; decide +kernel⟩⟩,
    ⟨z44, 3, 0x0001, by decide +kernel⟩,
    ⟨z45, 3, by decide +kernel⟩,
    ⟨z44, 3, by decide +kernel⟩,
    ⟨z45, 3, by decide +kernel⟩,
    ⟨z46, 3, 0x8000, by decide +kernel⟩⟩

end Links

/-! ### States for the witnesses: launches, gangs, saves -/

namespace Launches

def onBlk (s : State) (f : Block → Block) : State := s.onBlock {launch:=0,block:=0} f
def regs (vs : List (Nat × Word32)) (s : State) : State := State.put s K vs
def cl0 (f : Cluster → Cluster) (s : State) : State := s.onCluster 0 f
def rec0 (b : Nat) (s : State) : State := { s with launches := s.launches.map fun p => (p.1, { p.2 with record := p.2.record ||| BitVec.ofNat 2048 b }) }
def rv (i : Instr) : State := regs [(2, 0x4000), (3,0), (4, 3), (5,1), (6, 0x23), (7,0x9),(10,7)] (one i)
def nn : State := rv (.nop {g:=0})
def R0 (prio wbits : Nat) : Rec := BitVec.ofNat 2048 (0x1000 + 0x2000 * 2 ^ 64 + 0x3000*2^128 + 1*2^256 + wbits*2^262 + 1 * 2 ^ 292 + 1 * 2 ^ 295 + 0x002 * 2 ^ 298 + 3 * 2 ^ 320 + 2 ^ 322 + prio*2^328 + 1*2^336 + (2^wbits-1)*2^544)
def mg (f : Mgmt → Mgmt) (s : State) : State := { s with mgmt := f s.mgmt }
def cfg (s : State) : State :=
  let c := s.sub 0 0
  let l := (c.live.put 0 8 0xFF)
  { s with parts := s.parts.set 0 { s.part 0 with subs := (s.part 0).subs.set 0 { c with live := l } } }
def base : State := mg (fun m => { m with owners := [(0,0x80000000)], lqueues := [(0,0x80000000),(3,0x80000000)], ready := m.ready ||| BitVec.ofNat 128 (3 * 2^18) }) (cfg nn)
def lq (q : Nat) (f : LQueue → LQueue) (s : State) : State := { s with lqueues := s.lqueues.set q (f (s.lqueue q)) }
def L (prio wbits : Nat) (pend : List Nat) (q : Nat := 0) : Launch := { record := R0 prio wbits, detail := 0, atCpl := true, part := 0, sub := 0, queue := q, status := .running, pending := pend, retired := 0, relaunches := 0, token := none }
def gang (l g : Nat) (f : Gang → Gang) (s : State) : State := { s with gangs := s.gangs.set {launch:=l,gang:=g} (f { status := .running, kills := 0, frozen := false, shedAt := none, quantumAt := 0, die := 0 }) }
def addL (l : Nat) (x : Launch) (s : State) : State := { s with launches := s.launches.set l x }
def ns (n : Nat) (s : State) : State := { s with dieNs := [(0,n)] }
def bsb : BsBlock := { part := 0, sub := 0, owner := 0, ctx := 0, tid := 5, index := 0, va := 0x8000, f64 := false, dim := 1, rate := 8, ext := [16], res := 0, hdr := 0, vals := [1,2,3,4], dirty := 0, clamp := false, special := false, zero := false, refresh := false, low := false, lru := 0 }
def l1s : L1Sector := { sector := 5, bytes := [], marks := 0 }
def z1 : State := base
def z2 : State := mg (fun m => {m with heldWrites := [.doorbell 3 0]}) base
def bad2 : Rec := R0 0 1 ||| BitVec.ofNat 2048 (5*2^128+1)
def z1r : State := mg (fun m => {m with heldWrites := [.read 3 4]}) base
def z1f : State := lq 0 (fun x => {x with recs := List.replicate 64 0}) base
def z1t : State := addL 9 { L 0 1 [] with status := .ending 5 } z1r
def z4 : State := lq 0 (fun x => {x with recs := [bad2, R0 0 1]}) base
def z5 : State := lq 0 (fun x => {x with recs := [R0 0 1]}) base
def z6 : State := lq 0 (fun x => {x with recs := [R0 0 1, R0 0 0], head := some 9}) (addL 9 (L 0 1 [0,1]) base)
def z8 : Nat × State := (z6.pickHead false 0 0 0 0).getD (99,z6)
def noT (s : State) : State := { s with threads := [] }
def z12 : State := noT (gang 9 1 id (gang 9 0 id (addL 9 (L 0 1 []) base)))
def z14 : State := noT (gang 9 0 id (addL 9 {L 0 1 [] with retired := 1} base))
def ck0 := ((z14.retireGang {launch:=9,gang:=0}).endIfDone 9).check (({L 0 1 [] with retired := 1} : Launch).who 0) (0x3000:Int) 16 true false
def z17 : State := { gang 9 0 id (addL 9 {L 0 1 [1] with part := 1} base) with serial := 20, threads := base.threads ++ [({launch:=9,wid:=0},Thread.start 5)] }
def z18 : State := { ns 9999 base with wctr := [((1,0,0),5),((2,0,0),7)], rctr := [((0,0,0),5),((3,1,2),7)] }
def z19 : State := { ns 10000 base with wctr := [((1,0,0),5),((2,0,0),7)], rctr := [((0,0,0),5),((3,1,2),7)] }
def wt (b : Nat) (s : State) : State := s.onThread K fun _ t => { t with wait := {kind := .again, counts := true}, blockCtr := b }
def stv (n : Nat) (s : State) : State := onBlk s fun b => { b with starve := BitVec.ofNat 128 (n + n*2^32 + n*2^64) }
def z21 : State := wt 5 (stv 5 nn)
def z22 : State := wt 6 (stv 5 nn)
def z23 : State := (two (.nop {g:=0})).onThread K fun _ t => { t with age := 63 }
def z24 : State := (two (.nop {g:=0})).onThread K fun _ t => { t with age := 64 }
def z26 : GKey := {launch:=0,gang:=0}
def z27 : State := lq 3 (fun x => {x with recs := [R0 5 0], head := some 9}) (addL 9 (L 5 0 [0] 3) (mg (fun m => {m with ready := 7}) (ns 7 base)))
def z28 : State := ns 7 base
def z29 : State := ns 1023 (rec0 (2^384) base)
def z30 : Launch := (z29.launches.find 0).getD (L 0 0 [])
def z31 : State := ns 1024 (rec0 (2^384) base)
def z32 : Launch := (z31.launches.find 0).getD (L 0 0 [])
def z33 : State := ns 1024 (rec0 (2^384) base)
def z34 : State := lq 3 (fun x => {x with recs := [R0 5 0], head := some 9}) (addL 9 (L 5 0 [0] 3) z33)
def z35 : Launch := (z34.launches.find 0).getD (L 0 0 [])
def z36 : State := base
def z37 : State := cl0 (fun c => {c with store := [bsb], l1 := [l1s]}) ({base with blocks := []})
def z38 : State := cl0 (fun c => {c with store := [bsb], l1 := [l1s], lent := some (0,1)}) ({base with blocks := []})
def z39 : State := cl0 (fun c => {c with store := [bsb], l1 := [l1s], lent := some (0,1)}) base
def ask (n t : Nat) (s : State) : State := gang 0 0 (fun g => {g with status := .requested n t}) s
def z40 : State := ask 0 5 (ns 9 base)
def z43 : State := after (.fullSave 0 0) (ask 0 5 (ns 9 base))
def z44 : Launch := (z43.launches.find 0).getD (L 0 0 [])

/-- States that meet the hypotheses of `LaunchStarts`, clause by clause. -/
theorem witness_LaunchStarts :
    (∃ (s : State) (q : ℕ),
        q < 64 ∧ (∀ w ∈ s.mgmt.heldWrites, w.reads = true) ∧ s.tornDown q = false)
    ∧ (∃ (s : State) (q : ℕ),
        q < 64 ∧ (∀ w ∈ s.mgmt.heldWrites, w.reads = true) ∧ 64 ≤ (s.lqueue q).recs.length)
    ∧ (∃ (s : State) (q : ℕ) (r : Rec),
        q < 64 ∧ (∀ w ∈ s.mgmt.heldWrites, w.reads = true) ∧ s.tornDown q = true ∧ (s.lqueue q).recs.length < 64
          ∧ s.mayWriteCpl q r = false ∧ s.thermal.railsOff = false ∧ (s.part (s.lqPart q)).lost.getLsbD 255 = false)
    ∧ (∃ (s : State) (q : ℕ),
        q < 64 ∧ ∃ w ∈ s.mgmt.heldWrites, w.reads = false)
    ∧ (∃ (s : State) (q d : ℕ) (r : Rec) (rest : List Rec) (st : Byte),
        (s.lqueue q).head = none ∧
        (s.lqueue q).recs = r :: rest ∧
          s.requested (s.lqueue q).token = false ∧
            s.homeWaits ((s.live (ownerPart (s.ownerEntry r.owner)) 0).ptroots + 8 * r.ctx) = false ∧
              s.refusal q r = some (st, d) ∧
                s.mayWriteCpl q r = false ∧ s.thermal.railsOff = false ∧ (s.part (s.lqPart q)).lost.getLsbD 255 = false)
    ∧ (∃ (s : State) (q : ℕ) (r : Rec) (rest : List Rec),
        (s.lqueue q).head = none ∧
        (s.lqueue q).recs = r :: rest ∧
          s.requested (s.lqueue q).token = false ∧
            s.homeWaits ((s.live (ownerPart (s.ownerEntry r.owner)) 0).ptroots + 8 * r.ctx) = false ∧
              s.refusal q r = none ∧ r.tcnt = 0)
    ∧ (∃ (s s1 : State) (die q l : ℕ) (x : Launch) (p : Placement),
        s.headOf q = some (l, x) ∧
        s.servingDie q = die ∧
          let pool := s.poolOf x [p];
          s.reservable false pool.lent l x = true ∧
            s.outranked pool.lent die x = false ∧
              x.nextUnit = [p.gang] ∧
                s.pickHead pool.lent die x.part x.sub x.record.prio = some (q, s1) ∧
                  s1.placeable pool x.record p.clusters = true) :=
  ⟨⟨z1r, 5, by decide +kernel⟩,
    ⟨z1f, 0, by decide +kernel⟩,
    ⟨z1t, 0, bad2, by decide +kernel⟩,
    ⟨z2, 5, by decide +kernel⟩,
    ⟨z4, 0, 1, bad2, [R0 0 1], 2, by decide +kernel⟩,
    ⟨z5, 0, (R0 0 1), [], by decide +kernel⟩,
    ⟨z6, z8.2, 0, 0, 9, (L 0 1 [0,1]), {gang := 0, clusters := [2]}, by decide +kernel⟩⟩

/-- States that meet the hypotheses of `LaunchEnds`, clause by clause. -/
theorem witness_LaunchEnds :
    (∃ (s : State) (g : GKey) (x : Launch),
        s.mayRetire g = true ∧
        s.launches.find g.launch = some x ∧
          x.status = LaunchStatus.running ∧ (x.pending ≠ [] ∨ ∃ p ∈ s.gangs, p.1.launch = g.launch ∧ p.1 ≠ g))
    ∧ (∃ (s : State) (g : GKey) (x : Launch) (s2 : State) (a : ℕ),
        s.mayRetire g = true ∧
        s.launches.find g.launch = some x ∧
          x.status = LaunchStatus.running ∧
            x.pending = [] ∧
              (∀ p ∈ s.gangs, p.1.launch = g.launch → p.1 = g) ∧
                x.token = none ∧
                  x.atCpl = true ∧
                    s.thermal.railsOff = false ∧
                      s.acqs = [] ∧
                        s.Calm ∧
                          (∀ o ∈ s.orphans, BsBlock.ofCtx x.part x.record.ctx o.2 = false) ∧
                            (∀ p ∈ s.saved, ∀ b ∈ p.2.unsent, BsBlock.ofCtx x.part x.record.ctx b = false) ∧
                            (∀ p ∈ s.clusters,
                                p.2.dirtyBlocks (BsBlock.ofCtx x.part x.record.ctx) = [] ∧
                                  (p.2.patchIds 0 fun y => y.part == x.part && y.ctx == x.record.ctx) = []) ∧
                              ((s.retireGang g).endIfDone g.launch).check (x.who (s.servingDie x.queue))
                                    (↑(BitVec.toNat x.record.cpl)) 16 true false =
                                  (Acc.ok [(Loc.home a, BitVec.toNat x.record.cpl, 16)], s2) ∧
                                s2.homeWaits a = false ∧ s2.homeFailed a = false)
    ∧ (∃ (s : State),
        s.Calm ∧
        s.acqs = [] ∧
          s.deqs = [] ∧
            (∀ p ∈ s.launches, p.1 ≤ s.serial) ∧
              (List.map (fun x => x.1) s.launches).Nodup ∧ ∀ p ∈ s.threads, (s.gangs.find (s.env p.1).gkey).isSome = true)
    ∧ (∃ (s : State) (die : ℕ),
        die < 4 ∧ s.toWindow die ≠ 0)
    ∧ (∃ (s : State) (die : ℕ),
        die < 4 ∧ s.toWindow die = 0 ∧ s.evicting = []) :=
  ⟨⟨z12, {launch:=9,gang:=0}, (L 0 1 []), by decide +kernel⟩,
    ⟨z14, {launch:=9,gang:=0}, {L 0 1 [] with retired := 1}, ck0.2, 0x3000, by decide +kernel⟩,
    ⟨z17, by decide +kernel⟩,
    ⟨z18, 0, by decide +kernel⟩,
    ⟨z19, 0, by decide +kernel⟩⟩

/-- States that meet the hypotheses of `Requests`, clause by clause. -/
theorem witness_Requests :
    (∃ (s : State) (k : TKey) (t : Thread),
        s.threads.find k = some t ∧
        s.Calm ∧
          let n := s.limitOf (s.env k);
          t.blockCtr ≤ n ∨ n = 0 ∨ s.blocked k t = false)
    ∧ (∃ (s : State) (k : TKey) (t : Thread),
        s.threads.find k = some t ∧
        s.Calm ∧
          let n := s.limitOf (s.env k);
          t.wait = { kind := WaitKind.again, counts := true } ∧
            n ≠ 0 ∧ n < t.blockCtr ∧ t.due = [] ∧ t.chain = none ∧ s.mayRun k = true ∧ Traps (s.env k) t)
    ∧ (∃ (s : State) (k : TKey) (t : Thread),
        s.threads.find k = some t ∧ t.age < 64)
    ∧ (∃ (s : State) (k : TKey) (t : Thread),
        s.threads.find k = some t ∧
        let e := s.env k;
        let q := (s.cluster e.cl).quarter (e.crew % 4);
        64 ≤ t.age ∧ e.rcd.blockClass ≠ 0 ∧ (∀ r ∈ q.promoted, k ∉ r.keys) ∧ s.isResident k = true
          ∧ s.chainRun e.cl (e.crew % 4) false = [])
    ∧ (∃ (s : State) (g : GKey) (y : Gang),
        s.gangs.find g = some y ∧
        y.status = GangStatus.running ∧ ∃ q l x, q < 64 ∧ s.waitingHead q = some (l, x) ∧ s.victimFor l x = some g)
    ∧ (∃ (s : State) (g : GKey) (y : Gang),
        s.gangs.find g = some y ∧
        y.status = GangStatus.running ∧
          ∀ (q l : ℕ) (x : Launch), q < 64 → s.waitingHead q = some (l, x) → s.victimFor l x ≠ some g)
    ∧ (∃ (s : State) (g : GKey) (y : Gang) (x : Launch),
        s.gangs.find g = some y ∧
        y.status = GangStatus.running ∧
          s.launches.find g.launch = some x ∧ x.record.quantum ≠ 0 ∧ s.ns y.die - y.quantumAt < 1024 * x.record.quantum)
    ∧ (∃ (s : State) (g : GKey) (y : Gang) (x : Launch),
        s.gangs.find g = some y ∧
        y.status = GangStatus.running ∧
          s.launches.find g.launch = some x ∧
            x.record.quantum ≠ 0 ∧ 1024 * x.record.quantum ≤ s.ns y.die - y.quantumAt ∧ s.waitsAt g.launch x = false)
    ∧ (∃ (s : State) (g : GKey) (y : Gang) (x : Launch),
        s.gangs.find g = some y ∧
        y.status = GangStatus.running ∧
          s.launches.find g.launch = some x ∧
            x.record.quantum ≠ 0 ∧ 1024 * x.record.quantum ≤ s.ns y.die - y.quantumAt ∧ s.waitsAt g.launch x = true)
    ∧ (∃ (s : State) (lender cl : ℕ),
        cl < 192 ∧
        bit (s.live lender 0).bays (cl / 4) = true ∧ (s.cluster cl).lent = none ∧ s.reservedOn false cl ≠ [])
    ∧ (∃ (s : State) (lender cl : ℕ),
        cl < 192 ∧
        bit (s.live lender 0).bays (cl / 4) = true ∧
          (s.cluster cl).lent = none ∧
            s.reservedOn false cl = [] ∧ (s.cluster cl).sq = [] ∧ ∀ b ∈ (s.cluster cl).store, b.dirty = 0)
    ∧ (∃ (s : State) (lender cl : ℕ),
        cl < 192 ∧
        bit (s.live lender 0).bays (cl / 4) = true ∧
          (s.cluster cl).lent ≠ none ∧
            s.reservedOn false cl = [] ∧
              (s.cluster cl).sq = [] ∧ (∀ b ∈ (s.cluster cl).store, b.dirty = 0) ∧ ∀ p ∈ s.clusters, p.2.recalled = false)
    ∧ (∃ (s : State) (lender cl : ℕ) (g : GKey) (y : Gang),
        cl < 192 ∧
        bit (s.live lender 0).bays (cl / 4) = true ∧
          (s.cluster cl).lent ≠ none ∧ g ∈ s.gangsOn cl ∧ s.gangs.find g = some y ∧ y.status = GangStatus.running) :=
  ⟨⟨z21, K, (thr z21), by decide +kernel⟩,
    ⟨z22, K, (thr z22), by decide +kernel⟩,
    ⟨z23, K, (thr z23), by decide +kernel⟩,
    ⟨z24, K, (thr z24), by decide +kernel⟩,
    ⟨z27, z26, ((z27.gangs.find z26).getD { status := .running, kills := 0, frozen := false, shedAt := none, quantumAt := 0, die := 0 }), ⟨by decide +kernel, by decide +kernel, 3, 9, (z27.launches.find 9).getD (L 0 0 []), by decide +kernel, by decide +kernel, by decide +kernel⟩⟩,
    ⟨z28, z26, ((z28.gangs.find z26).getD { status := .running, kills := 0, frozen := false, shedAt := none, quantumAt := 0, die := 0 }), ⟨by decide +kernel, by decide +kernel, fun q l x hq hx => (by_dec (letI := @someDec; inferInstance) (by decide +kernel) : ∀ q, q < 64 → ∀ y, z28.waitingHead q = some y → z28.victimFor y.1 y.2 ≠ some z26) q hq (l, x) hx⟩⟩,
    ⟨z29, z26, ((z29.gangs.find z26).getD { status := .running, kills := 0, frozen := false, shedAt := none, quantumAt := 0, die := 0 }), z30, by decide +kernel⟩,
    ⟨z31, z26, ((z31.gangs.find z26).getD { status := .running, kills := 0, frozen := false, shedAt := none, quantumAt := 0, die := 0 }), z32, by decide +kernel⟩,
    ⟨z34, z26, ((z34.gangs.find z26).getD { status := .running, kills := 0, frozen := false, shedAt := none, quantumAt := 0, die := 0 }), z35, by decide +kernel⟩,
    ⟨z36, 0, 0, by decide +kernel⟩,
    ⟨z37, 0, 0, by decide +kernel⟩,
    ⟨z38, 0, 0, by decide +kernel⟩,
    ⟨z39, 0, 0, z26, ((z39.gangs.find z26).getD { status := .running, kills := 0, frozen := false, shedAt := none, quantumAt := 0, die := 0 }), by decide +kernel⟩⟩

/-- States that meet the hypotheses of `SavesAndRestores`, clause by clause. -/
theorem witness_SavesAndRestores :
    (∃ (s : State) (l gang : ℕ) (ev : Instr) (full : Bool),
        let v := s.group l gang;
      s.unitAsked v = true ∧
        s.inTurn v = true ∧
          s.drained v = true ∧
            (∀ p ∈ s.threads, v.thread p.1 = true → p.2.atPeer = none) ∧
              (ev = Instr.reconvergedSave l gang ∧ full = false ∧ s.allReconverged v = true ∧ s.copiesDone v false = true ∨
                  ev = Instr.fullSave l gang ∧
                      full = true ∧ s.timedOut v = true ∧ s.handlersDone v false = true ∧ s.copiesDone v true = true ∨
                    ev = Instr.handlerTimeout l gang ∧
                      full = true ∧ s.timedOut v = true ∧ s.handlersDone v true = true ∧ s.copiesDone v true = true) ∧
                ∀ p ∈ s.clusters,
                  p.2.recalled = false ∧
                    p.2.dirtyBlocks (BsBlock.ofCtx v.part v.rcd.ctx) = [] ∧
                      (p.2.patchIds 0 fun y => y.part == v.part && y.ctx == v.rcd.ctx) = [])
    ∧ (∃ (s : State) (l : ℕ) (x : Launch) (p : Placement) (y : Gang) (f : Bool),
        s.launches.find l = some x ∧
        x.status = LaunchStatus.running ∧
          s.gangs.find { launch := l, gang := p.gang } = some y ∧
            y.status = GangStatus.saved f ∧
              s.unitOf l p.gang = [p.gang] ∧
                s.noPlacing x = false ∧
                  s.outranked (s.poolOf x [p]).lent (s.servingDie x.queue) x = false ∧
                  s.placeable (s.poolOf x [p]) x.record p.clusters = true ∧
                    s.Calm ∧
                      (∀ (q : ℕ), (s.port q).answers = []) ∧
                        s.matrixFree l x p = true ∧
                          (State.restoreBlocks x l ((gangBlocks x.record p.gang).zip p.clusters) (s.takeClusters x.part p.clusters)).isSome =
                            true) :=
  ⟨⟨z40, 0, 0, (.reconvergedSave 0 0), false, by decide +kernel⟩,
    ⟨z43, 0, z44, {gang := 0, clusters := [3]}, ((z43.gangs.find z26).getD { status := .running, kills := 0, frozen := false, shedAt := none, quantumAt := 0, die := 0 }), true, by and_intros <;> first | decide +kernel | exact fun q => by rw [State.port, show z43.ports = [] by decide +kernel]; rfl⟩⟩

def mates : State :=
  let s := ask 0 5 (ns 2000000 base)
  let t : Thread := { thr s with pc := 0x4000001004, chain := some { head := 0x1000, headWord := 0, len := 1, regs := [], preds := [],
                                                                     headSelf := false, rng := 0 } }
  { s with threads := [(K, t), ({ launch := 0, wid := 64 }, t)] }

/-- A state that meets the hypotheses of `SavesAndRestores`'s clause about a thread outside the group, and stands in a chain with one
of it. -/
theorem witness_SavesAndRestores_mates : ∃ (s : State) (l gang : Nat) (k : TKey) (t : Thread),
    let v := s.group l gang
    s.unitAsked v = true ∧ s.inTurn v = true ∧ s.drained v = true ∧ (∀ p ∈ s.threads, v.thread p.1 = true → p.2.atPeer = none)
    ∧ s.timedOut v = true ∧ s.handlersDone v false = true ∧ s.copiesDone v true = true
    ∧ (∀ p ∈ s.clusters, p.2.recalled = false ∧ p.2.dirtyBlocks (BsBlock.ofCtx v.part v.rcd.ctx) = []
      ∧ (p.2.patchIds 0 fun y => y.part == v.part && y.ctx == v.rcd.ctx) = [])
    ∧ s.threads.find k = some t ∧ v.thread k = false ∧ (∀ p ∈ s.threads, p.1 = k → p.2 = t)
    ∧ k ∈ (s.threads.filter fun p => v.thread p.1).flatMap fun p => s.chainMates p.1 p.2 :=
  ⟨mates, 0, 0, { launch := 0, wid := 64 }, mates.threads.get { launch := 0, wid := 64 } (Thread.start 0), by decide +kernel⟩

end Launches

/-! ### States for the witnesses: the management controller and the host -/

namespace Management

def mb (s : State) (a : Nat) (bs : List Byte) : State := { s with mem := s.mem.setBytes a bs }
def regs (vs : List (Nat × Word32)) (s : State) : State := State.put s K vs
def cl0 (f : Cluster → Cluster) (s : State) : State := s.onCluster 0 f
def rv (i : Instr) : State := regs [(2, 0x4000), (3,0), (4, 3), (5,1), (6, 0x23), (7,0x9),(10,7)] (one i)
def nn : State := rv (.nop {g:=0})
def mg (f : Mgmt → Mgmt) (s : State) : State := { s with mgmt := f s.mgmt }
def sub (p k : Nat) (f : SubCfg → SubCfg) (s : State) : State := { s with parts := s.parts.set p { s.part p with subs := (s.part p).subs.set k (f (s.sub p k)) } }
def pt (p : Nat) (f : Partition → Partition) (s : State) : State := { s with parts := s.parts.set p (f (s.part p)) }
def gang (l g : Nat) (f : Gang → Gang) (s : State) : State := { s with gangs := s.gangs.set {launch:=l,gang:=g} (f { status := .running, kills := 0, frozen := false, shedAt := none, quantumAt := 0, die := 0 }) }
def G0 : Gang := { status := .running, kills := 0, frozen := false, shedAt := none, quantumAt := 0, die := 0 }
def ns (n : Nat) (s : State) : State := { s with dieNs := [(0,n)] }
def bsb : BsBlock := { part := 0, sub := 0, owner := 0, ctx := 0, tid := 5, index := 0, va := 0x8000, f64 := false, dim := 1, rate := 8, ext := [16], res := 0, hdr := 0, vals := [1,2,3,4], dirty := 0, clamp := false, special := false, zero := false, refresh := false, low := false, lru := 0 }
def l1s : L1Sector := { sector := 5, bytes := [], marks := 0 }
def base : State := gang 3 0 (fun g => {g with shedAt := some 4}) ({ gang 3 1 (fun g => {g with frozen := true}) nn with threads := nn.threads ++ [({launch:=3,wid:=0},{ Thread.start 5 with wait := {kind := .wave 9 true, counts := true} })] })
def saved (s : State) : State := { s with gangs := s.gangs.map fun p => (p.1, { p.2 with status := .saved true }) }
def z10 : State := mg (fun m => {m with owners := [(3,7)], queues := [(4,9)], lqueues := [(5,9)]}) nn
def z13 : State := nn
def z14 : State := mg (fun m => {m with image := {m.image with accepted := true}}) nn
def net (s : State) : State := mg (fun m => {m with committed := true, accept := 0x3F, failed := 8, image := {m.image with accepted := true, ports := [0,0,0,1,0,0,0,0]}}) (s.setPort 3 {Port.reset with nextSeq := 4})
def z21 : State := net nn
def z30 : State := cl0 (fun c => {c with freeze := some 40, islands := [((1,2),{skim := false, idleNs := 600}),((1,1),{skim := false, idleNs := 499}),((1,3),{skim := true, idleNs := 4000})]}) nn
def z31 : Island := ((z30.cluster 0).islands.find (1,2)).getD {skim := false, idleNs := 0}
def z32 : Island := ((z30.cluster 0).islands.find (1,1)).getD {skim := false, idleNs := 0}
def z33 : Island := ((z30.cluster 0).islands.find (1,3)).getD {skim := false, idleNs := 0}
def chained : State := nn.onThread K fun _ t => { t with pc := 0x4000001004, chain := some { head := 0x1000, headWord := 0, len := 1, regs := [], preds := [], headSelf := false, rng := 0 } }
def parked : State := { nn with gov := { nn.gov with level := 1, count := 0, rhold := 1 } }.onThread K fun _ t => { t with wait := { kind := .parked, counts := false } }
def z46 : State := ns 200003 base
def z48 : State := mb (mb (saved (cl0 (fun c => {c with store := [bsb], l1 := [l1s]}) base)) 0x4000 [1,2]) (dadoHome 1) [3,4]
def z49 : State := cl0 (fun c => {c with store := [bsb], l1 := [l1s]}) (ns 5 base)
def z50 : State := { mb (saved base) 0x4000 [1,2] with thermal := {railsOff := false, holding := true} }
def z53 : State := { saved base with thermal := {railsOff := true, holding := true} }
def ue (b : Nat) (s : State) : State := { s with poison := s.poison.set (b*2048+3) 1 }
def z54 : State := ue 4 nn
def z54q : State := mg (fun m => { m with owners := [(0, 0x80000000)], queues := [(0, 0x80000000)] }) (sub 0 0 (fun c => { c with live := c.live.put 0 8 0xFF }) z54)
def z55 : State := { mb (ue 4 nn) 0x40010 [1,2] with reloading := [(4,0x1000)], oracle := [0], hostMem := [(0x1001,5),(0x1002,7),(0x10FFF,9)] }
def z56 : State := { mb (ue 4 nn) 0x40010 [1,2] with reloading := [(4,0x1000)], oracle := [1], hostMem := [(0x1001,5),(0x1002,7),(0x10FFF,9)] }
def scn (s : State) : State := mg (fun m => {m with image := {m.image with limits := BitVec.ofNat 64 (5*2^32)}}) s
def z57 : State := cl0 (fun c => {c with draining := true}) (scn nn)
def z58 : State := scn (cl0 id base)
def z59 : State := cl0 (fun c => {c with draining := true, l1 := [l1s], store := [bsb]}) {scn nn with blocks := []}
def z63 : State := ns 40000000 {nn with hbm := [(1,{Stack.reset with acts := [((6,7),1),((1,2),3)], throttled := [(1,2)], refreshing := [((1,2),3)]})]}
def z64 : State := ns 40000000 {nn with hbm := [(1,{Stack.reset with acts := [((6,7),70000),((1,2),3)], throttled := [(1,2)], refreshing := [((1,2),3)]})]}
def z65 : State := mb nn 0x4010 [1,2,3,4]
def z66 : State := mg (fun m => {m with ckStat := 3, heldWrites := [.mem 1 [2]]}) nn
def z65r : State := mg (fun m => {m with ckStat := 3, heldWrites := [.mem 0x4010 [2]]}) z65
def z65u : State := { z65 with mgmt := { z65.mgmt with ready := 0 } }
def z65h : State := mg (fun m => {m with heldWrites := [.read 0x4010 4]}) z65
def qz (n : Nat) (s : State) : State := { mg (fun m => {m with queues := [(6, 0x80000000)], owners := [(0,0x80000000)]}) s with queues := [(6,{items := List.replicate n 5, refused := 0xFFFFFFFF})] }
def z67 : State := mg (fun m => {m with heldWrites := [.mem 1 [2]]}) (qz 15 nn)
def z68 : State := qz 15 nn
def z70 : State := { qz 15 nn with held := [{source := 3, queue := 6, item := 99}] }
def z71 : State := { qz 16 nn with held := [{source := 3, queue := 6, item := 99}] }
def hot (n : Nat) (s : State) : State := { mg (fun m => {m with image := {m.image with hotTh := [7,7,7,7,7,7,7,7]}}) s with hbm := [(0,{Stack.reset with hot := [((4,2),n)]})], oracle := [0,9] }
def z72 : State := hot 6 nn
def z73 : State := hot 7 (mg (fun m => {m with queues := [(0, 0x80000000)], owners := [(0,0x80000000)]}) nn)
def fr (n : Nat) : FaultReq := { token := n, offered := true, part := 0, sub := 0, ctx := 0, va := 0x5000, wr := true, fetch := false, illf := false }
def la (ts : List Nat) : LogAcc := { key := K, va := 0x4000, data := [1,2,3,4], cmp := 0, dst := some 30, tokens := ts, failed := none }
def le_ (ts : List Nat) : LogEntry := { id := 9, issue := 0, cl := 0, quarter := 0, crew := {launch:=0,block:=0,crew:=0}, pc := 0x1000, kind := .store, ty := .b32, strm := 2, prio := 3, accs := [la ts] }
def z74 : State := { nn with faults := [fr 5, fr 6], log := [le_ [5,6]] }
def z75 : State := { nn with faults := [fr 5, fr 6], log := [le_ [5,6]] }.onThread K fun _ t => {t with wait := {kind := .page 5 (some 64), counts := true}}
def tl (c b : Nat) : TlbEntry := { at_ := .cluster 0, part := 0, ctx := c, base := b, size := 0x10000, pa := b, wr := true, ex := true, rld := false }
def cmd (lo hi : Nat) : Word128 := BitVec.ofNat 128 (lo + hi*2^64)
def z79 : State := { nn with tlb := [tl 0 0, tl 0 0x20000, tl 3 0] }
def z80 : TlbEntry → Bool := (invDrops 0 (cmd (0*2^10 + 0*2^16) 0x6000)).getD fun _ => false
def z85 : State := cl0 (fun c => {c with l1 := [l1s]}) (pt 0 (fun p => {p with inval := [{cmd := cmd 0 0x6000, word := 1, waitLoads := [], waitSq := [], waitSync := [], waitPeers := []}, {cmd := cmd 0 0x7000, word := 1, waitLoads := [], waitSq := [], waitSync := [], waitPeers := []}]}) nn)
def z93 : State := cl0 (fun c => {c with l1 := [l1s]}) { nn with ctxs := [((0,0),{Ctx.empty with ranges := []})] }
def z97 : State := mg (fun m => {m with ckStat := 3}) nn
def z98 : State := mg (fun m => {m with ckBase := 0x1000}) nn
def z99 : State := ns 6 base
def ckp (c : Nat) : State := { mb (saved (mg (fun m => {m with ckStat := 3, ckCmd := c, ckBase := 0x40000000}) base)) 0x4000 [1,2,3] with hostMem := [(5,6),(0x40000004,7),(0x40004001,9)], oracle := [0,5] }
def z103 : State := ckp 1
def z104 : State := ckp 2
def z105 : State := nn

/-- The bytes of a number, the highest first. -/
def be (n k : Nat) : List Byte := (List.range k).map fun j => BitVec.ofNat 8 (n / 256 ^ (k - 1 - j))

/-- The digest that FIPS 180-4's example gives for "abc". -/
theorem test_sha384 : sha384 [0x61, 0x62, 0x63] =
    0xCB00753F45A35E8BB5A03D699AC65007272C32AB0EDED1631A8B605A43FF5BED8086072BA1E7CC2358BAECA134C825A7#384 := by decide +kernel

/-- A signature that OpenSSL made over P-384 and SHA-384, and the same one over a message of another byte. -/
theorem test_ecdsa :
    let key := be 0x0487CC8E07F36B4F8AECA1441B48F3586208E4B0A0E830911BB0AA290B354C0118DB257CF364C128749E063359F1DDD7AAD4EE2C890ED21903DFC14D80A73115523532072D739DA128BF1D4DA1C9A87B1A9C3D9FEB3390A44CFA80FC1E658C779B 97
    let msg := be 0x68656C6C6F20696D6167652C20736F6D65206279746573 23
    let sig := be 0xA260F4BF316E6EC97ED27CF9C6332C692A9C66D579501BDA16718513E66A18D8395D6FAC98B7B8A8C2127DAE9F715ABF8FB59250FAAF14CB9EC93CA8631F1276EAAEF5A48031827E11544C788542F7EC9739B6826E9A518004A9E36F044F0A39 96
    ecdsaOk key msg sig = true ∧ ecdsaOk key (msg ++ [1]) sig = false := by decide +kernel

/-- States that meet the hypotheses of `Configuration`, clause by clause. -/
theorem witness_Configuration :
    (∃ (part sub : ℕ),
        part < 8 ∧ sub < 8)
    ∧ (∃ (part : ℕ),
        part < 8)
    ∧ (∃ (s : State) (n : ℕ),
        n < 1024 ∧ s.deqs = [] ∧ s.held = [] ∧ (∀ f ∈ s.faults, f.offered = true) ∧ s.Calm)
    ∧ (∃ (n : ℕ),
        n < 64)
    ∧ (∃ (s : State) (n : ℕ),
        n < 512 ∧ s.deqs = [] ∧ s.held = [] ∧ (∀ f ∈ s.faults, f.offered = true) ∧ s.Calm)
    ∧ (∃ (off size : ℕ),
        size ∉ [1, 2, 4, 8] ∨ off % size ≠ 0)
    ∧ (∃ (off size : ℕ),
        size ∈ [1, 2, 4, 8] ∧ off % size = 0 ∧ off + size ≤ 1048576)
    ∧ (∃ (cl : ℕ),
        cl < 192)
    ∧ (∃ (off size part sub : ℕ),
        part < 8 ∧
        sub < 8 ∧ size ∈ [1, 2, 4, 8] ∧ off % size = 0 ∧ off + size ≤ 1024 ∧ ¬(sub = 0 ∧ 16 ≤ off ∧ off < 32)) :=
  ⟨⟨0, 0, by decide +kernel⟩,
    ⟨2, by decide +kernel⟩,
    ⟨z10, 3, by decide +kernel⟩,
    ⟨3, by decide +kernel⟩,
    ⟨z10, 3, by decide +kernel⟩,
    ⟨0x80, 3, by decide +kernel⟩,
    ⟨0x48, 8, by decide +kernel⟩,
    ⟨5, by decide +kernel⟩,
    ⟨32, 8, 2, 3, by decide +kernel⟩⟩

/-- States that meet the hypotheses of `BringUp`, clause by clause. -/
theorem witness_BringUp :
    (∃ (s : State) (len : ℕ),
        len ≤ 1048576 ∧ s.mgmt.image.accepted = false)
    ∧ (∃ (s : State) (len : ℕ),
        len ≤ 1048576 ∧ s.mgmt.image.accepted = true)
    ∧ (∃ (s : State) (b : ℕ),
        s.mayBeReady b = true ∧ s.readyBit b = false ∧ (b ≠ 1 ∨ s.mgmt.linkDown = false))
    ∧ (∃ (s : State),
        s.mgmt.linkDown = true) :=
  ⟨⟨z13, 300, by decide +kernel⟩,
    ⟨z14, 300, by decide +kernel⟩,
    ⟨z21, 13, by decide +kernel⟩,
    ⟨mg (fun m => { m with linkDown := true }) nn, by decide +kernel⟩⟩

/-- States that meet the hypotheses of `Power`, clause by clause. -/
theorem witness_Power :
    (∃ (s : State) (cl : ℕ) (k : TKey) (t : Thread),
        s.threads.find k = some t ∧ (∀ p ∈ s.threads, p.1 = k → p.2 = t) ∧ (s.env k).cl = cl ∧ s.isResident k = true
          ∧ t.inside (s.peek k t) = true)
    ∧ (∃ (s : State) (cl : ℕ),
        (s.cluster cl).freeze = some 0)
    ∧ (∃ (s : State) (cl : ℕ),
        (s.cluster cl).freeze ≠ some 0)
    ∧ (∃ (s : State) (v : Word64) (k : TKey) (y : Thread),
        s.shedTarget v < s.gov.level ∧ s.gov.count + 1 = max 1 s.gov.rhold ∧ s.threads.find k = some y ∧ y.wait.kind = .parked
          ∧ s.gov.level - 1 ≤ (s.recOf k.launch).prio ∧ s.isResident k = true)
    ∧ (∃ (s : State) (cl q i : ℕ) (x : Island),
        (s.cluster cl).islands.find (q, i) = some x)
    ∧ (∃ (s : State) (cl q i : ℕ) (x : Island),
        (s.cluster cl).islands.find (q, i) = some x ∧
        (x.idleNs < 500 ∨ x.idleNs < 4000 ∧ s.skimOwners cl q i = false))
    ∧ (∃ (s : State) (cl q i : ℕ) (x : Island),
        (s.cluster cl).islands.find (q, i) = some x ∧
        (4000 ≤ x.idleNs ∨ 500 ≤ x.idleNs ∧ s.skimOwners cl q i = true))
    ∧ (∃ (s : State) (g : GKey) (x : Gang) (t : ℕ),
        s.gangs.find g = some x ∧ x.shedAt = some t ∧ x.status = GangStatus.running ∧ s.hasParked g = false)
    ∧ (∃ (s : State),
        s.thermal.railsOff = false ∧
        (∀ p ∈ s.clusters, p.2.sq = [] ∧ (p.2.dirtyBlocks fun x => true) = []) ∧ s.mgmt.ckStat ≠ 3 ∧ s.allSaved = true)
    ∧ (∃ (s : State),
        s.thermal.railsOff = false ∧
        (∀ p ∈ s.clusters, p.2.sq = [] ∧ (p.2.dirtyBlocks fun x => true) = []) ∧
          s.mgmt.ckStat ≠ 3 ∧ s.allSaved = false ∧ s.thermal.holding = false)
    ∧ (∃ (s : State),
        s.thermal = { railsOff := false, holding := true })
    ∧ (∃ (s : State),
        s.thermal.railsOff = true ∧ ∀ p ∈ s.launches, p.2.status = LaunchStatus.running) :=
  ⟨⟨chained, 0, K, (thr chained), by decide +kernel⟩,
    ⟨cl0 (fun c => { c with freeze := some 0 }) nn, 0, by decide +kernel⟩,
    ⟨z30, 0, by decide +kernel⟩,
    ⟨parked, 0, K, (thr parked), by decide +kernel⟩,
    ⟨z30, 0, 1, 2, z31, by decide +kernel⟩,
    ⟨z30, 0, 1, 1, z32, by decide +kernel⟩,
    ⟨z30, 0, 1, 3, z33, by decide +kernel⟩,
    ⟨z46, {launch:=3,gang:=0}, {G0 with shedAt := some 4}, 4, by decide +kernel⟩,
    ⟨z48, by decide +kernel⟩,
    ⟨z49, by decide +kernel⟩,
    ⟨z50, by decide +kernel⟩,
    ⟨z53, by decide +kernel⟩⟩

/-- States that meet the hypotheses of `Repair`, clause by clause. -/
theorem witness_Repair :
    (∃ (s : State) (block : ℕ),
        let qs := s.partitions.map fun p => (s.live p 0).faultq
        s.blockUe block = true ∧ block * 65536 < deviceTop ∧ (∀ r ∈ s.reloading, r.1 ≠ block) ∧ s.reloadSource block = none
          ∧ s.deqs = [] ∧ (∀ h ∈ s.held, h.source ≠ srcMgmt) ∧ qs.Nodup ∧ (∀ q ∈ qs, s.queueRoom q = true) ∧ qs ≠ [])
    ∧ (∃ (s : State) (block : ℕ),
        s.blockUe block = true ∧
        block * 65536 < deviceTop ∧
          (∀ r ∈ s.reloading, r.1 ≠ block) ∧
            (s.reloadSource block = none ∨ s.reloadable block = false ∨ s.remapRoom block = false))
    ∧ (∃ (s : State) (block h c : ℕ) (rest : List ℕ),
        s.MemOk ∧
        List.find? (fun r => r.1 == block) s.reloading = some (block, h) ∧ s.oracle = c :: rest ∧ c ≠ 1)
    ∧ (∃ (s : State) (block h : ℕ) (rest : List ℕ),
        s.MemOk ∧ List.find? (fun r => r.1 == block) s.reloading = some (block, h) ∧ s.oracle = 1 :: rest)
    ∧ (∃ (s : State) (cl : ℕ),
        cl < 192 ∧ ∃ p ∈ s.clusters, p.1 / 48 = cl / 48 ∧ p.2.draining = true)
    ∧ (∃ (s : State) (cl : ℕ),
        cl < 192 ∧
        BitVec.extractLsb' 32 32 s.mgmt.image.limits ≠ 0 ∧
          (s.cluster cl).inService = true ∧ ∀ p ∈ s.clusters, p.1 / 48 = cl / 48 → p.2.draining = false)
    ∧ (∃ (s : State) (cl : ℕ),
        cl < 192 ∧
        (s.cluster cl).draining = true ∧
          s.reservedOn false cl = [] ∧ (s.cluster cl).sq = [] ∧ (∀ b ∈ (s.cluster cl).store, b.dirty = 0) ∧ s.deqs = [])
    ∧ (∃ (s : State) (st part row : ℕ),
        (s.stack st).acts.get (part, row) 0 ≤ s.rowLimit)
    ∧ (∃ (s : State) (st part row : ℕ),
        s.rowLimit < (s.stack st).acts.get (part, row) 0) :=
  ⟨⟨z54q, 4, by decide +kernel⟩,
    ⟨z54, 4, by decide +kernel⟩,
    ⟨z55, 4, 0x1000, 0, [], by decide +kernel⟩,
    ⟨z56, 4, 0x1000, [], by decide +kernel⟩,
    ⟨z57, 3, by decide +kernel⟩,
    ⟨z58, 0, by decide +kernel⟩,
    ⟨z59, 0, by decide +kernel⟩,
    ⟨z63, 1, 6, 7, by decide +kernel⟩,
    ⟨z64, 1, 6, 7, by decide +kernel⟩⟩

/-- States that meet the hypotheses of `HostAccesses`, clause by clause. -/
theorem witness_HostAccesses :
    (∃ (a n : ℕ),
        deviceTop < a + n)
    ∧ (∃ (s : State) (a n : ℕ),
        a + n ≤ deviceTop ∧ n ≠ 0 ∧ s.hostWaits a n = false ∧ ∀ w ∈ s.mgmt.heldWrites, (∀ st ∈ w.stacks, st ∉ (HostWrite.read a n).stacks)
          ∨ w.reads = false ∧ s.mgmt.ckStat = 3)
    ∧ (∃ (s : State) (a n : ℕ),
        a + n ≤ deviceTop ∧ n ≠ 0 ∧ s.hostWaits a n = true)
    ∧ (∃ (s : State) (a n : ℕ),
        a + n ≤ deviceTop ∧ n ≠ 0 ∧ ∃ w ∈ s.mgmt.heldWrites, (∃ st ∈ w.stacks, st ∈ (HostWrite.read a n).stacks)
          ∧ (w.reads = true ∨ s.mgmt.ckStat ≠ 3))
    ∧ (∃ (a : ℕ) (bs : List Byte),
        deviceTop < a + bs.length)
    ∧ (∃ (s : State) (a : ℕ) (bs : List Byte),
        a + bs.length ≤ deviceTop ∧
        bs ≠ [] ∧ s.mgmt.ckStat ≠ 3 ∧ s.hostWaits a bs.length = false
          ∧ (∀ w ∈ s.mgmt.heldWrites, ∀ st ∈ w.stacks, st ∉ (HostWrite.mem a bs).stacks) ∧ s.Calm ∧ s.acqs = [] ∧ s.homesUp a bs.length)
    ∧ (∃ (s : State) (a : ℕ) (bs : List Byte),
        a + bs.length ≤ deviceTop ∧ bs ≠ [] ∧ s.mgmt.ckStat = 3)
    ∧ (∃ (s : State) (a : ℕ) (bs : List Byte),
        a + bs.length ≤ deviceTop ∧ bs ≠ [] ∧ s.hostWaits a bs.length = true)
    ∧ (∃ (s : State) (a : ℕ) (bs : List Byte),
        a + bs.length ≤ deviceTop ∧ bs ≠ [] ∧ ∃ w ∈ s.mgmt.heldWrites, ∃ st ∈ w.stacks, st ∈ (HostWrite.mem a bs).stacks)
    ∧ (∃ (s : State) (q : ℕ),
        q < 512 ∧ ∃ w ∈ s.mgmt.heldWrites, w.reads = false)
    ∧ (∃ (s : State) (q : ℕ),
        q < 512 ∧ (∀ w ∈ s.mgmt.heldWrites, w.reads = true) ∧ s.queueRoom q = true ∧ s.deqs = [])
    ∧ (∃ (s : State) (q size : ℕ),
        q < 512 ∧ (∀ w ∈ s.mgmt.heldWrites, w.reads = true) ∧ (size ≠ 16 ∨ s.queueRoom q = false))
    ∧ (∃ (s : State) (q : ℕ) (h : Held),
        q < 512 ∧ s.held = [h] ∧ h.queue = q ∧ (∀ f ∈ s.faults, f.offered = true) ∧ s.queueRoom q = true ∧ s.deqs = [])
    ∧ (∃ (s : State) (q : ℕ) (h : Held),
        q < 512 ∧ s.held = [h] ∧ h.queue = q ∧ (∀ f ∈ s.faults, f.offered = true) ∧ s.queueRoom q = false)
    ∧ (∃ (s : State) (st block slot : ℕ),
        let x := s.stack st;
      x.hot.get (block, slot) 0 < s.hotLimit st)
    ∧ (∃ (s : State) (st block slot p : ℕ) (rest : List ℕ),
        let x := s.stack st;
      s.oracle = p :: rest ∧
        let q := (s.live (p % 8) 0).hotq;
        s.hotLimit st ≤ x.hot.get (block, slot) 0 ∧
          s.held = [] ∧ s.deqs = [] ∧ s.queueRoom q = true ∧ slot < 8 ∧ block < 2 ^ 24) :=
  ⟨⟨0xBFFFFFFFFC, 5, by decide +kernel⟩,
    ⟨z65r, 0x4011, 8, by decide +kernel⟩,
    ⟨z65u, 0x4011, 8, by decide +kernel⟩,
    ⟨z65h, 0x4011, 8, by decide +kernel⟩,
    ⟨0xBFFFFFFFFF, [1,2], by decide +kernel⟩,
    ⟨z65, 0x4013, [9,8,7], by decide +kernel⟩,
    ⟨z66, 0x4013, [9,8,7], by decide +kernel⟩,
    ⟨z65u, 0x4013, [9,8,7], by decide +kernel⟩,
    ⟨z65h, 0x4013, [9,8,7], by decide +kernel⟩,
    ⟨z67, 6, by decide +kernel⟩,
    ⟨z68, 6, by decide +kernel⟩,
    ⟨z68, 6, 8, by decide +kernel⟩,
    ⟨z70, 6, {source := 3, queue := 6, item := 99}, by decide +kernel⟩,
    ⟨z71, 6, {source := 3, queue := 6, item := 99}, by decide +kernel⟩,
    ⟨z72, 0, 4, 2, by decide +kernel⟩,
    ⟨z73, 0, 4, 2, 0, [9], by decide +kernel⟩⟩

/-- States that meet the hypotheses of `HostCommands`, clause by clause. -/
theorem witness_HostCommands :
    (∃ (s : State) (part : ℕ) (w : Word64),
        ∀ f ∈ s.faults, f.part = part → f.offered = true → f.token ≠ (BitVec.extractLsb' 0 32 w).toNat)
    ∧ (∃ (s : State) (part : ℕ) (w : Word64) (f : FaultReq),
        List.find? (fun g => g.part == part && g.offered && g.token == (BitVec.extractLsb' 0 32 w).toNat) s.faults =
          some f ∧
        BitVec.getLsbD w 32 = false)
    ∧ (∃ (s : State) (part : ℕ) (w : Word64) (f : FaultReq),
        List.find? (fun g => g.part == part && g.offered && g.token == (BitVec.extractLsb' 0 32 w).toNat) s.faults =
          some f ∧
        BitVec.getLsbD w 32 = true ∧
          (∀ p ∈ s.lqueues, p.2.token ≠ some f.token) ∧
            (∀ p ∈ s.launches, p.2.token ≠ some f.token) ∧
              (∀ p ∈ s.clusters, ∀ c ∈ p.2.hawk.copies, f.token ∉ c.tokens) ∧
                ∀ p ∈ s.saved, ∀ c ∈ p.2.copies, f.token ∉ c.tokens)
    ∧ (∃ (s : State) (part : ℕ) (cmd : Word128) (kind : ℕ) (ev : Instr) (d : TlbEntry → Bool),
        (ev = Instr.invalidatePage part cmd ∧ kind = 0 ∨
          ev = Instr.invalidateContext part cmd ∧ kind = 1 ∨ ev = Instr.invalidatePartition part cmd ∧ kind = 2) ∧
        (BitVec.extractLsb' 10 2 cmd).toNat = kind ∧
          s.cplAddrOk (BitVec.extractLsb' 64 64 cmd).toNat = true ∧ invDrops part cmd = some d)
    ∧ (∃ (s : State) (part : ℕ) (cmd : Word128) (c : Cmd) (rest : List Cmd) (a : ℕ) (own : Bool) (ev : Instr),
        (ev = Instr.invalidationComplete part ∧ own = false ∧ (s.part part).inval = c :: rest ∨
          ev = Instr.ownershipComplete part ∧ own = true ∧ (s.part part).own = c :: rest ∧ s.cmdDone c = true) ∧
        c.cmd = cmd ∧
          s.locOf (BitVec.extractLsb' 64 64 cmd).toNat = some (Loc.home a) ∧
            s.homeWaits a = false ∧ s.homesUp a 8 ∧ s.acqs = [] ∧ s.Calm)
    ∧ (∃ (s : State) (part : ℕ) (cmd : Word128) (host : Bool) (rs : List OwnRange),
        s.cplAddrOk (BitVec.extractLsb' 64 64 cmd).toNat = true ∧
        BitVec.getLsbD cmd 0 = host ∧ s.ownRanges part cmd host = some rs) :=
  ⟨⟨z74, 0, 9, by decide +kernel⟩,
    ⟨z74, 0, 5, (fr 5), by decide +kernel⟩,
    ⟨z75, 0, (5+2^32), (fr 5), by decide +kernel⟩,
    ⟨z79, 0, (cmd (0*2^10 + 0*2^16) 0x6000), 0, (.invalidatePage 0 (cmd (0*2^10 + 0*2^16) 0x6000)), z80, by and_intros <;> first | decide +kernel | exact some_getD (by decide +kernel)⟩,
    ⟨z85, 0, (cmd 0 0x6000), {cmd := cmd 0 0x6000, word := 1, waitLoads := [], waitSq := [], waitSync := [], waitPeers := []}, [{cmd := cmd 0 0x7000, word := 1, waitLoads := [], waitSq := [], waitSync := [], waitPeers := []}], 0x6000, false, (.invalidationComplete 0), by decide +kernel⟩,
    ⟨z93, 0, (cmd ((1*2^16+1*2^48)+1) 0x6000), true, ((z93.ownRanges 0 (cmd ((1*2^16+1*2^48)+1) 0x6000) true).getD []), by decide +kernel⟩⟩

/-- States that meet the hypotheses of `Checkpoints`, clause by clause. -/
theorem witness_Checkpoints :
    (∃ (s : State) (cmd : ℕ) (ev : Instr),
        (ev = Instr.checkpoint ∧ cmd = 1 ∨ ev = Instr.restore ∧ cmd = 2) ∧ s.mgmt.ckStat = 3)
    ∧ (∃ (s : State) (cmd : ℕ) (ev : Instr),
        (ev = Instr.checkpoint ∧ cmd = 1 ∨ ev = Instr.restore ∧ cmd = 2) ∧
        s.mgmt.ckStat ≠ 3 ∧ (BitVec.toNat s.mgmt.ckBase % 2 ^ 30 ≠ 0 ∨ BitVec.getLsbD s.mgmt.accept 5 = false))
    ∧ (∃ (s : State) (cmd : ℕ) (ev : Instr),
        (ev = Instr.checkpoint ∧ cmd = 1 ∨ ev = Instr.restore ∧ cmd = 2) ∧
        s.mgmt.ckStat ≠ 3 ∧ BitVec.toNat s.mgmt.ckBase % 2 ^ 30 = 0 ∧ BitVec.getLsbD s.mgmt.accept 5 = true)
    ∧ (∃ (s : State),
        s.MemOk ∧
        s.mgmt.ckStat = 3 ∧
          s.allSaved = true ∧
            s.mgmt.heldWrites = [] ∧
              (∀ p ∈ s.clusters, p.2.sq = [] ∧ (p.2.dirtyBlocks fun x => true) = []) ∧ s.mgmt.ckCmd = 1)
    ∧ (∃ (s : State) (rest : List ℕ),
        s.MemOk ∧
        s.mgmt.ckStat = 3 ∧
          s.allSaved = true ∧
            s.mgmt.heldWrites = [] ∧
              (∀ p ∈ s.clusters, p.2.sq = [] ∧ (p.2.dirtyBlocks fun x => true) = []) ∧
                s.mgmt.ckCmd = 2 ∧ s.oracle = 0 :: rest)
    ∧ (∃ (s : State),
        s.mgmt.ckStat ≠ 3)
    ∧ (∃ (s : State),
        s.mgmt.ckStat = 3 ∧ s.acqs = [] ∧ s.deqs = [] ∧ s.Calm ∧ s.mgmt.heldWrites = [])
    ∧ (∃ (s : State) (a : ℕ) (bs : List Byte),
        s.mgmt.ckStat = 3 ∧ s.mgmt.ckCmd = 1 ∧ s.mgmt.heldWrites = [.mem a bs] ∧ bs ≠ [] ∧ a + bs.length ≤ deviceTop
          ∧ s.hostWaits a bs.length = false ∧ s.homesUp a bs.length ∧ s.acqs = [] ∧ s.Calm
          ∧ (∀ c ∈ s.ctxs, ∀ r ∈ c.2.ranges, r.host = true) ∧ s.allSaved = true
          ∧ (∀ p ∈ s.clusters, p.2.sq = [] ∧ p.2.dirtyBlocks (fun _ => true) = []) ∧ s.MemOk) :=
  ⟨⟨z97, 1, .checkpoint, by decide +kernel⟩,
    ⟨z98, 1, .checkpoint, by decide +kernel⟩,
    ⟨z99, 1, .checkpoint, by decide +kernel⟩,
    ⟨z103, by decide +kernel⟩,
    ⟨z104, [5], by decide +kernel⟩,
    ⟨z105, by decide +kernel⟩,
    ⟨z97, by decide +kernel⟩,
    ⟨mg (fun m => { m with heldWrites := [.mem 0x4001 [2,3]] }) z103, 0x4001, [2,3], by decide +kernel⟩⟩

/-- An uncorrectable block whose source the reload table names. -/
def reloads : State :=
  let s := mg (fun m => { m with reload := [(0, BitVec.ofNat 128 (1 + 0x123 * 2 ^ 16 + 4 * 65536 * 2 ^ 64))] }) (ue 4 nn)
  { mb s 1064960 [0x1F] with consumed := [{ page := 0, block := 4, rld := true }] }

/-- A state that meets the hypotheses of `Repair`'s first clause. -/
theorem witness_Repair_reload : ∃ s block h, State.blockUe s block = true ∧ block * 65536 < deviceTop
    ∧ (∀ r ∈ s.reloading, r.1 ≠ block) ∧ s.reloadSource block = some h ∧ s.reloadable block = true
    ∧ s.remapRoom block = true :=
  ⟨reloads, 4, 0x123 * 65536, by decide +kernel⟩

def remapped (n : Nat) : State := { nn with hbm := [(0, { Stack.reset with remap := (List.range n).map fun k => (k, k) })] }

/-- States that meet the hypotheses of `Repair`'s clauses about the remap table. -/
theorem witness_Repair_remap : (∃ s block, (State.stack s (stackOf (block * 65536))).remap.find block ≠ none)
    ∧ (∃ s block, (State.stack s (stackOf (block * 65536))).remap.find block = none ∧ 64 ≤ List.length (s.stack (stackOf (block * 65536))).remap)
    ∧ ∃ s block, List.length (State.stack s (stackOf (block * 65536))).remap < 64
      ∧ ∀ r ∈ s.reloading, stackOf (r.1 * 65536) ≠ stackOf (block * 65536) :=
  ⟨⟨remapped 64, 0, by decide +kernel⟩, ⟨remapped 64, 64 * 2 ^ 10, by decide +kernel⟩, ⟨remapped 63, 0, by decide +kernel⟩⟩

end Management

/-! ### States for the witnesses: a step -/

namespace Steps

def regs (vs : List (Nat × Word32)) (s : State) : State := State.put s K vs
def rv (i : Instr) : State := regs [(2, 0x4000), (3,0), (4, 3), (5,1), (6, 0x23), (7,0x9),(10,7)] (one i)
def nn : State := rv (.nop {g:=0})
def mg (f : Mgmt → Mgmt) (s : State) : State := { s with mgmt := f s.mgmt }
def vs : List Nat := [0,1,2,5,31,32,33,63,64,0x7FFFFFFF,0x80000000,0xFFFFFFFF,0xFFFF0000,0x12345678,0x1F05,0x10F00,0x10A03,0x1001F,0xF1F1F1F1]
def z1 : State := one (.add {w:=false,g:=0,d:=8,a:=.reg 2,b:=.reg 6} : Instr) |> fun s => { s with agenda := [.issue 0 0, .issue 0 1], run := [], oracle := [0] }
def z2 : Nat × State := ({ z1.settle with agenda := [.issue 0 1] } : State).choose
def z3 : List TKey := z2.2.slotRun z2.1 0 0
def z4 : State := z2.2.afterSlot 0 0 z3
def z5 : AtPc × State := z4.fetchInstr (z4.env K) (thr z4).pc
def z12 : State := { mg (fun m => { m with ckStat := 3, ckBase := 0x1234567890 }) nn with agenda := [.barRead 136 8] }
def z16 : State := { nn with agenda := [.event .refreshInterval, .issue 0 1] }
def z17 : State := one (.add {w:=false,g:=0,d:=8,a:=.reg 2,b:=.reg 6} : Instr)
def z18 : Fetched × State := z17.fetchWord (z17.env K) 0x1000
def z19 : Word32 := (match z18.1 with | .word w => w | _ => 0)
def z20 : List Word32 × Option Fetched × State := z18.2.fetchWords (z17.env K) 0x1004 (lengthOf z19 - 1)
def z21 : Acc × State := z17.check { (z17.env K).who with caches := [.quarter (z17.env K).cl ((z17.env K).crew % 4), .cluster (z17.env K).cl, .die (z17.env K).die] } 0x1000 4 false true
def z22 : Bool × State := z21.2.readPieces (z17.env K).part (z17.env K).sub (z17.env K).rcd.owner 3 [(.home 0x1000, 0x1000, 4)]
def fDg : FDeq := {w:=false,g:=0,d:=8,b:=.lit32 2,grp:=true}
def qs (items : List Word128) (s : State) : State := { s with
  launches := s.launches.map fun p => (p.1, { p.2 with record := p.2.record ||| BitVec.ofNat 2048 ((2^15 + 2*2^12 + 9) * 2^(768+32) + (2^15 + 2*2^12 + 8) * 2^(768+48)) })
  mgmt := { s.mgmt with queues := [(8,0x80000000),(9, 0x80000000)], owners := [(0,0x80000000)] }
  queues := [(9,{items := items, refused := 3})] }
def z29 : State := qs [5,6] (one (.deq fDg))
def z30 : Word128 × State := (z29.takeItem (match z29.qsel 0 true 2 with | .group l g ms => .group l g ms | x => x)).getD (0,z29)
def ms (s : State) : Nat × List Nat := match s.qsel 0 true 2 with | .group _ g ms => (g,ms) | _ => (0,[])

/-- States that meet the hypotheses of `StepRunsDecoded`, clause by clause. -/
theorem witness_StepRunsDecoded :
    (∃ (s s2 : State) (cl q : ℕ) (rest : List Move) (k : TKey) (ks : List TKey) (t : Thread) (i : Instr),
        s.settle.agenda = Move.issue cl q :: rest ∧
        let s0 :=
          have __src := s.settle;
          ({ __src with agenda := rest } : State);
        let c := s0.choose;
        s0.promotionDue cl q = none ∧
          c.2.slotRun c.1 cl q = k :: ks ∧
            c.2.lacks (k :: ks) = [] ∧
              (∀ j ∈ k :: ks, ∀ (u : Thread), c.2.threads.find j = some u → c.2.eligible j u = true) ∧
                let s1 := c.2.afterSlot cl q (k :: ks);
                s1.threads.find k = some t ∧ s1.fetchInstr (s1.env k) t.pc = (AtPc.instr i, s2))
    ∧ (∃ (s : State) (rest : List Move) (off size : ℕ),
        s.settle.agenda = Move.barRead off size :: rest)
    ∧ (∃ (s : State) (rest : List Move) (i : Instr),
        s.settle.agenda = Move.event i :: rest ∧ i.shape = none)
    ∧ (∃ (s s1 s2 : State) (e : Env) (pc : Word64) (w : Word32) (ws rest : List Word32) (i : Instr),
        BitVec.toNat pc % 4 = 0 ∧
        s.fetchWord e (BitVec.toNat pc) = (Fetched.word w, s1) ∧
          s1.fetchWords e (BitVec.toNat pc + 4) (lengthOf w - 1) = (ws, none, s2) ∧ decode (w :: ws) = Except.ok (i, rest))
    ∧ (∃ (s s1 s2 : State) (e : Env) (a h : ℕ),
        s.check
            (have __src := e.who;
            { part := __src.part, sub := __src.sub, ctx := __src.ctx,
              caches := [TlbAt.quarter e.cl (e.crew % 4), TlbAt.cluster e.cl, TlbAt.die e.die] })
            (↑a) 4 false true =
          (Acc.ok [(Loc.home h, a, 4)], s1) ∧
        s1.readPieces e.part e.sub e.rcd.owner 3 [(Loc.home h, a, 4)] = (true, s2) ∧
          s2.homeWaits h = false ∧ s2.markAt h = 0) :=
  ⟨⟨z1, _, 0, 0, [.issue 0 1], K, [], (thr z4), (.add {w:=false,g:=0,d:=8,a:=.reg 2,b:=.reg 6} : Instr), ⟨by decide +kernel, by decide +kernel, by decide +kernel, by decide +kernel, by_dec (letI := @someDec; inferInstance) (by decide +kernel), by decide +kernel, pair_of (by decide +kernel)⟩⟩,
    ⟨z12, [], 136, 8, by decide +kernel⟩,
    ⟨z16, [.issue 0 1], .refreshInterval, by decide +kernel⟩,
    ⟨z17, _, _, (z17.env K), 0x1000, z19, z20.1, [], (.add {w:=false,g:=0,d:=8,a:=.reg 2,b:=.reg 6} : Instr), ⟨by decide +kernel, pair_of (by decide +kernel), triple_of (by decide +kernel) (by decide +kernel), by decide +kernel⟩⟩,
    ⟨z17, _, _, (z17.env K), 0x1000, 0x1000, ⟨pair_of (by decide +kernel), pair_of (by decide +kernel), by decide +kernel, by decide +kernel⟩⟩⟩

/-- States that meet the hypotheses of `QueueInstructions`, clause by clause. -/
theorem witness_QueueInstructions :
    (∃ (f : FDeq) (s : State) (k : TKey) (t : Thread) (l g : ℕ) (ms : List ℕ) (item : Word128) (s1 : State),
        Alone s k t (Instr.deq f) ∧
        let e := s.env k;
        let sel := BitVec.toNat (src32 e t f.b) % 16;
        s.qsel k.launch f.grp sel = QSel.group l g ms ∧ s.takeItem (QSel.group l g ms) = some (item, s1)) :=
  ⟨fDg, z29, K, (thr z29), 0, (ms z29).1, (ms z29).2, z30.1, z30.2, alone_and (by decide +kernel)⟩

/-- A thread that waits to execute its instruction again. -/
def waiting : State :=
  { (one (.add {w:=false,g:=0,d:=8,a:=.reg 2,b:=.reg 6})).onThread K (fun _ t => { t with wait := { kind := .again, counts := true } }) with
    agenda := [.resume K] }

theorem runs_of {d : Decision} {i : Instr} (h : (match d with | .run j _ => decide (j = i) | _ => false) = true) :
    ∃ s1, d = .run i s1 := by
  cases d <;> simp_all

/-- A state that meets the hypotheses of `StepRunsDecoded`'s second clause. -/
theorem witness_StepRunsDecoded_resume : ∃ s s1 rest k i, (State.settle s).agenda = .resume k :: rest
    ∧ ({ s.settle with agenda := rest } : State).again k = .run i s1 := by
  obtain ⟨s1, h⟩ := runs_of (d := ({ waiting.settle with agenda := [] } : State).again K)
    (i := .add {w:=false,g:=0,d:=8,a:=.reg 2,b:=.reg 6}) (by decide +kernel)
  exact ⟨waiting, s1, [], K, _, by decide +kernel, h⟩

end Steps

end Sys2Proof.Tests
end

/-!
PROOFS. The statements of 04_instruction_formats.md: what the compare conditions mean (R87), and what `pset`, `sel` and
`pmov` leave in a thread (R85, R86; 07 R178, R180, R181).
-/

namespace Sys2Proof.Machine

/-! ### Conditions (04 R87) -/

/-- The test condition: two words share a 1 bit. -/
theorem and_ne_zero_iff_exists {w : Nat} (a b : BitVec w) :
    a &&& b ≠ 0 ↔ ∃ k, a.getLsbD k = true ∧ b.getLsbD k = true := by
  constructor
  · intro h
    by_contra hn
    refine h (BitVec.eq_of_getLsbD_eq fun k _ => ?_)
    simpa using fun ha : a.getLsbD k = true => Bool.eq_false_iff.2 fun hb => hn ⟨k, ha, hb⟩
  · rintro ⟨k, ha, hb⟩ h
    simpa [ha, hb] using congrArg (·.getLsbD k) h

/-- The test-zero condition: two words share no 1 bit. -/
theorem and_eq_zero_iff_forall {w : Nat} (a b : BitVec w) :
    a &&& b = 0 ↔ ∀ k, a.getLsbD k = true → b.getLsbD k = false := by
  rw [← not_iff_not, ← ne_eq, and_ne_zero_iff_exists]
  simp

/-- The orders of `cmps` are those of the integers that the words stand for. -/
theorem condS_order (a b : Word32) :
    (condS 0 a b = true ↔ a.toInt = b.toInt) ∧ (condS 1 a b = true ↔ a.toInt ≠ b.toInt)
    ∧ (condS 2 a b = true ↔ a.toInt < b.toInt) ∧ (condS 3 a b = true ↔ a.toInt ≤ b.toInt)
    ∧ (condS 4 a b = true ↔ b.toInt < a.toInt) ∧ (condS 5 a b = true ↔ b.toInt ≤ a.toInt) :=
  ⟨beq_iff_eq.trans BitVec.toInt_inj.symm, bne_iff_ne.trans BitVec.toInt_ne.symm,
    BitVec.slt_iff_toInt_lt, BitVec.sle_iff_toInt_le, BitVec.slt_iff_toInt_lt, BitVec.sle_iff_toInt_le⟩

/-- Test and test-zero of `cmps`, bit by bit. -/
theorem condS_bits (a b : Word32) :
    (condS 6 a b = true ↔ ∃ k, a.getLsbD k = true ∧ b.getLsbD k = true)
    ∧ (condS 7 a b = true ↔ ∀ k, a.getLsbD k = true → b.getLsbD k = false) :=
  ⟨bne_iff_ne.trans (and_ne_zero_iff_exists a b), beq_iff_eq.trans (and_eq_zero_iff_forall a b)⟩

/-- The orders of `cmpz` are those of the naturals that the words stand for. -/
theorem condZ_order (a b : Word32) :
    (condZ 2 a b = true ↔ a.toNat < b.toNat) ∧ (condZ 3 a b = true ↔ a.toNat ≤ b.toNat)
    ∧ (condZ 4 a b = true ↔ b.toNat < a.toNat) ∧ (condZ 5 a b = true ↔ b.toNat ≤ a.toNat) :=
  ⟨BitVec.ult_iff_lt, BitVec.ule_iff_le, BitVec.ult_iff_lt, BitVec.ule_iff_le⟩

/-- Equality and the bit tests of `cmpz`. -/
theorem condZ_bits (a b : Word32) :
    (condZ 0 a b = true ↔ a = b) ∧ (condZ 1 a b = true ↔ a ≠ b)
    ∧ (condZ 6 a b = true ↔ a &&& b ≠ 0) ∧ (condZ 7 a b = true ↔ a &&& b = 0) :=
  ⟨beq_iff_eq, bne_iff_ne, bne_iff_ne, beq_iff_eq⟩

/-- The conditions of `cmp64`: equality, and the orders of integers (`s`) and of naturals (`z`). -/
theorem cond64_order (a b : Word64) :
    (cond64 0 a b = true ↔ a = b) ∧ (cond64 1 a b = true ↔ a ≠ b)
    ∧ (cond64 2 a b = true ↔ a.toInt < b.toInt) ∧ (cond64 3 a b = true ↔ a.toInt ≤ b.toInt)
    ∧ (cond64 4 a b = true ↔ a.toNat < b.toNat) ∧ (cond64 5 a b = true ↔ a.toNat ≤ b.toNat)
    ∧ (cond64 6 a b = true ↔ b.toInt < a.toInt) ∧ (cond64 7 a b = true ↔ b.toNat < a.toNat) :=
  ⟨beq_iff_eq, bne_iff_ne, BitVec.slt_iff_toInt_lt, BitVec.sle_iff_toInt_le, BitVec.ult_iff_lt, BitVec.ule_iff_le,
    BitVec.slt_iff_toInt_lt, BitVec.ult_iff_lt⟩

/-- Two values are unordered exactly when a NaN is among them. -/
theorem FVal.cmp_eq_none_iff (x y : FVal) : x.cmp y = none ↔ x = .nan ∨ y = .nan := by
  cases x <;> cases y <;> simp [FVal.cmp]

/-- The conditions of `fcmp` on the outcome of a comparison, none for an unordered one. -/
theorem condF_order (o : Option Ordering) :
    (condF 0 o = true ↔ o = some .eq) ∧ (condF 1 o = true ↔ o ≠ some .eq)
    ∧ (condF 2 o = true ↔ o = some .lt) ∧ (condF 4 o = true ↔ o = some .gt)
    ∧ (condF 3 o = true ↔ o = some .lt ∨ o = some .eq) ∧ (condF 5 o = true ↔ o = some .gt ∨ o = some .eq)
    ∧ (condF 6 o = true ↔ o = none) ∧ (condF 7 o = true ↔ o ≠ none) := by
  rcases o with _ | (_ | _ | _) <;> decide

/-- An unordered comparison meets ne and unordered only. -/
theorem condF_none (c : BitVec 3) (hne : c ≠ 1) (hun : c ≠ 6) : condF c none = false := by
  revert c; decide

/-- Settles O4: each condition is its order or bit test, and a comparison is unordered exactly when a NaN is in it. -/
theorem conditionMeanings : Obligations.ConditionMeanings := by
  unfold Obligations.ConditionMeanings
  refine ⟨fun a b => ?_, condZ_bits, cond64_order, fun x y => ?_⟩
  · obtain ⟨s0, s1, s2, s3, s4, s5⟩ := condS_order a b
    obtain ⟨z2, z3, z4, z5⟩ := condZ_order a b
    exact ⟨s0, s1, s2, s3, s4, s5, z2, z3, z4, z5, condS_bits a b⟩
  · have nan := FVal.cmp_eq_none_iff x y
    obtain ⟨f0, f1, f2, f4, f3, f5, f6, f7⟩ := condF_order (x.cmp y)
    refine ⟨f0, f1, f2, f4, f3, f5, f6.trans nan, f7.trans (nan.not.trans not_or), fun h c hne hun => ?_⟩
    rw [nan.2 h]
    exact condF_none c hne hun

/-! ### Going on past a short instruction (04 R89) -/

@[simp] theorem Thread.advanceShort_regs (e : Env) (t0 t : Thread) (i : Instr) (v : Word128) :
    (Thread.advanceShort e t0 t i v).regs = t.regs := by
  unfold Thread.advanceShort; split <;> rfl

@[simp] theorem Thread.advanceShort_preds (e : Env) (t0 t : Thread) (i : Instr) (v : Word128) :
    (Thread.advanceShort e t0 t i v).preds = t.preds := by
  unfold Thread.advanceShort; split <;> rfl

@[simp] theorem Thread.advanceShort_dying (e : Env) (t0 t : Thread) (i : Instr) (v : Word128) :
    (Thread.advanceShort e t0 t i v).dying = t.dying := by
  unfold Thread.advanceShort; split <;> rfl

@[simp] theorem Thread.advanceShort_pred (e : Env) (t0 t : Thread) (i : Instr) (v : Word128) (k : Nat) :
    (Thread.advanceShort e t0 t i v).pred k = t.pred k := by
  simp [Thread.pred]

/-- Only the registers and predicates of a thread have changed from `t` to `u`. -/
def WritesOnly (t u : Thread) : Prop := u = { t with regs := u.regs, preds := u.preds }

theorem WritesOnly.dying {t u : Thread} (h : WritesOnly t u) : u.dying = t.dying := by rw [h]

theorem WritesOnly.trans {t u v : Thread} (h : WritesOnly t u) (h' : WritesOnly u v) : WritesOnly t v := by
  unfold WritesOnly
  rw [h', h]

/-- A thread that has written registers and predicates only, and goes on past a short instruction. -/
theorem WritesOnly.shortDone {t u : Thread} (h : WritesOnly t u) (e : Env) {i : Instr} (hi : i.shape.isSome = true)
    (v : Word128) : ShortDone i v t (Thread.advanceShort e t u i v) := by
  obtain ⟨sh, hs⟩ := Option.isSome_iff_exists.1 hi
  rw [Thread.advanceShort_eq e t u i v sh hs, h]
  exact ⟨rfl, rfl, rfl⟩

/-! ### A 32-bit destination (04 R81) -/

theorem Thread.put32_writesOnly (e : Env) (t : Thread) (w : Bool) (d : BitVec 7) (v : Word32) :
    WritesOnly t (t.put32 e w d v) := by
  unfold Thread.put32; split <;> rfl

@[simp] theorem Thread.put32_preds (e : Env) (t : Thread) (w : Bool) (d : BitVec 7) (v : Word32) :
    (t.put32 e w d v).preds = t.preds := by
  unfold Thread.put32; split <;> rfl

/-- The registers that a 32-bit write leaves do not depend on the predicates. -/
theorem Thread.put32_regs_setPreds (e : Env) (t : Thread) (p : Byte) (w : Bool) (d : BitVec 7) (v : Word32) :
    (Thread.put32 e { t with preds := p } w d v).regs = (t.put32 e w d v).regs := by
  unfold Thread.put32; split <;> rfl

/-- Any thread with the registers that a 32-bit write leaves shows that write. -/
theorem Thread.put32_writesRegs (e : Env) (t u : Thread) (w : Bool) (d : BitVec 7) (v : Word32)
    (hu : u.regs = (t.put32 e w d v).regs) : WritesRegs e t u w d 1 v.toNat := by
  refine writesRegs e t w d 1 v.toNat (.inl rfl) (fun _ => Nat.mod_one _) u (hu.trans ?_)
  unfold Thread.put32; split <;> rfl

/-- A thread that writes a 32-bit result to D and bl0, as `sel` does on both sides of its guard. -/
theorem Thread.advanceShort_put32 (e : Env) (t : Thread) {i : Instr} (hi : i.shape.isSome = true) (w : Bool)
    (d : BitVec 7) (v : Word32) :
    let u := Thread.advanceShort e t (t.put32 e w d v) i (v.setWidth 128)
    ShortDone i (v.setWidth 128) t u ∧ u.preds = t.preds ∧ WritesRegs e t u w d 1 v.toNat :=
  ⟨(t.put32_writesOnly e w d v).shortDone e hi _, by simp, t.put32_writesRegs e _ w d v (by simp)⟩

/-! ### `sel` (04 R85) -/

/-- A guard-true thread of `sel` takes A and a guard-false one B, each as a 32-bit result. -/
theorem sel_result (f : FDAB) (s : State) (hr : Issues s (.sel f)) (hc : s.chainTrap (.sel f) = false) :
    ∃ u, exec (.sel f) s = .next u ∧ RunBecomes s u fun e t t' =>
      let v := if t.guard f.g then src32 e t f.a else src32 e t f.b
      ShortDone (.sel f) (v.setWidth 128) t t' ∧ t'.preds = t.preds ∧ WritesRegs e t t' f.w f.d 1 v.toNat := by
  have dying : ∀ e t (v : Word32),
      (Thread.advanceShort e t (t.put32 e f.w f.d v) (.sel f) (v.setWidth 128)).dying = t.dying :=
    fun e t v => (Thread.advanceShort_dying ..).trans (t.put32_writesOnly e f.w f.d v).dying
  refine ⟨_, rfl, State.issueShort_spec s _ _ _ hr hc _ (fun e t => dying e t _) (fun e t => dying e t _)
    fun k _ t _ => ?_⟩
  rw [show guardOf (.sel f) = f.g from rfl]
  split
  · exact t.advanceShort_put32 (s.env k) rfl f.w f.d (src32 (s.env k) t f.a)
  · exact t.advanceShort_put32 (s.env k) rfl f.w f.d (src32 (s.env k) t f.b)

/-! ### `pmov` (07 R181) -/

/-- The word of all predicates: bit 0 is 1, bit k is pk, and no bit above 7 is set. -/
theorem Thread.predWord_getLsbD (t : Thread) {k : Nat} (hk : k < 32) :
    t.predWord.getLsbD k = (decide (k < 8) && t.pred k) := by
  have bits : (t.preds.extractLsb' 1 7 ++ (1 : BitVec 1) : Byte).getLsbD k = _ := BitVec.getLsbD_append
  unfold Thread.predWord Thread.pred
  rw [BitVec.getLsbD_setWidth, bits]
  cases k with
  | zero => simp
  | succ k =>
    have low : k + 1 < 8 ↔ k < 7 := Nat.add_lt_add_iff_right
    simp [hk, low, Nat.add_comm 1 k]

/-- Take predicate k from the bits of `src` if bit k of `sel` is set. -/
def Thread.takePred (src sel : Word32) (t : Thread) (k : Nat) : Thread :=
  if sel.getLsbD k then t.setPred k (src.getLsbD k) else t

theorem Thread.putPreds_eq (t : Thread) (src sel : Word32) :
    t.putPreds src sel = (upFrom 1 7).foldl (Thread.takePred src sel) t := rfl

theorem Thread.takePred_same (src sel : Word32) (t : Thread) (k : Nat) :
    t.takePred src sel k = { t with preds := (t.takePred src sel k).preds } := by
  unfold Thread.takePred Thread.setPred
  split_ifs <;> rfl

theorem Thread.takePred_pred (src sel : Word32) (t : Thread) {n k : Nat} (hn : n < 8) (hk : k < 8) :
    (t.takePred src sel n).pred k = if k ≠ 0 ∧ k = n ∧ sel.getLsbD k then src.getLsbD k else t.pred k := by
  unfold Thread.takePred
  by_cases hs : sel.getLsbD n = true
  · rw [if_pos hs, Thread.pred_setPred _ _ _ _ hn hk]
    by_cases h : k = n
    · subst h; simp [hs]
    · simp [h]
  · rw [if_neg hs, if_neg]
    rintro ⟨-, rfl, h⟩
    exact hs h

/-- Taking the predicates of a list one after the other changes predicates only. -/
theorem Thread.foldl_takePred_same (src sel : Word32) (l : List Nat) (t : Thread) :
    l.foldl (Thread.takePred src sel) t = { t with preds := (l.foldl (Thread.takePred src sel) t).preds } := by
  induction l generalizing t with
  | nil => rfl
  | cons n l ih =>
    rw [List.foldl_cons, ih, Thread.takePred_same]

/-- Each predicate of the list that `sel` names has its bit of `src`, the others stay. -/
theorem Thread.foldl_takePred_pred (src sel : Word32) (l : List Nat) (hl : ∀ n ∈ l, n < 8) (t : Thread) {k : Nat}
    (hk : k < 8) : (l.foldl (Thread.takePred src sel) t).pred k =
      if k ≠ 0 ∧ k ∈ l ∧ sel.getLsbD k then src.getLsbD k else t.pred k := by
  induction l generalizing t with
  | nil => simp
  | cons n l ih =>
    obtain ⟨hn, hl⟩ := List.forall_mem_cons.1 hl
    rw [List.foldl_cons, ih hl, Thread.takePred_pred _ _ _ hn hk]
    by_cases h : k = n
    · subst h
      by_cases hs : sel.getLsbD k = true <;> simp +contextual [hs]
    · simp [h]

theorem Thread.putPreds_same (t : Thread) (src sel : Word32) :
    t.putPreds src sel = { t with preds := (t.putPreds src sel).preds } :=
  Thread.foldl_takePred_same src sel (upFrom 1 7) t

/-- The predicates that `sel` names, but p0, are the bits of `src`; the others stay. -/
theorem Thread.putPreds_pred (t : Thread) (src sel : Word32) {k : Nat} (hk : k < 8) :
    (t.putPreds src sel).pred k = if k ≠ 0 ∧ sel.getLsbD k then src.getLsbD k else t.pred k := by
  have mem : k ≠ 0 → k ∈ upFrom 1 7 := fun h0 =>
    List.mem_map.2 ⟨k - 1, List.mem_range.2 (by omega), by omega⟩
  rw [Thread.putPreds_eq, Thread.foldl_takePred_pred _ _ _ (by decide) _ hk]
  simp only [← and_assoc, and_iff_left_of_imp mem]

/-- What `pmov` does to a guard-true thread: the predicates it selects, and to D the predicates as they stood. -/
def Thread.pmoved (e : Env) (t : Thread) (f : FDAB) : Thread :=
  (t.putPreds (src32 e t f.a) (src32 e t f.b)).put32 e f.w f.d t.predWord

theorem Thread.pmoved_writesOnly (e : Env) (t : Thread) (f : FDAB) : WritesOnly t (t.pmoved e f) := by
  refine WritesOnly.trans ?_ (Thread.put32_writesOnly e _ f.w f.d t.predWord)
  rw [Thread.putPreds_same]
  rfl

theorem Thread.pmoved_regs (e : Env) (t : Thread) (f : FDAB) :
    (t.pmoved e f).regs = (t.put32 e f.w f.d t.predWord).regs := by
  unfold Thread.pmoved
  rw [Thread.putPreds_same, Thread.put32_regs_setPreds]

theorem Thread.pmoved_pred (e : Env) (t : Thread) (f : FDAB) {k : Nat} (hk : k < 8) :
    (t.pmoved e f).pred k =
      if k ≠ 0 ∧ (src32 e t f.b).getLsbD k then (src32 e t f.a).getLsbD k else t.pred k := by
  rw [← Thread.putPreds_pred t _ _ hk]
  simp [Thread.pmoved, Thread.pred]

/-- A guard-true thread of `pmov` has its predicates as they stood in D and bl0, and those that B selects from A; a
guard-false one only goes on. -/
theorem pmov_result (f : FDAB) (s : State) (hr : Issues s (.pmov f)) (hc : s.chainTrap (.pmov f) = false) :
    ∃ u, exec (.pmov f) s = .next u ∧ RunBecomes s u fun e t t' =>
      if t.guard f.g then
        (∃ v : Word32, (∀ k, k < 32 → v.getLsbD k = (decide (k < 8) && t.pred k))
          ∧ ShortDone (.pmov f) (v.setWidth 128) t t' ∧ WritesRegs e t t' f.w f.d 1 v.toNat)
        ∧ ∀ k, k < 8 → t'.pred k = if k ≠ 0 ∧ (src32 e t f.b).getLsbD k then (src32 e t f.a).getLsbD k else t.pred k
      else ShortDone (.pmov f) 0 t t' ∧ t'.preds = t.preds ∧ t'.regs = t.regs := by
  refine ⟨_, rfl, State.issueShort_spec s _ (fun e t => (t.pmoved e f, t.predWord.setWidth 128)) _ hr hc _
    (fun e t => (Thread.advanceShort_dying ..).trans (t.pmoved_writesOnly e f).dying)
    (fun _ _ => Thread.advanceShort_dying ..) fun k _ t _ => ?_⟩
  rw [show guardOf (.pmov f) = f.g from rfl]
  split
  · refine ⟨⟨t.predWord, fun _ hj => t.predWord_getLsbD hj, (t.pmoved_writesOnly (s.env k) f).shortDone _ rfl _,
      t.put32_writesRegs _ _ f.w f.d _ ?_⟩, fun j hj => ?_⟩
    · rw [Thread.advanceShort_regs, Thread.pmoved_regs]
    · rw [Thread.advanceShort_pred, Thread.pmoved_pred _ _ _ hj]
  · have unwritten : WritesOnly t t := rfl
    exact ⟨unwritten.shortDone _ rfl 0, Thread.advanceShort_preds .., Thread.advanceShort_regs ..⟩

/-- Settles O5: `pset` is a predicate result whose value is the selected truth-table bit; `sel` and `pmov` each have an
effect of their own on every thread of the run. -/
theorem predicateResults : Obligations.PredicateResults := by
  unfold Obligations.PredicateResults
  exact ⟨fun f => shortPred_of (.pset f) rfl f.w f.g rfl rfl f.p _ fun _ => rfl, sel_result, pmov_result⟩

end Sys2Proof.Machine

/-!
PROOFS. The statements of 06_translation_and_traps.md: what taking a trap leaves in a thread (R151, R156, R157), and how
`rti` goes on from it (R154; 07 R168).
-/

namespace Sys2Proof.Machine

/-! ### Taking a trap (06 R151, R156, R157) -/

section
variable (fpm : Word32) (preds : Byte) (tr : Trap) (w : TrapAt)

/-! The fields of `%tcause`, from its lowest bits up (06 R156). -/

theorem tcauseAt_cause : (tcauseAt fpm preds tr w).extractLsb' 0 8 = tr.cause :=
  BitVec.extractLsb'_append_eq_right

theorem tcauseAt_sub : (tcauseAt fpm preds tr w).extractLsb' 8 6 = BitVec.ofNat 6 tr.sub := by
  unfold tcauseAt
  rw [BitVec.extractLsb'_append_eq_of_le (by decide), BitVec.extractLsb'_append_eq_right]

theorem tcauseAt_chain : (tcauseAt fpm preds tr w).getLsbD 14 = w.chain := by
  unfold tcauseAt
  rw [BitVec.getLsbD_append, BitVec.getLsbD_append, BitVec.getLsbD_append]
  simp

theorem tcauseAt_defer : (tcauseAt fpm preds tr w).getLsbD 15 = w.defer := by
  unfold tcauseAt
  rw [BitVec.getLsbD_append, BitVec.getLsbD_append, BitVec.getLsbD_append, BitVec.getLsbD_append]
  simp

theorem tcauseAt_psave : (tcauseAt fpm preds tr w).extractLsb' 16 7 = preds.extractLsb' 1 7 := by
  unfold tcauseAt
  rw [BitVec.extractLsb'_append_eq_of_le (by decide), BitVec.extractLsb'_append_eq_of_le (by decide),
    BitVec.extractLsb'_append_eq_of_le (by decide), BitVec.extractLsb'_append_eq_of_le (by decide),
    BitVec.extractLsb'_append_eq_right]

theorem tcauseAt_fpmsave : (tcauseAt fpm preds tr w).extractLsb' 23 9 = fpm.extractLsb' 0 9 := by
  unfold tcauseAt
  rw [BitVec.extractLsb'_append_eq_of_le (by decide), BitVec.extractLsb'_append_eq_of_le (by decide),
    BitVec.extractLsb'_append_eq_of_le (by decide), BitVec.extractLsb'_append_eq_of_le (by decide),
    BitVec.extractLsb'_append_eq_left]

/-! The fields of `%tinfo` (06 R157). -/

theorem tinfoAt_value (degr : Byte) : (tinfoAt degr tr w).extractLsb' 64 64 = tr.value := by
  unfold tinfoAt
  rw [BitVec.extractLsb'_append_eq_of_le (by decide), BitVec.extractLsb'_append_eq_of_le (by decide),
    BitVec.extractLsb'_append_eq_left]

theorem tinfoAt_degr (degr : Byte) : (tinfoAt degr tr w).extractLsb' 56 8 = degr := by
  unfold tinfoAt
  rw [BitVec.extractLsb'_append_eq_of_le (by decide), BitVec.extractLsb'_append_eq_of_le (by decide),
    BitVec.extractLsb'_append_eq_right]

theorem tinfoAt_ipc (degr : Byte) : (tinfoAt degr tr w).extractLsb' 0 55 = w.ipc.extractLsb' 2 55 :=
  BitVec.extractLsb'_append_eq_right

end

/-- With a trap reserve, and outside a handler, a trap takes the thread into its handler. -/
theorem Thread.enterTrap_entered (e : Env) (t : Thread) (tr : Trap) (w : TrapAt) (hr : e.rcd.trsv = true)
    (hh : t.inHandler = false) : EnteredTrap e t (t.enterTrap e tr w) tr w := by
  have taken : (e.rcd.trsv && !t.inHandler) = true := by simp [hr, hh]
  unfold Thread.enterTrap
  rw [if_pos taken]
  exact {
    handler := rfl, pc := rfl, tpc := rfl, twb := rfl, fpm := rfl, latches := rfl, chain := rfl, regs := rfl, preds := rfl
    cause := tcauseAt_cause ..
    sub := tcauseAt_sub ..
    chainBit := tcauseAt_chain ..
    deferBit := tcauseAt_defer ..
    psave := tcauseAt_psave ..
    fpmsave := tcauseAt_fpmsave ..
    value := tinfoAt_value ..
    degr := tinfoAt_degr ..
    ipc := tinfoAt_ipc .. }

/-! ### Return from a trap (06 R154) -/

/-- The predicates that a return leaves are the bits of PSAVE. -/
theorem Thread.returnFromTrap_pred (t : Thread) {n : Nat} (h1 : 1 ≤ n) (h8 : n < 8) :
    t.returnFromTrap.pred n = t.tcause.getLsbD (15 + n) := by
  have saved : t.returnFromTrap.preds.getLsbD n = _ := BitVec.getLsbD_append
  obtain ⟨k, rfl⟩ := Nat.exists_eq_add_of_le' h1
  have low : k < 7 := by omega
  rw [Thread.pred, saved]
  simp [low, show 15 + (k + 1) = 16 + k by omega]

/-- A predicate byte is p1 to p7 above bit 0, which stands for p0 and is 0. -/
theorem predBits_append_zero (p : Byte) (h0 : p.getLsbD 0 = false) : p.extractLsb' 1 7 ++ (0 : BitVec 1) = p := by
  have bit0 : p.extractLsb' 0 1 = 0 := by
    rw [BitVec.eq_of_getLsbD_eq_iff]
    intro i hi
    obtain rfl : i = 0 := by omega
    simpa using h0
  rw [← bit0]
  exact BitVec.extractLsb'_append_extractLsb' (w := 7) (len := 1)

/-- A word whose value fits in `n` bits is its low `n` bits, extended. -/
theorem setWidth_extractLsb'_of_lt {m : Nat} (x : BitVec m) {n : Nat} (h : x.toNat < 2 ^ n) :
    (x.extractLsb' 0 n).setWidth m = x := by
  apply BitVec.eq_of_toNat_eq
  simp [Nat.mod_eq_of_lt h]

/-- A return from the handler of a trap that is not deferred gives back what the thread had, at the place of the trap. -/
theorem EnteredTrap.returnFromTrap {e : Env} {t t' : Thread} {tr : Trap} {w : TrapAt} (h : EnteredTrap e t t' tr w)
    (hdefer : w.defer = false) (hbase : t.base < 2 ^ 32) (hfpm : t.fpm.toNat < 2 ^ 9)
    (hp0 : t.preds.getLsbD 0 = false) :
    let r := t'.returnFromTrap
    r.preds = t.preds ∧ r.fpm = t.fpm ∧ r.base = t.base ∧ r.pc = w.tpc ∧ r.regs = t.regs ∧ r.inHandler = false := by
  refine ⟨?preds, ?fpm, ?base, ?pc, h.regs, rfl⟩ <;> unfold Thread.returnFromTrap <;> dsimp only
  case preds => rw [h.psave, predBits_append_zero _ hp0]
  case fpm => rw [h.fpmsave, setWidth_extractLsb'_of_lt _ hfpm]
  case base => rw [h.twb, BitVec.toNat_ofNat, Nat.mod_eq_of_lt hbase]
  case pc => rw [h.deferBit, hdefer, h.tpc, if_neg Bool.false_ne_true]

/-! ### `rti` (07 R168) -/

/-- What `rti` leaves of a thread: the return from its trap, with nothing it waits for. -/
def Thread.afterRti (t : Thread) : Thread := { t.returnFromTrap with wait := Wait.idle, blockCtr := 0 }

/-- Every thread of a run that issues `rti` returns from its trap; the guard of `rti` is p0. -/
theorem rti_result (s : State) (h : Issues s .rti) (r : Env → Thread → Thread → Prop)
    (hr : ∀ e t, r e t t.afterRti) : ∃ u, exec .rti s = .next u ∧ RunBecomes s u r := by
  have guarded (t : Thread) : t.guard (guardOf .rti) = true := rfl
  refine ⟨_, rfl, State.issueLocal_spec s .rti (fun _ t => t.afterRti) h r (fun k _ t ht => ?_) fun k _ t _ => ?_⟩
  · exact h.calm _ (Tbl.find_mem ht)
  · rw [if_pos (guarded t)]
    exact hr _ t

/-- Settles O12: `rti` is the return from the trap for every thread of the run, and a return undoes what taking the trap
did to the predicates, `%fpm` and the window base. -/
theorem trapReturns : Obligations.TrapReturns := by
  unfold Obligations.TrapReturns
  refine ⟨fun s h => rti_result s h _ fun _ t => ?_, ?_⟩
  · exact ⟨rfl, rfl, rfl, rfl, fun _ h1 h8 => t.returnFromTrap_pred h1 h8, rfl, rfl, rfl, rfl, rfl, rfl⟩
  · intro e t tr w ⟨hr, hh, _⟩ hdefer hbase hfpm hp0
    exact (t.enterTrap_entered e tr w hr hh).returnFromTrap hdefer hbase hfpm hp0

end Sys2Proof.Machine

/-!
PROOFS. The statement on branches, `nop`, `yield` and `wbase` of 07_core_integer_and_control.md: where a thread of the run
goes on (R161, R162, R165, R170), and when one that yielded may issue again (R169).
-/

namespace Sys2Proof.Machine

/-! ### Threads of an issue -/

/-- A thread of a run that issues has passed the checks of orders 2 to 5. -/
theorem Issues.precheck_eq_none {s : State} {i : Instr} (h : Issues s i) {k : TKey} (hk : k ∈ s.run) {t : Thread}
    (ht : s.threads.find k = some t) : precheck (s.env k) t i = none := by
  obtain ⟨t', here, pass⟩ := h.pass k hk
  obtain rfl : t = t' := Option.some.inj (ht.symm.trans here)
  exact pass

/-- Going on past an instruction that is not short is `LongDone`. -/
theorem Thread.advance_longDone (t : Thread) (i : Instr) : LongDone i t (t.advance i) := rfl

/-! ### A 64-bit destination (04 R81, R82) -/

theorem Thread.put64_writes_regs_only (e : Env) (t : Thread) (w : Bool) (d : BitVec 7) (v : Word64) :
    t.put64 e w d v = { t with regs := (t.put64 e w d v).regs } := by
  unfold Thread.put64
  split
  · rfl
  · exact (setRegs_spec e 2 t d.toNat v.toNat).1

/-- Any thread with the registers that a write of an aligned pair leaves shows that write. -/
theorem Thread.put64_writesRegs (e : Env) (t u : Thread) (w : Bool) (d : BitVec 7) (v : Word64)
    (aligned : w = false → d.toNat % 2 = 0) (hu : u.regs = (t.put64 e w d v).regs) :
    WritesRegs e t u w d 2 v.toNat := by
  refine writesRegs e t w d 2 v.toNat (.inr (.inl rfl)) aligned u (hu.trans ?_)
  unfold Thread.put64; split <;> rfl

/-! ### Branches (07 R161, R162) -/

/-- A thread that may go to a target does so, its link written. -/
theorem branchTo_of_legal (e : Env) (t : Thread) (i : Instr) {target : Int} (link : Thread → Thread)
    (legal : canonical target = true ∧ target % 4 = 0) :
    branchTo e t i target link = { (link t).advance i with pc := BitVec.ofInt 64 target } := by
  unfold branchTo
  rw [if_pos (by simp [legal])]

/-- A branch whose targets are all legal: a guard-true thread writes its link and stands at its target, a guard-false one
goes on. `on` is what is said of the first. -/
theorem branch_result {i : Instr} (target : Env → Thread → Int) (link : Env → Thread → Thread → Thread)
    (meaning : ∀ s, exec i s = .next (s.issueLocal i fun e t => branchTo e t i (target e t) (link e t)))
    (linkRegs : ∀ e t, link e t t = { t with regs := (link e t t).regs }) {s : State} (h : Issues s i)
    (legal : ∀ k ∈ s.run, ∀ t, s.threads.find k = some t →
      canonical (target (s.env k) t) = true ∧ target (s.env k) t % 4 = 0)
    (on : Env → Thread → Thread → Prop)
    (taken : ∀ e t, precheck e t i = none →
      on e t { (link e t t).advance i with pc := BitVec.ofInt 64 (target e t) }) :
    ∃ u, exec i s = .next u ∧ RunBecomes s u fun e t t' =>
      if t.guard (guardOf i) then on e t t' else LongDone i t t' ∧ t'.regs = t.regs := by
  refine ⟨_, meaning s, State.issueLocal_spec s i _ h _ (fun k hk t ht => ?_) fun k hk t ht => ?_⟩
  · rw [branchTo_of_legal _ t i _ (legal k hk t ht), linkRegs]
    exact h.calm _ (Tbl.find_mem ht)
  · split
    · rw [branchTo_of_legal _ t i _ (legal k hk t ht)]
      exact taken _ t (h.precheck_eq_none hk ht)
    · exact ⟨t.advance_longDone i, rfl⟩

/-- From an aligned instruction the exact target of `bra` and `call` is aligned, so it is legal where it is canonical. -/
theorem relTarget_legal {t : Thread} {imm : BitVec 20} (aligned : t.pc.toNat % 4 = 0)
    (hc : canonical (t.pc.toNat + 4 * imm.toInt) = true) :
    canonical (relTarget t imm) = true ∧ relTarget t imm % 4 = 0 :=
  ⟨hc, by unfold relTarget imm20; omega⟩

/-- The target of `brx` and `ret` is legal where the word in A is canonical and aligned. -/
theorem wordTarget_legal {a : Word64} (h : canonical a.toNat = true ∧ a.toNat % 4 = 0) :
    canonical (a.toNat : Int) = true ∧ (a.toNat : Int) % 4 = 0 :=
  ⟨h.1, by omega⟩

/-- A word is the word of its own value, as the targets of `brx` and `ret` are (07 R162). -/
theorem ofInt_toNat_word (a : Word64) : BitVec.ofInt 64 a.toNat = a := by simp

/-- `bra`: a guard-true thread goes to its exact target. -/
theorem bra_result (f : FBra) (s : State) (h : Issues s (.bra f))
    (hc : ∀ k ∈ s.run, ∀ t, s.threads.find k = some t → canonical (t.pc.toNat + 4 * f.imm.toInt) = true)
    (h4 : ∀ k ∈ s.run, ∀ t, s.threads.find k = some t → t.pc.toNat % 4 = 0) :
    ∃ u, exec (.bra f) s = .next u ∧ RunBecomes s u fun _ t t' =>
      if t.guard f.g then
        t' = { t with pc := BitVec.ofInt 64 (t.pc.toNat + 4 * f.imm.toInt), chain := none, wait := Wait.idle,
                      blockCtr := 0, kept := none, prog := none, todo := none }
      else LongDone (.bra f) t t' ∧ t'.regs = t.regs :=
  branch_result (fun _ t => relTarget t f.imm) (fun _ _ => id) (fun _ => rfl) (fun _ _ => rfl) h
    (fun k hk t ht => relTarget_legal (h4 k hk t ht) (hc k hk t ht)) _ fun _ _ _ => rfl

/-- `call`: a guard-true thread writes the address of the next instruction to its pair and goes to its exact target. -/
theorem call_result (f : FCall) (s : State) (h : Issues s (.call f))
    (hc : ∀ k ∈ s.run, ∀ t, s.threads.find k = some t → canonical (t.pc.toNat + 4 * f.imm.toInt) = true)
    (h4 : ∀ k ∈ s.run, ∀ t, s.threads.find k = some t → t.pc.toNat % 4 = 0) :
    ∃ u, exec (.call f) s = .next u ∧ RunBecomes s u fun e t t' =>
      if t.guard f.g then
        t' = { t with pc := BitVec.ofInt 64 (t.pc.toNat + 4 * f.imm.toInt), regs := t'.regs, chain := none,
                      wait := Wait.idle, blockCtr := 0, kept := none, prog := none, todo := none }
          ∧ WritesRegs e t t' false f.d 2 (t.pc + BitVec.ofNat 64 (Instr.call f).bytes).toNat
      else LongDone (.call f) t t' ∧ t'.regs = t.regs := by
  refine branch_result (fun _ t => relTarget t f.imm) (fun e t u => u.put64 e false f.d (t.nextPc (.call f)))
    (fun _ => rfl) (fun e t => t.put64_writes_regs_only e false f.d _) h
    (fun k hk t ht => relTarget_legal (h4 k hk t ht) (hc k hk t ht)) _ fun e t pass => ⟨?_, ?_⟩
  · rw [Thread.put64_writes_regs_only]
    rfl
  · exact t.put64_writesRegs e _ false f.d _ (dest_aligned pass rfl (.inl rfl)) rfl

/-- `brx`: a guard-true thread writes the address of the next instruction to its pair and goes to the address in A, read
before the pair is written. -/
theorem brx_result (f : FDA) (s : State) (h : Issues s (.brx f))
    (legal : ∀ k ∈ s.run, ∀ t, s.threads.find k = some t →
      canonical (src64 (s.env k) t f.a).toNat = true ∧ (src64 (s.env k) t f.a).toNat % 4 = 0) :
    ∃ u, exec (.brx f) s = .next u ∧ RunBecomes s u fun e t t' =>
      if t.guard f.g then
        t' = { t with pc := src64 e t f.a, regs := t'.regs, chain := none, wait := Wait.idle, blockCtr := 0,
                      kept := none, prog := none, todo := none }
          ∧ WritesRegs e t t' f.w f.d 2 (t.pc + BitVec.ofNat 64 (Instr.brx f).bytes).toNat
      else LongDone (.brx f) t t' ∧ t'.regs = t.regs := by
  refine branch_result (fun e t => (src64 e t f.a).toNat) (fun e t u => u.put64 e f.w f.d (t.nextPc (.brx f)))
    (fun _ => rfl) (fun e t => t.put64_writes_regs_only e f.w f.d _) h
    (fun k hk t ht => wordTarget_legal (legal k hk t ht)) _ fun e t pass => ⟨?_, ?_⟩
  · rw [Thread.put64_writes_regs_only, ofInt_toNat_word]
    rfl
  · exact t.put64_writesRegs e _ f.w f.d _ (dest_aligned pass rfl (.inl rfl)) rfl

/-- `ret`: a guard-true thread goes to the address in A. -/
theorem ret_result (f : FA) (s : State) (h : Issues s (.ret f))
    (legal : ∀ k ∈ s.run, ∀ t, s.threads.find k = some t →
      canonical (src64 (s.env k) t f.a).toNat = true ∧ (src64 (s.env k) t f.a).toNat % 4 = 0) :
    ∃ u, exec (.ret f) s = .next u ∧ RunBecomes s u fun e t t' =>
      if t.guard f.g then
        t' = { t with pc := src64 e t f.a, chain := none, wait := Wait.idle, blockCtr := 0, kept := none,
                      prog := none, todo := none }
      else LongDone (.ret f) t t' ∧ t'.regs = t.regs := by
  refine branch_result (fun e t => (src64 e t f.a).toNat) (fun _ _ => id) (fun _ => rfl) (fun _ _ => rfl) h
    (fun k hk t ht => wordTarget_legal (legal k hk t ht)) _ fun e t _ => ?_
  rw [ofInt_toNat_word]
  rfl

/-! ### `nop` and `yield` (07 R165, R169) -/

/-- `nop`: every thread of the run goes on, whatever its guard. -/
theorem nop_result (f : FG) (s : State) (h : Issues s (.nop f)) :
    ∃ u, exec (.nop f) s = .next u ∧ RunBecomes s u fun _ t t' => LongDone (.nop f) t t' ∧ t'.regs = t.regs := by
  refine ⟨_, rfl, State.issueLocal_spec s _ _ h _ (fun k _ t ht => h.calm _ (Tbl.find_mem ht)) fun k _ t _ => ?_⟩
  rw [ite_self]
  exact ⟨t.advance_longDone _, rfl⟩

/-- `yield`: every thread of the run goes on, and a guard-true one waits for a slot. -/
theorem yield_result (f : FG) (s : State) (h : Issues s (.yield f)) :
    ∃ u, exec (.yield f) s = .next u ∧ RunBecomes s u fun _ t t' =>
      t' = { t with pc := t.pc + BitVec.ofNat 64 (Instr.yield f).bytes, chain := none, blockCtr := 0, kept := none,
                    prog := none, todo := none,
                    wait := if t.guard f.g then { kind := .yield 0, counts := false } else Wait.idle } := by
  refine ⟨_, rfl, State.issueLocal_spec s _ _ h _ (fun k _ t ht => h.calm _ (Tbl.find_mem ht)) fun k _ t _ => ?_⟩
  rw [show guardOf (.yield f) = f.g from rfl]
  split <;> rfl

/-! ### `wbase` (07 R170) -/

theorem baseOk_iff (e : Env) (v : Word32) : baseOk e v = true ↔ v.toNat % 16 = 0 ∧ v.toNat < e.U := by
  simp [baseOk]

/-- `wbase` outside a handler, with legal window bases in A: every thread of the run goes on, and a guard-true one has its
window moved. -/
theorem wbase_result (f : FA) (s : State) (h : Issues s (.wbase f))
    (legal : ∀ k ∈ s.run, ∀ t, s.threads.find k = some t → t.inHandler = false
      ∧ (src32 (s.env k) t f.a).toNat % 16 = 0 ∧ (src32 (s.env k) t f.a).toNat < (s.env k).U) :
    ∃ u, exec (.wbase f) s = .next u ∧ RunBecomes s u fun e t t' =>
      t' = { t with pc := t.pc + BitVec.ofNat 64 (Instr.wbase f).bytes, chain := none, wait := Wait.idle, blockCtr := 0,
                    kept := none, prog := none, todo := none,
                    base := if t.guard f.g then (src32 e t f.a).toNat else t.base } := by
  have noTrap : ∀ k ∈ s.run, ∀ t, s.threads.find k = some t →
      ¬ (t.inHandler || !baseOk (s.env k) (src32 (s.env k) t f.a)) = true := by
    intro k hk t ht
    obtain ⟨outside, base⟩ := legal k hk t ht
    simp [outside, (baseOk_iff _ _).2 base]
  refine ⟨_, rfl, State.issueLocal_spec s _ _ h _ (fun k hk t ht => ?_) fun k hk t ht => ?_⟩
  · rw [if_neg (noTrap k hk t ht)]
    exact h.calm _ (Tbl.find_mem ht)
  · rw [show guardOf (.wbase f) = f.g from rfl, if_neg (noTrap k hk t ht)]
    split <;> rfl

/-! ### Waiting for a slot (07 R169) -/

/-- YIELD_EXPIRY ends the wait of a thread that yielded once 16 slots have passed, and leaves it before. -/
theorem yieldExpiry_result (s : State) (k : TKey) (t : Thread) (n : Nat) (ht : s.threads.find k = some t)
    (yielded : t.wait.kind = .yield n) :
    exec (.yieldExpiry k.launch k.wid) s =
      .next (if 16 ≤ n then s.setThread k { t with wait := Wait.idle } else s.setThread k t) := by
  show Host.Outcome.next (s.onThread k _) = _
  rw [State.onThread_of_find s k t _ ht, yielded]
  exact congrArg Host.Outcome.next (apply_ite (s.setThread k) (16 ≤ n) _ _)

/-- A thread stands in the quarter of its crew, on the cluster of its block, while the block is resident. -/
theorem State.inQuarter_own (s : State) (k : TKey) (h : s.isResident k = true) :
    s.inQuarter (s.env k).cl ((s.env k).crew % 4) k = true := by
  simp [State.inQuarter, h]

/-- What a slot of its quarter leaves of a thread that yielded and is not of the run: a run issued ends its wait, and an
empty slot is counted. -/
theorem State.afterSlot_yielded (s : State) (k : TKey) (t : Thread) (n : Nat) (ks : List TKey)
    (ht : s.threads.find k = some t) (yielded : t.wait.kind = .yield n) (hk : k ∉ ks) (resident : s.isResident k = true) :
    (s.afterSlot (s.env k).cl ((s.env k).crew % 4) ks).threads.find k =
      some (if ks.isEmpty then { t with wait := { kind := .yield (n + 1), counts := false } }
        else { t with wait := Wait.idle }) := by
  have other : ¬ ks.contains k = true := by simpa using hk
  have here : ¬ (!s.inQuarter (s.env k).cl ((s.env k).crew % 4) k) = true := by simp [s.inQuarter_own k resident]
  unfold State.afterSlot
  dsimp only
  rw [Tbl.find_mapAll, ht, Option.map_some, if_neg here, if_neg other, yielded]

/-- Settles O9: each branch and each of `nop`, `yield` and `wbase` has an effect of its own on every thread of the run,
and a yielding thread waits until YIELD_EXPIRY or the next slot of its quarter that issues. -/
theorem controlFlow : Obligations.ControlFlow := by
  unfold Obligations.ControlFlow
  refine ⟨⟨bra_result, call_result, brx_result, ret_result⟩, ⟨nop_result, yield_result, wbase_result⟩,
    fun s k t n ht yielded => ⟨yieldExpiry_result s k t n ht yielded, fun ks hk resident => ?_⟩⟩
  have slot := s.afterSlot_yielded k t n ks ht yielded hk resident
  refine ⟨fun issued => slot.trans ?_, fun none => slot.trans ?_⟩
  · rw [if_neg (by simpa using issued)]
  · rw [if_pos (by simp [none])]

end Sys2Proof.Machine

/-!
PROOFS. The statements of 10_core_crews_and_waiting.md on the exchanges of a crew (R237 to R244): who its participants
are, in what order an exchange takes them, and what it leaves in every thread of the run.
-/

namespace Sys2Proof.Machine

/-! ### Lists -/

/-- A list that holds nothing but `c` is `c` once without repeats. -/
theorem dedup_of_forall_eq {α : Type} [DecidableEq α] {c : α} {l : List α} (hne : l ≠ []) (h : ∀ x ∈ l, x = c) :
    dedup l = [c] := by
  induction l with
  | nil => exact absurd rfl hne
  | cons x l ih =>
    obtain ⟨rfl, hl⟩ := List.forall_mem_cons.1 h
    rcases eq_or_ne l [] with rfl | hne
    · rfl
    · simp [dedup, ih hne hl]

theorem insertBy_eq_orderedInsert {α : Type} (lt : α → α → Bool) (x : α) (l : List α) :
    insertBy lt x l = l.orderedInsert (fun a b => lt a b = true) x := by
  induction l with
  | nil => rfl
  | cons y l ih => rw [insertBy, List.orderedInsert_cons, ih]

theorem mem_insertBy {α : Type} (lt : α → α → Bool) {x y : α} {l : List α} : y ∈ insertBy lt x l ↔ y = x ∨ y ∈ l := by
  rw [insertBy_eq_orderedInsert, List.mem_orderedInsert]

theorem sortBy_eq_insertionSort {α : Type} (lt : α → α → Bool) (l : List α) :
    sortBy lt l = l.insertionSort (fun a b => lt a b = true) := by
  induction l with
  | nil => rfl
  | cons x l ih => rw [sortBy, List.insertionSort_cons, ih, insertBy_eq_orderedInsert]

theorem sortBy_perm {α : Type} (lt : α → α → Bool) (l : List α) : (sortBy lt l).Perm l := by
  rw [sortBy_eq_insertionSort]
  exact List.perm_insertionSort _ l

/-- An element whose number no other has keeps an ascending list ascending. -/
theorem insertBy_ascending {α : Type} (f : α → Nat) {x : α} {l : List α} (new : ∀ y ∈ l, f x ≠ f y)
    (h : l.Pairwise fun a b => f a < f b) :
    (insertBy (fun a b => decide (f a < f b)) x l).Pairwise fun a b => f a < f b := by
  induction l with
  | nil => exact List.pairwise_singleton _ x
  | cons y l ih =>
    obtain ⟨hxy, new⟩ := List.forall_mem_cons.1 new
    obtain ⟨hy, hl⟩ := List.pairwise_cons.1 h
    rw [insertBy]
    split
    case isTrue below =>
      have below : f x < f y := of_decide_eq_true below
      exact List.pairwise_cons.2 ⟨List.forall_mem_cons.2 ⟨below, fun z hz => below.trans (hy z hz)⟩, h⟩
    case isFalse above =>
      have above : f y < f x := (lt_or_gt_of_ne hxy).resolve_left fun below => above (decide_eq_true below)
      refine List.pairwise_cons.2 ⟨fun z hz => ?_, ih new hl⟩
      rcases (mem_insertBy _).1 hz with rfl | hz
      · exact above
      · exact hy z hz

/-- Sorting by distinct numbers gives an ascending list. -/
theorem sortBy_ascending {α : Type} (f : α → Nat) {l : List α} (distinct : l.Pairwise fun a b => f a ≠ f b) :
    (sortBy (fun a b => decide (f a < f b)) l).Pairwise fun a b => f a < f b := by
  induction l with
  | nil => exact .nil
  | cons x l ih =>
    obtain ⟨new, hl⟩ := List.pairwise_cons.1 distinct
    exact insertBy_ascending f (fun y hy => new y ((sortBy_perm _ l).mem_iff.1 hy)) (ih hl)

/-- An ascending list with the elements of one of distinct numbers is that one sorted. -/
theorem sortBy_eq_of_ascending {α : Type} (f : α → Nat) {l m : List α} (distinct : l.Pairwise fun a b => f a ≠ f b)
    (ascending : m.Pairwise fun a b => f a < f b) (mem : ∀ x, x ∈ l ↔ x ∈ m) :
    sortBy (fun a b => decide (f a < f b)) l = m := by
  have same : l.Perm m := (List.perm_ext_iff_of_nodup (distinct.imp fun hne heq => hne (congrArg f heq))
    (ascending.imp fun hlt heq => hlt.ne (congrArg f heq))).2 mem
  exact ((sortBy_perm _ l).trans same).eq_of_pairwise (fun x y _ _ hxy hyx => absurd hxy hyx.asymm)
    (sortBy_ascending f distinct) ascending

/-- An element is found by a key that no other element has. -/
theorem find?_key_eq_some {α κ : Type} [DecidableEq κ] (key : α → κ) {l : List α} (hn : (l.map key).Nodup) {x : α}
    (hx : x ∈ l) : l.find? (fun y => key y == key x) = some x := by
  have found : (l.find? fun y => key y == key x).isSome := List.find?_isSome.2 ⟨x, hx, beq_self_eq_true (key x)⟩
  obtain ⟨y, hy⟩ := Option.isSome_iff_exists.1 found
  have same : key y = key x := by simpa using List.find?_some hy
  rw [hy, List.inj_on_of_nodup_map hn (List.mem_of_find?_eq_some hy) hx same]

/-- Bit r of the mask of an ascending list of participants is set when one of them has crew rank r. -/
theorem partMask_getLsbD {ps : List Part} (ascending : ps.Pairwise fun p q => p.rank < q.rank) {r : Nat} (hr : r < 32) :
    (partMask ps).getLsbD r = true ↔ ∃ q ∈ ps, q.rank = r := by
  have bits := Nat.bitIndices_sum_map_two_pow (List.pairwise_map.2 ascending).sortedLT
  rw [List.map_map] at bits
  unfold partMask
  rw [BitVec.getLsbD_ofNat, ← List.sum_eq_foldl, decide_eq_true hr, Bool.true_and, ← Nat.mem_bitIndices]
  exact (congrArg (r ∈ ·) bits).to_iff.trans List.mem_map

/-! ### Participants (10 R237) -/

/-- The operands that an exchange reads in each participant. -/
structure Reads where
  a : Operand := .zero
  b : Operand := .zero
  wide : Env → Thread → Word64 := noWide
  p : BitVec 3 := 0

/-- What a thread brings to an exchange. -/
def Reads.part (o : Reads) (e : Env) (t : Thread) : Part :=
  { key := e.key, rank := e.crank, a := src32 e t o.a, b := src32 e t o.b, wide := o.wide e t, p := t.pred o.p.toNat }

@[simp] theorem Reads.part_key (o : Reads) (e : Env) (t : Thread) : (o.part e t).key = e.key := rfl
@[simp] theorem Reads.part_rank (o : Reads) (e : Env) (t : Thread) : (o.part e t).rank = e.crank := rfl

/-- What the participants of a crew bring, in ascending crew rank. -/
def State.partsAt (s : State) (g : BitVec 3) (o : Reads) : List Part :=
  (List.range 32).filterMap fun r => (s.partAt g r).map fun x => o.part x.1 x.2

theorem Env.crank_lt (e : Env) : e.crank < 32 := Nat.mod_lt _ (by decide)

theorem Participates.crank_eq {s : State} {g : BitVec 3} {r : Nat} {e : Env} {t : Thread} (h : Participates s g r e t) :
    e.crank = r := by
  obtain ⟨_, _, _, _, rank, _⟩ := h
  exact rank

section
variable {s : State} {i : Instr} {c : CKey} (h : CrewIssues s i c)
include h

/-- The threads that take part are those of the run whose guard is true. -/
theorem CrewIssues.mem_participants {k : TKey} :
    k ∈ s.participants i c ↔ k ∈ s.run ∧ ∃ t, s.threads.find k = some t ∧ t.guard (guardOf i) = true := by
  unfold State.participants
  rw [List.mem_filter]
  refine and_congr_right fun hk => ?_
  obtain ⟨t, ht, pass⟩ := h.issues.pass k hk
  simp [ht, pass, h.crew k hk]

/-- The participant at a crew rank is the thread of that rank that takes part. -/
theorem CrewIssues.partAt_eq_some_iff {g : BitVec 3} {r : Nat} {e : Env} {t : Thread} :
    s.partAt g r = some (e, t) ↔ Participates s g r e t := by
  unfold State.partAt Participates
  simp only [Option.bind_eq_some_iff, Option.map_eq_some_iff, Prod.mk.injEq]
  constructor
  · rintro ⟨k, found, t', ht, rfl, rfl⟩
    have meets := List.find?_some found
    rw [ht] at meets
    obtain ⟨rank, guarded⟩ : (s.env k).crank = r ∧ t'.guard g = true := by simpa using meets
    exact ⟨k, List.mem_of_find?_eq_some found, ht, rfl, rank, guarded⟩
  · rintro ⟨k, hk, ht, rfl, rank, guarded⟩
    cases found : List.find? _ s.run with
    | none => exact absurd (by simp [ht, rank, guarded]) (List.find?_eq_none.1 found k hk)
    | some k' =>
      have meets := List.find?_some found
      have rank' : (s.env k').crank = r := beq_iff_eq.1 (Bool.and_eq_true_iff.1 meets).1
      obtain rfl : k = k' :=
        List.inj_on_of_nodup_map h.ranks hk (List.mem_of_find?_eq_some found) (rank.trans rank'.symm)
      exact ⟨k, rfl, t, ht, rfl, rfl⟩

/-- What the participants bring is listed for each of them. -/
theorem CrewIssues.mem_partsAt {g : BitVec 3} {o : Reads} {q : Part} :
    q ∈ s.partsAt g o ↔ ∃ e t, Participates s g e.crank e t ∧ q = o.part e t := by
  unfold State.partsAt
  simp only [List.mem_filterMap, List.mem_range, Option.map_eq_some_iff, Prod.exists, h.partAt_eq_some_iff]
  constructor
  · rintro ⟨r, -, e, t, part, rfl⟩
    obtain rfl := part.crank_eq
    exact ⟨e, t, part, rfl⟩
  · rintro ⟨e, t, part, rfl⟩
    exact ⟨e.crank, e.crank_lt, e, t, part, rfl⟩

/-- What is so of everything that the participants bring. -/
theorem CrewIssues.forall_mem_partsAt {g : BitVec 3} {o : Reads} {P : Part → Prop} :
    (∀ q ∈ s.partsAt g o, P q) ↔ ∀ r e t, Participates s g r e t → P (o.part e t) := by
  constructor
  · intro all r e t part
    obtain rfl := part.crank_eq
    exact all _ (h.mem_partsAt.2 ⟨e, t, part, rfl⟩)
  · intro all q hq
    obtain ⟨e, t, part, rfl⟩ := h.mem_partsAt.1 hq
    exact all _ e t part

/-- What is so of something that a participant brings. -/
theorem CrewIssues.exists_mem_partsAt {g : BitVec 3} {o : Reads} {P : Part → Prop} :
    (∃ q ∈ s.partsAt g o, P q) ↔ ∃ r e t, Participates s g r e t ∧ P (o.part e t) := by
  simpa using (h.forall_mem_partsAt (g := g) (o := o) (P := fun q => ¬ P q)).not

/-- The participants stand in ascending crew rank (10 R243). -/
theorem CrewIssues.partsAt_ascending (g : BitVec 3) (o : Reads) :
    (s.partsAt g o).Pairwise fun p q => p.rank < q.rank := by
  refine List.Pairwise.filterMap _ (fun r r' below p hp p' hp' => ?_) List.pairwise_lt_range
  simp only [Option.map_eq_some_iff, Prod.exists, h.partAt_eq_some_iff] at hp hp'
  obtain ⟨e, t, part, rfl⟩ := hp
  obtain ⟨e', t', part', rfl⟩ := hp'
  rwa [o.part_rank, o.part_rank, part.crank_eq, part'.crank_eq]

theorem CrewIssues.partsAt_ranks_nodup (g : BitVec 3) (o : Reads) : ((s.partsAt g o).map (·.rank)).Nodup :=
  List.pairwise_map.2 ((h.partsAt_ascending g o).imp Nat.ne_of_lt)

/-- The participants have distinct keys: a thread's key tells its crew rank. -/
theorem CrewIssues.partsAt_keys_nodup (g : BitVec 3) (o : Reads) : ((s.partsAt g o).map (·.key)).Nodup := by
  have told : (s.partsAt g o).map (·.rank) = ((s.partsAt g o).map (·.key)).map fun k => (s.env k).crank := by
    rw [List.map_map]
    refine List.map_congr_left fun q hq => ?_
    obtain ⟨e, t, ⟨k, _, _, rfl, _⟩, rfl⟩ := h.mem_partsAt.1 hq
    rfl
  exact List.Nodup.of_map _ (told ▸ h.partsAt_ranks_nodup g o)

/-- The keys of the participants are those of the run whose guard is true. -/
theorem CrewIssues.mem_partsAt_keys {g : BitVec 3} {o : Reads} {k : TKey} :
    k ∈ (s.partsAt g o).map (·.key) ↔ k ∈ s.run ∧ ∃ t, s.threads.find k = some t ∧ t.guard g = true := by
  simp only [List.mem_map, h.mem_partsAt]
  constructor
  · rintro ⟨q, ⟨e, t, ⟨k', hk', ht, rfl, -, guarded⟩, rfl⟩, rfl⟩
    exact ⟨hk', t, ht, guarded⟩
  · rintro ⟨hk, t, ht, guarded⟩
    exact ⟨_, ⟨s.env k, t, ⟨k, hk, ht, rfl, rfl, guarded⟩, rfl⟩, rfl⟩

/-- What the participants bring, sorted by crew rank from the order of the run. -/
theorem CrewIssues.sortBy_brought (o : Reads) :
    sortBy (fun x y => decide (x.rank < y.rank)) ((s.participants i c).filterMap fun k =>
      (s.threads.find k).map (o.part (s.env k))) = s.partsAt (guardOf i) o := by
  refine sortBy_eq_of_ascending Part.rank ?distinct (h.partsAt_ascending _ o) fun q => ?mem
  case distinct =>
    have differ : s.run.Pairwise fun k k' => (s.env k).crank ≠ (s.env k').crank := List.pairwise_map.1 h.ranks
    refine List.Pairwise.filterMap _ (fun k k' hne q hq q' hq' => ?_) (differ.sublist List.filter_sublist)
    obtain ⟨t, -, rfl⟩ := Option.map_eq_some_iff.1 hq
    obtain ⟨t', -, rfl⟩ := Option.map_eq_some_iff.1 hq'
    exact hne
  case mem =>
    simp only [h.mem_partsAt, List.mem_filterMap, h.mem_participants, Option.map_eq_some_iff]
    constructor
    · rintro ⟨k, ⟨hk, t, ht, guarded⟩, t', ht', rfl⟩
      obtain rfl : t = t' := Option.some.inj (ht.symm.trans ht')
      exact ⟨s.env k, t, ⟨k, hk, ht, rfl, rfl, guarded⟩, rfl⟩
    · rintro ⟨e, t, ⟨k, hk, ht, rfl, -, guarded⟩, rfl⟩
      exact ⟨k, ⟨hk, t, ht, guarded⟩, t, ht, rfl⟩

end

/-! ### Issuing once for a crew (02 R46) -/

theorem Tbl.set_of_find {κ α : Type} [DecidableEq κ] {t : Tbl κ α} {k : κ} {x : α} (h : t.find k = some x) :
    t.set k x = t := by
  induction t with
  | nil => simp at h
  | cons p t ih =>
    obtain ⟨j, y⟩ := p
    rw [Tbl.find] at h
    rw [Tbl.set]
    split_ifs at h ⊢ with hj
    · rw [hj, Option.some.inj h]
    · rw [ih h]

/-- A thread put back as it was leaves the state as it was. -/
theorem State.setThread_of_find (s : State) {k : TKey} {t : Thread} (h : s.threads.find k = some t) :
    s.setThread k t = s := by
  rw [State.setThread, Tbl.set_of_find h]

/-- The state once the guard-false threads of the run have gone on, and each thread that fails a check has trapped. -/
def State.othersGone (s : State) (i : Instr) : State :=
  s.run.foldl (fun st k => st.onThread k (localOne i fun _ t => t)) s

/-- What one crew of an issue does: nothing without participants, the effect when their uniform operands agree, else a
trap of each (04 R98). -/
def State.crewTurn (rd : Reader) (i : Instr) (act : State → CKey → List TKey → State) (st : State)
    (x : CKey × List TKey) : State :=
  if x.2.isEmpty then st
  else if st.uniform rd i x.2 then act st x.1 x.2
  else st.raiseAll i x.2 (Trap.uniform (st.rankMask x.2))

/-- `issueCrews` lets the other threads go, then gives each crew its turn, then kills. -/
theorem State.issueCrews_eq (rd : Reader) (s : State) (i : Instr) (act : State → CKey → List TKey → State) :
    s.issueCrews rd i act = ((s.runCrews.map fun c => (c, s.participants i c)).foldl (State.crewTurn rd i act)
      (s.othersGone i)).reap := by
  unfold State.issueCrews State.othersGone
  dsimp only
  congr 3
  funext st k
  unfold State.onThread localOne
  cases ht : st.threads.find k with
  | none => rfl
  | some t =>
    dsimp only
    cases precheck (st.env k) t i with
    | some tr => rfl
    | none =>
      dsimp only
      split
      · exact (st.setThread_of_find ht).symm
      · rfl

section
variable {s : State} {i : Instr} {c : CKey} (h : CrewIssues s i c)
include h

/-- An instruction without uniform operands, issued by threads of one crew: the guard-false ones go on, and the effect
runs once on the participants. -/
theorem CrewIssues.issueCrews_eq (rd : Reader) (uni : ∀ st ks, State.uniform rd st i ks = true)
    (act : State → CKey → List TKey → State) (idle : ∀ st, act st c [] = st) :
    s.issueCrews rd i act = (act (s.othersGone i) c (s.participants i c)).reap := by
  rw [State.issueCrews_eq]
  by_cases hrun : s.run = []
  · have nobody : s.participants i c = [] := by simp [State.participants, hrun]
    simp [State.runCrews, hrun, dedup, nobody, idle]
  · have crews : s.runCrews = [c] := dedup_of_forall_eq (by simpa using hrun) (by simpa using h.crew)
    rw [crews]
    by_cases nobody : s.participants i c = []
    · simp [State.crewTurn, nobody, idle]
    · simp [State.crewTurn, nobody, uni]

/-- The guard-false threads of the run have gone on, the others stand as they did, nobody dies, and nothing else
changes. -/
theorem CrewIssues.othersGone_spec :
    s.othersGone i = { s with threads := (s.othersGone i).threads }
    ∧ (∀ k, k ∉ s.run → (s.othersGone i).threads.find k = s.threads.find k)
    ∧ (∀ k ∈ s.run, ∀ t, s.threads.find k = some t →
        (s.othersGone i).threads.find k = some (if t.guard (guardOf i) then t else t.advance i))
    ∧ (s.othersGone i).Calm := by
  have one : ∀ k ∈ s.run, ∀ t, s.threads.find k = some t →
      localOne i (fun _ t => t) (s.env k) t = if t.guard (guardOf i) then t else t.advance i := by
    intro k hk t ht
    simp [localOne, h.issues.precheck_eq_none hk ht]
  obtain ⟨rest, find, calm⟩ := State.foldThreads (localOne i fun _ t => t) s.run h.issues.once s
  refine ⟨rest, fun k hk => (find k).trans (if_neg hk), fun k hk t ht => ?_, calm h.issues.calm fun k hk t ht => ?_⟩
  · rw [State.othersGone, find, if_pos hk, ht, Option.map_some, one k hk t ht]
  · have alive : t.dying = none := h.issues.calm _ (Tbl.find_mem ht)
    rw [one k hk t ht]
    split
    · exact alive
    · exact alive

/-- An environment is the same once the guard-false threads have gone on. -/
theorem CrewIssues.othersGone_env (k : TKey) : (s.othersGone i).env k = s.env k := by
  obtain ⟨rest, -⟩ := h.othersGone_spec
  rw [rest, State.env_threads]

/-- The operands that the effect takes are those of the participants as they stood at issue, in ascending crew rank. -/
theorem CrewIssues.partsOf_participants (o : Reads) :
    (s.othersGone i).partsOf (s.participants i c) o.a o.b o.wide o.p = s.partsAt (guardOf i) o := by
  obtain ⟨-, -, find, -⟩ := h.othersGone_spec
  rw [← h.sortBy_brought]
  unfold State.partsOf
  congr 1
  refine List.filterMap_congr fun k hk => ?_
  obtain ⟨hk, t, ht, guarded⟩ := h.mem_participants.1 hk
  rw [find k hk t ht, if_pos guarded, ht, h.othersGone_env]
  rfl

end

/-! ### What an exchange leaves (10 R237) -/

/-- Every participant changed once, by the effect `f` on a thread for what it brought. -/
def State.giveParts (s : State) (ps : List Part) (f : Part → Env → Thread → Thread) : State :=
  ps.foldl (fun st q => st.onThread q.key (f q)) s

/-- The effect on a thread, found by its key. -/
def effectOf (ps : List Part) (f : Part → Env → Thread → Thread) (e : Env) (t : Thread) : Thread :=
  match ps.find? fun q => q.key == e.key with
  | some q => f q e t
  | none => t

theorem effectOf_mem {ps : List Part} (hn : (ps.map (·.key)).Nodup) (f : Part → Env → Thread → Thread) {q : Part}
    (hq : q ∈ ps) {e : Env} (he : e.key = q.key) (t : Thread) : effectOf ps f e t = f q e t := by
  rw [effectOf, he, find?_key_eq_some (·.key) hn hq]

theorem State.giveParts_eq (s : State) {ps : List Part} (hn : (ps.map (·.key)).Nodup)
    (f : Part → Env → Thread → Thread) :
    s.giveParts ps f = (ps.map (·.key)).foldl (fun st k => st.onThread k (effectOf ps f)) s := by
  rw [List.foldl_map]
  refine List.foldl_ext _ _ _ fun st q hq => ?_
  unfold State.onThread
  cases st.threads.find q.key with
  | none => rfl
  | some t => exact congrArg (st.setThread q.key) (effectOf_mem hn f hq (st.env_key q.key) t).symm

/-- Participants of distinct keys given what none dies of: each is changed by its effect, and nothing else is. -/
theorem State.giveParts_spec (s : State) {ps : List Part} (hn : (ps.map (·.key)).Nodup)
    (f : Part → Env → Thread → Thread) (calm : s.Calm) (alive : ∀ q e t, (f q e t).dying = t.dying) :
    s.giveParts ps f = { s with threads := (s.giveParts ps f).threads }
    ∧ (∀ k, k ∉ ps.map (·.key) → (s.giveParts ps f).threads.find k = s.threads.find k)
    ∧ (∀ q ∈ ps, (s.giveParts ps f).threads.find q.key = (s.threads.find q.key).map (f q (s.env q.key)))
    ∧ (s.giveParts ps f).Calm := by
  rw [State.giveParts_eq s hn]
  obtain ⟨rest, find, calmer⟩ := State.foldThreads (effectOf ps f) (ps.map (·.key)) hn s
  refine ⟨rest, fun k hk => (find k).trans (if_neg hk), fun q hq => ?_, calmer calm fun k hk t ht => ?_⟩
  · rw [find, if_pos (List.mem_map_of_mem hq)]
    exact congrArg (Option.map · _) (funext (effectOf_mem hn f hq rfl))
  · obtain ⟨q, hq, rfl⟩ := List.mem_map.1 hk
    rw [effectOf_mem hn f hq rfl, alive]
    exact calm _ (Tbl.find_mem ht)

section
variable {s : State} {i : Instr} {c : CKey} (h : CrewIssues s i c)
include h

/-- An exchange: each participant becomes what the effect on it makes of it, given what all participants brought; the
other threads of the run go on, and nothing else changes. -/
theorem CrewIssues.exchange (uni : ∀ st ks, State.uniform srcNat st i ks = true) (o : Reads)
    (f : List Part → Part → Env → Thread → Thread) (alive : ∀ ps q e t, (f ps q e t).dying = t.dying) :
    RunBecomes s (s.issueCrews srcNat i fun st _ ks =>
        let ps := st.partsOf ks o.a o.b o.wide o.p; st.giveParts ps (f ps))
      fun e t t' => t' = if t.guard (guardOf i) then f (s.partsAt (guardOf i) o) (o.part e t) e t else t.advance i := by
  rw [h.issueCrews_eq srcNat uni _ fun _ => rfl, h.partsOf_participants]
  obtain ⟨gone, outside, inside, calm⟩ := h.othersGone_spec
  obtain ⟨rest, apart, given, stays⟩ := (s.othersGone i).giveParts_spec (h.partsAt_keys_nodup (guardOf i) o)
    (f (s.partsAt (guardOf i) o)) calm (alive _)
  rw [State.reap_of_calm _ stays]
  refine ⟨State.only_trans gone rest, fun k hk => ?_, fun k hk t ht => ⟨_, ?_, rfl⟩⟩
  · rw [apart k fun hmem => hk (h.mem_partsAt_keys.1 hmem).1, outside k hk]
  · by_cases guarded : t.guard (guardOf i) = true
    · have became := given (o.part (s.env k) t) (h.mem_partsAt.2 ⟨_, t, ⟨k, hk, ht, rfl, rfl, guarded⟩, rfl⟩)
      rw [o.part_key, State.env_key, inside k hk t ht, h.othersGone_env] at became
      rw [became, if_pos guarded, if_pos guarded, Option.map_some]
    · have absent : k ∉ (s.partsAt (guardOf i) o).map (·.key) := fun hmem => by
        obtain ⟨-, t', ht', guarded'⟩ := h.mem_partsAt_keys.1 hmem
        obtain rfl : t = t' := Option.some.inj (ht.symm.trans ht')
        exact guarded guarded'
      rw [apart k absent, inside k hk t ht, if_neg guarded, if_neg guarded]

end

/-- An exchange whose 32-bit result goes to D. -/
theorem crewResult_of (i : Instr) (w : Bool) (d : BitVec 7) (uni : ∀ st ks, State.uniform srcNat st i ks = true)
    (o : Reads) (val : List Part → Part → Word32)
    (meaning : ∀ s, exec i s = .next (s.issueCrews srcNat i fun st _ ks =>
      let ps := st.partsOf ks o.a o.b o.wide o.p; st.giveAll i w d ps (val ps)))
    {v : State → Env → Thread → Word32 → Prop}
    (value : ∀ s c, CrewIssues s i c → ∀ e t, v s e t (val (s.partsAt (guardOf i) o) (o.part e t))) :
    CrewResult i w (guardOf i) d v := by
  intro s c h
  have result := h.exchange uni o (fun ps q e t => (t.put32 e w d (val ps q)).advance i)
    fun ps q e t => (t.put32_writesOnly e w d _).dying
  refine ⟨_, meaning s, result.rest, result.others, fun k hk t ht => ?_⟩
  obtain ⟨t', found, rfl⟩ := result.each k hk t ht
  refine ⟨_, found, ?_⟩
  split
  · refine ⟨?_, _, value s c h (s.env k) t, t.put32_writesRegs _ _ w d _ rfl⟩
    unfold Thread.put32
    split <;> rfl
  · exact ⟨t.advance_longDone i, rfl⟩

/-! ### Masks and shuffles (10 R239, R241, R244) -/

section
variable {s : State} {i : Instr} {c : CKey} (h : CrewIssues s i c)
include h

/-- Bit r of a mask of participants is set when the one of crew rank r is among them. -/
theorem CrewIssues.partMask_filter_getLsbD {g : BitVec 3} {o : Reads} (sel : Part → Bool) {r : Nat} (hr : r < 32) :
    (partMask ((s.partsAt g o).filter sel)).getLsbD r = true ↔
      ∃ e t, Participates s g r e t ∧ sel (o.part e t) = true := by
  rw [partMask_getLsbD ((h.partsAt_ascending g o).sublist List.filter_sublist) hr]
  simp only [List.mem_filter, h.mem_partsAt]
  constructor
  · rintro ⟨q, ⟨⟨e, t, part, rfl⟩, chosen⟩, rfl⟩
    exact ⟨e, t, part, chosen⟩
  · rintro ⟨e, t, part, chosen⟩
    obtain rfl := part.crank_eq
    exact ⟨o.part e t, ⟨⟨e, t, part, rfl⟩, chosen⟩, rfl⟩

/-- What the participant of a crew rank brings is found by that rank. -/
theorem CrewIssues.find?_partsAt {g : BitVec 3} {o : Reads} (r : Nat) :
    (s.partsAt g o).find? (fun q => q.rank == r) = (s.partAt g r).map fun x => o.part x.1 x.2 := by
  cases found : s.partAt g r with
  | none =>
    rw [Option.map_none, List.find?_eq_none]
    intro q hq same
    obtain ⟨e, t, part, rfl⟩ := h.mem_partsAt.1 hq
    obtain rfl : e.crank = r := beq_iff_eq.1 same
    exact Option.some_ne_none _ ((h.partAt_eq_some_iff.2 part).symm.trans found)
  | some x =>
    have part := h.partAt_eq_some_iff.1 found
    obtain rfl := part.crank_eq
    exact find?_key_eq_some (·.rank) (h.partsAt_ranks_nodup g o) (h.mem_partsAt.2 ⟨x.1, x.2, part, rfl⟩)

/-- A shuffle from crew rank r gives the A of its participant, else the own A. -/
theorem CrewIssues.shuffle_partsAt {g : BitVec 3} (o : Reads) (e : Env) (t : Thread) (r : Nat) :
    shuffle (s.partsAt g o) (o.part e t) r =
      match s.partAt g r with | some x => src32 x.1 x.2 o.a | none => src32 e t o.a := by
  rw [shuffle, h.find?_partsAt]
  cases s.partAt g r <;> rfl

end

/-- Settles O15: `bal` and `cact` give a mask of participants, `shfi` and `shfx` the A of the participant of another crew
rank. -/
theorem crewMasks : Obligations.CrewMasks := by
  unfold Obligations.CrewMasks
  refine ⟨fun f => ?bal, fun f => ?cact, fun f => ?shfi, fun f => ?shfx⟩
  case bal =>
    exact crewResult_of (.bal f) f.w f.d (fun _ _ => rfl) { a := f.a } (fun ps _ => balMask ps) (fun _ => rfl)
      fun _ _ h _ _ r hr => (h.partMask_filter_getLsbD _ hr).trans
        (exists₂_congr fun _ _ => and_congr_right fun _ => bne_iff_ne)
  case cact =>
    refine crewResult_of (.cact f) f.w f.d (fun _ _ => rfl) {} (fun ps _ => partMask ps) (fun _ => rfl)
      fun s _ h _ _ r hr => ?_
    show (partMask (s.partsAt f.g {})).getLsbD r = true ↔ _
    simpa using h.partMask_filter_getLsbD (fun _ => true) hr
  case shfi =>
    exact crewResult_of (.shfi f) f.w f.d (fun _ _ => rfl) { a := f.a, b := f.b }
      (fun ps q => shuffle ps q (q.b.toNat % 32)) (fun _ => rfl) fun _ _ h _ _ => h.shuffle_partsAt ..
  case shfx =>
    exact crewResult_of (.shfx f) f.w f.d (fun _ _ => rfl) { a := f.a, b := f.b }
      (fun ps q => shuffle ps q (q.rank ^^^ (q.b.toNat % 32))) (fun _ => rfl) fun _ _ h _ _ => h.shuffle_partsAt ..

/-! ### `match`, `red` and `vote` (10 R240, R242, R243) -/

/-- The 64-bit key that `match` reads. -/
def matchWide (f : FMatch) : Env → Thread → Word64 :=
  match f.kind with
  | .f64 => fun e t => srcF64 e t f.a
  | .b64 => fun e t => srcZ64 e t f.a
  | _ => noWide

theorem matchWide_b64 {f : FMatch} (h : f.kind = .b64) : matchWide f = fun e t => srcZ64 e t f.a := by
  rw [matchWide, h]

theorem matchWide_f64 {f : FMatch} (h : f.kind = .f64) : matchWide f = fun e t => srcF64 e t f.a := by
  rw [matchWide, h]

section
variable {s : State} {i : Instr} {c : CKey} (h : CrewIssues s i c)
include h

/-- The values that the participants of some crew ranks bring, in ascending crew rank. -/
theorem CrewIssues.map_filter_partsAt {α : Type} {g : BitVec 3} (o : Reads) (sel : Nat → Bool) (val : Part → α) :
    ((s.partsAt g o).filter fun q => sel q.rank).map val =
      ((List.range 32).filter sel).filterMap fun r => (s.partAt g r).map fun x => val (o.part x.1 x.2) := by
  unfold State.partsAt
  rw [List.filter_filterMap, List.map_filterMap, List.filterMap_filter]
  refine List.filterMap_congr fun r _ => ?_
  cases found : s.partAt g r with
  | none => simp
  | some x =>
    have at_r : x.1.crank = r := (h.partAt_eq_some_iff.1 found).crank_eq
    cases hs : sel r <;> simp [Option.filter, at_r, hs]

/-- `vote.any`: the predicate of some participant is true. -/
theorem CrewIssues.vote_any {g p : BitVec 3} :
    voteOf .any (s.partsAt g { p := p }) = true ↔ ∃ r e t, Participates s g r e t ∧ t.pred p.toNat = true :=
  List.any_eq_true.trans h.exists_mem_partsAt

/-- `vote.all`: the predicate of every participant is true. -/
theorem CrewIssues.vote_all {g p : BitVec 3} :
    voteOf .all (s.partsAt g { p := p }) = true ↔ ∀ r e t, Participates s g r e t → t.pred p.toNat = true :=
  List.all_eq_true.trans h.forall_mem_partsAt

/-- `vote.uni`: the predicates of the participants are all true or all false. -/
theorem CrewIssues.vote_uni {g p : BitVec 3} :
    voteOf .uni (s.partsAt g { p := p }) = true ↔
      (∀ r e t, Participates s g r e t → t.pred p.toNat = true)
        ∨ ∀ r e t, Participates s g r e t → t.pred p.toNat = false := by
  have none : (s.partsAt g { p := p }).all (!·.p) = true ↔
      ∀ r e t, Participates s g r e t → t.pred p.toNat = false := by
    rw [List.all_eq_true, h.forall_mem_partsAt]
    simp only [Bool.not_eq_true', Reads.part]
  exact (Bool.or_eq_true ..).to_iff.trans (or_congr h.vote_all none)

end

/-- Settles O16: `match` is a mask of participants, `red` the combination of their values, and `vote` a predicate result
that speaks of all of them. -/
theorem crewResults : Obligations.CrewResults := by
  unfold Obligations.CrewResults
  refine ⟨⟨fun f => ?mtch, fun f => ?red⟩, fun f s c h => ?vote⟩
  case mtch =>
    refine crewResult_of (.mtch f) f.w f.d (fun _ _ => rfl) { a := f.a, wide := matchWide f } (matchMask f.kind)
      (fun _ => rfl) fun s c h e0 t0 r hr => ?_
    rw [matchMask, h.partMask_filter_getLsbD _ hr]
    refine exists₂_congr fun e t => and_congr_right fun part => ?_
    rw [Bool.or_eq_true, beq_iff_eq, Reads.part_rank, Reads.part_rank, part.crank_eq]
    refine or_congr Iff.rfl ?_
    cases hk : f.kind
    case b32 => exact beq_iff_eq.trans eq_comm
    case b64 => rw [matchWide_b64 hk]; exact beq_iff_eq.trans eq_comm
    case f32 => exact beq_iff_eq
    case f64 => rw [matchWide_f64 hk]; exact beq_iff_eq
  case red =>
    exact crewResult_of (.red f) f.w f.d (fun _ _ => rfl) { a := f.a } (redVal f) (fun _ => rfl)
      fun _ _ h e _ => congrArg (redAll f.op)
        (h.map_filter_partsAt { a := f.a } (fun r => !f.pre || decide (r ≤ e.crank)) (·.a))
  case vote =>
    have result := h.exchange (fun _ _ => rfl) { p := f.pa }
      (fun ps _ _ t => (t.setPredD f.p f.w (voteOf f.op ps)).advance (.vote f)) fun ps _ _ t => by
        rw [Thread.setPredD_same]; rfl
    refine ⟨_, rfl, result.rest, result.others, fun k hk t ht => ?_⟩
    obtain ⟨t', found, rfl⟩ := result.each k hk t ht
    refine ⟨_, found, ?_⟩
    rw [show guardOf (.vote f) = f.g from rfl]
    split
    · refine ⟨by rw [Thread.setPredD_same]; rfl, voteOf f.op (s.partsAt f.g { p := f.pa }), ?_,
        fun n hn => Thread.pred_setPredD t f.p f.w _ n hn⟩
      cases f.op
      case any => exact h.vote_any
      case all => exact h.vote_all
      case uni => exact h.vote_uni
    · exact ⟨rfl, rfl⟩

end Sys2Proof.Machine
